-- ==== Sys2Proof/Word.lean ====
section
/-! DEFINITION. The word types of the CORE. Every host-visible register is 32 bits wide
(10_state.md R36); a stream element is one byte (20_memory.md R60). -/

namespace Sys2Proof

/-- A host-visible register, or a command word (10_state.md R30, R36). -/
abbrev Word := BitVec 32

/-- One element of a stream buffer (20_memory.md R61). -/
abbrev Byte := BitVec 8

end Sys2Proof
end

