-- ==== Sys2Proof/Config.lean ====
section
/-! DEFINITION. The configuration record `CFG` (00_scope.md R12): what is fixed for the life of the
machine and is a parameter of its step (10_state.md R23), as plain data, with the defaults R12 names.
What no rule gives a value is an `opaque` constant without a body, so that no proof can see it: the
numerics of an instance that is not the reference (R13 to R16; log entries 3 and 15) and the buffer
contents after hard reset (log entry 4). -/

namespace Sys2Proof

/-- An instance of a numerics function of `NUM` (R12): the reference instance that R13 to R16 give, or
another one, by a number that stands for it. -/
inductive NumInstance where
  /-- the function as R13 to R16 write it -/
  | reference
  /-- another instance, of which nothing is known but the laws its rule states -/
  | other (id : Nat)
  deriving DecidableEq, Repr

/-- The greatest `MAX_STREAMS` that R12 admits: the number of entries each register file is given
room for. -/
def bankSize : Nat := 256

/-- The configuration record `CFG` (R12). A size that R12 leaves open takes any value within the range
R12 gives it (93_implementation_defined.md U5); the field values here are R12's defaults. -/
structure Config where
  /-- `SAMPLE_BITS`, the width B of one signed PCM sample -/
  sampleBits : Nat := 16
  /-- `MAX_STREAMS`, the number of stream buffers -/
  maxStreams : Nat := 16
  /-- `STRM_CAP`, the capacity of one stream buffer in bytes -/
  strmCap : Nat := 2 ^ 20
  /-- `PCM_CAP`, the capacity of the sample buffer in samples -/
  pcmCap : Nat := 2 ^ 24
  /-- `PHASE_CAP`, the number of entries of the phase table -/
  phaseCap : Nat := 4096
  /-- the instance of `NUM.sinT`, `NUM.MAG` and `NUM.DBGT` (R13, R15, R16; log entry 15) -/
  num : NumInstance := .reference
  /-- the instance of `NUM.RND` (R14; log entry 3) -/
  rnd : NumInstance := .reference
  /-- a signed sample has at least its sign bit (DEDUCED, log entry 1) -/
  sampleBits_pos : 1 ≤ sampleBits := by decide
  /-- `MAX_STREAMS` is 1 to 256 -/
  maxStreams_range : 1 ≤ maxStreams ∧ maxStreams ≤ bankSize := by decide
  /-- `STRM_CAP` is at most 2^28 -/
  strmCap_le : strmCap ≤ 2 ^ 28 := by decide
  /-- `PCM_CAP` is less than 2^32 -/
  pcmCap_lt : pcmCap < 2 ^ 32 := by decide
  deriving DecidableEq, Repr

/-- Every field at the default R12 names. -/
def Config.default : Config := {}

/-- `FSMAX` = 2^(B-1) - 1, the full-scale magnitude of a sample (R12). -/
def Config.fsmax (c : Config) : Nat := 2 ^ (c.sampleBits - 1) - 1

/-- `THR_FRAC`, the fraction bits of the threshold register (R12, R26). -/
def Config.thrFrac : Nat := 8

/-- One element of the sample buffer: the integer its B-bit two's-complement pattern stands for
(20_memory.md R62). -/
abbrev Sample := Int

/-- FREE VALUE (00_scope.md R14, 93_implementation_defined.md U2; log entry 3). Between the integers
k and k + 1 a monotone rounding `NUM.RND` goes up from some point on: this is that point, in
instance id. -/
opaque Config.roundCut : (id : Nat) → Int → Rat

/-- FREE VALUE (R14, U2; log entry 3). Whether `NUM.RND` goes up exactly at `roundCut id k`. -/
opaque Config.roundTie : (id : Nat) → Int → Bool

/-- FREE VALUE (R13, 93_implementation_defined.md U4; log entry 15). `NUM.sinT(a, n)` in instance id, in
that instance's own unit. -/
opaque Config.otherSinT : (id a n : Nat) → Int

/-- FREE VALUE (R15, U4; log entry 15). The square of `NUM.MAG(x)[m]` in instance id, in the square of
that instance's own unit, for an x whose samples have no common divisor above 1: by the contract of
42_rx_spectro_detect.md R166 the others follow from these (`Num.instMagSq`). -/
opaque Config.otherMagSq : (id : Nat) → (x : List Int) → (m : Nat) → Nat

/-- FREE VALUE (R16, U4; log entry 15). `NUM.DBGT` in instance id, on the quotient of the squares of the two
magnitudes, both positive, as a fraction in lowest terms, and on the threshold register. -/
opaque Config.otherDbgt : (id mSq maxSq : Nat) → (thr : Int) → Bool

/-- FREE VALUE (10_state.md R42, U1; log entry 4). The content of element `a` of `SB[s]` that nothing
has written since hard reset number `boot`. -/
opaque Config.resetByte : (boot s a : Nat) → Byte

/-- FREE VALUE (10_state.md R42, U1; log entry 4). The integer whose low B bits are the content of
element `a` of `PCM` that nothing has written since hard reset number `boot`. -/
opaque Config.resetSample : (boot a : Nat) → Int

end Sys2Proof
end

