-- ==== Sys2Proof/Syntax.lean ====
section
/-! DEFINITION. The seventeen commands of the opcode map (30_encoding.md R92), one constructor per row
of spec/opcode_table.json. The only operands a command word carries are a stream index s and a bit
value v (R91); everything else a command reads from registers. -/

namespace Sys2Proof

/-- A command of the CORE (30_encoding.md R92). -/
inductive Instr where
  /-- `NOP` (44_system.md R220) -/
  | nop
  /-- `SRST` (44_system.md R221) -/
  | srst
  /-- `GEO.RESOLVE` (40_geometry.md R111) -/
  | geoResolve
  /-- `GEO.WCOUNT` (40_geometry.md R122) -/
  | geoWcount
  /-- `TX.START` (41_tx_synth.md R131) -/
  | txStart
  /-- `TX.WINDOW` (41_tx_synth.md R133) -/
  | txWindow
  /-- `TX.FINISH` (41_tx_synth.md R138) -/
  | txFinish
  /-- `TX.ENCODE` (41_tx_synth.md R143) -/
  | txEncode
  /-- `RX.START` (42_rx_spectro_detect.md R161) -/
  | rxStart
  /-- `RX.SPECTRUM` (42_rx_spectro_detect.md R163) -/
  | rxSpectrum
  /-- `RX.DETECT` (42_rx_spectro_detect.md R169) -/
  | rxDetect
  /-- `RX.FINISH` (42_rx_spectro_detect.md R174) -/
  | rxFinish
  /-- `RX.DECODE` (42_rx_spectro_detect.md R177) -/
  | rxDecode
  /-- `BIT.GET s` (43_bitpack.md R201) -/
  | bitGet (s : BitVec 8)
  /-- `BIT.PUT s, v` (43_bitpack.md R203) -/
  | bitPut (s : BitVec 8) (v : Bool)
  /-- `BIT.FLUSH s` (43_bitpack.md R205) -/
  | bitFlush (s : BitVec 8)
  /-- `BIT.CLR s` (43_bitpack.md R207) -/
  | bitClr (s : BitVec 8)
  deriving DecidableEq, Repr

end Sys2Proof
end

