-- ==== Sys2Proof/WellFormed.lean ====
section
/-! DEFINITION. Which commands the encoding admits (30_encoding.md R90 step 3): a stream index is below
`MAX_STREAMS`. -/

namespace Sys2Proof

/-- The stream operand of a command of format S or SV (30_encoding.md R91). -/
def Instr.stream? : Instr → Option (BitVec 8)
  | .bitGet s | .bitPut s _ | .bitFlush s | .bitClr s => some s
  | .nop | .srst | .geoResolve | .geoWcount | .txStart | .txWindow | .txFinish | .txEncode
  | .rxStart | .rxSpectrum | .rxDetect | .rxFinish | .rxDecode => none

/-- A command the encoding admits in configuration c: its stream index, if it has one, names a stream buffer
(30_encoding.md R90, R93). -/
def Instr.wf (i : Instr) (c : Config) : Bool :=
  match i.stream? with
  | some s => decide (s.toNat < c.maxStreams)
  | none => true

end Sys2Proof
end

