-- ==== Sys2Proof/Decode.lean ====
section
/-! DEFINITION. The command word: decoding (30_encoding.md R90 to R94), total on every 32-bit word and
rejecting by name, and the encoder. -/

namespace Sys2Proof

/-- The three formats of R91. -/
inductive Format where
  /-- no operand -/
  | z
  /-- a stream operand in bits 23:16 -/
  | s
  /-- a stream operand in bits 23:16 and a bit value in bit 0 -/
  | sv
  deriving DecidableEq, Repr

/-- The bits below the opcode that the format says are zero (R91). -/
def Format.mustBeZero : Format → Word
  | .z => 0x00FFFFFF#32
  | .s => 0x0000FFFF#32
  | .sv => 0x0000FFFE#32

/-- Why a word is illegal (R90, R93). -/
inductive DecodeReject where
  /-- bits 31:24 are not in the table of R92 -/
  | unassignedOp
  /-- a bit that the format says is zero is 1 -/
  | nonzeroReserved
  /-- the stream index is `MAX_STREAMS` or more -/
  | noSuchStream
  deriving DecidableEq, Repr

/-- One row of the opcode map: opcode, format, and the command made of its operands. -/
structure OpRow where
  op : BitVec 8
  format : Format
  make : BitVec 8 → Bool → Instr

/-- The opcode map (R92). -/
def opTable : List OpRow :=
  [⟨0x00#8, .z, fun _ _ => .nop⟩,
   ⟨0x01#8, .z, fun _ _ => .srst⟩,
   ⟨0x10#8, .z, fun _ _ => .geoResolve⟩,
   ⟨0x11#8, .z, fun _ _ => .geoWcount⟩,
   ⟨0x20#8, .z, fun _ _ => .txStart⟩,
   ⟨0x21#8, .z, fun _ _ => .txWindow⟩,
   ⟨0x22#8, .z, fun _ _ => .txFinish⟩,
   ⟨0x23#8, .z, fun _ _ => .txEncode⟩,
   ⟨0x30#8, .z, fun _ _ => .rxStart⟩,
   ⟨0x31#8, .z, fun _ _ => .rxSpectrum⟩,
   ⟨0x32#8, .z, fun _ _ => .rxDetect⟩,
   ⟨0x33#8, .z, fun _ _ => .rxFinish⟩,
   ⟨0x34#8, .z, fun _ _ => .rxDecode⟩,
   ⟨0x40#8, .s, fun s _ => .bitGet s⟩,
   ⟨0x41#8, .sv, fun s v => .bitPut s v⟩,
   ⟨0x42#8, .s, fun s _ => .bitFlush s⟩,
   ⟨0x43#8, .s, fun s _ => .bitClr s⟩]

/-- Bits 31:24, the opcode. -/
def opField (w : Word) : BitVec 8 := w.extractLsb' 24 8

/-- Bits 23:16, the stream index of formats S and SV. -/
def streamField (w : Word) : BitVec 8 := w.extractLsb' 16 8

/-- Bit 0, the bit value of format SV. -/
def valueField (w : Word) : Bool := w.getLsbD 0

/-- Decoding in the order of R90: the opcode, the bits that must be zero, the stream index, which the
configuration bounds. -/
def decode (c : Config) (w : Word) : Except DecodeReject Instr :=
  match opTable.find? (fun r => r.op == opField w) with
  | none => .error .unassignedOp
  | some r =>
      if w &&& r.format.mustBeZero ≠ 0#32 then .error .nonzeroReserved
      else if (r.make (streamField w) (valueField w)).wf c then
        .ok (r.make (streamField w) (valueField w))
      else .error .noSuchStream

/-- The opcode of a command (R92). -/
def opcode : Instr → BitVec 8
  | .nop => 0x00#8
  | .srst => 0x01#8
  | .geoResolve => 0x10#8
  | .geoWcount => 0x11#8
  | .txStart => 0x20#8
  | .txWindow => 0x21#8
  | .txFinish => 0x22#8
  | .txEncode => 0x23#8
  | .rxStart => 0x30#8
  | .rxSpectrum => 0x31#8
  | .rxDetect => 0x32#8
  | .rxFinish => 0x33#8
  | .rxDecode => 0x34#8
  | .bitGet _ => 0x40#8
  | .bitPut _ _ => 0x41#8
  | .bitFlush _ => 0x42#8
  | .bitClr _ => 0x43#8

/-- The bit value a command carries in bit 0; 0 for every format but SV. -/
def bitValue : Instr → Bool
  | .bitPut _ v => v
  | .nop | .srst | .geoResolve | .geoWcount | .txStart | .txWindow | .txFinish | .txEncode
  | .rxStart | .rxSpectrum | .rxDetect | .rxFinish | .rxDecode
  | .bitGet _ | .bitFlush _ | .bitClr _ => false

/-- The word of a command (R91): opcode, stream index, fifteen zeros, bit value. -/
def encode (i : Instr) : Word :=
  opcode i ++ (i.stream?.getD 0#8) ++ 0#15 ++ BitVec.ofBool (bitValue i)

/-- The command the decoder reads from a table word (the fixed name the host asks with). A command is
one 32-bit word (R91); the block has no byte order (20_memory.md R66). The sizes are R12's defaults,
as in `State.reset`. -/
def decodeTableWord (nbits w : Nat) : Option Instr :=
  match decode .default (BitVec.ofNat 32 (w % 2 ^ nbits)) with
  | .ok i => some i
  | .error _ => none

end Sys2Proof
end

