-- ==== Sys2Proof/Machine/Numerics.lean ====
section
/-! DEFINITION. The numerics record `NUM` (00_scope.md R13 to R16): the reference instance, exact and
computable, and after each function its other instances, which are free (`Sys2Proof.NumInstance`). A real number of the hidden stores is kept as plain data: a finite integer
combination of cosines of rational angles. Every value the block ever forms is of that shape: a
sample of `WAVE` is a sum of sines of multiples of 2·pi/Nfft (41_tx_synth.md R136), and the square of
a magnitude is an integer combination of cosines of multiples of 2·pi/Nfft (42_rx_spectro_detect.md
R166). Comparisons are decided exactly: by certified fixed-point enclosures where these separate the
numbers, and by an algebraic test for zero where they do not (log entry 2). -/

namespace Sys2Proof.Num

/-- The real number Σ c · cos(2·pi·k / order) over the listed pairs (c, k), as plain data.
An order of 0 is read as 1. -/
structure TrigSum where
  order : Nat
  terms : List (Int × Nat)
  deriving DecidableEq, Repr

/-- The order with 0 read as 1, so that it can be divided by. -/
def ord (x : TrigSum) : Nat := max x.order 1

/-- The number 0. -/
def zero : TrigSum := ⟨1, []⟩

/-- The integer `c` as a real number. -/
def ofInt (c : Int) : TrigSum := ⟨1, [(c, 0)]⟩

/-- The same number written over a multiple `n` of its order. -/
def lift (n : Nat) (x : TrigSum) : List (Int × Nat) :=
  x.terms.map fun (c, k) => (c, k * (n / ord x))

/-- x + y. -/
def add (x y : TrigSum) : TrigSum :=
  let n := Nat.lcm (ord x) (ord y)
  ⟨n, lift n x ++ lift n y⟩

/-- c · x. -/
def smul (c : Int) (x : TrigSum) : TrigSum := ⟨x.order, x.terms.map fun (d, k) => (c * d, k)⟩

/-- x - y. -/
def sub (x y : TrigSum) : TrigSum := add x (smul (-1) y)

/-- 2 · x · y: cos a · cos b is half of cos(a + b) + cos(a - b). -/
def doubleMul (x y : TrigSum) : TrigSum :=
  let n := Nat.lcm (ord x) (ord y)
  ⟨n, (lift n x).flatMap fun (c, k) =>
    (lift n y).flatMap fun (d, l) => [(c * d, k + l), (c * d, k + (n - l % n))]⟩

/-- 2^v · x^(v + 1). -/
def doublePow (x : TrigSum) : Nat → TrigSum
  | 0 => x
  | v + 1 => doubleMul (doublePow x v) x

/-! ### Fixed-point enclosures -/

/-- 2^prec · arctan(1/m), from below term by term: `n` terms of its alternating series. -/
def arctanInv (prec m : Nat) : Nat → Int
  | 0 => 0
  | n + 1 => arctanInv prec m n +
      (if n % 2 = 0 then 1 else -1) * ((2 ^ prec / ((2 * n + 1) * m ^ (2 * n + 1)) : Nat) : Int)

/-- 2^prec · pi by Machin's formula, with an error that `cosErr` accounts for. -/
def piFix (prec : Nat) : Int :=
  16 * arctanInv prec 5 (prec / 2 + 1) - 4 * arctanInv prec 239 (prec / 2 + 1)

/-- The alternating sum num/den - num·p²/(den·q²·(m+1)(m+2)) + …, `n` terms, each rounded down. -/
def taylor (p q : Nat) : (n m num den : Nat) → Int
  | 0, _, _, _ => 0
  | n + 1, m, num, den =>
      ((num / den : Nat) : Int) -
        taylor p q n (m + 2) (num * p ^ 2) (den * (q ^ 2 * ((m + 1) * (m + 2))))

/-- 2^prec · cos(2·pi·k/n), up to `cosErr prec`: the angle is reduced to its quarter turn, and the
remaining angle, below pi/2, goes through the Taylor series of the cosine or of the sine. Whole
quarter turns are exact. -/
def cosFix (prec k n : Nat) : Int :=
  let p := (piFix prec).toNat * (4 * k % n)
  let q := 2 ^ (prec + 1) * n
  let cosine := if 4 * k % n = 0 then 2 ^ prec else taylor p q (prec / 2 + 4) 0 (2 ^ prec) 1
  let sine := if 4 * k % n = 0 then 0 else taylor p q (prec / 2 + 4) 1 (2 ^ prec * p) q
  match 4 * k / n % 4 with
  | 0 => cosine
  | 1 => -sine
  | 2 => -cosine
  | _ => sine

/-- A bound on the error of `cosFix prec`, in units of 2^(-prec). -/
def cosErr (prec : Nat) : Nat := 8 * prec + 64

/-- Σ |c|. -/
def weight (x : TrigSum) : Nat := (x.terms.map fun t => t.1.natAbs).sum

/-- 2^prec · x, up to `enclosureErr prec x`. -/
def enclosure (prec : Nat) (x : TrigSum) : Int :=
  (x.terms.map fun t => t.1 * cosFix prec t.2 (ord x)).sum

/-- A bound on the error of `enclosure prec x`. -/
def enclosureErr (prec : Nat) (x : TrigSum) : Nat := weight x * cosErr prec

/-! ### The exact test for zero -/

/-- The coefficients of 2·x as an element of the group ring of the n-th roots of unity, n the order:
a term c·cos(2·pi·k/n) gives c at k and c at -k. -/
def dense (x : TrigSum) : List Int :=
  (List.range (ord x)).map fun i =>
    (x.terms.map fun t =>
      (if t.2 % ord x = i then t.1 else 0) + (if (t.2 + i) % ord x = 0 then t.1 else 0)).sum

/-- Multiplication by (ω^(-m) - 1) on coefficients over the powers of a root of unity ω. -/
def shiftSub (v : List Int) (m : Nat) : List Int :=
  List.zipWith (· - ·) (v.drop m ++ v.take m) v

/-- Whether x = 0. Multiplying by ω^(-n/q) - 1 for every divisor q ≥ 2 of n kills every n-th root of
unity ω that is not primitive, and is invertible at the primitive ones; so what is left has only zero
coefficients exactly when the element vanishes at the primitive roots. -/
def isZero (x : TrigSum) : Bool :=
  (((List.range (ord x + 1)).filter fun q => decide (2 ≤ q) && ord x % q == 0).foldl
    (fun v q => shiftSub v (ord x / q)) (dense x)).all (· == 0)

/-! ### Comparison -/

/-- The sign of x, if the enclosure at this precision shows it. -/
def signAt (prec : Nat) (x : TrigSum) : Option SignType :=
  if (enclosureErr prec x : Int) < enclosure prec x then some 1
  else if enclosure prec x < -(enclosureErr prec x : Int) then some (-1)
  else none

/-- The sign of a nonzero x: the precision doubles until the enclosure shows it. -/
def signFrom (x : TrigSum) : (fuel prec : Nat) → SignType
  | 0, _ => 0
  | f + 1, prec => match signAt prec x with
    | some s => s
    | none => signFrom x f (2 * prec)

/-- How many doublings are enough for `signFrom`: a nonzero x of order n and weight w is at least
(2·w)^(-n) in size, since 2·x is an algebraic integer with at most n conjugates, each at most
2·w. -/
def signFuel (x : TrigSum) : Nat := Nat.log2 (ord x * (Nat.log2 (weight x) + 2)) + 8

/-- The sign of x, exact. -/
def sign (x : TrigSum) : SignType :=
  match signAt 64 x with
  | some s => s
  | none => if isZero x then 0 else signFrom x (signFuel x) 64

/-- |x|. -/
def abs (x : TrigSum) : TrigSum := if sign x = -1 then smul (-1) x else x

/-- The greater of x and y (x where they are equal). -/
def max (x y : TrigSum) : TrigSum := if sign (sub y x) = 1 then y else x

/-! ### `NUM.sinT` (R13) -/

/-- `NUM.sinT(a, n)` = sin(2·pi·a/n) = cos(2·pi·(4·a + 3·n)/(4·n)). -/
def sinT (a n : Nat) : TrigSum := ⟨4 * n, [(1, (4 * a + 3 * n) % (4 * n))]⟩

/-- `NUM.sinT` of an instance: the reference, or a free integer in the instance's unit (log entry 15). -/
def instSinT : NumInstance → (a n : Nat) → TrigSum
  | .reference, a, n => sinT a n
  | .other id, a, n => ofInt (Config.otherSinT id a n)

/-! ### `NUM.RND` (R14) -/

/-- The greatest integer k with lo ≤ k < hi and p k, for a downward-closed p that holds at lo. -/
def bisect (p : Int → Bool) : (fuel : Nat) → (lo hi : Int) → Int
  | 0, lo, _ => lo
  | f + 1, lo, hi =>
      if hi ≤ lo + 1 then lo
      else if p ((lo + hi) / 2) then bisect p f ((lo + hi) / 2) hi
      else bisect p f lo ((lo + hi) / 2)

/-- Whether k = ⌊x / y⌋, for y > 0. -/
def isFloor (x y : TrigSum) (k : Int) : Bool :=
  sign (sub x (smul k y)) != -1 && sign (sub x (smul (k + 1) y)) == -1

/-- The integer part of x / y, for y > 0 and -bound ≤ x / y ≤ bound: the quotient of the enclosures
where it is the right one, and else by bisection. -/
def floorDiv (bound : Nat) (x y : TrigSum) : Int :=
  let guess := enclosure 64 x / enclosure 64 y
  if isFloor x y guess then guess
  else bisect (fun k => sign (sub x (smul k y)) != -1) (Nat.log2 (2 * bound + 1) + 1)
    (-(bound : Int)) (bound + 1)

/-- A monotone rounding of x / y that fixes the integers (laws `RND_int`, `RND_mono` of R14), given
where it goes up between two integers. -/
def roundDiv (cut : Int → Rat) (tie : Int → Bool) (bound : Nat) (x y : TrigSum) : Int :=
  let k := floorDiv bound x y
  if sign (sub x (smul k y)) = 0 then k
  else
    match sign (sub (smul (cut k).den x) (smul (cut k).num y)) with
    | 1 => k + 1
    | 0 => if tie k then k + 1 else k
    | _ => k

/-- Where an instance of `NUM.RND` goes up between k and k + 1: half-way in the reference instance, which
rounds to nearest, and a free point in another (log entry 3). -/
def roundCut : NumInstance → Int → Rat
  | .reference, k => k + 1 / 2
  | .other id, k => Config.roundCut id k

/-- Whether an instance of `NUM.RND` goes up at the cut itself: the reference instance takes ties away
from zero. -/
def roundTie : NumInstance → Int → Bool
  | .reference, k => decide (0 ≤ k)
  | .other id, k => Config.roundTie id k

/-- `NUM.RND(x / y)` of an instance (log entry 3), for -bound ≤ x / y ≤ bound. -/
def rnd (r : NumInstance) (bound : Nat) (x y : TrigSum) : Int :=
  roundDiv (roundCut r) (roundTie r) bound x y

/-! ### `NUM.MAG` (R15) -/

/-- The circular autocorrelation Σ over t of x[t]·x[(t + d) mod n]. -/
def autocorr (x : List Int) (d : Nat) : Int :=
  ((List.range x.length).map fun t => x.getD t 0 * x.getD ((t + d) % x.length) 0).sum

/-- `NUM.MAG(x)`, each magnitude held as its square in units of `FFT_SCALE`² (log entry 5): the square
of |Σ x[t]·e^(-2·pi·i·m·t/n)| is Σ over d of autocorr(d)·cos(2·pi·m·d/n). -/
def magSq (x : List Int) : List TrigSum :=
  let r := (List.range x.length).map (autocorr x)
  (List.range x.length).map fun m =>
    ⟨x.length, (List.range x.length).map fun d => (r.getD d 0, m * d % x.length)⟩

/-- The greatest common divisor of the samples; 0 where all are 0. -/
def content (x : List Int) : Nat := x.foldr (fun a g => Nat.gcd a.natAbs g) 0

/-- The samples divided by their content: what is left of x when its scale is taken out. -/
def primitive (x : List Int) : List Int := x.map (· / (content x : Int))

/-- `NUM.MAG(x)` of an instance, each magnitude held as its square: the reference, or free naturals in the
square of the instance's unit (log entry 15). The contract of 42_rx_spectro_detect.md R166 holds in
every instance: an x of content g is g times its primitive part, and has g times its magnitudes; so
zeros give zeros. -/
def instMagSq : NumInstance → List Int → List TrigSum
  | .reference, x => magSq x
  | .other id, x => (List.range x.length).map fun m =>
      ofInt ((content x ^ 2 * Config.otherMagSq id (primitive x) m : Nat) : Int)

/-! ### `NUM.DBGT` (R16) -/

/-- Whether a^v·10^i > b^v·10^j for a, b > 0, if the enclosures at this precision show it. -/
def powGtAt (prec v i j : Nat) (a b : TrigSum) : Option Bool :=
  let lo := fun x => (enclosure prec x - enclosureErr prec x).toNat
  let hi := fun x => (enclosure prec x + enclosureErr prec x).toNat
  if hi b ^ v * 10 ^ j < lo a ^ v * 10 ^ i then some true
  else if hi a ^ v * 10 ^ i ≤ lo b ^ v * 10 ^ j then some false
  else none

/-- Whether a^v·10^i > b^v·10^j for a, b > 0 and v ≥ 1. -/
def powGt (v i j : Nat) (a b : TrigSum) : Bool :=
  match powGtAt 64 v i j a b with
  | some r => r
  | none => match powGtAt 256 v i j a b with
    | some r => r
    | none => sign (sub (smul (10 ^ i) (doublePow a (v - 1))) (smul (10 ^ j) (doublePow b (v - 1)))) == 1

/-- `NUM.DBGT(m, M, T)` on the squares of m and M and T = thr / 2^`THR_FRAC` dB. For M, m > 0:
20·log10(m/M) > T exactly when (m²)^v > (M²)^v·10^u, where u/v is thr / (10·2^`THR_FRAC`) in lowest
terms. For M = 0 or m = 0 it is false (R16, R172). -/
def dbgt (mSq maxSq : TrigSum) (thr : Int) : Bool :=
  let den := 10 * 2 ^ Config.thrFrac
  let g := Nat.gcd thr.natAbs den
  if sign maxSq = 1 ∧ sign mSq = 1 then
    powGt (den / g) ((-thr).toNat / g) (thr.toNat / g) mSq maxSq
  else false

/-- ⌊x⌋. -/
def floor (x : TrigSum) : Int := floorDiv (weight x) x (ofInt 1)

/-- The free `NUM.DBGT` of instance id on squares that are whole numbers of its unit. It sees them only
through their quotient (42_rx_spectro_detect.md R170, R175). -/
def otherDbgt (id mSq maxSq : Nat) (thr : Int) : Bool :=
  Config.otherDbgt id (mSq / Nat.gcd mSq maxSq) (maxSq / Nat.gcd mSq maxSq) thr

/-- `NUM.DBGT` of an instance, on the squares of m and M: the reference, or a free answer on whole numbers
of the instance's unit (log entry 15). In every instance it is false for M = 0 or m = 0 (R172). -/
def instDbgt : NumInstance → (mSq maxSq : TrigSum) → (thr : Int) → Bool
  | .reference, mSq, maxSq, thr => dbgt mSq maxSq thr
  | .other id, mSq, maxSq, thr =>
      sign maxSq == 1 && sign mSq == 1 &&
        otherDbgt id (floor mSq).toNat (floor maxSq).toNat thr

end Sys2Proof.Num
end

