-- ==== Sys2Proof/Machine/State.lean ====
section
/-! DEFINITION. The architectural state (10_state.md R21) as plain data, and the state after hard reset
(R42). The fields `cfg`, `boots` and `host` are the model's own: the spec gives the CORE no such state. -/

namespace Sys2Proof.Machine

open Sys2Proof (Word Byte Sample bankSize Config)

/-- The sequencer mode, `STATUS.MODE` (R28). The encoding 3 never occurs. -/
inductive Mode where
  | idle
  | tx
  | rx
  deriving DecidableEq, Repr

/-- The flags of `STATUS` (R29). `BUSY` reads 0 at every host read and the reserved bits read 0, so
neither is stored; the word a host reads is `statusWord`. -/
structure Status where
  done : Bool
  err : Bool
  geov : Bool
  txsil : Bool
  rxsil : Bool
  wdrop : Bool
  mode : Mode
  deriving DecidableEq, Repr

/-- A bit accumulator `ACC[s]` (R39): the bits of the byte in progress and how many there are. -/
structure Acc where
  val : BitVec 8
  cnt : BitVec 3
  deriving DecidableEq, Repr

/-- A host-visible buffer (20_memory.md R60): (index, element) pairs, indices strictly rising. An
element that is not listed has not been written since hard reset and holds no defined value
(10_state.md R42); with elements of one byte the pairs are `Host.Cell`s. -/
abbrev Memory (α : Type) := List (Nat × α)

/-- What the outside world can do to the CORE in one step (R22, 70_reset_and_hazards.md R270). -/
inductive HostAccess where
  /-- a write of the register with this index; index 0 is `CMD` (R30, R36) -/
  | writeReg (index : Nat) (v : Word)
  /-- a read of the register with this index (R36) -/
  | readReg (index : Nat)
  /-- a write of element `a` of `SB[s]` (20_memory.md R64) -/
  | writeSb (s a : Nat) (v : Byte)
  /-- a read of element `a` of `SB[s]` (20_memory.md R64) -/
  | readSb (s a : Nat)
  /-- a write of element `a` of `PCM`; an integer whose low B bits are the pattern written
  (20_memory.md R64) -/
  | writePcm (a : Nat) (v : Sample)
  /-- a read of element `a` of `PCM` (20_memory.md R64) -/
  | readPcm (a : Nat)
  /-- the power-on or reset-pin event (70_reset_and_hazards.md R270) -/
  | hardReset
  deriving DecidableEq, Repr

/-- What a host read answers. -/
inductive HostAnswer where
  /-- the value of a register -/
  | reg (v : Word)
  /-- an element of a stream buffer -/
  | byte (v : Byte)
  /-- an element of the sample buffer -/
  | sample (v : Sample)
  deriving DecidableEq, Repr

/-- The HOST agent (R20) as the CORE meets it: the accesses it has yet to make, in order, and the
answers its reads have got, the latest first. The model's own; see log entry 6. -/
structure HostPort where
  pending : List HostAccess
  answers : List HostAnswer
  deriving DecidableEq, Repr

/-- The state of the machine (R21). -/
structure State where
  /-- the model's own: `CFG` (00_scope.md R12), which no step changes. It is no state of the CORE but
  the parameter of its step (R23); it stands here so that a step can be given it (log 1) -/
  cfg : Config
  /-- `P0` to `P7` (R24) -/
  params : Vector Word 8
  /-- `STATUS` (R29) -/
  status : Status
  /-- `ERRCODE` (R31) -/
  errcode : Word
  /-- `ERRCMD` (R31) -/
  errcmd : Word
  /-- `SPF`, samples per time slice (R32) -/
  spf : Word
  /-- `BANDW`, band width in Hz (R32) -/
  bandw : Word
  /-- `BPB`, bins per band (R32) -/
  bpb : Word
  /-- `AVAIL`, bins available in the configured range (R32) -/
  avail : Word
  /-- `NMIN`, the least native bin in use (R32) -/
  nmin : Word
  /-- `NMAX`, the greatest native bin in use (R32) -/
  nmax : Word
  /-- `WC`, the window count (R32) -/
  wc : Word
  /-- `NB[i]`, the native bin of bin 0 of band i (R33). Of this register file, and of the three below,
  the entries below `MAX_STREAMS` exist -/
  nb : Vector Word bankSize
  /-- `WIDX`, the next window (R27) -/
  widx : Word
  /-- `SIDX`, the next time slice to analyse (R27) -/
  sidx : Word
  /-- `PCMLEN`, the number of valid samples (R34) -/
  pcmlen : Word
  /-- `SLEN[s]`, the number of valid bytes of stream s (R34) -/
  slen : Vector Word bankSize
  /-- `BITIX` (R35) -/
  bitix : Word
  /-- `BITV`, its only stored bit (R35) -/
  bitv : Bool
  /-- `PHASE[i][j]` (R38), row i the entries of band i; an entry that is not there is 0 -/
  phase : List (List Nat)
  /-- `ACC[s]` (R39) -/
  acc : Vector Acc bankSize
  /-- `SB[s]`, the stream buffers (20_memory.md R61) -/
  sb : Vector (Memory Byte) bankSize
  /-- `PCM`, the sample buffer (20_memory.md R62) -/
  pcm : Memory Sample
  /-- `WAVE`, the unnormalised waveform (R40) -/
  wave : List Num.TrigSum
  /-- `AMAX`, the running maximum of |WAVE[a]| (R40) -/
  amax : Num.TrigSum
  /-- `MAG[p][n]` (R41), each magnitude as its square in units of `FFT_SCALE`² (log entry 5) -/
  mag : List (List Num.TrigSum)
  /-- `MMAX` (R41), as its square in the same units -/
  mmax : Num.TrigSum
  /-- the model's own: how many hard resets there have been, for the free buffer contents (log 4) -/
  boots : Nat
  /-- the model's own: the HOST agent's side (log 6) -/
  host : HostPort
  deriving DecidableEq, Repr

/-- Why the machine could stop. The spec gives every access and every command a result in every state
(20_memory.md R64, 70_reset_and_hazards.md R287): its errors are values of `ERRCODE` in a next state. -/
inductive Fault where
  /-- An access to an element that does not exist, with no result given. Raised by no step of this
  model, since R64 gives such an access a result; safe, as a step that stopped would allow less. -/
  | absentElement
  deriving DecidableEq, Repr

/-- Why a command could have no meaning in the model. -/
inductive Refusal where
  /-- The named command has no meaning yet. Raised by no arm of this model; safe. -/
  | notModelled (mnemonic : String)
  deriving DecidableEq, Repr

/-- `STATUS` = 0 (R42). -/
def Status.clear : Status := ⟨false, false, false, false, false, false, .idle⟩

/-- An accumulator with no bits placed (R42). -/
def Acc.clear : Acc := ⟨0, 0⟩

/-- The state right after hard reset (R42, R271) of a machine with configuration c: every register,
accumulator and hidden scalar 0, `WAVE` and `MAG` empty, no element of a buffer defined. The host has
asked for nothing yet. -/
def State.resetOf (c : Config) : State where
  cfg := c
  params := Vector.replicate 8 0
  status := Status.clear
  errcode := 0
  errcmd := 0
  spf := 0
  bandw := 0
  bpb := 0
  avail := 0
  nmin := 0
  nmax := 0
  wc := 0
  nb := Vector.replicate bankSize 0
  widx := 0
  sidx := 0
  pcmlen := 0
  slen := Vector.replicate bankSize 0
  bitix := 0
  bitv := false
  phase := []
  acc := Vector.replicate bankSize Acc.clear
  sb := Vector.replicate bankSize []
  pcm := []
  wave := []
  amax := Num.zero
  mag := []
  mmax := Num.zero
  boots := 0
  host := ⟨[], []⟩

/-- The state right after hard reset, with the sizes and the numerics that R12 gives as defaults. -/
def State.reset : State := State.resetOf .default

end Sys2Proof.Machine
end

