-- ==== Sys2Proof/Machine/Flags.lean ====
section
/-! DEFINITION. The flags of `STATUS` (10_state.md R28, R29) and the error codes (60_exceptions.md
R241). -/

namespace Sys2Proof.Machine

/-- The encoding of `MODE` (R28). -/
def Mode.code : Mode → BitVec 2
  | .idle => 0
  | .tx => 1
  | .rx => 2

/-- The word a host reads as `STATUS` (R29): bits 31:10 and 7 reserved, `BUSY` (bit 0) always 0. -/
def statusWord (f : Status) : Word :=
  0#22 ++ f.mode.code ++ 0#1 ++ BitVec.ofBool f.wdrop ++ BitVec.ofBool f.rxsil ++
    BitVec.ofBool f.txsil ++ BitVec.ofBool f.geov ++ BitVec.ofBool f.err ++
    BitVec.ofBool f.done ++ 0#1

/-- The errors the CORE can raise (R241). -/
inductive ErrCode where
  | bounds
  | fsym
  | window
  | decim
  | streams
  | bins
  | range
  | cap
  | seq
  | illcmd
  | nogeo
  deriving DecidableEq, Repr

/-- The value an error writes to `ERRCODE` (R241). -/
def ErrCode.code : ErrCode → Word
  | .bounds => 1
  | .fsym => 2
  | .window => 3
  | .decim => 4
  | .streams => 5
  | .bins => 6
  | .range => 7
  | .cap => 8
  | .seq => 9
  | .illcmd => 10
  | .nogeo => 11

/-- `STATUS.DONE <- v`. -/
def State.setDone (s : State) (v : Bool) : State :=
  { s with status := { s.status with done := v } }

/-- `STATUS.MODE <- m`. -/
def State.setMode (s : State) (m : Mode) : State :=
  { s with status := { s.status with mode := m } }

/-- `STATUS.GEOV <- v`. -/
def State.setGeov (s : State) (v : Bool) : State :=
  { s with status := { s.status with geov := v } }

/-- `STATUS.TXSIL <- v`. -/
def State.setTxsil (s : State) (v : Bool) : State :=
  { s with status := { s.status with txsil := v } }

/-- `STATUS.RXSIL <- v`. -/
def State.setRxsil (s : State) (v : Bool) : State :=
  { s with status := { s.status with rxsil := v } }

/-- A dropped host write (R25, R36, 20_memory.md R64): it sets `STATUS.WDROP` and nothing else. -/
def State.dropWrite (s : State) : State :=
  { s with status := { s.status with wdrop := true } }

end Sys2Proof.Machine
end

