-- ==== Sys2Proof/Machine/Operands.lean ====
section
/-! DEFINITION. What the commands read besides their word: the parameters as naturals (10_state.md R24),
the threshold (R26), the register files, and the elements of the buffers. -/

namespace Sys2Proof

/-- The sample a B-bit element holds after v is written to it: the low B bits of v, read in two's
complement (20_memory.md R62). -/
def Config.wrapSample (c : Config) (v : Int) : Sample := (BitVec.ofInt c.sampleBits v).toInt

end Sys2Proof

namespace Sys2Proof.Machine

/-- cdiv(a, b) = ceil(a / b) (00_scope.md R17). -/
def cdiv (a b : Nat) : Nat := (a + b - 1) / b

/-- A register file built entry by entry. -/
def tabulate {α : Type} {n : Nat} (f : Nat → α) : Vector α n :=
  ⟨((List.range n).map f).toArray, by simp⟩

/-- Parameter register `P[i]`. -/
def State.param (s : State) (i : Nat) : Word := s.params[i]?.getD 0

/-- The seven parameters of the geometry, read as naturals (R24, 40_geometry.md R110). -/
structure Params where
  /-- sample rate, P0 -/
  fs : Nat
  /-- windows per second wanted, P1 -/
  fsym : Nat
  /-- transform size Nfft, P2 -/
  nfft : Nat
  /-- lower frequency bound, P3 -/
  flo : Nat
  /-- upper frequency bound, P4 -/
  fhi : Nat
  /-- bin decimation factor, P5 -/
  k : Nat
  /-- number of streams N, P6 -/
  n : Nat
  deriving DecidableEq, Repr

/-- P0 to P6 as naturals (zext_32, R24). -/
def State.geoParams (s : State) : Params where
  fs := (s.param 0).toNat
  fsym := (s.param 1).toNat
  nfft := (s.param 2).toNat
  flo := (s.param 3).toNat
  fhi := (s.param 4).toNat
  k := (s.param 5).toNat
  n := (s.param 6).toNat

/-- N, the number of streams (P6). -/
def State.nstr (s : State) : Nat := s.geoParams.n

/-- Nfft, the transform size (P2). -/
def State.nfft (s : State) : Nat := s.geoParams.nfft

/-- k, the decimation factor (P5). -/
def State.kdec (s : State) : Nat := s.geoParams.k

/-- sext_32(P7): the threshold T in units of 1/2^`THR_FRAC` dB (R26). -/
def State.thr (s : State) : Int := (s.param 7).toInt

/-- `SLEN[s]` as a natural. -/
def State.slenOf (s : State) (st : Nat) : Nat := (s.slen[st]?.getD 0).toNat

/-- `ACC[s]`. -/
def State.accOf (s : State) (st : Nat) : Acc := s.acc[st]?.getD Acc.clear

/-- `NB[i]` as a natural. -/
def State.nbOf (s : State) (i : Nat) : Nat := (s.nb[i]?.getD 0).toNat

/-- The native bin of cell (i, j), n(i, j) = `NB[i]` + j·k (40_geometry.md R118). -/
def State.nativeBin (s : State) (i j : Nat) : Nat := s.nbOf i + j * s.kdec

/-- `PHASE[i][j]` (R38). -/
def State.phaseOf (s : State) (i j : Nat) : Nat := (s.phase.getD i []).getD j 0

/-- The greatest of `SLEN[0]` to `SLEN[N-1]` (40_geometry.md R122). -/
def State.longest (s : State) : Nat :=
  ((List.range s.nstr).map s.slenOf).foldl Nat.max 0

/-- Whether `SLEN[i]` ≤ `STRM_CAP` for every i < N (40_geometry.md R122, 41_tx_synth.md R131). -/
def State.lengthsFit (s : State) : Bool :=
  (List.range s.nstr).all fun i => decide (s.slenOf i ≤ s.cfg.strmCap)

/-- The element at an index of a buffer, if it has been written since hard reset. -/
def Memory.read {α : Type} : Memory α → Nat → Option α
  | [], _ => none
  | (b, v) :: m, a => if a = b then some v else Memory.read m a

/-- Stream buffer `SB[s]`. -/
def State.sbOf (s : State) (st : Nat) : Memory Byte := s.sb[st]?.getD []

/-- `MemRead(SB[s], a)` (20_memory.md R60). An element that nothing has written since hard reset has a
free value (log entry 4). -/
def State.sbRead (s : State) (st a : Nat) : Byte :=
  (Memory.read (s.sbOf st) a).getD (Config.resetByte s.boots st a)

/-- `MemRead(PCM, a)` (20_memory.md R60), with the same free value (log entry 4). -/
def State.pcmRead (s : State) (a : Nat) : Sample :=
  (Memory.read s.pcm a).getD (s.cfg.wrapSample (Config.resetSample s.boots a))

/-- Xpad(a): the received sample, and 0 at and beyond `PCMLEN` (42_rx_spectro_detect.md R162). -/
def State.xpad (s : State) (a : Nat) : Int :=
  if a < s.pcmlen.toNat then s.pcmRead a else 0

/-- `StreamBit(s, b)` (43_bitpack.md R200): most significant bit first, and 0 at and beyond the end. -/
def State.streamBit (s : State) (st b : Nat) : Bool :=
  if b < 8 * s.slenOf st then (s.sbRead st (b / 8)).getLsbD (7 - b % 8) else false

/-- The cells (i, j) of one window in the order of the rules: bands, and the bins of a band from low to
high (30_encoding.md R80, R83). -/
def State.cells (s : State) : List (Nat × Nat) :=
  (List.range s.nstr).flatMap fun i => (List.range s.bpb.toNat).map fun j => (i, j)

end Sys2Proof.Machine
end

