-- ==== Sys2Proof/Machine/Ops.lean ====
section
/-! DEFINITION. The shared operations: writing buffers and registers (20_memory.md R60), the serializer
procedures (43_bitpack.md R202, R204), and the life of a command: acceptance, the common checks, the
raise (60_exceptions.md R244 to R246). There is no handler and no return (R247): a raise is the
whole of taking an exception, and `SRST` the only way back. -/

namespace Sys2Proof.Machine

open Host (Outcome)

/-! ### Buffers -/

/-- `MemWrite`: replace one element, keeping the indices rising. -/
def Memory.write {α : Type} : Memory α → Nat → α → Memory α
  | [], a, v => [(a, v)]
  | (b, u) :: m, a, v =>
      if a < b then (a, v) :: (b, u) :: m
      else if a = b then (a, v) :: m
      else (b, u) :: Memory.write m a v

/-- `MemWrite` of elements 0, 1, 2, … in turn. -/
def Memory.load {α : Type} (m : Memory α) (vs : List α) : Memory α :=
  vs.zipIdx.map (fun (v, a) => (a, v)) ++ m.filter (fun c => decide (vs.length ≤ c.1))

/-- The canonical form of a buffer: indices strictly rising. Every listed element differs from an
unlisted one, which holds no value. -/
abbrev Memory.wf {α : Type} (m : Memory α) : Prop := (m.map Prod.fst).Pairwise (· < ·)

/-- `MemWrite(SB[s], a, v)`. -/
def State.sbWrite (s : State) (st a : Nat) (v : Byte) : State :=
  { s with sb := s.sb.setIfInBounds st (Memory.write (s.sbOf st) a v) }

/-- `MemWrite(PCM, a, v)`: an element is B bits wide (20_memory.md R62). -/
def State.pcmWrite (s : State) (a : Nat) (v : Sample) : State :=
  { s with pcm := Memory.write s.pcm a (s.cfg.wrapSample v) }

/-! ### Registers -/

/-- `P[i] <- v`. -/
def State.setParam (s : State) (i : Nat) (v : Word) : State :=
  { s with params := s.params.setIfInBounds i v }

/-- `SLEN[s] <- v`. -/
def State.setSlen (s : State) (st : Nat) (v : Word) : State :=
  { s with slen := s.slen.setIfInBounds st v }

/-- `ACC[s] <- a`. -/
def State.setAcc (s : State) (st : Nat) (a : Acc) : State :=
  { s with acc := s.acc.setIfInBounds st a }

/-! ### The serializer -/

/-- Append one whole byte to stream s (R202, R204): store it at `SLEN[s]`, count it, and empty the
accumulator; a full stream buffer raises `E_CAP` before any change. -/
def State.emitByte (s : State) (st : Nat) (b : Byte) : Except ErrCode State :=
  if s.slenOf st < s.cfg.strmCap then
    .ok (((s.sbWrite st (s.slenOf st) b).setSlen st (BitVec.ofNat 32 (s.slenOf st + 1))).setAcc st
      Acc.clear)
  else .error .cap

/-- `PutBit(s, v)` (R202). -/
def State.putBit (s : State) (st : Nat) (v : Bool) : Except ErrCode State :=
  let val := ((s.accOf st).val <<< 1) ||| (BitVec.ofBool v).zeroExtend 8
  if (s.accOf st).cnt = 7 then s.emitByte st val
  else .ok (s.setAcc st ⟨val, (s.accOf st).cnt + 1⟩)

/-- `FlushBits(s)` (R204). -/
def State.flushBits (s : State) (st : Nat) : Except ErrCode State :=
  if (s.accOf st).cnt = 0 then .ok s
  else s.emitByte st ((s.accOf st).val <<< (8 - (s.accOf st).cnt.toNat))

/-! ### The life of a command -/

/-- `raise E(code)` in the command word w (R244): the three error registers and nothing else. -/
def State.raise (s : State) (e : ErrCode) (w : Word) : State :=
  { s with status := { s.status with err := true }, errcode := e.code, errcmd := w }

/-- The mode a command demands, if it demands one (30_encoding.md R97). -/
def modeNeeded : Instr → Option Mode
  | .nop | .srst => none
  | .geoResolve | .geoWcount | .txStart | .txEncode | .rxStart | .rxDecode
  | .bitGet _ | .bitPut _ _ | .bitFlush _ | .bitClr _ => some .idle
  | .txWindow | .txFinish => some .tx
  | .rxSpectrum | .rxDetect | .rxFinish => some .rx

/-- Whether a command needs `STATUS.GEOV` = 1 (R97). -/
def geoNeeded : Instr → Bool
  | .nop | .srst | .geoResolve | .bitGet _ | .bitPut _ _ | .bitFlush _ | .bitClr _ => false
  | .geoWcount | .txStart | .txWindow | .txFinish | .txEncode
  | .rxStart | .rxSpectrum | .rxDetect | .rxFinish | .rxDecode => true

/-- The further condition of a command (R97). -/
def furtherCondition (s : State) : Instr → Bool
  | .txWindow => decide (s.widx < s.wc)
  | .txFinish => decide (s.widx = s.wc)
  | .rxSpectrum => decide (s.sidx < s.wc)
  | .rxDetect => decide (s.sidx = s.wc) && decide (s.widx < s.wc)
  | .rxFinish => decide (s.sidx = s.wc) && decide (s.widx = s.wc)
  | .nop | .srst | .geoResolve | .geoWcount | .txStart | .txEncode | .rxStart | .rxDecode
  | .bitGet _ | .bitPut _ _ | .bitFlush _ | .bitClr _ => true

/-- Checks (2) to (4) of R246 on a decoded command: mode, geometry, further condition. The first that
fails decides the error. -/
def legality (i : Instr) (s : State) : Option ErrCode :=
  if (modeNeeded i).any (fun m => decide (s.status.mode ≠ m)) then some .seq
  else if geoNeeded i && !s.status.geov then some .nogeo
  else if !furtherCondition s i then some .seq
  else none

/-- A command other than `SRST` (R245, R246): refused without any change while `STATUS.ERR` = 1;
otherwise `DONE` is cleared, the checks are made, and the command's own rule ends in `DONE` = 1 or in
a raise that leaves everything else as it was. -/
def runCommand (i : Instr) (body : State → Except ErrCode State) (s : State) :
    Outcome State Fault Refusal :=
  if s.status.err then .next s
  else
    let s0 := s.setDone false
    match legality i s0 with
    | some e => .next (s0.raise e (encode i))
    | none =>
        match body s0 with
        | .error e => .next (s0.raise e (encode i))
        | .ok s1 => .next (s1.setDone true)

/-- A write to `CMD` of an illegal word (R245, R246 check (1)). -/
def illegalCommand (w : Word) (s : State) : Outcome State Fault Refusal :=
  if s.status.err then .next s else .next ((s.setDone false).raise .illcmd w)

end Sys2Proof.Machine
end

