-- ==== Sys2Proof/Machine/Bit.lean ====
section
/-! DEFINITION. The serializer commands: `BIT.GET`, `BIT.PUT`, `BIT.FLUSH`, `BIT.CLR`
(43_bitpack.md). -/

namespace Sys2Proof.Machine

open Host (Outcome)

/-- The body of `BIT.GET s` (R201). -/
def bitGetBody (st : Nat) (s : State) : Except ErrCode State :=
  if s.slenOf st ≤ s.cfg.strmCap then .ok { s with bitv := s.streamBit st s.bitix.toNat }
  else .error .cap

/-- `BIT.GET s` (R201). -/
def execBitGet (st : BitVec 8) (s : State) : Outcome State Fault Refusal :=
  runCommand (.bitGet st) (bitGetBody st.toNat) s

/-- `BIT.PUT s, v` (R203). -/
def execBitPut (st : BitVec 8) (v : Bool) (s : State) : Outcome State Fault Refusal :=
  runCommand (.bitPut st v) (fun s => s.putBit st.toNat v) s

/-- `BIT.FLUSH s` (R205). -/
def execBitFlush (st : BitVec 8) (s : State) : Outcome State Fault Refusal :=
  runCommand (.bitFlush st) (fun s => s.flushBits st.toNat) s

/-- `BIT.CLR s` (R207). -/
def execBitClr (st : BitVec 8) (s : State) : Outcome State Fault Refusal :=
  runCommand (.bitClr st) (fun s => .ok ((s.setSlen st.toNat 0).setAcc st.toNat Acc.clear)) s

end Sys2Proof.Machine
end

