-- ==== Sys2Proof/Machine/Geo.lean ====
section
/-! DEFINITION. The frame geometry calculator: `GEO.RESOLVE` and `GEO.WCOUNT` (40_geometry.md). All
arithmetic is on unbounded naturals (R124). -/

namespace Sys2Proof.Machine

open Host (Outcome)

/-- Samples per time slice, fs div fsym (R115). -/
def Params.spf (p : Params) : Nat := p.fs / p.fsym

/-- The configured span fhi - flo. -/
def Params.span (p : Params) : Nat := p.fhi - p.flo

/-- Band width W (R114). -/
def Params.bandw (p : Params) : Nat := cdiv p.span p.n

/-- Bins per band (R117). -/
def Params.bpb (p : Params) : Nat := p.bandw * p.nfft / (p.fs * p.k)

/-- Bins available in the configured range (R117). -/
def Params.avail (p : Params) : Nat := p.span * p.nfft / (p.fs * p.k)

/-- The native bin of bin 0 of band i (R118). -/
def Params.nb (p : Params) (i : Nat) : Nat := cdiv ((p.flo + i * p.bandw) * p.nfft) p.fs

/-- The least native bin in use (R113). -/
def Params.nmin (p : Params) : Nat := p.nb 0

/-- The greatest native bin in use (R113). -/
def Params.nmax (p : Params) : Nat := p.nb (p.n - 1) + (p.bpb - 1) * p.k

/-- The checks of `GEO.RESOLVE` in order, with the sizes c: the error of the first that fails (R111,
R112). -/
def Params.check (c : Config) (p : Params) : Option ErrCode :=
  if ¬ p.flo < p.fhi then some .bounds
  else if ¬ 0 < p.fsym then some .fsym
  else if ¬ (1 ≤ p.nfft ∧ p.nfft * p.fsym < p.fs) then some .window
  else if ¬ 1 ≤ p.k then some .decim
  else if ¬ (1 ≤ p.n ∧ p.n ≤ c.maxStreams) then some .streams
  else if ¬ (1 ≤ p.bpb ∧ p.n ≤ p.avail ∧ p.bpb * p.n ≤ p.avail) then some .bins
  else if ¬ (1 ≤ p.nmin ∧ 2 * p.nmax < p.nfft) then some .range
  else if ¬ p.bpb * p.n ≤ c.phaseCap then some .cap
  else none

/-- The geometry registers written with what the parameters derive (R111, R113). -/
def State.setGeometry (s : State) (p : Params) : State :=
  { s with
    spf := BitVec.ofNat 32 p.spf
    bandw := BitVec.ofNat 32 p.bandw
    bpb := BitVec.ofNat 32 p.bpb
    avail := BitVec.ofNat 32 p.avail
    nmin := BitVec.ofNat 32 p.nmin
    nmax := BitVec.ofNat 32 p.nmax
    nb := tabulate fun i => if i < p.n then BitVec.ofNat 32 (p.nb i) else 0 }

/-- The body of `GEO.RESOLVE` (R111). -/
def geoResolveBody (s : State) : Except ErrCode State :=
  match s.geoParams.check s.cfg with
  | some e => .error e
  | none => .ok ((s.setGeometry s.geoParams).setGeov true)

/-- `GEO.RESOLVE` (R111). -/
def execGeoResolve (s : State) : Outcome State Fault Refusal :=
  runCommand .geoResolve geoResolveBody s

/-- The window count of the loaded payload, cdiv(8·lmax, `BPB`) (R122). -/
def State.payloadWindows (s : State) : Nat := cdiv (8 * s.longest) s.bpb.toNat

/-- The body of `GEO.WCOUNT` (R122). -/
def geoWcountBody (s : State) : Except ErrCode State :=
  if s.lengthsFit then .ok { s with wc := BitVec.ofNat 32 s.payloadWindows } else .error .cap

/-- `GEO.WCOUNT` (R122). -/
def execGeoWcount (s : State) : Outcome State Fault Refusal :=
  runCommand .geoWcount geoWcountBody s

end Sys2Proof.Machine
end

