-- ==== Sys2Proof/Machine/Rx.lean ====
section
/-! DEFINITION. The spectrogram extractor and the threshold detector: `RX.START`, `RX.SPECTRUM`,
`RX.DETECT`, `RX.FINISH`, `RX.DECODE` (42_rx_spectro_detect.md). -/

namespace Sys2Proof.Machine

open Host (Outcome)

/-- The window count of a receive run, cdiv(`PCMLEN`, `SPF`) (R160). -/
def State.receivedWindows (s : State) : Nat := cdiv s.pcmlen.toNat s.spf.toNat

/-- The body of `RX.START` (R161). -/
def rxStartBody (s : State) : Except ErrCode State :=
  if s.pcmlen.toNat ≤ s.cfg.pcmCap then
    if cdiv (s.receivedWindows * s.bpb.toNat) 8 ≤ s.cfg.strmCap then
      .ok ({ s with
        wc := BitVec.ofNat 32 s.receivedWindows
        sidx := 0
        widx := 0
        slen := tabulate fun i => if i < s.nstr then 0 else s.slen[i]?.getD 0
        acc := tabulate fun i => if i < s.nstr then Acc.clear else s.accOf i
        mag := []
        mmax := Num.zero }.setRxsil false |>.setMode .rx)
    else .error .cap
  else .error .cap

/-- `RX.START` (R161). -/
def execRxStart (s : State) : Outcome State Fault Refusal := runCommand .rxStart rxStartBody s

/-- Where the sub-window of slice p starts in its slice (R164, R165). -/
def State.subOffset (s : State) (p : Nat) : Nat :=
  if p = s.wc.toNat - 1 then 0 else (s.spf.toNat - s.nfft) / 2

/-- The sub-window of slice p (R163). -/
def State.subWindow (s : State) (p : Nat) : List Int :=
  (List.range s.nfft).map fun t => s.xpad (p * s.spf.toNat + s.subOffset p + t)

/-- The magnitude spectrum of slice p (R163, R166), as squares (log entry 5). -/
def State.spectrum (s : State) (p : Nat) : List Num.TrigSum := Num.instMagSq s.cfg.num (s.subWindow p)

/-- The greatest of the magnitudes, and at least m (R168). -/
def greatest (m : Num.TrigSum) (xs : List Num.TrigSum) : Num.TrigSum := xs.foldl Num.max m

/-- The effect of `RX.SPECTRUM` (R163). -/
def State.takeSpectrum (s : State) : State :=
  let m := s.spectrum s.sidx.toNat
  { s with mag := s.mag ++ [m], mmax := greatest s.mmax m, sidx := s.sidx + 1 }

/-- `RX.SPECTRUM` (R163). -/
def execRxSpectrum (s : State) : Outcome State Fault Refusal :=
  runCommand .rxSpectrum (fun s => .ok s.takeSpectrum) s

/-- `MAG[p][n]` (10_state.md R41), as its square. -/
def State.magOf (s : State) (p n : Nat) : Num.TrigSum := (s.mag.getD p []).getD n Num.zero

/-- The decision for cell (p, i, j) (R169, R171). -/
def State.decision (s : State) (p i j : Nat) : Bool :=
  Num.instDbgt s.cfg.num (s.magOf p (s.nativeBin i j)) s.mmax s.thr

/-- Decide the cells in order and append their bits (R169). -/
def State.decideCells (p : Nat) : List (Nat × Nat) → State → Except ErrCode State
  | [], s => .ok s
  | (i, j) :: cs, s => do
      let s1 ← s.putBit i (s.decision p i j)
      State.decideCells p cs s1

/-- The body of `RX.DETECT` (R169). -/
def rxDetectBody (s : State) : Except ErrCode State := do
  let s1 ← State.decideCells s.widx.toNat s.cells s
  .ok { s1 with widx := s.widx + 1 }

/-- `RX.DETECT` (R169). -/
def execRxDetect (s : State) : Outcome State Fault Refusal := runCommand .rxDetect rxDetectBody s

/-- `FlushBits(i)` for each listed stream in turn (R174). -/
def State.flushStreams : List Nat → State → Except ErrCode State
  | [], s => .ok s
  | i :: is, s => do
      let s1 ← s.flushBits i
      State.flushStreams is s1

/-- The body of `RX.FINISH` (R174). -/
def rxFinishBody (s : State) : Except ErrCode State := do
  let s1 ← State.flushStreams (List.range s.nstr) s
  .ok ({ s1 with mag := [] }.setRxsil (Num.sign s.mmax != 1) |>.setMode .idle)

/-- `RX.FINISH` (R174). -/
def execRxFinish (s : State) : Outcome State Fault Refusal := runCommand .rxFinish rxFinishBody s

/-- `RX.SPECTRUM` n times over. -/
def State.takeSpectra (s : State) : Nat → State
  | 0 => s
  | n + 1 => (s.takeSpectra n).takeSpectrum

/-- `RX.DETECT` n times over. -/
def detectWindows (s : State) : Nat → Except ErrCode State
  | 0 => .ok s
  | n + 1 => do
      let s1 ← detectWindows s n
      rxDetectBody s1

/-- `RX.DECODE` (R177): the whole receive run as one step. -/
def execRxDecode (s : State) : Outcome State Fault Refusal :=
  runCommand .rxDecode (fun s => do
    let s1 ← rxStartBody s
    let s2 ← detectWindows (s1.takeSpectra s1.wc.toNat) s1.wc.toNat
    rxFinishBody s2) s

end Sys2Proof.Machine
end

