-- ==== Sys2Proof/Machine/Sys.lean ====
section
/-! DEFINITION. The system commands `NOP` and `SRST` (44_system.md R220, R221). -/

namespace Sys2Proof.Machine

open Host (Outcome)

/-- `NOP` (R220). -/
def execNop (s : State) : Outcome State Fault Refusal := runCommand .nop .ok s

/-- The state after soft reset (R221, 10_state.md R42): as after hard reset, but for the contents of
the buffers, which stay. -/
def State.softReset (s : State) : State :=
  { State.resetOf s.cfg with sb := s.sb, pcm := s.pcm, boots := s.boots, host := s.host }

/-- `SRST` (R221): always legal, also in the error state, and never raises. -/
def execSrst (s : State) : Outcome State Fault Refusal := .next s.softReset

end Sys2Proof.Machine
end

