-- ==== Sys2Proof/Machine/Tx.lean ====
section
/-! DEFINITION. The multi-tone synthesizer: `TX.START`, `TX.WINDOW`, `TX.FINISH`, `TX.ENCODE`
(41_tx_synth.md). -/

namespace Sys2Proof.Machine

open Host (Outcome)
open Sys2Proof (Num.TrigSum)

/-- The body of `TX.START` (R131). -/
def txStartBody (s : State) : Except ErrCode State :=
  if s.lengthsFit then
    if s.payloadWindows * s.spf.toNat ≤ s.cfg.pcmCap then
      .ok ({ s with
        wc := BitVec.ofNat 32 s.payloadWindows
        widx := 0
        sidx := 0
        phase := List.replicate s.nstr (List.replicate s.bpb.toNat 0)
        wave := []
        amax := Num.zero }.setTxsil false |>.setMode .tx)
    else .error .cap
  else .error .cap

/-- `TX.START` (R131). -/
def execTxStart (s : State) : Outcome State Fault Refusal := runCommand .txStart txStartBody s

/-- Whether cell (i, j) is in the active set A(p) (R132). -/
def State.isActive (s : State) (p i j : Nat) : Bool := s.streamBit i (p * s.bpb.toNat + j)

/-- The active set A(p) of window p (R132). -/
def State.activeCells (s : State) (p : Nat) : List (Nat × Nat) :=
  s.cells.filter fun c => s.isActive p c.1 c.2

/-- The addend of cell (i, j) at sample t of a window (R133, R136). -/
def State.tone (s : State) (i j t : Nat) : Num.TrigSum :=
  Num.instSinT s.cfg.num ((s.phaseOf i j + s.nativeBin i j * t) % s.nfft) s.nfft

/-- Sample t of window p before normalisation: the sum of the tones of the active cells (R133). -/
def State.windowSample (s : State) (p t : Nat) : Num.TrigSum :=
  (s.activeCells p).foldl (fun x c => Num.add x (s.tone c.1 c.2 t)) Num.zero

/-- The phase of cell (i, j) after window p (R133, R137): advanced if the cell is active. -/
def State.nextPhase (s : State) (p i j : Nat) : Nat :=
  if s.isActive p i j then (s.phaseOf i j + s.nativeBin i j * s.spf.toNat) % s.nfft
  else s.phaseOf i j

/-- The samples of window p (R133). -/
def State.windowSamples (s : State) (p : Nat) : List Num.TrigSum :=
  (List.range s.spf.toNat).map (s.windowSample p)

/-- The greatest absolute value among the samples, and at least m (R133, R138). -/
def peak (m : Num.TrigSum) (xs : List Num.TrigSum) : Num.TrigSum :=
  xs.foldl (fun m x => Num.max m (Num.abs x)) m

/-- The effect of `TX.WINDOW` (R133). -/
def State.synthWindow (s : State) : State :=
  let p := s.widx.toNat
  { s with
    phase := (List.range s.nstr).map fun i =>
      (List.range s.bpb.toNat).map fun j => s.nextPhase p i j
    wave := s.wave ++ s.windowSamples p
    amax := peak s.amax (s.windowSamples p)
    widx := s.widx + 1 }

/-- `TX.WINDOW` (R133). -/
def execTxWindow (s : State) : Outcome State Fault Refusal :=
  runCommand .txWindow (fun s => .ok s.synthWindow) s

/-- One emitted sample (R138): scaled so that the peak is full scale, then rounded; 0 if the whole
waveform is silent. -/
def quantise (c : Config) (amax x : Num.TrigSum) : Sample :=
  if Num.sign amax = 1 then
    c.wrapSample (Num.rnd c.rnd c.fsmax (Num.smul (c.fsmax : Int) x) amax)
  else 0

/-- The waveform `TX.FINISH` emits: `WC`·`SPF` samples (R138). -/
def State.emitted (s : State) : List Sample :=
  (List.range (s.wc.toNat * s.spf.toNat)).map fun a =>
    quantise s.cfg s.amax (s.wave.getD a Num.zero)

/-- The effect of `TX.FINISH` (R138). -/
def State.finishTx (s : State) : State :=
  { s with
    pcm := Memory.load s.pcm s.emitted
    pcmlen := BitVec.ofNat 32 (s.wc.toNat * s.spf.toNat)
    wave := [] }.setTxsil (Num.sign s.amax != 1) |>.setMode .idle

/-- `TX.FINISH` (R138). -/
def execTxFinish (s : State) : Outcome State Fault Refusal :=
  runCommand .txFinish (fun s => .ok s.finishTx) s

/-- `TX.WINDOW` n times over. -/
def State.synthWindows (s : State) : Nat → State
  | 0 => s
  | n + 1 => (s.synthWindows n).synthWindow

/-- `TX.ENCODE` (R143): the whole transmit run as one step, with the window count that `TX.START`
wrote. -/
def execTxEncode (s : State) : Outcome State Fault Refusal :=
  runCommand .txEncode (fun s => do
    let s1 ← txStartBody s
    .ok (s1.synthWindows s1.wc.toNat).finishTx) s

end Sys2Proof.Machine
end

