-- ==== Sys2Proof/Machine/Dispatch.lean ====
section
/-! DEFINITION. The meaning of every command of 30_encoding.md R92. -/

namespace Sys2Proof.Machine

open Host

def exec (i : Instr) (s : State) : Host.Outcome State Fault Refusal :=
  match i with
  | .nop => Sys2Proof.Machine.execNop s
  | .srst => Sys2Proof.Machine.execSrst s
  | .geoResolve => Sys2Proof.Machine.execGeoResolve s
  | .geoWcount => Sys2Proof.Machine.execGeoWcount s
  | .txStart => Sys2Proof.Machine.execTxStart s
  | .txWindow => Sys2Proof.Machine.execTxWindow s
  | .txFinish => Sys2Proof.Machine.execTxFinish s
  | .txEncode => Sys2Proof.Machine.execTxEncode s
  | .rxStart => Sys2Proof.Machine.execRxStart s
  | .rxSpectrum => Sys2Proof.Machine.execRxSpectrum s
  | .rxDetect => Sys2Proof.Machine.execRxDetect s
  | .rxFinish => Sys2Proof.Machine.execRxFinish s
  | .rxDecode => Sys2Proof.Machine.execRxDecode s
  | .bitGet st => Sys2Proof.Machine.execBitGet st s
  | .bitPut st v => Sys2Proof.Machine.execBitPut st v s
  | .bitFlush st => Sys2Proof.Machine.execBitFlush st s
  | .bitClr st => Sys2Proof.Machine.execBitClr st s

end Sys2Proof.Machine
end

