-- ==== Sys2Proof/Machine/HostPort.lean ====
section
/-! DEFINITION. What a host access does (10_state.md R22, R25, R30, R34 to R36; 20_memory.md R64), and
where the next one comes from (log entry 6). -/

namespace Sys2Proof.Machine

open Host (Outcome)

/-- `ACC[s]` as the host reads it (R39): `val` in bits 7:0, `cnt` in bits 10:8. -/
def accWord (a : Acc) : Word := 0#21 ++ a.cnt ++ a.val

/-- The value a host read of a register answers (R36). A reserved index reads 0, and so does `CMD`. -/
def readReg (s : State) (index : Nat) : Word :=
  if index < 0x100 then
    match index with
    | 0x01 => statusWord s.status
    | 0x02 => s.errcode
    | 0x03 => s.errcmd
    | 0x08 => s.param 0
    | 0x09 => s.param 1
    | 0x0A => s.param 2
    | 0x0B => s.param 3
    | 0x0C => s.param 4
    | 0x0D => s.param 5
    | 0x0E => s.param 6
    | 0x0F => s.param 7
    | 0x10 => s.spf
    | 0x11 => s.bandw
    | 0x12 => s.bpb
    | 0x13 => s.avail
    | 0x14 => s.nmin
    | 0x15 => s.nmax
    | 0x16 => s.wc
    | 0x17 => s.widx
    | 0x18 => s.sidx
    | 0x19 => s.pcmlen
    | 0x1A => s.bitix
    | 0x1B => (BitVec.ofBool s.bitv).zeroExtend 32
    | _ => 0
  else if index < 0x200 then
    if index - 0x100 < s.cfg.maxStreams then s.slen[index - 0x100]?.getD 0 else 0
  else if index < 0x300 then
    if index - 0x200 < s.cfg.maxStreams then accWord (s.accOf (index - 0x200)) else 0
  else if index - 0x300 < s.cfg.maxStreams then s.nb[index - 0x300]?.getD 0
  else 0

/-- A host write of parameter register i (R25): dropped while `STATUS.ERR` = 1; P0 to P6 clear
`GEOV`. -/
def writeParam (s : State) (i : Nat) (v : Word) : State :=
  if s.status.err then s.dropWrite
  else if i < 7 then (s.setParam i v).setGeov false
  else s.setParam i v

/-- Whether a host write of a buffer or of a length register is permitted (R34, 20_memory.md R64). -/
def State.hostMayLoad (s : State) : Bool := !s.status.err && decide (s.status.mode = .idle)

/-- A host write of a register other than `CMD` (R25, R34, R35, R36). A write of a read-only or reserved
index is dropped. -/
def writeReg (s : State) (index : Nat) (v : Word) : State :=
  if 0x08 ≤ index ∧ index < 0x10 then writeParam s (index - 0x08) v
  else if index = 0x19 then
    if s.hostMayLoad then { s with pcmlen := v } else s.dropWrite
  else if index = 0x1A then
    if s.status.err then s.dropWrite else { s with bitix := v }
  else if 0x100 ≤ index ∧ index < 0x100 + s.cfg.maxStreams then
    if s.hostMayLoad then s.setSlen (index - 0x100) v else s.dropWrite
  else s.dropWrite

/-- A host write of `CMD` (R30; 60_exceptions.md R245): decode the word and execute the command. -/
def writeCmd (s : State) (w : Word) : Outcome State Fault Refusal :=
  match decode s.cfg w with
  | .ok i => exec i s
  | .error _ => illegalCommand w s

/-- The host gets an answer to a read; the CORE does not change (R22). -/
def State.answer (s : State) (a : HostAnswer) : State :=
  { s with host := { s.host with answers := a :: s.host.answers } }

/-- The state after hard reset (10_state.md R42, R271): nothing in the buffers is defined any more, and
the host, which is outside, goes on. -/
def State.hardReset (s : State) : State :=
  { State.resetOf s.cfg with boots := s.boots + 1, host := s.host }

/-- What one host access does (R22, 20_memory.md R64, 70_reset_and_hazards.md R270). -/
def hostAccess (a : HostAccess) (s : State) : Outcome State Fault Refusal :=
  match a with
  | .writeReg index v => if index = 0 then writeCmd s v else .next (writeReg s index v)
  | .readReg index => .next (s.answer (.reg (readReg s index)))
  | .writeSb st i v =>
      if s.hostMayLoad ∧ st < s.cfg.maxStreams ∧ i < s.cfg.strmCap then .next (s.sbWrite st i v)
      else .next s.dropWrite
  | .readSb st i =>
      if st < s.cfg.maxStreams ∧ i < s.cfg.strmCap then .next (s.answer (.byte (s.sbRead st i)))
      else .next (s.answer (.byte 0))
  | .writePcm i v =>
      if s.hostMayLoad ∧ i < s.cfg.pcmCap then .next (s.pcmWrite i v) else .next s.dropWrite
  | .readPcm i =>
      if i < s.cfg.pcmCap then .next (s.answer (.sample (s.pcmRead i)))
      else .next (s.answer (.sample 0))
  | .hardReset => .next s.hardReset

/-- Take the next access the host makes: the access, and the state in which it is made. -/
def nextAccess (s : State) : Option (HostAccess × State) :=
  match s.host.pending with
  | [] => none
  | a :: rest => some (a, { s with host := { s.host with pending := rest } })

/-- The host's next access becomes a write of the word w to `CMD`, ahead of what it had to do. -/
def State.pushCommand (s : State) (w : Word) : State :=
  { s with host := { s.host with pending := .writeReg 0 w :: s.host.pending } }

end Sys2Proof.Machine
end

