-- ==== Sys2Proof/Machine/Step.lean ====
section
/-! DEFINITION. One step of the machine (10_state.md R22): one host access, a command among them. The
CORE does nothing of its own accord (70_reset_and_hazards.md R272). -/

namespace Sys2Proof.Machine

open Host (Outcome)

/-- One step: the host's next access, whole (R22). While the host asks for nothing, nothing changes
(70_reset_and_hazards.md R272). -/
def step (s : State) : Outcome State Fault Refusal :=
  match nextAccess s with
  | none => .next s
  | some (a, s1) => hostAccess a s1

/-- The table word w placed where `step` takes its next command: as the host's next write to `CMD`. -/
def State.withFetchWord (s : State) (nbits w : Nat) : State :=
  s.pushCommand (BitVec.ofNat 32 (w % 2 ^ nbits))

end Sys2Proof.Machine
end

