-- ==== Sys2Proof/Safety.lean ====
section
/-! DEFINITION. The terms statements are made in: the real numbers that hidden values stand for, the
numerics record over the reals (00_scope.md R13 to R16), the bits of a stream, and the invariants of
10_state.md R43. -/

namespace Sys2Proof

/-! ### The reals -/

/-- The real number a `TrigSum` stands for (00_scope.md R13 to R16). -/
noncomputable def Num.value (x : Num.TrigSum) : ℝ :=
  (x.terms.map fun t => (t.1 : ℝ) * Real.cos (2 * Real.pi * t.2 / Num.ord x)).sum

/-- `NUM.sinT(a, n)` (R13): the sine, or the free table of another instance in its unit (log 15). -/
noncomputable def Num.SIN : NumInstance → (a n : ℕ) → ℝ
  | .reference, a, n => Real.sin (2 * Real.pi * a / n)
  | .other id, a, n => Config.otherSinT id a n

/-- `NUM.RND` (R14) with the cut points of log entry 3: an integer stays; a number strictly between k and
k + 1 goes up beyond the cut between them, and at it if the tie goes up. -/
noncomputable def Num.RND (r : NumInstance) (x : ℝ) : ℤ :=
  if x = ⌊x⌋ then ⌊x⌋
  else if (Num.roundCut r ⌊x⌋ : ℝ) < x ∨ x = Num.roundCut r ⌊x⌋ ∧ Num.roundTie r ⌊x⌋ = true then
    ⌊x⌋ + 1
  else ⌊x⌋

/-- `NUM.MAG(x)[m]` (R15) of the reference instance, with the constant c = 1 (log entry 5). -/
noncomputable def Num.refMAG (x : List ℤ) (m : ℕ) : ℝ :=
  ‖∑ t ∈ Finset.range x.length,
    ((x.getD t 0 : ℤ) : ℂ) * Complex.exp (-(2 * Real.pi * m * t / x.length : ℝ) * Complex.I)‖

/-- `NUM.MAG(x)[m]` (R15): the reference, or the spectrum of another instance in its unit, free but for the
contract of 42_rx_spectro_detect.md R166 (log 15). -/
noncomputable def Num.MAG : NumInstance → (x : List ℤ) → (m : ℕ) → ℝ
  | .reference, x, m => Num.refMAG x m
  | .other id, x, m => Num.content x * √(Config.otherMagSq id (Num.primitive x) m : ℝ)

/-- `NUM.DBGT(m, M, T)` (R16) of the reference instance. -/
def Num.refDBGT (m M T : ℝ) : Prop := 0 < M ∧ 0 < m ∧ T < 20 * Real.logb 10 (m / M)

/-- `NUM.DBGT(m, M, T)` (R16, R172) with T = thr / 2^`THR_FRAC`: the reference, or the free answer of another
instance on whole squares of its unit (log 15). -/
def Num.DBGT : NumInstance → (m M : ℝ) → (thr : ℤ) → Prop
  | .reference, m, M, thr => Num.refDBGT m M ((thr : ℝ) / 2 ^ Config.thrFrac)
  | .other id, m, M, thr =>
      0 < M ∧ 0 < m ∧ Num.otherDbgt id ⌊m ^ 2⌋₊ ⌊M ^ 2⌋₊ thr = true

/-- The greatest of the listed numbers, and 0 for none (of numbers that are not negative). -/
noncomputable def greatestOf (xs : List ℝ) : ℝ := xs.foldr max 0

namespace Machine

open Host (Outcome)

/-- The real number `WAVE[a]` (10_state.md R40). -/
noncomputable def State.waveValue (s : State) (a : Nat) : ℝ := Num.value (s.wave.getD a Num.zero)

/-- The real number `MAG[p][n]` (R41) with c = 1; the model stores its square (log entry 5). -/
noncomputable def State.magnitude (s : State) (p n : Nat) : ℝ := √(Num.value (s.magOf p n))

/-- The real number `MMAX` (R41) with c = 1. -/
noncomputable def State.maxMagnitude (s : State) : ℝ := √(Num.value s.mmax)

/-- The threshold T in dB (R26). -/
noncomputable def State.threshold (s : State) : ℝ := (s.thr : ℝ) / 2 ^ Config.thrFrac

/-! ### Streams -/

/-- The bits placed in stream st so far, in order of arrival: those of its valid bytes, then those in
its accumulator (43_bitpack.md R202). -/
def State.placed (s : State) (st : Nat) : List Bool :=
  ((List.range (8 * s.slenOf st)).map fun b => s.streamBit st b) ++
    (List.range (s.accOf st).cnt.toNat).map fun r =>
      (s.accOf st).val.getLsbD ((s.accOf st).cnt.toNat - 1 - r)

/-- Every element of every buffer reads the same in both states. -/
def State.sameBuffers (s t : State) : Prop :=
  (∀ st a, t.sbRead st a = s.sbRead st a) ∧ ∀ a, t.pcmRead a = s.pcmRead a

/-- Commands executed one after another. -/
def execAll : List Instr → State → Outcome State Fault Refusal
  | [], s => .next s
  | i :: is, s =>
      match exec i s with
      | .next t => execAll is t
      | .fault r => .fault r
      | .refused r => .refused r

/-- The command i in state s raises the error e: `ERR`, `ERRCODE` and `ERRCMD` record it, `DONE` is 0, and
nothing else changes (60_exceptions.md R244). -/
def Raises (i : Instr) (s : State) (e : ErrCode) : Prop :=
  exec i s = .next { s with
    status := { s.status with done := false, err := true }
    errcode := e.code
    errcmd := encode i }

/-- Every register, accumulator and hidden store as 10_state.md R42 gives it after reset. -/
structure State.Cleared (s : State) : Prop where
  params : ∀ i < 8, s.param i = 0
  status : statusWord s.status = 0
  error : s.errcode = 0 ∧ s.errcmd = 0
  geometry : s.spf = 0 ∧ s.bandw = 0 ∧ s.bpb = 0 ∧ s.avail = 0 ∧ s.nmin = 0 ∧ s.nmax = 0 ∧ s.wc = 0
  nb : ∀ i < s.cfg.maxStreams, s.nbOf i = 0
  sequence : s.widx = 0 ∧ s.sidx = 0
  lengths : s.pcmlen = 0 ∧ ∀ st < s.cfg.maxStreams, s.slenOf st = 0
  port : s.bitix = 0 ∧ s.bitv = false
  phase : ∀ i j, s.phaseOf i j = 0
  acc : ∀ st < s.cfg.maxStreams, s.accOf st = ⟨0, 0⟩
  hidden : s.wave = [] ∧ s.mag = [] ∧ Num.value s.amax = 0 ∧ Num.value s.mmax = 0

/-! ### The geometry over the rationals (40_geometry.md R113 to R118) -/

/-- df, the width of a native bin in Hz (R116). -/
def Params.df (p : Params) : ℚ := p.fs / p.nfft

/-- S, the spacing of the bins in Hz (R116). -/
def Params.spacing (p : Params) : ℚ := p.k * p.df

/-- W = ceil((fhi - flo) / N) (R114). -/
def Params.width (p : Params) : ℤ := ⌈((p.fhi : ℚ) - p.flo) / p.n⌉

/-- `BPB` = floor(W / S) (R117). -/
def Params.binsPerBand (p : Params) : ℤ := ⌊(p.width : ℚ) / p.spacing⌋

/-- `AVAIL` = floor((fhi - flo) / S) (R117). -/
def Params.binsAvailable (p : Params) : ℤ := ⌊((p.fhi : ℚ) - p.flo) / p.spacing⌋

/-- `NB[i]` = ceil((flo + i·W) / df) (R118). -/
def Params.firstBin (p : Params) (i : ℕ) : ℤ := ⌈((p.flo : ℚ) + i * p.width) / p.df⌉

/-- `NMAX`, the last bin of the last band (R113). -/
def Params.lastBin (p : Params) : ℤ := p.firstBin (p.n - 1) + (p.binsPerBand - 1) * p.k

/-- Checks 1 to 5 of R112: what the derivation of the geometry needs. -/
structure Params.Derivable (c : Config) (p : Params) : Prop where
  bounds : p.flo < p.fhi
  fsym : 0 < p.fsym
  window : 1 ≤ p.nfft ∧ p.nfft * p.fsym < p.fs
  decim : 1 ≤ p.k
  streams : 1 ≤ p.n ∧ p.n ≤ c.maxStreams

/-- Check 6 of R112. -/
def Params.EnoughBins (p : Params) : Prop :=
  1 ≤ p.binsPerBand ∧ (p.n : ℤ) ≤ p.binsAvailable ∧ p.binsPerBand * p.n ≤ p.binsAvailable

/-- Check 7 of R112. -/
def Params.InRange (p : Params) : Prop := 1 ≤ p.firstBin 0 ∧ 2 * p.lastBin < p.nfft

/-- Check 8 of R112. -/
def Params.FitsPhases (c : Config) (p : Params) : Prop := p.binsPerBand * p.n ≤ c.phaseCap

/-- Checks 1 to 8 of R112. -/
structure Params.Valid (c : Config) (p : Params) : Prop extends p.Derivable c where
  bins : p.EnoughBins
  range : p.InRange
  phases : p.FitsPhases c

/-! ### The receive run (42_rx_spectro_detect.md) -/

/-- The samples transformed for slice p of wc slices: the sub-window of R163 to R165 of the padded
sequence of R162. -/
def State.receivedSlice (s : State) (wc p : ℕ) : List ℤ :=
  (List.range s.nfft).map fun t =>
    let a := p * s.spf.toNat + (if p + 1 = wc then 0 else (s.spf.toNat - s.nfft) / 2) + t
    if a < s.pcmlen.toNat then s.pcmRead a else 0

/-- The global maximum magnitude over wc slices (R168). -/
noncomputable def State.receivedMaximum (s : State) (wc : ℕ) : ℝ :=
  greatestOf ((List.range wc).flatMap fun p =>
    (List.range s.nfft).map fun n => Num.MAG s.cfg.num (s.receivedSlice wc p) n)

/-! ### Invariants -/

/-- The derived registers hold what P0 to P6 derive, and these pass the checks (10_state.md R32,
40_geometry.md R113). -/
structure State.Resolved (s : State) : Prop where
  check : s.geoParams.check s.cfg = none
  spf : s.spf.toNat = s.geoParams.spf
  bandw : s.bandw.toNat = s.geoParams.bandw
  bpb : s.bpb.toNat = s.geoParams.bpb
  avail : s.avail.toNat = s.geoParams.avail
  nmin : s.nmin.toNat = s.geoParams.nmin
  nmax : s.nmax.toNat = s.geoParams.nmax
  nb : ∀ i < s.cfg.maxStreams, s.nbOf i = if i < s.nstr then s.geoParams.nb i else 0

/-- The state invariants of 10_state.md R43, by its letters. -/
structure State.Inv (s : State) : Prop where
  /-- (a) -/
  noError : s.status.err = false → s.errcode = 0 ∧ s.errcmd = 0
  /-- (b) -/
  geometry : s.status.geov = true → s.Resolved
  /-- (c) -/
  windows : s.status.mode ≠ .idle → s.widx ≤ s.wc ∧ s.sidx ≤ s.wc
  /-- (c) -/
  txSlice : s.status.mode = .tx → s.sidx = 0
  /-- (d) -/
  acc : ∀ st < s.cfg.maxStreams, (s.accOf st).val.toNat < 2 ^ (s.accOf st).cnt.toNat
  /-- (e) -/
  phase : s.status.mode = .tx → s.status.geov = true →
    ∀ i < s.nstr, ∀ j < s.bpb.toNat, s.phaseOf i j < s.nfft
  /-- (f) -/
  waveLength : s.status.mode = .tx → s.wave.length = s.widx.toNat * s.spf.toNat
  /-- (f) -/
  wavePeak : s.status.mode = .tx →
    Num.value s.amax = greatestOf (s.wave.map fun x => |Num.value x|)
  /-- (g) -/
  magLength : s.status.mode = .rx → s.mag.length = s.sidx.toNat
  /-- (g) -/
  magSlices : s.status.mode = .rx → s.status.geov = true →
    ∀ p < s.sidx.toNat, s.mag[p]? = some (s.spectrum p)
  /-- (g) -/
  magPeak : s.status.mode = .rx →
    s.maxMagnitude = greatestOf (s.mag.flatten.map fun m => √(Num.value m))

/-- What `TX.START` and `RX.START` check once for the whole run (41_tx_synth.md R131,
42_rx_spectro_detect.md R161), while the run has its geometry: the streams and the waveform fit, and
every stream of a receive run has got the bits of the windows decided so far. -/
structure State.RunFits (s : State) : Prop where
  txStreams : s.status.mode = .tx → s.status.geov = true →
    ∀ i < s.nstr, s.slenOf i ≤ s.cfg.strmCap
  txWindows : s.status.mode = .tx → s.status.geov = true → s.wc.toNat = s.payloadWindows
  txSamples : s.status.mode = .tx → s.status.geov = true →
    s.wc.toNat * s.spf.toNat ≤ s.cfg.pcmCap
  rxWindows : s.status.mode = .rx → s.status.geov = true → s.wc.toNat = s.receivedWindows
  rxBytes : s.status.mode = .rx → s.status.geov = true →
    cdiv (s.wc.toNat * s.bpb.toNat) 8 ≤ s.cfg.strmCap
  rxPlaced : s.status.mode = .rx → s.status.geov = true →
    ∀ i < s.nstr, (s.placed i).length = s.widx.toNat * s.bpb.toNat

/-- The windows before p in which cell (i, j) is active (41_tx_synth.md R142 (b)). -/
def State.activeBefore (s : State) (i j p : Nat) : Nat :=
  ((List.range p).filter fun q => s.isActive q i j).length

/-- The phase table in closed form while a transmit run has its geometry (R142 (b)). -/
def State.PhasesClosed (s : State) : Prop :=
  s.status.mode = .tx → s.status.geov = true → ∀ i < s.nstr, ∀ j < s.bpb.toNat,
    s.phaseOf i j = s.nativeBin i j * s.spf.toNat * s.activeBefore i j s.widx.toNat % s.nfft

/-- Sample t of window p in closed form: an active cell contributes the sinusoid that runs on from the
windows before p in which it was active (R133, R136, R142). -/
noncomputable def State.closedSample (s : State) (p t : Nat) : ℝ :=
  ∑ i ∈ Finset.range s.nstr, ∑ j ∈ Finset.range s.bpb.toNat,
    if s.streamBit i (p * s.bpb.toNat + j) then
      Num.SIN s.cfg.num (s.nativeBin i j * (s.spf.toNat * s.activeBefore i j p + t) % s.nfft) s.nfft
    else 0

/-- The waveform in closed form while a transmit run has its geometry. -/
def State.WaveClosed (s : State) : Prop :=
  s.status.mode = .tx → s.status.geov = true → ∀ p < s.widx.toNat, ∀ t < s.spf.toNat,
    s.waveValue (p * s.spf.toNat + t) = s.closedSample p t

/-- The buffers are in canonical form (log entry 4), and a sample that has been written is a B-bit
two's-complement integer (20_memory.md R62). -/
def State.buffersWf (s : State) : Prop :=
  (∀ st, Memory.wf (s.sbOf st)) ∧ Memory.wf s.pcm ∧
    ∀ c ∈ s.pcm, -2 ^ (s.cfg.sampleBits - 1) ≤ c.2 ∧ c.2 < 2 ^ (s.cfg.sampleBits - 1)

end Machine

end Sys2Proof
end

