-- ==== Sys2Proof/Certificates/Slice0/Obligations.lean ====
section
/-! DEFINITION. The statements for the provers. Each docstring names the rules of spec/ it formalises. -/

open Sys2Proof Sys2Proof.Machine
open Host (Outcome)

/-! ## The command word -/

/-- R90 to R92: decoding the word of a well-formed command gives the command back, every operand
included, whatever the sizes. -/
def Obligations.DecodeInvertsEncode : Prop :=
  ∀ (c : Config) (i : Instr), i.wf c = true → decode c (encode i) = .ok i

/-- R90: a word that decodes names exactly one command, a well-formed one, whose word it is; so no other
word executes as that command. -/
def Obligations.EncodeInvertsDecode : Prop :=
  ∀ (c : Config) (w : Word) (i : Instr), decode c w = .ok i → i.wf c = true ∧ encode i = w

/-- R93: exactly these words are illegal. With op = w[31:24] and s = w[23:16]: an op that is not listed;
a 1 in a bit that the format says is zero; a stream index of `MAX_STREAMS` or more. Written to `CMD`
outside the error state such a word raises `E_ILLCMD`. -/
def Obligations.IllegalWordsRefused : Prop :=
  ∀ (c : Config) (w : Word),
    ((∃ e, decode c w = .error e) ↔
      (¬ w.toNat / 2 ^ 24 ∈ [0x00, 0x01, 0x10, 0x11, 0x20, 0x21, 0x22, 0x23, 0x30, 0x31, 0x32, 0x33,
          0x34, 0x40, 0x41, 0x42, 0x43] ∨
        w.toNat / 2 ^ 24 < 0x40 ∧ w.toNat % 2 ^ 24 ≠ 0 ∨
        w.toNat / 2 ^ 24 ∈ [0x40, 0x42, 0x43] ∧ w.toNat % 2 ^ 16 ≠ 0 ∨
        w.toNat / 2 ^ 24 = 0x41 ∧ w.toNat % 2 ^ 16 / 2 ≠ 0 ∨
        0x40 ≤ w.toNat / 2 ^ 24 ∧ c.maxStreams ≤ w.toNat / 2 ^ 16 % 2 ^ 8)) ∧
    ∀ s : State, s.cfg = c → (∃ e, decode c w = .error e) → s.status.err = false →
      hostAccess (.writeReg 0 w) s = .next { s with
        status := { s.status with done := false, err := true }, errcode := 10, errcmd := w }

/-- R92: words written out from the opcode map, one of each family, decode to the commands they stand
for, and words one step off are illegal, with the default `MAX_STREAMS` = 16 of R12. -/
def Obligations.WrittenWordsDecode : Prop :=
  decode .default 0x01000000#32 = .ok .srst ∧
  decode .default 0x10000000#32 = .ok .geoResolve ∧
  decode .default 0x21000000#32 = .ok .txWindow ∧
  decode .default 0x32000000#32 = .ok .rxDetect ∧
  decode .default 0x41030001#32 = .ok (.bitPut 3#8 true) ∧
  decode .default 0x430F0000#32 = .ok (.bitClr 15#8) ∧
  decode .default 0x40100000#32 = .error .noSuchStream ∧
  decode .default 0x41030002#32 = .error .nonzeroReserved ∧
  decode .default 0x24000000#32 = .error .unassignedOp

/-! ## Steps and the life of a command -/

/-- R30, R22 (c): when the host's next access writes a word to `CMD` that decodes to a command, the step
is that command, whole. (The queue of the host's accesses is the model's: log 6.) -/
def Obligations.StepRunsDecodedCommand : Prop :=
  ∀ (s : State) (w : Word) (rest : List HostAccess) (i : Instr),
    s.host.pending = .writeReg 0 w :: rest → decode s.cfg w = .ok i →
      step s = exec i { s with host := { s.host with pending := rest } }

/-- R272: while the host asks for nothing the CORE does nothing. (The model's idle step: log 6.) -/
def Obligations.IdleWithoutHost : Prop :=
  ∀ s : State, s.host.pending = [] → step s = .next s

/-- R287: every command in every state, and every other access, has a result. -/
def Obligations.EveryStepAnswersNext : Prop :=
  (∀ (i : Instr) (s : State), ∃ t, exec i s = .next t) ∧ ∀ s : State, ∃ t, step s = .next t

/-- R245: acceptance of a word written to `CMD`: (a) refused without any change in the error state,
unless it is `SRST`; (b) `SRST` executes in every state; (c) otherwise it ends in `DONE` = 1 or in a
raise, which leaves `DONE` = 0. -/
def Obligations.CommandAcceptance : Prop :=
  ∀ (s : State) (w : Word),
    (s.status.err = true → decode s.cfg w ≠ .ok .srst → hostAccess (.writeReg 0 w) s = .next s) ∧
    (decode s.cfg w = .ok .srst → hostAccess (.writeReg 0 w) s = .next s.softReset) ∧
    (s.status.err = false → decode s.cfg w ≠ .ok .srst →
      ∃ t, hostAccess (.writeReg 0 w) s = .next t ∧
        (t.status.done = true ∧ t.status.err = false ∨
         t.status.done = false ∧ t.status.err = true))

/-- R244: a command that raises sets `ERR`, `ERRCODE` and `ERRCMD`, its own word, leaves `DONE` at 0 and
changes nothing else; one that does not raise ends with `DONE` = 1 and the error registers as they
were. -/
def Obligations.RaiseIsPrecise : Prop :=
  ∀ (i : Instr) (s t : State), i ≠ .srst → s.status.err = false → exec i s = .next t →
    (t.status.err = true → ∃ e : ErrCode, t = { s with
      status := { s.status with done := false, err := true }
      errcode := e.code, errcmd := encode i }) ∧
    (t.status.err = false →
      t.status.done = true ∧ t.errcode = s.errcode ∧ t.errcmd = s.errcmd)

/-- R245, R247, R248: the error state stays: nothing but `SRST` and hard reset changes anything in it
except `WDROP`. -/
def Obligations.ErrorStateSticks : Prop :=
  ∀ (s t : State) (a : HostAccess), s.status.err = true → a ≠ .hardReset →
    (∀ w, a = .writeReg 0 w → decode s.cfg w ≠ .ok .srst) → hostAccess a s = .next t →
      t = { s with status := { s.status with wdrop := t.status.wdrop }
                   host := { s.host with answers := t.host.answers } }

/-- R97, R246 (2) to (4): the common checks of every command in their order: the mode (`E_SEQ`), then the
geometry (`E_NOGEO`), then the further condition (`E_SEQ`). -/
def Obligations.CommonChecksInOrder : Prop :=
  ∀ s : State, s.status.err = false →
    (s.status.mode ≠ .idle →
      (∀ i ∈ [Instr.geoResolve, .geoWcount, .txStart, .txEncode, .rxStart, .rxDecode],
        Raises i s .seq) ∧
      ∀ st v, ∀ i ∈ [Instr.bitGet st, .bitPut st v, .bitFlush st, .bitClr st], Raises i s .seq) ∧
    (s.status.mode ≠ .tx → ∀ i ∈ [Instr.txWindow, .txFinish], Raises i s .seq) ∧
    (s.status.mode ≠ .rx → ∀ i ∈ [Instr.rxSpectrum, .rxDetect, .rxFinish], Raises i s .seq) ∧
    (s.status.geov = false →
      (s.status.mode = .idle →
        ∀ i ∈ [Instr.geoWcount, .txStart, .txEncode, .rxStart, .rxDecode], Raises i s .nogeo) ∧
      (s.status.mode = .tx → ∀ i ∈ [Instr.txWindow, .txFinish], Raises i s .nogeo) ∧
      (s.status.mode = .rx →
        ∀ i ∈ [Instr.rxSpectrum, .rxDetect, .rxFinish], Raises i s .nogeo)) ∧
    (s.status.geov = true →
      (s.status.mode = .tx →
        (¬ s.widx < s.wc → Raises .txWindow s .seq) ∧
        (s.widx ≠ s.wc → Raises .txFinish s .seq)) ∧
      (s.status.mode = .rx →
        (¬ s.sidx < s.wc → Raises .rxSpectrum s .seq) ∧
        (¬ (s.sidx = s.wc ∧ s.widx < s.wc) → Raises .rxDetect s .seq) ∧
        (¬ (s.sidx = s.wc ∧ s.widx = s.wc) → Raises .rxFinish s .seq)))

/-! ## System -/

/-- R220: `NOP` sets `DONE` and nothing else; in the error state it changes nothing at all. -/
def Obligations.NopCompletes : Prop :=
  ∀ s : State,
    (s.status.err = false →
      exec .nop s = .next { s with status := { s.status with done := true } }) ∧
    (s.status.err = true → exec .nop s = .next s)

/-- R221, R42: `SRST` completes in every state and leaves every register, accumulator and hidden store
at its reset value, and every buffer element unchanged. -/
def Obligations.SoftResetClears : Prop :=
  ∀ s : State, ∃ t, exec .srst s = .next t ∧ t.Cleared ∧ s.sameBuffers t ∧
    t.host = s.host ∧ t.cfg = s.cfg

/-- R271, R42: hard reset leaves the same registers as `SRST`; no element of a buffer keeps its value:
each has the free value of the new reset (log 4). -/
def Obligations.HardResetClears : Prop :=
  ∀ s : State, ∃ t, hostAccess .hardReset s = .next t ∧ t.Cleared ∧ t.host = s.host ∧
    t.cfg = s.cfg ∧ t.boots = s.boots + 1 ∧
    (∀ st a, t.sbRead st a = Config.resetByte t.boots st a) ∧
    ∀ a, t.pcmRead a = s.cfg.wrapSample (Config.resetSample t.boots a)

/-- R42: the state the machine starts in, whatever its configuration. -/
def Obligations.ResetStateCleared : Prop :=
  ∀ c : Config, (State.resetOf c).Cleared ∧ (State.resetOf c).cfg = c

/-! ## Geometry -/

/-- R113: `GEO.RESOLVE` completes exactly when checks 1 to 8 hold, and then the registers hold, without
wrapping, what the rational formulas derive (R33: the entries of `NB` from N on hold 0). -/
def Obligations.GeoResolveDerives : Prop :=
  ∀ s : State, s.status.err = false → s.status.mode = .idle →
    (s.geoParams.Valid s.cfg → ∃ t, exec .geoResolve s = .next t ∧
      (t.spf.toNat : ℤ) = ⌊(s.geoParams.fs : ℚ) / s.geoParams.fsym⌋ ∧
      (t.bandw.toNat : ℤ) = s.geoParams.width ∧
      (t.bpb.toNat : ℤ) = s.geoParams.binsPerBand ∧
      (t.avail.toNat : ℤ) = s.geoParams.binsAvailable ∧
      (t.nmin.toNat : ℤ) = s.geoParams.firstBin 0 ∧
      (t.nmax.toNat : ℤ) = s.geoParams.lastBin ∧
      (∀ i < s.nstr, (t.nbOf i : ℤ) = s.geoParams.firstBin i) ∧
      (∀ i, s.nstr ≤ i → t.nbOf i = 0) ∧
      s.sameBuffers t ∧
      t = { s with
        spf := t.spf, bandw := t.bandw, bpb := t.bpb, avail := t.avail, nmin := t.nmin
        nmax := t.nmax, nb := t.nb
        status := { s.status with geov := true, done := true } }) ∧
    (¬ s.geoParams.Valid s.cfg → ∃ e, Raises .geoResolve s e)

/-- R112, R243: where a check fails `GEO.RESOLVE` raises the error of the first that fails. -/
def Obligations.GeoResolveFirstFailure : Prop :=
  ∀ (s : State) (p : Params), s.status.err = false → s.status.mode = .idle → s.geoParams = p →
    (¬ p.flo < p.fhi → Raises .geoResolve s .bounds) ∧
    (p.flo < p.fhi → p.fsym = 0 → Raises .geoResolve s .fsym) ∧
    (p.flo < p.fhi → 0 < p.fsym → ¬ (1 ≤ p.nfft ∧ p.nfft * p.fsym < p.fs) →
      Raises .geoResolve s .window) ∧
    (p.flo < p.fhi → 0 < p.fsym → 1 ≤ p.nfft ∧ p.nfft * p.fsym < p.fs → p.k = 0 →
      Raises .geoResolve s .decim) ∧
    (p.flo < p.fhi → 0 < p.fsym → 1 ≤ p.nfft ∧ p.nfft * p.fsym < p.fs → 1 ≤ p.k →
      ¬ (1 ≤ p.n ∧ p.n ≤ s.cfg.maxStreams) → Raises .geoResolve s .streams) ∧
    (p.Derivable s.cfg → ¬ p.EnoughBins → Raises .geoResolve s .bins) ∧
    (p.Derivable s.cfg → p.EnoughBins → ¬ p.InRange → Raises .geoResolve s .range) ∧
    (p.Derivable s.cfg → p.EnoughBins → p.InRange → ¬ p.FitsPhases s.cfg → Raises .geoResolve s .cap)

/-- R120: the bin map of a geometry that passes: (a) a band's bins fit its width; (b), (c), (d) bins rise
strictly from cell to cell, k apart in a band and at least k apart between bands; (e) every tone
lies in its nominal band; (f) every bin lies in `NMIN` to `NMAX`, below half the transform; (g)
check 6 needs only two of its three conditions. -/
def Obligations.BinMapProperties : Prop :=
  (∀ (c : Config) (p : Params), p.Valid c →
    (p.binsPerBand : ℚ) * p.spacing ≤ p.width ∧
    (∀ i, i + 1 < p.n → p.firstBin i + p.binsPerBand * p.k ≤ p.firstBin (i + 1)) ∧
    (∀ i i' j j' : ℕ, i < p.n → i' < p.n → (j : ℤ) < p.binsPerBand → (j' : ℤ) < p.binsPerBand →
      (i < i' ∨ i = i' ∧ j < j') → p.firstBin i + j * p.k + p.k ≤ p.firstBin i' + j' * p.k) ∧
    ∀ i j : ℕ, i < p.n → (j : ℤ) < p.binsPerBand →
      ((p.flo : ℚ) + i * p.width ≤ (p.firstBin i + j * p.k : ℤ) * p.df ∧
        (p.firstBin i + j * p.k : ℤ) * p.df < (p.flo : ℚ) + (i + 1) * p.width) ∧
      1 ≤ p.firstBin 0 ∧ p.firstBin 0 ≤ p.firstBin i + j * p.k ∧
      p.firstBin i + j * p.k ≤ p.lastBin ∧ 2 * p.lastBin < p.nfft) ∧
  ∀ (c : Config) (p : Params), p.Derivable c → 1 ≤ p.binsPerBand → p.binsPerBand * p.n ≤ p.binsAvailable →
    (p.n : ℤ) ≤ p.binsAvailable

/-- R122: `GEO.WCOUNT` writes ceil(8 × longest stream / `BPB`) to `WC` and nothing else; a stream longer
than its buffer raises `E_CAP`. -/
def Obligations.GeoWcountCounts : Prop :=
  ∀ s : State, s.Inv → s.status.err = false → s.status.mode = .idle → s.status.geov = true →
    (∀ l, (∀ i < s.nstr, s.slenOf i ≤ l) → (∃ i < s.nstr, s.slenOf i = l) → l ≤ s.cfg.strmCap →
      ∃ t, exec .geoWcount s = .next t ∧
        (t.wc.toNat : ℤ) = ⌈(8 * l : ℚ) / s.bpb.toNat⌉ ∧
        s.sameBuffers t ∧
        t = { s with wc := t.wc, status := { s.status with done := true } }) ∧
    ((∃ i < s.nstr, s.cfg.strmCap < s.slenOf i) → Raises .geoWcount s .cap)

/-- R32, R24: no command but `GEO.RESOLVE` and `SRST` changes a derived geometry register or `NB`, and
none but `SRST` changes a parameter. -/
def Obligations.GeometryWrittenOnlyByResolve : Prop :=
  ∀ (i : Instr) (s t : State), i ≠ .srst → exec i s = .next t →
    t.params = s.params ∧
    (i ≠ .geoResolve → t.spf = s.spf ∧ t.bandw = s.bandw ∧ t.bpb = s.bpb ∧ t.avail = s.avail ∧
      t.nmin = s.nmin ∧ t.nmax = s.nmax ∧ t.nb = s.nb)

/-! ## Transmit -/

/-- R131: `TX.START` writes the window count and empties the run's stores; too long a stream or too
long a waveform raises `E_CAP`. -/
def Obligations.TxStartBegins : Prop :=
  ∀ s : State, s.Inv → s.status.err = false → s.status.mode = .idle → s.status.geov = true →
    (∀ l, (∀ i < s.nstr, s.slenOf i ≤ l) → (∃ i < s.nstr, s.slenOf i = l) →
      (l ≤ s.cfg.strmCap → ⌈(8 * l : ℚ) / s.bpb.toNat⌉ * s.spf.toNat ≤ s.cfg.pcmCap →
        ∃ t, exec .txStart s = .next t ∧
          (t.wc.toNat : ℤ) = ⌈(8 * l : ℚ) / s.bpb.toNat⌉ ∧
          (∀ i j, t.phaseOf i j = 0) ∧ Num.value t.amax = 0 ∧ s.sameBuffers t ∧
          t = { s with
            wc := t.wc, widx := 0, sidx := 0, phase := t.phase, wave := [], amax := t.amax
            status := { s.status with txsil := false, mode := .tx, done := true } }) ∧
      (¬ (l ≤ s.cfg.strmCap ∧ ⌈(8 * l : ℚ) / s.bpb.toNat⌉ * s.spf.toNat ≤ s.cfg.pcmCap) →
        Raises .txStart s .cap))

/-- R133, R136, R137: `TX.WINDOW` appends `SPF` samples, each the sum of the sines of the active cells;
the phases of the active cells advance; `AMAX` is the greatest |WAVE|; `WIDX` advances by one. -/
def Obligations.TxWindowSynthesizes : Prop :=
  ∀ s : State, s.Inv → s.status.err = false → s.status.mode = .tx → s.status.geov = true →
    s.widx < s.wc →
    ∃ t, exec .txWindow s = .next t ∧
      t.widx.toNat = s.widx.toNat + 1 ∧
      t.wave.length = t.widx.toNat * s.spf.toNat ∧
      (∀ a < s.widx.toNat * s.spf.toNat, t.wave[a]? = s.wave[a]?) ∧
      (∀ u < s.spf.toNat, t.waveValue (s.widx.toNat * s.spf.toNat + u) =
        ∑ i ∈ Finset.range s.nstr, ∑ j ∈ Finset.range s.bpb.toNat,
          if s.streamBit i (s.widx.toNat * s.bpb.toNat + j) then
            Num.SIN s.cfg.num ((s.phaseOf i j + s.nativeBin i j * u) % s.nfft) s.nfft
          else 0) ∧
      (∀ i < s.nstr, ∀ j < s.bpb.toNat, t.phaseOf i j =
        if s.streamBit i (s.widx.toNat * s.bpb.toNat + j) then
          (s.phaseOf i j + s.nativeBin i j * s.spf.toNat) % s.nfft
        else s.phaseOf i j) ∧
      Num.value t.amax = greatestOf (t.wave.map fun x => |Num.value x|) ∧
      s.sameBuffers t ∧
      t = { s with
        phase := t.phase, wave := t.wave, amax := t.amax, widx := t.widx
        status := { s.status with done := true } }

/-- R138: `TX.FINISH` writes `WC`·`SPF` samples, each `NUM.RND` of the sample of `WAVE` scaled so that the
peak is full scale, or 0 where `AMAX` = 0; no other element of a buffer changes. -/
def Obligations.TxFinishEmits : Prop :=
  ∀ s : State, s.Inv → s.RunFits → s.status.err = false → s.status.mode = .tx →
    s.status.geov = true → s.widx = s.wc →
    ∃ t, exec .txFinish s = .next t ∧
      t.pcmlen.toNat = s.wc.toNat * s.spf.toNat ∧
      (∀ a < s.wc.toNat * s.spf.toNat,
        (0 < Num.value s.amax → t.pcmRead a =
          Num.RND s.cfg.rnd (s.waveValue a * s.cfg.fsmax / Num.value s.amax)) ∧
        (Num.value s.amax = 0 → t.pcmRead a = 0)) ∧
      (∀ a, s.wc.toNat * s.spf.toNat ≤ a → t.pcmRead a = s.pcmRead a) ∧
      (∀ st a, t.sbRead st a = s.sbRead st a) ∧
      (t.status.txsil = true ↔ Num.value s.amax = 0) ∧
      t = { s with
        pcm := t.pcm, pcmlen := t.pcmlen, wave := []
        status := { s.status with txsil := t.status.txsil, mode := .idle, done := true } }

/-- R139: with `AMAX` > 0 every emitted sample lies in -`FSMAX` to `FSMAX`, one has full scale, and a
`WAVE` value of 0 gives the sample 0. -/
def Obligations.EmittedSamplesFullScale : Prop :=
  ∀ s t : State, s.Inv → s.RunFits → s.status.err = false → s.status.mode = .tx →
    s.status.geov = true → s.widx = s.wc → 0 < Num.value s.amax → exec .txFinish s = .next t →
      (∀ a < t.pcmlen.toNat, -(s.cfg.fsmax : ℤ) ≤ t.pcmRead a ∧
        t.pcmRead a ≤ s.cfg.fsmax) ∧
      (∃ a < t.pcmlen.toNat, |t.pcmRead a| = s.cfg.fsmax) ∧
      ∀ a < t.pcmlen.toNat, s.waveValue a = 0 → t.pcmRead a = 0

/-- R14: the laws of every instance of `NUM.RND`: integers stay, and it is monotone; so it moves a number
by less than 1. The reference instance rounds to nearest, ties away from zero. -/
def Obligations.RoundingLaws : Prop :=
  (∀ r : NumInstance,
    (∀ z : ℤ, Num.RND r z = z) ∧ (∀ x y : ℝ, x ≤ y → Num.RND r x ≤ Num.RND r y) ∧
    ∀ x : ℝ, |(Num.RND r x : ℝ) - x| < 1) ∧
  ∀ x : ℝ, Num.RND .reference x = SignType.sign x * ⌊|x| + 1 / 2⌋

/-- R143: `TX.ENCODE` is `TX.START`, then `TX.WINDOW` `WC` times, then `TX.FINISH`; where `TX.START` raises
it raises the same error under its own word. -/
def Obligations.TxEncodeIsTheRun : Prop :=
  ∀ s : State, s.status.err = false → s.status.mode = .idle → s.status.geov = true →
    ((∀ i < s.nstr, s.slenOf i ≤ s.cfg.strmCap) →
      s.payloadWindows * s.spf.toNat ≤ s.cfg.pcmCap →
      ∃ s1 t, exec .txStart s = .next s1 ∧
        execAll (List.replicate s1.wc.toNat .txWindow ++ [.txFinish]) s1 = .next t ∧
        exec .txEncode s = .next t ∧
        t.status.mode = .idle ∧ t.status.done = true ∧ t.status.err = false ∧ t.widx = t.wc ∧
        t.wc.toNat = s.payloadWindows ∧ t.pcmlen.toNat = t.wc.toNat * t.spf.toNat ∧
        (∀ st a, t.sbRead st a = s.sbRead st a) ∧
        (∀ a, t.pcmlen.toNat ≤ a → t.pcmRead a = s.pcmRead a) ∧
        t = { s with
          wc := t.wc, widx := t.widx, sidx := 0, phase := t.phase, wave := [], amax := t.amax
          pcm := t.pcm, pcmlen := t.pcmlen
          status := { s.status with txsil := t.status.txsil, done := true } }) ∧
    (¬ ((∀ i < s.nstr, s.slenOf i ≤ s.cfg.strmCap) ∧
        s.payloadWindows * s.spf.toNat ≤ s.cfg.pcmCap) →
      Raises .txStart s .cap ∧ Raises .txEncode s .cap)

/-- R142 (b): in a transmit run that has its geometry the phase of a cell is
(n·`SPF`·c) mod Nfft, c the number of earlier windows in which the cell was active: an invariant
of every step. -/
def Obligations.PhaseClosedFormKept : Prop :=
  ∀ s t : State, s.Inv → s.PhasesClosed → step s = .next t → t.PhasesClosed

/-- R142 (a), (b): in a transmit run that has its geometry the waveform is in closed form: an active
cell's sinusoid runs on, without a jump, from the windows before in which it was active: an
invariant of every step. -/
def Obligations.WaveClosedFormKept : Prop :=
  ∀ s t : State, s.Inv → s.PhasesClosed → s.WaveClosed → step s = .next t → t.WaveClosed

/-- R140: a waveform is silent exactly when no cell of any window synthesized is active: tones of
distinct bins strictly between DC and half the sample rate never cancel over a window. (With the exact
sine of R13.) -/
def Obligations.SilentExactlyWithoutActiveCell : Prop :=
  ∀ s : State, s.Inv → s.WaveClosed → s.cfg.num = .reference → s.status.mode = .tx →
    s.status.geov = true →
    (Num.value s.amax = 0 ↔ ∀ p < s.widx.toNat, ∀ i < s.nstr, ∀ j < s.bpb.toNat,
      s.streamBit i (p * s.bpb.toNat + j) = false)

/-! ## Receive -/

/-- R161: `RX.START` writes the window count and empties the streams below N and the run's stores; too
many samples, or decoded streams too long for their buffers, raise `E_CAP`. -/
def Obligations.RxStartBegins : Prop :=
  ∀ s : State, s.Inv → s.status.err = false → s.status.mode = .idle → s.status.geov = true →
    (s.pcmlen.toNat ≤ s.cfg.pcmCap →
      ⌈(⌈(s.pcmlen.toNat : ℚ) / s.spf.toNat⌉ * s.bpb.toNat : ℚ) / 8⌉ ≤ s.cfg.strmCap →
      ∃ t, exec .rxStart s = .next t ∧
        (t.wc.toNat : ℤ) = ⌈(s.pcmlen.toNat : ℚ) / s.spf.toNat⌉ ∧
        (∀ i < s.nstr, t.slenOf i = 0 ∧ t.accOf i = ⟨0, 0⟩) ∧
        (∀ i, s.nstr ≤ i → t.slenOf i = s.slenOf i ∧ t.accOf i = s.accOf i) ∧
        t.maxMagnitude = 0 ∧ s.sameBuffers t ∧
        t = { s with
          wc := t.wc, sidx := 0, widx := 0, slen := t.slen, acc := t.acc, mag := [], mmax := t.mmax
          status := { s.status with rxsil := false, mode := .rx, done := true } }) ∧
    (¬ (s.pcmlen.toNat ≤ s.cfg.pcmCap ∧
        ⌈(⌈(s.pcmlen.toNat : ℚ) / s.spf.toNat⌉ * s.bpb.toNat : ℚ) / 8⌉ ≤ s.cfg.strmCap) →
      Raises .rxStart s .cap)

/-- R163 to R165: `RX.SPECTRUM` stores `NUM.MAG` of the sub-window of slice `SIDX` of the padded samples,
takes the maximum on, and advances `SIDX` by one. (The constant c of R15 is 1: log 5.) -/
def Obligations.RxSpectrumMeasures : Prop :=
  ∀ s : State, s.Inv → s.status.err = false → s.status.mode = .rx → s.status.geov = true →
    s.sidx < s.wc →
    ∃ t, exec .rxSpectrum s = .next t ∧
      t.sidx.toNat = s.sidx.toNat + 1 ∧
      t.mag.length = t.sidx.toNat ∧
      (∀ p < s.sidx.toNat, ∀ n, t.magnitude p n = s.magnitude p n) ∧
      (∀ n < s.nfft, t.magnitude s.sidx.toNat n =
        Num.MAG s.cfg.num (s.receivedSlice s.wc.toNat s.sidx.toNat) n) ∧
      t.maxMagnitude = max s.maxMagnitude (greatestOf ((List.range s.nfft).map
        (Num.MAG s.cfg.num (s.receivedSlice s.wc.toNat s.sidx.toNat)))) ∧
      s.sameBuffers t ∧
      t = { s with
        mag := t.mag, mmax := t.mmax, sidx := t.sidx, status := { s.status with done := true } }

/-- R168: after the last `RX.SPECTRUM`, `MMAX` is the greatest magnitude over all slices and all native
bins, those no cell uses included, and 0 if there is no slice. -/
def Obligations.GlobalMaximum : Prop :=
  ∀ s : State, s.Inv → s.status.mode = .rx → s.status.geov = true → s.sidx = s.wc →
    (s.wc = 0 → s.maxMagnitude = 0) ∧
    (∀ p < s.wc.toNat, ∀ n < s.nfft, s.magnitude p n ≤ s.maxMagnitude) ∧
    (s.wc ≠ 0 → ∃ p < s.wc.toNat, ∃ n < s.nfft, s.magnitude p n = s.maxMagnitude)

/-- R169, R171, R172: `RX.DETECT` appends to each stream below N the decisions for its cells of window
`WIDX`, low bin first: 1 exactly when both magnitudes are positive and the dB value of the cell
against the global maximum is greater than T = `P7`/256 dB. Bytes are only ever appended. -/
def Obligations.RxDetectDecides : Prop :=
  ∀ s : State, s.Inv → s.RunFits → s.status.err = false → s.status.mode = .rx →
    s.status.geov = true → s.sidx = s.wc → s.widx < s.wc →
    ∃ t, exec .rxDetect s = .next t ∧
      t.widx.toNat = s.widx.toNat + 1 ∧
      (∀ i < s.nstr, ∃ bits : List Bool, t.placed i = s.placed i ++ bits ∧
        bits.length = s.bpb.toNat ∧
        ∀ j < s.bpb.toNat, bits[j]? = some true ↔
          Num.DBGT s.cfg.num (s.magnitude s.widx.toNat (s.nbOf i + j * s.kdec)) s.maxMagnitude
            s.thr) ∧
      (∀ i, s.nstr ≤ i → t.slenOf i = s.slenOf i ∧ t.accOf i = s.accOf i) ∧
      (∀ st a, ¬ (st < s.nstr ∧ s.slenOf st ≤ a ∧ a < t.slenOf st) →
        t.sbRead st a = s.sbRead st a) ∧
      (∀ a, t.pcmRead a = s.pcmRead a) ∧
      t = { s with
        sb := t.sb, slen := t.slen, acc := t.acc, widx := t.widx
        status := { s.status with done := true } }

/-- R173: with a threshold of 0 dB or more `RX.DETECT` decodes every bit as 0. (With the exact dB value of
R16.) -/
def Obligations.NonNegativeThresholdDecodesZero : Prop :=
  ∀ s t : State, s.Inv → s.RunFits → s.cfg.num = .reference → s.status.err = false →
    s.status.mode = .rx → s.status.geov = true → s.sidx = s.wc → s.widx < s.wc → 0 ≤ s.threshold →
    exec .rxDetect s = .next t →
      ∀ i < s.nstr, t.placed i = s.placed i ++ List.replicate s.bpb.toNat false

/-- R174, R204: `RX.FINISH` fills up each stream below N with zeros to a whole byte, empties the
accumulators and `MAG`, and leaves `RXSIL` = 1 exactly when the global maximum is 0. -/
def Obligations.RxFinishFlushes : Prop :=
  ∀ s : State, s.Inv → s.RunFits → s.status.err = false → s.status.mode = .rx →
    s.status.geov = true → s.sidx = s.wc → s.widx = s.wc →
    ∃ t, exec .rxFinish s = .next t ∧
      (∀ i < s.nstr, t.accOf i = ⟨0, 0⟩ ∧ t.placed i =
        s.placed i ++ List.replicate ((8 - (s.accOf i).cnt.toNat) % 8) false) ∧
      (∀ i, s.nstr ≤ i → t.slenOf i = s.slenOf i ∧ t.accOf i = s.accOf i) ∧
      (∀ st a, ¬ (st < s.nstr ∧ (s.accOf st).cnt ≠ 0 ∧ a = s.slenOf st) →
        t.sbRead st a = s.sbRead st a) ∧
      (∀ a, t.pcmRead a = s.pcmRead a) ∧
      (t.status.rxsil = true ↔ s.maxMagnitude = 0) ∧
      t = { s with
        sb := t.sb, slen := t.slen, acc := t.acc, mag := []
        status := { s.status with rxsil := t.status.rxsil, mode := .idle, done := true } }

/-- R177: `RX.DECODE` is `RX.START`, then `RX.SPECTRUM` `WC` times, `RX.DETECT` `WC` times and `RX.FINISH`;
where `RX.START` raises it raises the same error under its own word, and once `RX.START` has
succeeded nothing later raises. -/
def Obligations.RxDecodeIsTheRun : Prop :=
  ∀ s : State, s.Inv → s.status.err = false → s.status.mode = .idle → s.status.geov = true →
    (s.pcmlen.toNat ≤ s.cfg.pcmCap →
      cdiv (s.receivedWindows * s.bpb.toNat) 8 ≤ s.cfg.strmCap →
      ∃ s1 t, exec .rxStart s = .next s1 ∧
        execAll (List.replicate s1.wc.toNat .rxSpectrum ++ List.replicate s1.wc.toNat .rxDetect ++
          [.rxFinish]) s1 = .next t ∧
        exec .rxDecode s = .next t ∧
        t.status.mode = .idle ∧ t.status.done = true ∧ t.status.err = false ∧
        t.widx = t.wc ∧ t.sidx = t.wc ∧ t.wc.toNat = s.receivedWindows ∧
        (∀ i, s.nstr ≤ i → t.slenOf i = s.slenOf i ∧ t.accOf i = s.accOf i) ∧
        (∀ st a, ¬ (st < s.nstr ∧ a < t.slenOf st) → t.sbRead st a = s.sbRead st a) ∧
        (∀ a, t.pcmRead a = s.pcmRead a) ∧
        t = { s with
          wc := t.wc, widx := t.widx, sidx := t.sidx, slen := t.slen, acc := t.acc, sb := t.sb
          mag := [], mmax := t.mmax
          status := { s.status with rxsil := t.status.rxsil, done := true } }) ∧
    (¬ (s.pcmlen.toNat ≤ s.cfg.pcmCap ∧
        cdiv (s.receivedWindows * s.bpb.toNat) 8 ≤ s.cfg.strmCap) →
      Raises .rxStart s .cap ∧ Raises .rxDecode s .cap)

/-- R176, R208: what `RX.DECODE` leaves in the streams below N, from the received samples alone: each has
ceil(`WC`·`BPB`/8) bytes; bit b is the decision for cell (b div `BPB`, i, b mod `BPB`), and the bits
after the last cell are 0. -/
def Obligations.DecodedStreams : Prop :=
  ∀ s t : State, s.Inv → s.status.err = false → s.status.mode = .idle → s.status.geov = true →
    exec .rxDecode s = .next t → t.status.err = false →
    ∀ i < s.nstr,
      t.slenOf i = cdiv (t.wc.toNat * s.bpb.toNat) 8 ∧ t.accOf i = ⟨0, 0⟩ ∧
      (∀ b < t.wc.toNat * s.bpb.toNat, t.streamBit i b = true ↔
        Num.DBGT s.cfg.num
          (Num.MAG s.cfg.num (s.receivedSlice t.wc.toNat (b / s.bpb.toNat))
            (s.nbOf i + b % s.bpb.toNat * s.kdec))
          (s.receivedMaximum t.wc.toNat) s.thr) ∧
      ∀ b, t.wc.toNat * s.bpb.toNat ≤ b → t.streamBit i b = false

/-- R175, by the contract of R166: multiplying every received sample by one positive factor changes no
decoded bit, in any instance of the numerics; nor does a negative one, in the reference instance. (The
form of the other instances: log 15.) -/
def Obligations.DecodingIgnoresScale : Prop :=
  ∀ (s s' t t' : State) (r : ℝ), s.Inv → (0 < r ∨ r < 0 ∧ s.cfg.num = .reference) →
    s' = { s with pcm := s'.pcm } →
    (∀ a < s.pcmlen.toNat, (s'.pcmRead a : ℝ) = r * s.pcmRead a) →
    exec .rxDecode s = .next t → exec .rxDecode s' = .next t' →
      ∀ st < s.cfg.maxStreams, t'.placed st = t.placed st

/-- R179 (c), (d): the round trip. Transmit, then receive the same samples with the same parameters. With
g = `FSMAX`/`AMAX` > 2 and a threshold between 20·log10(2/(g - 2)) and 20·log10((g - 2)/(g + 2)), or
with a silent waveform, every bit of every recovered stream is the bit sent, and 0 after the last:
each stream is a prefix of its recovered stream with zeros after it. (With the exact numerics of R13, R15
and R16, and any rounding.) -/
def Obligations.RoundTrip : Prop :=
  ∀ s t u : State, s.Inv → s.cfg.num = .reference → s.status.err = false →
    s.status.mode = .idle → s.status.geov = true →
    exec .txEncode s = .next t → t.status.err = false →
    exec .rxDecode t = .next u → u.status.err = false →
    (Num.value t.amax = 0 ∨
      ∃ g : ℝ, g * Num.value t.amax = s.cfg.fsmax ∧ 2 < g ∧
        20 * Real.logb 10 (2 / (g - 2)) ≤ s.threshold ∧
        s.threshold ≤ 20 * Real.logb 10 ((g - 2) / (g + 2))) →
    ∀ i < s.nstr, s.slenOf i ≤ u.slenOf i ∧ ∀ b, u.streamBit i b = s.streamBit i b

/-! ## Serializer -/

/-- R201, R200: `BIT.GET` gives bit 7 - (b mod 8) of byte b div 8 of the stream, b = `BITIX`, and 0 at and
beyond its end; a length above the capacity raises `E_CAP`. -/
def Obligations.BitGetReads : Prop :=
  ∀ (s : State) (st : BitVec 8), st.toNat < s.cfg.maxStreams → s.status.err = false →
    s.status.mode = .idle →
    (s.slenOf st.toNat ≤ s.cfg.strmCap →
      exec (.bitGet st) s = .next { s with
        bitv :=
          if s.bitix.toNat / 8 < s.slenOf st.toNat then
            (s.sbRead st.toNat (s.bitix.toNat / 8)).getLsbD (7 - s.bitix.toNat % 8)
          else false
        status := { s.status with done := true } }) ∧
    (s.cfg.strmCap < s.slenOf st.toNat → Raises (.bitGet st) s .cap)

/-- R203, R202: `BIT.PUT` shifts its bit into the accumulator; the eighth bit stores the byte at `SLEN[s]`,
counts it and empties the accumulator, or raises `E_CAP` if the buffer is full. -/
def Obligations.BitPutAppends : Prop :=
  ∀ (s : State) (st : BitVec 8) (v : Bool), st.toNat < s.cfg.maxStreams → s.Inv →
    s.status.err = false → s.status.mode = .idle →
    ((s.accOf st.toNat).cnt ≠ 7 →
      ∃ t, exec (.bitPut st v) s = .next t ∧
        (t.accOf st.toNat).val.toNat = 2 * (s.accOf st.toNat).val.toNat + v.toNat ∧
        (t.accOf st.toNat).cnt.toNat = (s.accOf st.toNat).cnt.toNat + 1 ∧
        (∀ i, i ≠ st.toNat → t.accOf i = s.accOf i) ∧ s.sameBuffers t ∧
        t = { s with acc := t.acc, status := { s.status with done := true } }) ∧
    ((s.accOf st.toNat).cnt = 7 → s.slenOf st.toNat < s.cfg.strmCap →
      ∃ t, exec (.bitPut st v) s = .next t ∧
        (t.sbRead st.toNat (s.slenOf st.toNat)).toNat =
          2 * (s.accOf st.toNat).val.toNat + v.toNat ∧
        t.slenOf st.toNat = s.slenOf st.toNat + 1 ∧ t.accOf st.toNat = ⟨0, 0⟩ ∧
        (∀ i, i ≠ st.toNat → t.accOf i = s.accOf i ∧ t.slenOf i = s.slenOf i) ∧
        (∀ i a, ¬ (i = st.toNat ∧ a = s.slenOf st.toNat) → t.sbRead i a = s.sbRead i a) ∧
        (∀ a, t.pcmRead a = s.pcmRead a) ∧
        t = { s with sb := t.sb, slen := t.slen, acc := t.acc
                     status := { s.status with done := true } }) ∧
    ((s.accOf st.toNat).cnt = 7 → s.cfg.strmCap ≤ s.slenOf st.toNat →
      Raises (.bitPut st v) s .cap)

/-- R205, R204: `BIT.FLUSH` stores the c bits of the accumulator, if any, as the top c bits of one last
byte with zeros below; with c = 0 it changes nothing but `DONE`. -/
def Obligations.BitFlushEnds : Prop :=
  ∀ (s : State) (st : BitVec 8), st.toNat < s.cfg.maxStreams → s.Inv →
    s.status.err = false → s.status.mode = .idle →
    ((s.accOf st.toNat).cnt = 0 →
      exec (.bitFlush st) s = .next { s with status := { s.status with done := true } }) ∧
    ((s.accOf st.toNat).cnt ≠ 0 → s.slenOf st.toNat < s.cfg.strmCap →
      ∃ t, exec (.bitFlush st) s = .next t ∧
        (t.sbRead st.toNat (s.slenOf st.toNat)).toNat =
          (s.accOf st.toNat).val.toNat * 2 ^ (8 - (s.accOf st.toNat).cnt.toNat) ∧
        t.slenOf st.toNat = s.slenOf st.toNat + 1 ∧ t.accOf st.toNat = ⟨0, 0⟩ ∧
        (∀ i, i ≠ st.toNat → t.accOf i = s.accOf i ∧ t.slenOf i = s.slenOf i) ∧
        (∀ i a, ¬ (i = st.toNat ∧ a = s.slenOf st.toNat) → t.sbRead i a = s.sbRead i a) ∧
        (∀ a, t.pcmRead a = s.pcmRead a) ∧
        t = { s with sb := t.sb, slen := t.slen, acc := t.acc
                     status := { s.status with done := true } }) ∧
    ((s.accOf st.toNat).cnt ≠ 0 → s.cfg.strmCap ≤ s.slenOf st.toNat →
      Raises (.bitFlush st) s .cap)

/-- R207: `BIT.CLR` makes a stream empty; no buffer element changes. -/
def Obligations.BitClrEmpties : Prop :=
  ∀ (s : State) (st : BitVec 8), st.toNat < s.cfg.maxStreams → s.status.err = false →
    s.status.mode = .idle →
    ∃ t, exec (.bitClr st) s = .next t ∧
      t.slenOf st.toNat = 0 ∧ t.accOf st.toNat = ⟨0, 0⟩ ∧
      (∀ i, i ≠ st.toNat → t.accOf i = s.accOf i ∧ t.slenOf i = s.slenOf i) ∧
      s.sameBuffers t ∧
      t = { s with slen := t.slen, acc := t.acc, status := { s.status with done := true } }

/-- R206: packing and unpacking agree. `BIT.PUT` of m bits into an empty stream and `BIT.FLUSH` complete
and leave ceil(m/8) bytes whose bits are the m bits, in order, and zeros; with the bits of another
stream of L bytes, its L bytes. -/
def Obligations.PackThenUnpack : Prop :=
  ∀ (s : State) (st : BitVec 8) (vs : List Bool), st.toNat < s.cfg.maxStreams →
    s.status.err = false → s.status.mode = .idle → s.accOf st.toNat = ⟨0, 0⟩ →
    s.slenOf st.toNat = 0 → cdiv vs.length 8 ≤ s.cfg.strmCap →
    ∃ t, execAll (vs.map (fun v => Instr.bitPut st v) ++ [.bitFlush st]) s = .next t ∧
      t.status.err = false ∧ t.slenOf st.toNat = cdiv vs.length 8 ∧
      t.accOf st.toNat = ⟨0, 0⟩ ∧ (∀ b, t.streamBit st.toNat b = vs.getD b false) ∧
      ∀ u, vs = (List.range (8 * s.slenOf u)).map (s.streamBit u) →
        t.slenOf st.toNat = s.slenOf u ∧
        ∀ a < s.slenOf u, t.sbRead st.toNat a = s.sbRead u a

/-! ## The host's registers and buffers -/

/-- R25: a host write of P0 to P7 is permitted exactly while `ERR` = 0; P0 to P6 clear `GEOV`, P7 does not;
a write not permitted only sets `WDROP`. -/
def Obligations.ParameterWrites : Prop :=
  ∀ (s : State) (i : Nat) (v : Word), i < 8 →
    (s.status.err = false → ∃ t, hostAccess (.writeReg (0x08 + i) v) s = .next t ∧
      (∀ j, t.param j = if j = i then v else s.param j) ∧ s.sameBuffers t ∧
      t = { s with params := t.params
                   status := { s.status with geov := if i < 7 then false else s.status.geov } }) ∧
    (s.status.err = true → hostAccess (.writeReg (0x08 + i) v) s =
      .next { s with status := { s.status with wdrop := true } })

/-- R34, R35: host writes of `PCMLEN` and `SLEN[s]` are permitted exactly with `ERR` = 0 in `MODE` = IDLE,
those of `BITIX` with `ERR` = 0; any 32-bit value is stored and nothing else changes; a write not
permitted only sets `WDROP`. -/
def Obligations.LengthAndIndexWrites : Prop :=
  ∀ (s : State) (v : Word),
    (s.status.err = false → s.status.mode = .idle →
      hostAccess (.writeReg 0x19 v) s = .next { s with pcmlen := v } ∧
      ∀ st < s.cfg.maxStreams, ∃ t, hostAccess (.writeReg (0x100 + st) v) s = .next t ∧
        (∀ i, t.slenOf i = if i = st then v.toNat else s.slenOf i) ∧ t = { s with slen := t.slen }) ∧
    (s.status.err = true ∨ s.status.mode ≠ .idle →
      hostAccess (.writeReg 0x19 v) s =
        .next { s with status := { s.status with wdrop := true } } ∧
      ∀ st < s.cfg.maxStreams, hostAccess (.writeReg (0x100 + st) v) s =
        .next { s with status := { s.status with wdrop := true } }) ∧
    (s.status.err = false →
      hostAccess (.writeReg 0x1A v) s = .next { s with bitix := v }) ∧
    (s.status.err = true → hostAccess (.writeReg 0x1A v) s =
      .next { s with status := { s.status with wdrop := true } })

/-- R36: the register map as a host reads it, with the words of `STATUS` (R29) and `ACC[s]` (R39) by value;
a reserved index, and `CMD`, read 0. A write of a read-only or reserved index only sets `WDROP`. -/
def Obligations.RegisterMap : Prop :=
  ∀ s : State,
    (readReg s 0x01).toNat = 2 * s.status.done.toNat + 4 * s.status.err.toNat +
      8 * s.status.geov.toNat + 16 * s.status.txsil.toNat + 32 * s.status.rxsil.toNat +
      64 * s.status.wdrop.toNat +
      256 * (match s.status.mode with | .idle => 0 | .tx => 1 | .rx => 2) ∧
    readReg s 0x02 = s.errcode ∧ readReg s 0x03 = s.errcmd ∧
    (∀ i < 8, readReg s (0x08 + i) = s.param i) ∧
    [0x10, 0x11, 0x12, 0x13, 0x14, 0x15, 0x16, 0x17, 0x18, 0x19, 0x1A].map (readReg s) =
      [s.spf, s.bandw, s.bpb, s.avail, s.nmin, s.nmax, s.wc, s.widx, s.sidx, s.pcmlen, s.bitix] ∧
    (readReg s 0x1B).toNat = s.bitv.toNat ∧
    (∀ st < s.cfg.maxStreams, (readReg s (0x100 + st)).toNat = s.slenOf st ∧
      (readReg s (0x200 + st)).toNat =
        (s.accOf st).val.toNat + 2 ^ 8 * (s.accOf st).cnt.toNat ∧
      (readReg s (0x300 + st)).toNat = s.nbOf st) ∧
    (∀ a, (a = 0 ∨ 0x04 ≤ a ∧ a < 0x08 ∨ 0x1C ≤ a ∧ a < 0x100 ∨
        0x100 + s.cfg.maxStreams ≤ a ∧ a < 0x200 ∨ 0x200 + s.cfg.maxStreams ≤ a ∧ a < 0x300 ∨
        0x300 + s.cfg.maxStreams ≤ a) → readReg s a = 0) ∧
    ∀ (a : Nat) (v : Word), (1 ≤ a ∧ a < 0x08 ∨ 0x10 ≤ a ∧ a < 0x19 ∨ 0x1B ≤ a ∧ a < 0x100 ∨
        0x100 + s.cfg.maxStreams ≤ a) →
      hostAccess (.writeReg a v) s = .next { s with status := { s.status with wdrop := true } }

/-- R64, R60: a host write of a buffer element, permitted exactly with `ERR` = 0 in `MODE` = IDLE and
inside the buffer, replaces that element and changes nothing else; any other only sets `WDROP`. A sample
is the low B bits written, in two's complement (R62). -/
def Obligations.BufferWrites : Prop :=
  ∀ (s : State) (st a : Nat) (v : Byte) (x : Sample),
    (s.status.err = false → s.status.mode = .idle → st < s.cfg.maxStreams → a < s.cfg.strmCap →
      ∃ t, hostAccess (.writeSb st a v) s = .next t ∧
        (∀ i b, t.sbRead i b = if i = st ∧ b = a then v else s.sbRead i b) ∧
        t = { s with sb := t.sb }) ∧
    (s.status.err = false → s.status.mode = .idle → a < s.cfg.pcmCap →
      ∃ t, hostAccess (.writePcm a x) s = .next t ∧
        (∀ b, b ≠ a → t.pcmRead b = s.pcmRead b) ∧
        (2 ^ s.cfg.sampleBits : ℤ) ∣ t.pcmRead a - x ∧
        -2 ^ (s.cfg.sampleBits - 1) ≤ t.pcmRead a ∧ t.pcmRead a < 2 ^ (s.cfg.sampleBits - 1) ∧
        t = { s with pcm := t.pcm }) ∧
    (s.status.err = true ∨ s.status.mode ≠ .idle ∨ s.cfg.maxStreams ≤ st ∨ s.cfg.strmCap ≤ a →
      hostAccess (.writeSb st a v) s =
        .next { s with status := { s.status with wdrop := true } }) ∧
    (s.status.err = true ∨ s.status.mode ≠ .idle ∨ s.cfg.pcmCap ≤ a →
      hostAccess (.writePcm a x) s =
        .next { s with status := { s.status with wdrop := true } })

/-- R22 (b), R64: a host read changes nothing in the CORE and answers the element's present value, below
the valid length or not, and 0 outside the buffer. (The list of answers is the model's: log 6.) -/
def Obligations.HostReads : Prop :=
  ∀ (s : State) (st a : Nat),
    hostAccess (.readReg a) s = .next (s.answer (.reg (readReg s a))) ∧
    hostAccess (.readSb st a) s = .next (s.answer (.byte
      (if st < s.cfg.maxStreams ∧ a < s.cfg.strmCap then s.sbRead st a else 0))) ∧
    hostAccess (.readPcm a) s = .next (s.answer (.sample
      (if a < s.cfg.pcmCap then s.pcmRead a else 0))) ∧
    ∀ r, s.answer r = { s with host := ⟨s.host.pending, r :: s.host.answers⟩ }

/-! ## Rules of the whole machine -/

/-- R43 at reset, with the other invariants of this file, whatever the configuration. (The list form of the
buffers is the model's: log 4.) -/
def Obligations.ResetSatisfiesInvariants : Prop :=
  ∀ c : Config, (State.resetOf c).Inv ∧ (State.resetOf c).RunFits ∧ (State.resetOf c).PhasesClosed ∧
    (State.resetOf c).WaveClosed ∧ (State.resetOf c).buffersWf

/-- R43: every step keeps the state invariants (a) to (g). -/
def Obligations.InvariantsKept : Prop :=
  ∀ s t : State, s.Inv → step s = .next t → t.Inv

/-- R131, R161: every step keeps what the start of a run has checked for the whole run, so that no later
step of the run fails for want of capacity. -/
def Obligations.RunCapacityKept : Prop :=
  ∀ s t : State, s.Inv → s.RunFits → step s = .next t → t.RunFits

/-- The model's own form: every step keeps the buffers in canonical form (log 4), and every written sample a
B-bit integer (R62). -/
def Obligations.BuffersCanonicalKept : Prop :=
  ∀ s t : State, s.buffersWf → step s = .next t → t.buffersWf

/-- R27: `WIDX` and `SIDX` change only as R27 says: forward by one per `TX.WINDOW`, `RX.DETECT` or
`RX.SPECTRUM`; to 0 at the start of a run and by `SRST`; through the macros; and no other command
changes them. A command that raises or is refused changes neither. -/
def Obligations.WindowsInOrder : Prop :=
  ∀ (i : Instr) (s t : State), exec i s = .next t →
    (t.widx = s.widx ∧ t.sidx = s.sidx) ∨
    (i ∈ [Instr.txStart, .rxStart, .srst] ∧ t.widx = 0 ∧ t.sidx = 0) ∨
    (i ∈ [Instr.txWindow, .rxDetect] ∧ t.widx = s.widx + 1 ∧ t.sidx = s.sidx) ∨
    (i = .rxSpectrum ∧ t.widx = s.widx ∧ t.sidx = s.sidx + 1) ∨
    (i = .txEncode ∧ t.widx = t.wc ∧ t.sidx = 0) ∨
    (i = .rxDecode ∧ t.widx = t.wc ∧ t.sidx = t.wc)

/-- R28, R97: `MODE` leaves IDLE only by `TX.START` or `RX.START`, and a run ends only by its own
finishing command, by `SRST` or by hard reset. -/
def Obligations.ModeTransitions : Prop :=
  ∀ (a : HostAccess) (s t : State), hostAccess a s = .next t → t.status.mode = s.status.mode ∨
    (∃ w i, a = .writeReg 0 w ∧ decode s.cfg w = .ok i ∧
      (i = .srst ∧ t.status.mode = .idle ∨
       i = .txStart ∧ s.status.mode = .idle ∧ t.status.mode = .tx ∨
       i = .txFinish ∧ s.status.mode = .tx ∧ t.status.mode = .idle ∨
       i = .rxStart ∧ s.status.mode = .idle ∧ t.status.mode = .rx ∨
       i = .rxFinish ∧ s.status.mode = .rx ∧ t.status.mode = .idle)) ∨
    a = .hardReset ∧ t.status.mode = .idle

/-- R77, R141, R130: which commands may change which buffer: the sample buffer only `TX.FINISH` and
`TX.ENCODE`; a stream buffer only `BIT.PUT`, `BIT.FLUSH` and the detecting commands; and no valid byte,
one below its stream's length, is rewritten but by `RX.DECODE`. -/
def Obligations.BufferAccessTable : Prop :=
  ∀ (i : Instr) (s t : State), s.Inv → s.RunFits → exec i s = .next t →
    (i ∉ [Instr.txFinish, .txEncode] → ∀ a, t.pcmRead a = s.pcmRead a) ∧
    ((∀ st v, i ≠ .bitPut st v ∧ i ≠ .bitFlush st) → i ∉ [Instr.rxDetect, .rxFinish, .rxDecode] →
      ∀ st a, t.sbRead st a = s.sbRead st a) ∧
    (i ≠ .rxDecode → ∀ st a, a < s.slenOf st → t.sbRead st a = s.sbRead st a)

/-- R70: what a buffer holds at and beyond its valid length never reaches a result: two states that
differ only there are taken by every command to states that differ only there. (The count of
resets, which names the free contents, is the model's: log 4.) -/
def Obligations.UnspecifiedContentsNeverMatter : Prop :=
  ∀ (i : Instr) (s s' t t' : State),
    s' = { s with sb := s'.sb, pcm := s'.pcm, boots := s'.boots } →
    (∀ st a, a < s.slenOf st → s'.sbRead st a = s.sbRead st a) →
    (∀ a < s.pcmlen.toNat, s'.pcmRead a = s.pcmRead a) →
    exec i s = .next t → exec i s' = .next t' →
      t' = { t with sb := t'.sb, pcm := t'.pcm, boots := t'.boots } ∧
      (∀ st a, a < t.slenOf st → t'.sbRead st a = t.sbRead st a) ∧
      ∀ a < t.pcmlen.toNat, t'.pcmRead a = t.pcmRead a

/-! ## The configuration and the numerics -/

/-- R12: a machine can have any sizes in the ranges R12 gives (with at least one bit a sample, log 1) and any
instance of its numerics, and has no others; `FSMAX` follows from B; the defaults are R12's. -/
def Obligations.ConfigurationRanges : Prop :=
  (∀ (b n sb pcm ph : ℕ) (num rnd : NumInstance),
    (1 ≤ b ∧ 1 ≤ n ∧ n ≤ 256 ∧ sb ≤ 2 ^ 28 ∧ pcm < 2 ^ 32 ↔
      ∃ c : Config, c.sampleBits = b ∧ c.maxStreams = n ∧ c.strmCap = sb ∧ c.pcmCap = pcm ∧
        c.phaseCap = ph ∧ c.num = num ∧ c.rnd = rnd)) ∧
  (∀ c : Config, (c.fsmax : ℤ) = 2 ^ (c.sampleBits - 1) - 1) ∧
  State.reset = State.resetOf .default ∧
  (Config.default.sampleBits = 16 ∧ Config.default.maxStreams = 16 ∧
    Config.default.strmCap = 2 ^ 20 ∧ Config.default.pcmCap = 2 ^ 24 ∧
    Config.default.phaseCap = 4096 ∧ Config.default.num = .reference ∧
    Config.default.rnd = .reference)

/-- R23: `CFG` is fixed for the life of the machine: no step changes it, hard reset included. (That it stands in
the model's state is log 1.) -/
def Obligations.ConfigurationFixed : Prop :=
  (∀ (i : Instr) (s t : State), exec i s = .next t → t.cfg = s.cfg) ∧
  (∀ (a : HostAccess) (s t : State), hostAccess a s = .next t → t.cfg = s.cfg) ∧
  ∀ s t : State, step s = .next t → t.cfg = s.cfg

/-- R13: the sine table of the reference instance, as the machine computes it, is exact, and has the named
properties: `sinT_zero`, `sinT_half`, `sinT_quarter`, `sinT_odd`, `sinT_bound`, `sinT_scale`. -/
def Obligations.SineTable : Prop :=
  ∀ a n : ℕ, a < n →
    Num.value (Num.sinT a n) = Real.sin (2 * Real.pi * a / n) ∧
    Num.value (Num.sinT 0 n) = 0 ∧
    (2 ∣ n → Num.value (Num.sinT (n / 2) n) = 0) ∧
    (4 ∣ n → Num.value (Num.sinT (n / 4) n) = 1 ∧ Num.value (Num.sinT (3 * n / 4) n) = -1) ∧
    (0 < a → Num.value (Num.sinT (n - a) n) = -Num.value (Num.sinT a n)) ∧
    (-1 ≤ Num.value (Num.sinT a n) ∧ Num.value (Num.sinT a n) ≤ 1) ∧
    ∀ c : ℕ, 1 ≤ c → Num.value (Num.sinT (c * a) (c * n)) = Num.value (Num.sinT a n)
end

