-- ==== Sys2Proof/Laws/Memory.lean ====
section
/-! SUPPORT. The buffers: what a read gives after a write, and that every operation keeps the canonical
form. -/

namespace Sys2Proof.Machine

variable {α : Type}

@[simp] theorem Memory.read_nil (a : Nat) : Memory.read ([] : Memory α) a = none := rfl

theorem Memory.read_cons (b : Nat) (v : α) (m : Memory α) (a : Nat) :
    Memory.read ((b, v) :: m) a = if a = b then some v else Memory.read m a := rfl

/-- Reading after a write: the element written, and every other as before. -/
@[simp] theorem Memory.read_write (m : Memory α) (a b : Nat) (v : α) :
    Memory.read (Memory.write m a v) b = if b = a then some v else Memory.read m b := by
  induction m with
  | nil => simp [Memory.write, Memory.read_cons]
  | cons c m ih =>
      obtain ⟨c, u⟩ := c
      simp only [Memory.write]
      split
      · simp [Memory.read_cons]
      · split
        · rename_i h; subst h; simp only [Memory.read_cons]; split <;> rfl
        · simp only [Memory.read_cons, ih]; split <;> split <;> simp_all

theorem Memory.mem_write {m : Memory α} {a : Nat} {v : α} {c : Nat × α}
    (h : c ∈ Memory.write m a v) : c = (a, v) ∨ c ∈ m := by
  induction m with
  | nil => simpa [Memory.write] using h
  | cons d m ih =>
      obtain ⟨d, u⟩ := d
      simp only [Memory.write] at h
      split at h
      · simpa using h
      · split at h
        · rw [List.mem_cons] at h
          exact h.imp_right (List.mem_cons_of_mem _)
        · rw [List.mem_cons] at h
          rcases h with h | h
          · exact .inr (h ▸ List.mem_cons_self)
          · exact (ih h).imp_right (List.mem_cons_of_mem _)

theorem Memory.wf_nil : Memory.wf ([] : Memory α) := List.Pairwise.nil

theorem Memory.wf_cons (c : Nat × α) (m : Memory α) :
    Memory.wf (c :: m) ↔ (∀ d ∈ m, c.1 < d.1) ∧ Memory.wf m := by
  simp [Memory.wf, List.pairwise_cons]

/-- A write keeps the canonical form. -/
theorem Memory.wf_write {m : Memory α} (h : Memory.wf m) (a : Nat) (v : α) :
    Memory.wf (Memory.write m a v) := by
  induction m with
  | nil => exact List.pairwise_singleton _ _
  | cons c m ih =>
      obtain ⟨c, u⟩ := c
      rw [Memory.wf_cons] at h
      simp only [Memory.write]
      split
      · rename_i hac
        rw [Memory.wf_cons, Memory.wf_cons]
        refine ⟨fun d hd => ?_, h⟩
        rcases List.mem_cons.mp hd with rfl | hd
        · exact hac
        · exact hac.trans (h.1 d hd)
      · split
        · rename_i hac; subst hac; rw [Memory.wf_cons]; exact h
        · rw [Memory.wf_cons]
          refine ⟨fun d hd => ?_, ih h.2⟩
          rcases Memory.mem_write hd with rfl | hd
          · change c < a; omega
          · exact h.1 d hd

theorem Memory.read_append (m n : Memory α) (a : Nat) :
    Memory.read (m ++ n) a = (Memory.read m a).or (Memory.read n a) := by
  induction m with
  | nil => simp
  | cons c m ih =>
      obtain ⟨c, u⟩ := c
      simp only [List.cons_append, Memory.read_cons]
      split
      · rfl
      · exact ih

theorem Memory.read_filter (m : Memory α) (k a : Nat) :
    Memory.read (m.filter fun c => decide (k ≤ c.1)) a =
      if k ≤ a then Memory.read m a else none := by
  induction m with
  | nil => simp
  | cons c m ih =>
      obtain ⟨c, u⟩ := c
      rw [List.filter_cons]
      split
      · rename_i h
        simp only [decide_eq_true_eq] at h
        simp only [Memory.read_cons, ih]
        split
        · rename_i ha; subst ha; simp [h]
        · rfl
      · rename_i h
        simp only [decide_eq_true_eq] at h
        rw [ih, Memory.read_cons]
        split
        · rw [if_neg (by omega)]
        · rfl

theorem Memory.read_zipIdx (vs : List (α)) (k a : Nat) :
    Memory.read ((vs.zipIdx k).map fun (v, b) => (b, v)) a =
      if k ≤ a then vs[a - k]? else none := by
  induction vs generalizing k with
  | nil => simp
  | cons v vs ih =>
      simp only [List.zipIdx_cons, List.map_cons, Memory.read_cons, ih]
      split
      · rename_i h; subst h; simp
      · rename_i h
        split
        · rename_i hk
          rw [if_pos (by omega), show a - k = (a - (k + 1)) + 1 by omega]; simp
        · rename_i hk
          rw [if_neg (by omega)]

/-- Reading after `load`: the elements loaded, and every element beyond them as before. -/
@[simp] theorem Memory.read_load (m : Memory α) (vs : List (α)) (a : Nat) :
    Memory.read (Memory.load m vs) a = if h : a < vs.length then some vs[a] else Memory.read m a := by
  rw [Memory.load, Memory.read_append, Memory.read_filter, Memory.read_zipIdx]
  by_cases h : a < vs.length
  · simp [h]
  · simp [h]

/-- `load` keeps the canonical form. -/
theorem Memory.wf_load {m : Memory α} (h : Memory.wf m) (vs : List (α)) :
    Memory.wf (Memory.load m vs) := by
  have hz (l : List (α)) (k : Nat) :
      ((l.zipIdx k).map fun (v, b) => (b, v)).map Prod.fst = List.range' k l.length := by
    induction l generalizing k with
    | nil => rfl
    | cons v l ih => simp [List.zipIdx_cons, List.range'_succ, ← ih (k + 1)]
  rw [Memory.wf, Memory.load, List.map_append, List.pairwise_append, hz]
  refine ⟨List.pairwise_lt_range', ?_, ?_⟩
  · exact h.sublist (List.Sublist.map _ List.filter_sublist)
  · intro a ha b hb
    rw [List.mem_range'_1] at ha
    obtain ⟨c, hc, rfl⟩ := List.mem_map.mp hb
    have := (List.mem_filter.mp hc).2
    simp only [decide_eq_true_eq] at this
    omega

end Sys2Proof.Machine
end

