-- ==== Sys2Proof/Laws/State.lean ====
section
/-! SUPPORT. What each update of the state does to each field, one lemma per field per update, so that
no proof unfolds a record update. -/

namespace Sys2Proof.Machine

variable (s : State)

/-- The state in which `TX.START` leaves a run it begins, before `DONE` (41_tx_synth.md R131). -/
def State.txStarted : State :=
  { s with
    wc := BitVec.ofNat 32 s.payloadWindows
    widx := 0
    sidx := 0
    phase := List.replicate s.nstr (List.replicate s.bpb.toNat 0)
    wave := []
    amax := Num.zero
    status := { s.status with txsil := false, mode := .tx } }

/-- The state in which `RX.START` leaves a run it begins, before `DONE` (42_rx_spectro_detect.md R161). -/
def State.rxStarted : State :=
  { s with
    wc := BitVec.ofNat 32 s.receivedWindows
    sidx := 0
    widx := 0
    slen := tabulate fun i => if i < s.nstr then 0 else s.slen[i]?.getD 0
    acc := tabulate fun i => if i < s.nstr then Acc.clear else s.accOf i
    mag := []
    mmax := Num.zero
    status := { s.status with rxsil := false, mode := .rx } }

/-! ### `State.setDone` -/

@[simp] theorem State.setDone_cfg (v : Bool) : (s.setDone v).cfg = s.cfg := rfl
@[simp] theorem State.setDone_params (v : Bool) : (s.setDone v).params = s.params := rfl
@[simp] theorem State.setDone_status (v : Bool) :
    (s.setDone v).status = { s.status with done := v } := rfl
@[simp] theorem State.setDone_errcode (v : Bool) : (s.setDone v).errcode = s.errcode := rfl
@[simp] theorem State.setDone_errcmd (v : Bool) : (s.setDone v).errcmd = s.errcmd := rfl
@[simp] theorem State.setDone_spf (v : Bool) : (s.setDone v).spf = s.spf := rfl
@[simp] theorem State.setDone_bandw (v : Bool) : (s.setDone v).bandw = s.bandw := rfl
@[simp] theorem State.setDone_bpb (v : Bool) : (s.setDone v).bpb = s.bpb := rfl
@[simp] theorem State.setDone_avail (v : Bool) : (s.setDone v).avail = s.avail := rfl
@[simp] theorem State.setDone_nmin (v : Bool) : (s.setDone v).nmin = s.nmin := rfl
@[simp] theorem State.setDone_nmax (v : Bool) : (s.setDone v).nmax = s.nmax := rfl
@[simp] theorem State.setDone_wc (v : Bool) : (s.setDone v).wc = s.wc := rfl
@[simp] theorem State.setDone_nb (v : Bool) : (s.setDone v).nb = s.nb := rfl
@[simp] theorem State.setDone_widx (v : Bool) : (s.setDone v).widx = s.widx := rfl
@[simp] theorem State.setDone_sidx (v : Bool) : (s.setDone v).sidx = s.sidx := rfl
@[simp] theorem State.setDone_pcmlen (v : Bool) : (s.setDone v).pcmlen = s.pcmlen := rfl
@[simp] theorem State.setDone_slen (v : Bool) : (s.setDone v).slen = s.slen := rfl
@[simp] theorem State.setDone_bitix (v : Bool) : (s.setDone v).bitix = s.bitix := rfl
@[simp] theorem State.setDone_bitv (v : Bool) : (s.setDone v).bitv = s.bitv := rfl
@[simp] theorem State.setDone_phase (v : Bool) : (s.setDone v).phase = s.phase := rfl
@[simp] theorem State.setDone_acc (v : Bool) : (s.setDone v).acc = s.acc := rfl
@[simp] theorem State.setDone_sb (v : Bool) : (s.setDone v).sb = s.sb := rfl
@[simp] theorem State.setDone_pcm (v : Bool) : (s.setDone v).pcm = s.pcm := rfl
@[simp] theorem State.setDone_wave (v : Bool) : (s.setDone v).wave = s.wave := rfl
@[simp] theorem State.setDone_amax (v : Bool) : (s.setDone v).amax = s.amax := rfl
@[simp] theorem State.setDone_mag (v : Bool) : (s.setDone v).mag = s.mag := rfl
@[simp] theorem State.setDone_mmax (v : Bool) : (s.setDone v).mmax = s.mmax := rfl
@[simp] theorem State.setDone_boots (v : Bool) : (s.setDone v).boots = s.boots := rfl
@[simp] theorem State.setDone_host (v : Bool) : (s.setDone v).host = s.host := rfl

/-! ### `State.setMode` -/

@[simp] theorem State.setMode_cfg (m : Mode) : (s.setMode m).cfg = s.cfg := rfl
@[simp] theorem State.setMode_params (m : Mode) : (s.setMode m).params = s.params := rfl
@[simp] theorem State.setMode_status (m : Mode) :
    (s.setMode m).status = { s.status with mode := m } := rfl
@[simp] theorem State.setMode_errcode (m : Mode) : (s.setMode m).errcode = s.errcode := rfl
@[simp] theorem State.setMode_errcmd (m : Mode) : (s.setMode m).errcmd = s.errcmd := rfl
@[simp] theorem State.setMode_spf (m : Mode) : (s.setMode m).spf = s.spf := rfl
@[simp] theorem State.setMode_bandw (m : Mode) : (s.setMode m).bandw = s.bandw := rfl
@[simp] theorem State.setMode_bpb (m : Mode) : (s.setMode m).bpb = s.bpb := rfl
@[simp] theorem State.setMode_avail (m : Mode) : (s.setMode m).avail = s.avail := rfl
@[simp] theorem State.setMode_nmin (m : Mode) : (s.setMode m).nmin = s.nmin := rfl
@[simp] theorem State.setMode_nmax (m : Mode) : (s.setMode m).nmax = s.nmax := rfl
@[simp] theorem State.setMode_wc (m : Mode) : (s.setMode m).wc = s.wc := rfl
@[simp] theorem State.setMode_nb (m : Mode) : (s.setMode m).nb = s.nb := rfl
@[simp] theorem State.setMode_widx (m : Mode) : (s.setMode m).widx = s.widx := rfl
@[simp] theorem State.setMode_sidx (m : Mode) : (s.setMode m).sidx = s.sidx := rfl
@[simp] theorem State.setMode_pcmlen (m : Mode) : (s.setMode m).pcmlen = s.pcmlen := rfl
@[simp] theorem State.setMode_slen (m : Mode) : (s.setMode m).slen = s.slen := rfl
@[simp] theorem State.setMode_bitix (m : Mode) : (s.setMode m).bitix = s.bitix := rfl
@[simp] theorem State.setMode_bitv (m : Mode) : (s.setMode m).bitv = s.bitv := rfl
@[simp] theorem State.setMode_phase (m : Mode) : (s.setMode m).phase = s.phase := rfl
@[simp] theorem State.setMode_acc (m : Mode) : (s.setMode m).acc = s.acc := rfl
@[simp] theorem State.setMode_sb (m : Mode) : (s.setMode m).sb = s.sb := rfl
@[simp] theorem State.setMode_pcm (m : Mode) : (s.setMode m).pcm = s.pcm := rfl
@[simp] theorem State.setMode_wave (m : Mode) : (s.setMode m).wave = s.wave := rfl
@[simp] theorem State.setMode_amax (m : Mode) : (s.setMode m).amax = s.amax := rfl
@[simp] theorem State.setMode_mag (m : Mode) : (s.setMode m).mag = s.mag := rfl
@[simp] theorem State.setMode_mmax (m : Mode) : (s.setMode m).mmax = s.mmax := rfl
@[simp] theorem State.setMode_boots (m : Mode) : (s.setMode m).boots = s.boots := rfl
@[simp] theorem State.setMode_host (m : Mode) : (s.setMode m).host = s.host := rfl

/-! ### `State.setGeov` -/

@[simp] theorem State.setGeov_cfg (v : Bool) : (s.setGeov v).cfg = s.cfg := rfl
@[simp] theorem State.setGeov_params (v : Bool) : (s.setGeov v).params = s.params := rfl
@[simp] theorem State.setGeov_status (v : Bool) :
    (s.setGeov v).status = { s.status with geov := v } := rfl
@[simp] theorem State.setGeov_errcode (v : Bool) : (s.setGeov v).errcode = s.errcode := rfl
@[simp] theorem State.setGeov_errcmd (v : Bool) : (s.setGeov v).errcmd = s.errcmd := rfl
@[simp] theorem State.setGeov_spf (v : Bool) : (s.setGeov v).spf = s.spf := rfl
@[simp] theorem State.setGeov_bandw (v : Bool) : (s.setGeov v).bandw = s.bandw := rfl
@[simp] theorem State.setGeov_bpb (v : Bool) : (s.setGeov v).bpb = s.bpb := rfl
@[simp] theorem State.setGeov_avail (v : Bool) : (s.setGeov v).avail = s.avail := rfl
@[simp] theorem State.setGeov_nmin (v : Bool) : (s.setGeov v).nmin = s.nmin := rfl
@[simp] theorem State.setGeov_nmax (v : Bool) : (s.setGeov v).nmax = s.nmax := rfl
@[simp] theorem State.setGeov_wc (v : Bool) : (s.setGeov v).wc = s.wc := rfl
@[simp] theorem State.setGeov_nb (v : Bool) : (s.setGeov v).nb = s.nb := rfl
@[simp] theorem State.setGeov_widx (v : Bool) : (s.setGeov v).widx = s.widx := rfl
@[simp] theorem State.setGeov_sidx (v : Bool) : (s.setGeov v).sidx = s.sidx := rfl
@[simp] theorem State.setGeov_pcmlen (v : Bool) : (s.setGeov v).pcmlen = s.pcmlen := rfl
@[simp] theorem State.setGeov_slen (v : Bool) : (s.setGeov v).slen = s.slen := rfl
@[simp] theorem State.setGeov_bitix (v : Bool) : (s.setGeov v).bitix = s.bitix := rfl
@[simp] theorem State.setGeov_bitv (v : Bool) : (s.setGeov v).bitv = s.bitv := rfl
@[simp] theorem State.setGeov_phase (v : Bool) : (s.setGeov v).phase = s.phase := rfl
@[simp] theorem State.setGeov_acc (v : Bool) : (s.setGeov v).acc = s.acc := rfl
@[simp] theorem State.setGeov_sb (v : Bool) : (s.setGeov v).sb = s.sb := rfl
@[simp] theorem State.setGeov_pcm (v : Bool) : (s.setGeov v).pcm = s.pcm := rfl
@[simp] theorem State.setGeov_wave (v : Bool) : (s.setGeov v).wave = s.wave := rfl
@[simp] theorem State.setGeov_amax (v : Bool) : (s.setGeov v).amax = s.amax := rfl
@[simp] theorem State.setGeov_mag (v : Bool) : (s.setGeov v).mag = s.mag := rfl
@[simp] theorem State.setGeov_mmax (v : Bool) : (s.setGeov v).mmax = s.mmax := rfl
@[simp] theorem State.setGeov_boots (v : Bool) : (s.setGeov v).boots = s.boots := rfl
@[simp] theorem State.setGeov_host (v : Bool) : (s.setGeov v).host = s.host := rfl

/-! ### `State.setTxsil` -/

@[simp] theorem State.setTxsil_cfg (v : Bool) : (s.setTxsil v).cfg = s.cfg := rfl
@[simp] theorem State.setTxsil_params (v : Bool) : (s.setTxsil v).params = s.params := rfl
@[simp] theorem State.setTxsil_status (v : Bool) :
    (s.setTxsil v).status = { s.status with txsil := v } := rfl
@[simp] theorem State.setTxsil_errcode (v : Bool) : (s.setTxsil v).errcode = s.errcode := rfl
@[simp] theorem State.setTxsil_errcmd (v : Bool) : (s.setTxsil v).errcmd = s.errcmd := rfl
@[simp] theorem State.setTxsil_spf (v : Bool) : (s.setTxsil v).spf = s.spf := rfl
@[simp] theorem State.setTxsil_bandw (v : Bool) : (s.setTxsil v).bandw = s.bandw := rfl
@[simp] theorem State.setTxsil_bpb (v : Bool) : (s.setTxsil v).bpb = s.bpb := rfl
@[simp] theorem State.setTxsil_avail (v : Bool) : (s.setTxsil v).avail = s.avail := rfl
@[simp] theorem State.setTxsil_nmin (v : Bool) : (s.setTxsil v).nmin = s.nmin := rfl
@[simp] theorem State.setTxsil_nmax (v : Bool) : (s.setTxsil v).nmax = s.nmax := rfl
@[simp] theorem State.setTxsil_wc (v : Bool) : (s.setTxsil v).wc = s.wc := rfl
@[simp] theorem State.setTxsil_nb (v : Bool) : (s.setTxsil v).nb = s.nb := rfl
@[simp] theorem State.setTxsil_widx (v : Bool) : (s.setTxsil v).widx = s.widx := rfl
@[simp] theorem State.setTxsil_sidx (v : Bool) : (s.setTxsil v).sidx = s.sidx := rfl
@[simp] theorem State.setTxsil_pcmlen (v : Bool) : (s.setTxsil v).pcmlen = s.pcmlen := rfl
@[simp] theorem State.setTxsil_slen (v : Bool) : (s.setTxsil v).slen = s.slen := rfl
@[simp] theorem State.setTxsil_bitix (v : Bool) : (s.setTxsil v).bitix = s.bitix := rfl
@[simp] theorem State.setTxsil_bitv (v : Bool) : (s.setTxsil v).bitv = s.bitv := rfl
@[simp] theorem State.setTxsil_phase (v : Bool) : (s.setTxsil v).phase = s.phase := rfl
@[simp] theorem State.setTxsil_acc (v : Bool) : (s.setTxsil v).acc = s.acc := rfl
@[simp] theorem State.setTxsil_sb (v : Bool) : (s.setTxsil v).sb = s.sb := rfl
@[simp] theorem State.setTxsil_pcm (v : Bool) : (s.setTxsil v).pcm = s.pcm := rfl
@[simp] theorem State.setTxsil_wave (v : Bool) : (s.setTxsil v).wave = s.wave := rfl
@[simp] theorem State.setTxsil_amax (v : Bool) : (s.setTxsil v).amax = s.amax := rfl
@[simp] theorem State.setTxsil_mag (v : Bool) : (s.setTxsil v).mag = s.mag := rfl
@[simp] theorem State.setTxsil_mmax (v : Bool) : (s.setTxsil v).mmax = s.mmax := rfl
@[simp] theorem State.setTxsil_boots (v : Bool) : (s.setTxsil v).boots = s.boots := rfl
@[simp] theorem State.setTxsil_host (v : Bool) : (s.setTxsil v).host = s.host := rfl

/-! ### `State.setRxsil` -/

@[simp] theorem State.setRxsil_cfg (v : Bool) : (s.setRxsil v).cfg = s.cfg := rfl
@[simp] theorem State.setRxsil_params (v : Bool) : (s.setRxsil v).params = s.params := rfl
@[simp] theorem State.setRxsil_status (v : Bool) :
    (s.setRxsil v).status = { s.status with rxsil := v } := rfl
@[simp] theorem State.setRxsil_errcode (v : Bool) : (s.setRxsil v).errcode = s.errcode := rfl
@[simp] theorem State.setRxsil_errcmd (v : Bool) : (s.setRxsil v).errcmd = s.errcmd := rfl
@[simp] theorem State.setRxsil_spf (v : Bool) : (s.setRxsil v).spf = s.spf := rfl
@[simp] theorem State.setRxsil_bandw (v : Bool) : (s.setRxsil v).bandw = s.bandw := rfl
@[simp] theorem State.setRxsil_bpb (v : Bool) : (s.setRxsil v).bpb = s.bpb := rfl
@[simp] theorem State.setRxsil_avail (v : Bool) : (s.setRxsil v).avail = s.avail := rfl
@[simp] theorem State.setRxsil_nmin (v : Bool) : (s.setRxsil v).nmin = s.nmin := rfl
@[simp] theorem State.setRxsil_nmax (v : Bool) : (s.setRxsil v).nmax = s.nmax := rfl
@[simp] theorem State.setRxsil_wc (v : Bool) : (s.setRxsil v).wc = s.wc := rfl
@[simp] theorem State.setRxsil_nb (v : Bool) : (s.setRxsil v).nb = s.nb := rfl
@[simp] theorem State.setRxsil_widx (v : Bool) : (s.setRxsil v).widx = s.widx := rfl
@[simp] theorem State.setRxsil_sidx (v : Bool) : (s.setRxsil v).sidx = s.sidx := rfl
@[simp] theorem State.setRxsil_pcmlen (v : Bool) : (s.setRxsil v).pcmlen = s.pcmlen := rfl
@[simp] theorem State.setRxsil_slen (v : Bool) : (s.setRxsil v).slen = s.slen := rfl
@[simp] theorem State.setRxsil_bitix (v : Bool) : (s.setRxsil v).bitix = s.bitix := rfl
@[simp] theorem State.setRxsil_bitv (v : Bool) : (s.setRxsil v).bitv = s.bitv := rfl
@[simp] theorem State.setRxsil_phase (v : Bool) : (s.setRxsil v).phase = s.phase := rfl
@[simp] theorem State.setRxsil_acc (v : Bool) : (s.setRxsil v).acc = s.acc := rfl
@[simp] theorem State.setRxsil_sb (v : Bool) : (s.setRxsil v).sb = s.sb := rfl
@[simp] theorem State.setRxsil_pcm (v : Bool) : (s.setRxsil v).pcm = s.pcm := rfl
@[simp] theorem State.setRxsil_wave (v : Bool) : (s.setRxsil v).wave = s.wave := rfl
@[simp] theorem State.setRxsil_amax (v : Bool) : (s.setRxsil v).amax = s.amax := rfl
@[simp] theorem State.setRxsil_mag (v : Bool) : (s.setRxsil v).mag = s.mag := rfl
@[simp] theorem State.setRxsil_mmax (v : Bool) : (s.setRxsil v).mmax = s.mmax := rfl
@[simp] theorem State.setRxsil_boots (v : Bool) : (s.setRxsil v).boots = s.boots := rfl
@[simp] theorem State.setRxsil_host (v : Bool) : (s.setRxsil v).host = s.host := rfl

/-! ### `State.dropWrite` -/

@[simp] theorem State.dropWrite_cfg : s.dropWrite.cfg = s.cfg := rfl
@[simp] theorem State.dropWrite_params : s.dropWrite.params = s.params := rfl
@[simp] theorem State.dropWrite_status :
    s.dropWrite.status = { s.status with wdrop := true } := rfl
@[simp] theorem State.dropWrite_errcode : s.dropWrite.errcode = s.errcode := rfl
@[simp] theorem State.dropWrite_errcmd : s.dropWrite.errcmd = s.errcmd := rfl
@[simp] theorem State.dropWrite_spf : s.dropWrite.spf = s.spf := rfl
@[simp] theorem State.dropWrite_bandw : s.dropWrite.bandw = s.bandw := rfl
@[simp] theorem State.dropWrite_bpb : s.dropWrite.bpb = s.bpb := rfl
@[simp] theorem State.dropWrite_avail : s.dropWrite.avail = s.avail := rfl
@[simp] theorem State.dropWrite_nmin : s.dropWrite.nmin = s.nmin := rfl
@[simp] theorem State.dropWrite_nmax : s.dropWrite.nmax = s.nmax := rfl
@[simp] theorem State.dropWrite_wc : s.dropWrite.wc = s.wc := rfl
@[simp] theorem State.dropWrite_nb : s.dropWrite.nb = s.nb := rfl
@[simp] theorem State.dropWrite_widx : s.dropWrite.widx = s.widx := rfl
@[simp] theorem State.dropWrite_sidx : s.dropWrite.sidx = s.sidx := rfl
@[simp] theorem State.dropWrite_pcmlen : s.dropWrite.pcmlen = s.pcmlen := rfl
@[simp] theorem State.dropWrite_slen : s.dropWrite.slen = s.slen := rfl
@[simp] theorem State.dropWrite_bitix : s.dropWrite.bitix = s.bitix := rfl
@[simp] theorem State.dropWrite_bitv : s.dropWrite.bitv = s.bitv := rfl
@[simp] theorem State.dropWrite_phase : s.dropWrite.phase = s.phase := rfl
@[simp] theorem State.dropWrite_acc : s.dropWrite.acc = s.acc := rfl
@[simp] theorem State.dropWrite_sb : s.dropWrite.sb = s.sb := rfl
@[simp] theorem State.dropWrite_pcm : s.dropWrite.pcm = s.pcm := rfl
@[simp] theorem State.dropWrite_wave : s.dropWrite.wave = s.wave := rfl
@[simp] theorem State.dropWrite_amax : s.dropWrite.amax = s.amax := rfl
@[simp] theorem State.dropWrite_mag : s.dropWrite.mag = s.mag := rfl
@[simp] theorem State.dropWrite_mmax : s.dropWrite.mmax = s.mmax := rfl
@[simp] theorem State.dropWrite_boots : s.dropWrite.boots = s.boots := rfl
@[simp] theorem State.dropWrite_host : s.dropWrite.host = s.host := rfl

/-! ### `State.raise` -/

@[simp] theorem State.raise_cfg (e : ErrCode) (w : Word) : (s.raise e w).cfg = s.cfg := rfl
@[simp] theorem State.raise_params (e : ErrCode) (w : Word) : (s.raise e w).params = s.params := rfl
@[simp] theorem State.raise_status (e : ErrCode) (w : Word) :
    (s.raise e w).status = { s.status with err := true } := rfl
@[simp] theorem State.raise_errcode (e : ErrCode) (w : Word) : (s.raise e w).errcode = e.code := rfl
@[simp] theorem State.raise_errcmd (e : ErrCode) (w : Word) : (s.raise e w).errcmd = w := rfl
@[simp] theorem State.raise_spf (e : ErrCode) (w : Word) : (s.raise e w).spf = s.spf := rfl
@[simp] theorem State.raise_bandw (e : ErrCode) (w : Word) : (s.raise e w).bandw = s.bandw := rfl
@[simp] theorem State.raise_bpb (e : ErrCode) (w : Word) : (s.raise e w).bpb = s.bpb := rfl
@[simp] theorem State.raise_avail (e : ErrCode) (w : Word) : (s.raise e w).avail = s.avail := rfl
@[simp] theorem State.raise_nmin (e : ErrCode) (w : Word) : (s.raise e w).nmin = s.nmin := rfl
@[simp] theorem State.raise_nmax (e : ErrCode) (w : Word) : (s.raise e w).nmax = s.nmax := rfl
@[simp] theorem State.raise_wc (e : ErrCode) (w : Word) : (s.raise e w).wc = s.wc := rfl
@[simp] theorem State.raise_nb (e : ErrCode) (w : Word) : (s.raise e w).nb = s.nb := rfl
@[simp] theorem State.raise_widx (e : ErrCode) (w : Word) : (s.raise e w).widx = s.widx := rfl
@[simp] theorem State.raise_sidx (e : ErrCode) (w : Word) : (s.raise e w).sidx = s.sidx := rfl
@[simp] theorem State.raise_pcmlen (e : ErrCode) (w : Word) : (s.raise e w).pcmlen = s.pcmlen := rfl
@[simp] theorem State.raise_slen (e : ErrCode) (w : Word) : (s.raise e w).slen = s.slen := rfl
@[simp] theorem State.raise_bitix (e : ErrCode) (w : Word) : (s.raise e w).bitix = s.bitix := rfl
@[simp] theorem State.raise_bitv (e : ErrCode) (w : Word) : (s.raise e w).bitv = s.bitv := rfl
@[simp] theorem State.raise_phase (e : ErrCode) (w : Word) : (s.raise e w).phase = s.phase := rfl
@[simp] theorem State.raise_acc (e : ErrCode) (w : Word) : (s.raise e w).acc = s.acc := rfl
@[simp] theorem State.raise_sb (e : ErrCode) (w : Word) : (s.raise e w).sb = s.sb := rfl
@[simp] theorem State.raise_pcm (e : ErrCode) (w : Word) : (s.raise e w).pcm = s.pcm := rfl
@[simp] theorem State.raise_wave (e : ErrCode) (w : Word) : (s.raise e w).wave = s.wave := rfl
@[simp] theorem State.raise_amax (e : ErrCode) (w : Word) : (s.raise e w).amax = s.amax := rfl
@[simp] theorem State.raise_mag (e : ErrCode) (w : Word) : (s.raise e w).mag = s.mag := rfl
@[simp] theorem State.raise_mmax (e : ErrCode) (w : Word) : (s.raise e w).mmax = s.mmax := rfl
@[simp] theorem State.raise_boots (e : ErrCode) (w : Word) : (s.raise e w).boots = s.boots := rfl
@[simp] theorem State.raise_host (e : ErrCode) (w : Word) : (s.raise e w).host = s.host := rfl

/-! ### `State.setParam` -/

@[simp] theorem State.setParam_cfg (i : Nat) (v : Word) : (s.setParam i v).cfg = s.cfg := rfl
@[simp] theorem State.setParam_params (i : Nat) (v : Word) :
    (s.setParam i v).params = s.params.setIfInBounds i v := rfl
@[simp] theorem State.setParam_status (i : Nat) (v : Word) :
    (s.setParam i v).status = s.status := rfl
@[simp] theorem State.setParam_errcode (i : Nat) (v : Word) :
    (s.setParam i v).errcode = s.errcode := rfl
@[simp] theorem State.setParam_errcmd (i : Nat) (v : Word) :
    (s.setParam i v).errcmd = s.errcmd := rfl
@[simp] theorem State.setParam_spf (i : Nat) (v : Word) : (s.setParam i v).spf = s.spf := rfl
@[simp] theorem State.setParam_bandw (i : Nat) (v : Word) : (s.setParam i v).bandw = s.bandw := rfl
@[simp] theorem State.setParam_bpb (i : Nat) (v : Word) : (s.setParam i v).bpb = s.bpb := rfl
@[simp] theorem State.setParam_avail (i : Nat) (v : Word) : (s.setParam i v).avail = s.avail := rfl
@[simp] theorem State.setParam_nmin (i : Nat) (v : Word) : (s.setParam i v).nmin = s.nmin := rfl
@[simp] theorem State.setParam_nmax (i : Nat) (v : Word) : (s.setParam i v).nmax = s.nmax := rfl
@[simp] theorem State.setParam_wc (i : Nat) (v : Word) : (s.setParam i v).wc = s.wc := rfl
@[simp] theorem State.setParam_nb (i : Nat) (v : Word) : (s.setParam i v).nb = s.nb := rfl
@[simp] theorem State.setParam_widx (i : Nat) (v : Word) : (s.setParam i v).widx = s.widx := rfl
@[simp] theorem State.setParam_sidx (i : Nat) (v : Word) : (s.setParam i v).sidx = s.sidx := rfl
@[simp] theorem State.setParam_pcmlen (i : Nat) (v : Word) :
    (s.setParam i v).pcmlen = s.pcmlen := rfl
@[simp] theorem State.setParam_slen (i : Nat) (v : Word) : (s.setParam i v).slen = s.slen := rfl
@[simp] theorem State.setParam_bitix (i : Nat) (v : Word) : (s.setParam i v).bitix = s.bitix := rfl
@[simp] theorem State.setParam_bitv (i : Nat) (v : Word) : (s.setParam i v).bitv = s.bitv := rfl
@[simp] theorem State.setParam_phase (i : Nat) (v : Word) : (s.setParam i v).phase = s.phase := rfl
@[simp] theorem State.setParam_acc (i : Nat) (v : Word) : (s.setParam i v).acc = s.acc := rfl
@[simp] theorem State.setParam_sb (i : Nat) (v : Word) : (s.setParam i v).sb = s.sb := rfl
@[simp] theorem State.setParam_pcm (i : Nat) (v : Word) : (s.setParam i v).pcm = s.pcm := rfl
@[simp] theorem State.setParam_wave (i : Nat) (v : Word) : (s.setParam i v).wave = s.wave := rfl
@[simp] theorem State.setParam_amax (i : Nat) (v : Word) : (s.setParam i v).amax = s.amax := rfl
@[simp] theorem State.setParam_mag (i : Nat) (v : Word) : (s.setParam i v).mag = s.mag := rfl
@[simp] theorem State.setParam_mmax (i : Nat) (v : Word) : (s.setParam i v).mmax = s.mmax := rfl
@[simp] theorem State.setParam_boots (i : Nat) (v : Word) : (s.setParam i v).boots = s.boots := rfl
@[simp] theorem State.setParam_host (i : Nat) (v : Word) : (s.setParam i v).host = s.host := rfl

/-! ### `State.setSlen` -/

@[simp] theorem State.setSlen_cfg (st : Nat) (v : Word) : (s.setSlen st v).cfg = s.cfg := rfl
@[simp] theorem State.setSlen_params (st : Nat) (v : Word) :
    (s.setSlen st v).params = s.params := rfl
@[simp] theorem State.setSlen_status (st : Nat) (v : Word) :
    (s.setSlen st v).status = s.status := rfl
@[simp] theorem State.setSlen_errcode (st : Nat) (v : Word) :
    (s.setSlen st v).errcode = s.errcode := rfl
@[simp] theorem State.setSlen_errcmd (st : Nat) (v : Word) :
    (s.setSlen st v).errcmd = s.errcmd := rfl
@[simp] theorem State.setSlen_spf (st : Nat) (v : Word) : (s.setSlen st v).spf = s.spf := rfl
@[simp] theorem State.setSlen_bandw (st : Nat) (v : Word) : (s.setSlen st v).bandw = s.bandw := rfl
@[simp] theorem State.setSlen_bpb (st : Nat) (v : Word) : (s.setSlen st v).bpb = s.bpb := rfl
@[simp] theorem State.setSlen_avail (st : Nat) (v : Word) : (s.setSlen st v).avail = s.avail := rfl
@[simp] theorem State.setSlen_nmin (st : Nat) (v : Word) : (s.setSlen st v).nmin = s.nmin := rfl
@[simp] theorem State.setSlen_nmax (st : Nat) (v : Word) : (s.setSlen st v).nmax = s.nmax := rfl
@[simp] theorem State.setSlen_wc (st : Nat) (v : Word) : (s.setSlen st v).wc = s.wc := rfl
@[simp] theorem State.setSlen_nb (st : Nat) (v : Word) : (s.setSlen st v).nb = s.nb := rfl
@[simp] theorem State.setSlen_widx (st : Nat) (v : Word) : (s.setSlen st v).widx = s.widx := rfl
@[simp] theorem State.setSlen_sidx (st : Nat) (v : Word) : (s.setSlen st v).sidx = s.sidx := rfl
@[simp] theorem State.setSlen_pcmlen (st : Nat) (v : Word) :
    (s.setSlen st v).pcmlen = s.pcmlen := rfl
@[simp] theorem State.setSlen_slen (st : Nat) (v : Word) :
    (s.setSlen st v).slen = s.slen.setIfInBounds st v := rfl
@[simp] theorem State.setSlen_bitix (st : Nat) (v : Word) : (s.setSlen st v).bitix = s.bitix := rfl
@[simp] theorem State.setSlen_bitv (st : Nat) (v : Word) : (s.setSlen st v).bitv = s.bitv := rfl
@[simp] theorem State.setSlen_phase (st : Nat) (v : Word) : (s.setSlen st v).phase = s.phase := rfl
@[simp] theorem State.setSlen_acc (st : Nat) (v : Word) : (s.setSlen st v).acc = s.acc := rfl
@[simp] theorem State.setSlen_sb (st : Nat) (v : Word) : (s.setSlen st v).sb = s.sb := rfl
@[simp] theorem State.setSlen_pcm (st : Nat) (v : Word) : (s.setSlen st v).pcm = s.pcm := rfl
@[simp] theorem State.setSlen_wave (st : Nat) (v : Word) : (s.setSlen st v).wave = s.wave := rfl
@[simp] theorem State.setSlen_amax (st : Nat) (v : Word) : (s.setSlen st v).amax = s.amax := rfl
@[simp] theorem State.setSlen_mag (st : Nat) (v : Word) : (s.setSlen st v).mag = s.mag := rfl
@[simp] theorem State.setSlen_mmax (st : Nat) (v : Word) : (s.setSlen st v).mmax = s.mmax := rfl
@[simp] theorem State.setSlen_boots (st : Nat) (v : Word) : (s.setSlen st v).boots = s.boots := rfl
@[simp] theorem State.setSlen_host (st : Nat) (v : Word) : (s.setSlen st v).host = s.host := rfl

/-! ### `State.setAcc` -/

@[simp] theorem State.setAcc_cfg (st : Nat) (a : Acc) : (s.setAcc st a).cfg = s.cfg := rfl
@[simp] theorem State.setAcc_params (st : Nat) (a : Acc) : (s.setAcc st a).params = s.params := rfl
@[simp] theorem State.setAcc_status (st : Nat) (a : Acc) : (s.setAcc st a).status = s.status := rfl
@[simp] theorem State.setAcc_errcode (st : Nat) (a : Acc) :
    (s.setAcc st a).errcode = s.errcode := rfl
@[simp] theorem State.setAcc_errcmd (st : Nat) (a : Acc) : (s.setAcc st a).errcmd = s.errcmd := rfl
@[simp] theorem State.setAcc_spf (st : Nat) (a : Acc) : (s.setAcc st a).spf = s.spf := rfl
@[simp] theorem State.setAcc_bandw (st : Nat) (a : Acc) : (s.setAcc st a).bandw = s.bandw := rfl
@[simp] theorem State.setAcc_bpb (st : Nat) (a : Acc) : (s.setAcc st a).bpb = s.bpb := rfl
@[simp] theorem State.setAcc_avail (st : Nat) (a : Acc) : (s.setAcc st a).avail = s.avail := rfl
@[simp] theorem State.setAcc_nmin (st : Nat) (a : Acc) : (s.setAcc st a).nmin = s.nmin := rfl
@[simp] theorem State.setAcc_nmax (st : Nat) (a : Acc) : (s.setAcc st a).nmax = s.nmax := rfl
@[simp] theorem State.setAcc_wc (st : Nat) (a : Acc) : (s.setAcc st a).wc = s.wc := rfl
@[simp] theorem State.setAcc_nb (st : Nat) (a : Acc) : (s.setAcc st a).nb = s.nb := rfl
@[simp] theorem State.setAcc_widx (st : Nat) (a : Acc) : (s.setAcc st a).widx = s.widx := rfl
@[simp] theorem State.setAcc_sidx (st : Nat) (a : Acc) : (s.setAcc st a).sidx = s.sidx := rfl
@[simp] theorem State.setAcc_pcmlen (st : Nat) (a : Acc) : (s.setAcc st a).pcmlen = s.pcmlen := rfl
@[simp] theorem State.setAcc_slen (st : Nat) (a : Acc) : (s.setAcc st a).slen = s.slen := rfl
@[simp] theorem State.setAcc_bitix (st : Nat) (a : Acc) : (s.setAcc st a).bitix = s.bitix := rfl
@[simp] theorem State.setAcc_bitv (st : Nat) (a : Acc) : (s.setAcc st a).bitv = s.bitv := rfl
@[simp] theorem State.setAcc_phase (st : Nat) (a : Acc) : (s.setAcc st a).phase = s.phase := rfl
@[simp] theorem State.setAcc_acc (st : Nat) (a : Acc) :
    (s.setAcc st a).acc = s.acc.setIfInBounds st a := rfl
@[simp] theorem State.setAcc_sb (st : Nat) (a : Acc) : (s.setAcc st a).sb = s.sb := rfl
@[simp] theorem State.setAcc_pcm (st : Nat) (a : Acc) : (s.setAcc st a).pcm = s.pcm := rfl
@[simp] theorem State.setAcc_wave (st : Nat) (a : Acc) : (s.setAcc st a).wave = s.wave := rfl
@[simp] theorem State.setAcc_amax (st : Nat) (a : Acc) : (s.setAcc st a).amax = s.amax := rfl
@[simp] theorem State.setAcc_mag (st : Nat) (a : Acc) : (s.setAcc st a).mag = s.mag := rfl
@[simp] theorem State.setAcc_mmax (st : Nat) (a : Acc) : (s.setAcc st a).mmax = s.mmax := rfl
@[simp] theorem State.setAcc_boots (st : Nat) (a : Acc) : (s.setAcc st a).boots = s.boots := rfl
@[simp] theorem State.setAcc_host (st : Nat) (a : Acc) : (s.setAcc st a).host = s.host := rfl

/-! ### `State.sbWrite` -/

@[simp] theorem State.sbWrite_cfg (st a : Nat) (v : Byte) : (s.sbWrite st a v).cfg = s.cfg := rfl
@[simp] theorem State.sbWrite_params (st a : Nat) (v : Byte) :
    (s.sbWrite st a v).params = s.params := rfl
@[simp] theorem State.sbWrite_status (st a : Nat) (v : Byte) :
    (s.sbWrite st a v).status = s.status := rfl
@[simp] theorem State.sbWrite_errcode (st a : Nat) (v : Byte) :
    (s.sbWrite st a v).errcode = s.errcode := rfl
@[simp] theorem State.sbWrite_errcmd (st a : Nat) (v : Byte) :
    (s.sbWrite st a v).errcmd = s.errcmd := rfl
@[simp] theorem State.sbWrite_spf (st a : Nat) (v : Byte) : (s.sbWrite st a v).spf = s.spf := rfl
@[simp] theorem State.sbWrite_bandw (st a : Nat) (v : Byte) :
    (s.sbWrite st a v).bandw = s.bandw := rfl
@[simp] theorem State.sbWrite_bpb (st a : Nat) (v : Byte) : (s.sbWrite st a v).bpb = s.bpb := rfl
@[simp] theorem State.sbWrite_avail (st a : Nat) (v : Byte) :
    (s.sbWrite st a v).avail = s.avail := rfl
@[simp] theorem State.sbWrite_nmin (st a : Nat) (v : Byte) : (s.sbWrite st a v).nmin = s.nmin := rfl
@[simp] theorem State.sbWrite_nmax (st a : Nat) (v : Byte) : (s.sbWrite st a v).nmax = s.nmax := rfl
@[simp] theorem State.sbWrite_wc (st a : Nat) (v : Byte) : (s.sbWrite st a v).wc = s.wc := rfl
@[simp] theorem State.sbWrite_nb (st a : Nat) (v : Byte) : (s.sbWrite st a v).nb = s.nb := rfl
@[simp] theorem State.sbWrite_widx (st a : Nat) (v : Byte) : (s.sbWrite st a v).widx = s.widx := rfl
@[simp] theorem State.sbWrite_sidx (st a : Nat) (v : Byte) : (s.sbWrite st a v).sidx = s.sidx := rfl
@[simp] theorem State.sbWrite_pcmlen (st a : Nat) (v : Byte) :
    (s.sbWrite st a v).pcmlen = s.pcmlen := rfl
@[simp] theorem State.sbWrite_slen (st a : Nat) (v : Byte) : (s.sbWrite st a v).slen = s.slen := rfl
@[simp] theorem State.sbWrite_bitix (st a : Nat) (v : Byte) :
    (s.sbWrite st a v).bitix = s.bitix := rfl
@[simp] theorem State.sbWrite_bitv (st a : Nat) (v : Byte) : (s.sbWrite st a v).bitv = s.bitv := rfl
@[simp] theorem State.sbWrite_phase (st a : Nat) (v : Byte) :
    (s.sbWrite st a v).phase = s.phase := rfl
@[simp] theorem State.sbWrite_acc (st a : Nat) (v : Byte) : (s.sbWrite st a v).acc = s.acc := rfl
@[simp] theorem State.sbWrite_sb (st a : Nat) (v : Byte) :
    (s.sbWrite st a v).sb = s.sb.setIfInBounds st (Memory.write (s.sbOf st) a v) := rfl
@[simp] theorem State.sbWrite_pcm (st a : Nat) (v : Byte) : (s.sbWrite st a v).pcm = s.pcm := rfl
@[simp] theorem State.sbWrite_wave (st a : Nat) (v : Byte) : (s.sbWrite st a v).wave = s.wave := rfl
@[simp] theorem State.sbWrite_amax (st a : Nat) (v : Byte) : (s.sbWrite st a v).amax = s.amax := rfl
@[simp] theorem State.sbWrite_mag (st a : Nat) (v : Byte) : (s.sbWrite st a v).mag = s.mag := rfl
@[simp] theorem State.sbWrite_mmax (st a : Nat) (v : Byte) : (s.sbWrite st a v).mmax = s.mmax := rfl
@[simp] theorem State.sbWrite_boots (st a : Nat) (v : Byte) :
    (s.sbWrite st a v).boots = s.boots := rfl
@[simp] theorem State.sbWrite_host (st a : Nat) (v : Byte) : (s.sbWrite st a v).host = s.host := rfl

/-! ### `State.pcmWrite` -/

@[simp] theorem State.pcmWrite_cfg (a : Nat) (v : Sample) : (s.pcmWrite a v).cfg = s.cfg := rfl
@[simp] theorem State.pcmWrite_params (a : Nat) (v : Sample) :
    (s.pcmWrite a v).params = s.params := rfl
@[simp] theorem State.pcmWrite_status (a : Nat) (v : Sample) :
    (s.pcmWrite a v).status = s.status := rfl
@[simp] theorem State.pcmWrite_errcode (a : Nat) (v : Sample) :
    (s.pcmWrite a v).errcode = s.errcode := rfl
@[simp] theorem State.pcmWrite_errcmd (a : Nat) (v : Sample) :
    (s.pcmWrite a v).errcmd = s.errcmd := rfl
@[simp] theorem State.pcmWrite_spf (a : Nat) (v : Sample) : (s.pcmWrite a v).spf = s.spf := rfl
@[simp] theorem State.pcmWrite_bandw (a : Nat) (v : Sample) :
    (s.pcmWrite a v).bandw = s.bandw := rfl
@[simp] theorem State.pcmWrite_bpb (a : Nat) (v : Sample) : (s.pcmWrite a v).bpb = s.bpb := rfl
@[simp] theorem State.pcmWrite_avail (a : Nat) (v : Sample) :
    (s.pcmWrite a v).avail = s.avail := rfl
@[simp] theorem State.pcmWrite_nmin (a : Nat) (v : Sample) : (s.pcmWrite a v).nmin = s.nmin := rfl
@[simp] theorem State.pcmWrite_nmax (a : Nat) (v : Sample) : (s.pcmWrite a v).nmax = s.nmax := rfl
@[simp] theorem State.pcmWrite_wc (a : Nat) (v : Sample) : (s.pcmWrite a v).wc = s.wc := rfl
@[simp] theorem State.pcmWrite_nb (a : Nat) (v : Sample) : (s.pcmWrite a v).nb = s.nb := rfl
@[simp] theorem State.pcmWrite_widx (a : Nat) (v : Sample) : (s.pcmWrite a v).widx = s.widx := rfl
@[simp] theorem State.pcmWrite_sidx (a : Nat) (v : Sample) : (s.pcmWrite a v).sidx = s.sidx := rfl
@[simp] theorem State.pcmWrite_pcmlen (a : Nat) (v : Sample) :
    (s.pcmWrite a v).pcmlen = s.pcmlen := rfl
@[simp] theorem State.pcmWrite_slen (a : Nat) (v : Sample) : (s.pcmWrite a v).slen = s.slen := rfl
@[simp] theorem State.pcmWrite_bitix (a : Nat) (v : Sample) :
    (s.pcmWrite a v).bitix = s.bitix := rfl
@[simp] theorem State.pcmWrite_bitv (a : Nat) (v : Sample) : (s.pcmWrite a v).bitv = s.bitv := rfl
@[simp] theorem State.pcmWrite_phase (a : Nat) (v : Sample) :
    (s.pcmWrite a v).phase = s.phase := rfl
@[simp] theorem State.pcmWrite_acc (a : Nat) (v : Sample) : (s.pcmWrite a v).acc = s.acc := rfl
@[simp] theorem State.pcmWrite_sb (a : Nat) (v : Sample) : (s.pcmWrite a v).sb = s.sb := rfl
@[simp] theorem State.pcmWrite_pcm (a : Nat) (v : Sample) :
    (s.pcmWrite a v).pcm = Memory.write s.pcm a (s.cfg.wrapSample v) := rfl
@[simp] theorem State.pcmWrite_wave (a : Nat) (v : Sample) : (s.pcmWrite a v).wave = s.wave := rfl
@[simp] theorem State.pcmWrite_amax (a : Nat) (v : Sample) : (s.pcmWrite a v).amax = s.amax := rfl
@[simp] theorem State.pcmWrite_mag (a : Nat) (v : Sample) : (s.pcmWrite a v).mag = s.mag := rfl
@[simp] theorem State.pcmWrite_mmax (a : Nat) (v : Sample) : (s.pcmWrite a v).mmax = s.mmax := rfl
@[simp] theorem State.pcmWrite_boots (a : Nat) (v : Sample) :
    (s.pcmWrite a v).boots = s.boots := rfl
@[simp] theorem State.pcmWrite_host (a : Nat) (v : Sample) : (s.pcmWrite a v).host = s.host := rfl

/-! ### `State.setGeometry` -/

@[simp] theorem State.setGeometry_cfg (p : Params) : (s.setGeometry p).cfg = s.cfg := rfl
@[simp] theorem State.setGeometry_params (p : Params) : (s.setGeometry p).params = s.params := rfl
@[simp] theorem State.setGeometry_status (p : Params) : (s.setGeometry p).status = s.status := rfl
@[simp] theorem State.setGeometry_errcode (p : Params) :
    (s.setGeometry p).errcode = s.errcode := rfl
@[simp] theorem State.setGeometry_errcmd (p : Params) : (s.setGeometry p).errcmd = s.errcmd := rfl
@[simp] theorem State.setGeometry_spf (p : Params) :
    (s.setGeometry p).spf = BitVec.ofNat 32 p.spf := rfl
@[simp] theorem State.setGeometry_bandw (p : Params) :
    (s.setGeometry p).bandw = BitVec.ofNat 32 p.bandw := rfl
@[simp] theorem State.setGeometry_bpb (p : Params) :
    (s.setGeometry p).bpb = BitVec.ofNat 32 p.bpb := rfl
@[simp] theorem State.setGeometry_avail (p : Params) :
    (s.setGeometry p).avail = BitVec.ofNat 32 p.avail := rfl
@[simp] theorem State.setGeometry_nmin (p : Params) :
    (s.setGeometry p).nmin = BitVec.ofNat 32 p.nmin := rfl
@[simp] theorem State.setGeometry_nmax (p : Params) :
    (s.setGeometry p).nmax = BitVec.ofNat 32 p.nmax := rfl
@[simp] theorem State.setGeometry_wc (p : Params) : (s.setGeometry p).wc = s.wc := rfl
@[simp] theorem State.setGeometry_nb (p : Params) :
    (s.setGeometry p).nb = tabulate fun i => if i < p.n then BitVec.ofNat 32 (p.nb i) else 0 := rfl
@[simp] theorem State.setGeometry_widx (p : Params) : (s.setGeometry p).widx = s.widx := rfl
@[simp] theorem State.setGeometry_sidx (p : Params) : (s.setGeometry p).sidx = s.sidx := rfl
@[simp] theorem State.setGeometry_pcmlen (p : Params) : (s.setGeometry p).pcmlen = s.pcmlen := rfl
@[simp] theorem State.setGeometry_slen (p : Params) : (s.setGeometry p).slen = s.slen := rfl
@[simp] theorem State.setGeometry_bitix (p : Params) : (s.setGeometry p).bitix = s.bitix := rfl
@[simp] theorem State.setGeometry_bitv (p : Params) : (s.setGeometry p).bitv = s.bitv := rfl
@[simp] theorem State.setGeometry_phase (p : Params) : (s.setGeometry p).phase = s.phase := rfl
@[simp] theorem State.setGeometry_acc (p : Params) : (s.setGeometry p).acc = s.acc := rfl
@[simp] theorem State.setGeometry_sb (p : Params) : (s.setGeometry p).sb = s.sb := rfl
@[simp] theorem State.setGeometry_pcm (p : Params) : (s.setGeometry p).pcm = s.pcm := rfl
@[simp] theorem State.setGeometry_wave (p : Params) : (s.setGeometry p).wave = s.wave := rfl
@[simp] theorem State.setGeometry_amax (p : Params) : (s.setGeometry p).amax = s.amax := rfl
@[simp] theorem State.setGeometry_mag (p : Params) : (s.setGeometry p).mag = s.mag := rfl
@[simp] theorem State.setGeometry_mmax (p : Params) : (s.setGeometry p).mmax = s.mmax := rfl
@[simp] theorem State.setGeometry_boots (p : Params) : (s.setGeometry p).boots = s.boots := rfl
@[simp] theorem State.setGeometry_host (p : Params) : (s.setGeometry p).host = s.host := rfl

/-! ### `State.synthWindow` -/

@[simp] theorem State.synthWindow_cfg : s.synthWindow.cfg = s.cfg := rfl
@[simp] theorem State.synthWindow_params : s.synthWindow.params = s.params := rfl
@[simp] theorem State.synthWindow_status : s.synthWindow.status = s.status := rfl
@[simp] theorem State.synthWindow_errcode : s.synthWindow.errcode = s.errcode := rfl
@[simp] theorem State.synthWindow_errcmd : s.synthWindow.errcmd = s.errcmd := rfl
@[simp] theorem State.synthWindow_spf : s.synthWindow.spf = s.spf := rfl
@[simp] theorem State.synthWindow_bandw : s.synthWindow.bandw = s.bandw := rfl
@[simp] theorem State.synthWindow_bpb : s.synthWindow.bpb = s.bpb := rfl
@[simp] theorem State.synthWindow_avail : s.synthWindow.avail = s.avail := rfl
@[simp] theorem State.synthWindow_nmin : s.synthWindow.nmin = s.nmin := rfl
@[simp] theorem State.synthWindow_nmax : s.synthWindow.nmax = s.nmax := rfl
@[simp] theorem State.synthWindow_wc : s.synthWindow.wc = s.wc := rfl
@[simp] theorem State.synthWindow_nb : s.synthWindow.nb = s.nb := rfl
@[simp] theorem State.synthWindow_widx : s.synthWindow.widx = s.widx + 1 := rfl
@[simp] theorem State.synthWindow_sidx : s.synthWindow.sidx = s.sidx := rfl
@[simp] theorem State.synthWindow_pcmlen : s.synthWindow.pcmlen = s.pcmlen := rfl
@[simp] theorem State.synthWindow_slen : s.synthWindow.slen = s.slen := rfl
@[simp] theorem State.synthWindow_bitix : s.synthWindow.bitix = s.bitix := rfl
@[simp] theorem State.synthWindow_bitv : s.synthWindow.bitv = s.bitv := rfl
@[simp] theorem State.synthWindow_phase :
    s.synthWindow.phase = (List.range s.nstr).map fun i =>
      (List.range s.bpb.toNat).map fun j => s.nextPhase s.widx.toNat i j := rfl
@[simp] theorem State.synthWindow_acc : s.synthWindow.acc = s.acc := rfl
@[simp] theorem State.synthWindow_sb : s.synthWindow.sb = s.sb := rfl
@[simp] theorem State.synthWindow_pcm : s.synthWindow.pcm = s.pcm := rfl
@[simp] theorem State.synthWindow_wave :
    s.synthWindow.wave = s.wave ++ s.windowSamples s.widx.toNat := rfl
@[simp] theorem State.synthWindow_amax :
    s.synthWindow.amax = peak s.amax (s.windowSamples s.widx.toNat) := rfl
@[simp] theorem State.synthWindow_mag : s.synthWindow.mag = s.mag := rfl
@[simp] theorem State.synthWindow_mmax : s.synthWindow.mmax = s.mmax := rfl
@[simp] theorem State.synthWindow_boots : s.synthWindow.boots = s.boots := rfl
@[simp] theorem State.synthWindow_host : s.synthWindow.host = s.host := rfl

/-! ### `State.finishTx` -/

@[simp] theorem State.finishTx_cfg : s.finishTx.cfg = s.cfg := rfl
@[simp] theorem State.finishTx_params : s.finishTx.params = s.params := rfl
@[simp] theorem State.finishTx_status :
    s.finishTx.status = { s.status with txsil := Num.sign s.amax != 1, mode := .idle } := rfl
@[simp] theorem State.finishTx_errcode : s.finishTx.errcode = s.errcode := rfl
@[simp] theorem State.finishTx_errcmd : s.finishTx.errcmd = s.errcmd := rfl
@[simp] theorem State.finishTx_spf : s.finishTx.spf = s.spf := rfl
@[simp] theorem State.finishTx_bandw : s.finishTx.bandw = s.bandw := rfl
@[simp] theorem State.finishTx_bpb : s.finishTx.bpb = s.bpb := rfl
@[simp] theorem State.finishTx_avail : s.finishTx.avail = s.avail := rfl
@[simp] theorem State.finishTx_nmin : s.finishTx.nmin = s.nmin := rfl
@[simp] theorem State.finishTx_nmax : s.finishTx.nmax = s.nmax := rfl
@[simp] theorem State.finishTx_wc : s.finishTx.wc = s.wc := rfl
@[simp] theorem State.finishTx_nb : s.finishTx.nb = s.nb := rfl
@[simp] theorem State.finishTx_widx : s.finishTx.widx = s.widx := rfl
@[simp] theorem State.finishTx_sidx : s.finishTx.sidx = s.sidx := rfl
@[simp] theorem State.finishTx_pcmlen :
    s.finishTx.pcmlen = BitVec.ofNat 32 (s.wc.toNat * s.spf.toNat) := rfl
@[simp] theorem State.finishTx_slen : s.finishTx.slen = s.slen := rfl
@[simp] theorem State.finishTx_bitix : s.finishTx.bitix = s.bitix := rfl
@[simp] theorem State.finishTx_bitv : s.finishTx.bitv = s.bitv := rfl
@[simp] theorem State.finishTx_phase : s.finishTx.phase = s.phase := rfl
@[simp] theorem State.finishTx_acc : s.finishTx.acc = s.acc := rfl
@[simp] theorem State.finishTx_sb : s.finishTx.sb = s.sb := rfl
@[simp] theorem State.finishTx_pcm : s.finishTx.pcm = Memory.load s.pcm s.emitted := rfl
@[simp] theorem State.finishTx_wave : s.finishTx.wave = [] := rfl
@[simp] theorem State.finishTx_amax : s.finishTx.amax = s.amax := rfl
@[simp] theorem State.finishTx_mag : s.finishTx.mag = s.mag := rfl
@[simp] theorem State.finishTx_mmax : s.finishTx.mmax = s.mmax := rfl
@[simp] theorem State.finishTx_boots : s.finishTx.boots = s.boots := rfl
@[simp] theorem State.finishTx_host : s.finishTx.host = s.host := rfl

/-! ### `State.takeSpectrum` -/

@[simp] theorem State.takeSpectrum_cfg : s.takeSpectrum.cfg = s.cfg := rfl
@[simp] theorem State.takeSpectrum_params : s.takeSpectrum.params = s.params := rfl
@[simp] theorem State.takeSpectrum_status : s.takeSpectrum.status = s.status := rfl
@[simp] theorem State.takeSpectrum_errcode : s.takeSpectrum.errcode = s.errcode := rfl
@[simp] theorem State.takeSpectrum_errcmd : s.takeSpectrum.errcmd = s.errcmd := rfl
@[simp] theorem State.takeSpectrum_spf : s.takeSpectrum.spf = s.spf := rfl
@[simp] theorem State.takeSpectrum_bandw : s.takeSpectrum.bandw = s.bandw := rfl
@[simp] theorem State.takeSpectrum_bpb : s.takeSpectrum.bpb = s.bpb := rfl
@[simp] theorem State.takeSpectrum_avail : s.takeSpectrum.avail = s.avail := rfl
@[simp] theorem State.takeSpectrum_nmin : s.takeSpectrum.nmin = s.nmin := rfl
@[simp] theorem State.takeSpectrum_nmax : s.takeSpectrum.nmax = s.nmax := rfl
@[simp] theorem State.takeSpectrum_wc : s.takeSpectrum.wc = s.wc := rfl
@[simp] theorem State.takeSpectrum_nb : s.takeSpectrum.nb = s.nb := rfl
@[simp] theorem State.takeSpectrum_widx : s.takeSpectrum.widx = s.widx := rfl
@[simp] theorem State.takeSpectrum_sidx : s.takeSpectrum.sidx = s.sidx + 1 := rfl
@[simp] theorem State.takeSpectrum_pcmlen : s.takeSpectrum.pcmlen = s.pcmlen := rfl
@[simp] theorem State.takeSpectrum_slen : s.takeSpectrum.slen = s.slen := rfl
@[simp] theorem State.takeSpectrum_bitix : s.takeSpectrum.bitix = s.bitix := rfl
@[simp] theorem State.takeSpectrum_bitv : s.takeSpectrum.bitv = s.bitv := rfl
@[simp] theorem State.takeSpectrum_phase : s.takeSpectrum.phase = s.phase := rfl
@[simp] theorem State.takeSpectrum_acc : s.takeSpectrum.acc = s.acc := rfl
@[simp] theorem State.takeSpectrum_sb : s.takeSpectrum.sb = s.sb := rfl
@[simp] theorem State.takeSpectrum_pcm : s.takeSpectrum.pcm = s.pcm := rfl
@[simp] theorem State.takeSpectrum_wave : s.takeSpectrum.wave = s.wave := rfl
@[simp] theorem State.takeSpectrum_amax : s.takeSpectrum.amax = s.amax := rfl
@[simp] theorem State.takeSpectrum_mag :
    s.takeSpectrum.mag = s.mag ++ [s.spectrum s.sidx.toNat] := rfl
@[simp] theorem State.takeSpectrum_mmax :
    s.takeSpectrum.mmax = greatest s.mmax (s.spectrum s.sidx.toNat) := rfl
@[simp] theorem State.takeSpectrum_boots : s.takeSpectrum.boots = s.boots := rfl
@[simp] theorem State.takeSpectrum_host : s.takeSpectrum.host = s.host := rfl

/-! ### `State.answer` -/

@[simp] theorem State.answer_cfg (a : HostAnswer) : (s.answer a).cfg = s.cfg := rfl
@[simp] theorem State.answer_params (a : HostAnswer) : (s.answer a).params = s.params := rfl
@[simp] theorem State.answer_status (a : HostAnswer) : (s.answer a).status = s.status := rfl
@[simp] theorem State.answer_errcode (a : HostAnswer) : (s.answer a).errcode = s.errcode := rfl
@[simp] theorem State.answer_errcmd (a : HostAnswer) : (s.answer a).errcmd = s.errcmd := rfl
@[simp] theorem State.answer_spf (a : HostAnswer) : (s.answer a).spf = s.spf := rfl
@[simp] theorem State.answer_bandw (a : HostAnswer) : (s.answer a).bandw = s.bandw := rfl
@[simp] theorem State.answer_bpb (a : HostAnswer) : (s.answer a).bpb = s.bpb := rfl
@[simp] theorem State.answer_avail (a : HostAnswer) : (s.answer a).avail = s.avail := rfl
@[simp] theorem State.answer_nmin (a : HostAnswer) : (s.answer a).nmin = s.nmin := rfl
@[simp] theorem State.answer_nmax (a : HostAnswer) : (s.answer a).nmax = s.nmax := rfl
@[simp] theorem State.answer_wc (a : HostAnswer) : (s.answer a).wc = s.wc := rfl
@[simp] theorem State.answer_nb (a : HostAnswer) : (s.answer a).nb = s.nb := rfl
@[simp] theorem State.answer_widx (a : HostAnswer) : (s.answer a).widx = s.widx := rfl
@[simp] theorem State.answer_sidx (a : HostAnswer) : (s.answer a).sidx = s.sidx := rfl
@[simp] theorem State.answer_pcmlen (a : HostAnswer) : (s.answer a).pcmlen = s.pcmlen := rfl
@[simp] theorem State.answer_slen (a : HostAnswer) : (s.answer a).slen = s.slen := rfl
@[simp] theorem State.answer_bitix (a : HostAnswer) : (s.answer a).bitix = s.bitix := rfl
@[simp] theorem State.answer_bitv (a : HostAnswer) : (s.answer a).bitv = s.bitv := rfl
@[simp] theorem State.answer_phase (a : HostAnswer) : (s.answer a).phase = s.phase := rfl
@[simp] theorem State.answer_acc (a : HostAnswer) : (s.answer a).acc = s.acc := rfl
@[simp] theorem State.answer_sb (a : HostAnswer) : (s.answer a).sb = s.sb := rfl
@[simp] theorem State.answer_pcm (a : HostAnswer) : (s.answer a).pcm = s.pcm := rfl
@[simp] theorem State.answer_wave (a : HostAnswer) : (s.answer a).wave = s.wave := rfl
@[simp] theorem State.answer_amax (a : HostAnswer) : (s.answer a).amax = s.amax := rfl
@[simp] theorem State.answer_mag (a : HostAnswer) : (s.answer a).mag = s.mag := rfl
@[simp] theorem State.answer_mmax (a : HostAnswer) : (s.answer a).mmax = s.mmax := rfl
@[simp] theorem State.answer_boots (a : HostAnswer) : (s.answer a).boots = s.boots := rfl
@[simp] theorem State.answer_host (a : HostAnswer) :
    (s.answer a).host = { s.host with answers := a :: s.host.answers } := rfl

/-! ### `State.txStarted` -/

@[simp] theorem State.txStarted_cfg : s.txStarted.cfg = s.cfg := rfl
@[simp] theorem State.txStarted_params : s.txStarted.params = s.params := rfl
@[simp] theorem State.txStarted_status :
    s.txStarted.status = { s.status with txsil := false, mode := .tx } := rfl
@[simp] theorem State.txStarted_errcode : s.txStarted.errcode = s.errcode := rfl
@[simp] theorem State.txStarted_errcmd : s.txStarted.errcmd = s.errcmd := rfl
@[simp] theorem State.txStarted_spf : s.txStarted.spf = s.spf := rfl
@[simp] theorem State.txStarted_bandw : s.txStarted.bandw = s.bandw := rfl
@[simp] theorem State.txStarted_bpb : s.txStarted.bpb = s.bpb := rfl
@[simp] theorem State.txStarted_avail : s.txStarted.avail = s.avail := rfl
@[simp] theorem State.txStarted_nmin : s.txStarted.nmin = s.nmin := rfl
@[simp] theorem State.txStarted_nmax : s.txStarted.nmax = s.nmax := rfl
@[simp] theorem State.txStarted_wc : s.txStarted.wc = BitVec.ofNat 32 s.payloadWindows := rfl
@[simp] theorem State.txStarted_nb : s.txStarted.nb = s.nb := rfl
@[simp] theorem State.txStarted_widx : s.txStarted.widx = 0 := rfl
@[simp] theorem State.txStarted_sidx : s.txStarted.sidx = 0 := rfl
@[simp] theorem State.txStarted_pcmlen : s.txStarted.pcmlen = s.pcmlen := rfl
@[simp] theorem State.txStarted_slen : s.txStarted.slen = s.slen := rfl
@[simp] theorem State.txStarted_bitix : s.txStarted.bitix = s.bitix := rfl
@[simp] theorem State.txStarted_bitv : s.txStarted.bitv = s.bitv := rfl
@[simp] theorem State.txStarted_phase :
    s.txStarted.phase = List.replicate s.nstr (List.replicate s.bpb.toNat 0) := rfl
@[simp] theorem State.txStarted_acc : s.txStarted.acc = s.acc := rfl
@[simp] theorem State.txStarted_sb : s.txStarted.sb = s.sb := rfl
@[simp] theorem State.txStarted_pcm : s.txStarted.pcm = s.pcm := rfl
@[simp] theorem State.txStarted_wave : s.txStarted.wave = [] := rfl
@[simp] theorem State.txStarted_amax : s.txStarted.amax = Num.zero := rfl
@[simp] theorem State.txStarted_mag : s.txStarted.mag = s.mag := rfl
@[simp] theorem State.txStarted_mmax : s.txStarted.mmax = s.mmax := rfl
@[simp] theorem State.txStarted_boots : s.txStarted.boots = s.boots := rfl
@[simp] theorem State.txStarted_host : s.txStarted.host = s.host := rfl

/-! ### `State.rxStarted` -/

@[simp] theorem State.rxStarted_cfg : s.rxStarted.cfg = s.cfg := rfl
@[simp] theorem State.rxStarted_params : s.rxStarted.params = s.params := rfl
@[simp] theorem State.rxStarted_status :
    s.rxStarted.status = { s.status with rxsil := false, mode := .rx } := rfl
@[simp] theorem State.rxStarted_errcode : s.rxStarted.errcode = s.errcode := rfl
@[simp] theorem State.rxStarted_errcmd : s.rxStarted.errcmd = s.errcmd := rfl
@[simp] theorem State.rxStarted_spf : s.rxStarted.spf = s.spf := rfl
@[simp] theorem State.rxStarted_bandw : s.rxStarted.bandw = s.bandw := rfl
@[simp] theorem State.rxStarted_bpb : s.rxStarted.bpb = s.bpb := rfl
@[simp] theorem State.rxStarted_avail : s.rxStarted.avail = s.avail := rfl
@[simp] theorem State.rxStarted_nmin : s.rxStarted.nmin = s.nmin := rfl
@[simp] theorem State.rxStarted_nmax : s.rxStarted.nmax = s.nmax := rfl
@[simp] theorem State.rxStarted_wc : s.rxStarted.wc = BitVec.ofNat 32 s.receivedWindows := rfl
@[simp] theorem State.rxStarted_nb : s.rxStarted.nb = s.nb := rfl
@[simp] theorem State.rxStarted_widx : s.rxStarted.widx = 0 := rfl
@[simp] theorem State.rxStarted_sidx : s.rxStarted.sidx = 0 := rfl
@[simp] theorem State.rxStarted_pcmlen : s.rxStarted.pcmlen = s.pcmlen := rfl
@[simp] theorem State.rxStarted_slen :
    s.rxStarted.slen = tabulate fun i => if i < s.nstr then 0 else s.slen[i]?.getD 0 := rfl
@[simp] theorem State.rxStarted_bitix : s.rxStarted.bitix = s.bitix := rfl
@[simp] theorem State.rxStarted_bitv : s.rxStarted.bitv = s.bitv := rfl
@[simp] theorem State.rxStarted_phase : s.rxStarted.phase = s.phase := rfl
@[simp] theorem State.rxStarted_acc :
    s.rxStarted.acc = tabulate fun i => if i < s.nstr then Acc.clear else s.accOf i := rfl
@[simp] theorem State.rxStarted_sb : s.rxStarted.sb = s.sb := rfl
@[simp] theorem State.rxStarted_pcm : s.rxStarted.pcm = s.pcm := rfl
@[simp] theorem State.rxStarted_wave : s.rxStarted.wave = s.wave := rfl
@[simp] theorem State.rxStarted_amax : s.rxStarted.amax = s.amax := rfl
@[simp] theorem State.rxStarted_mag : s.rxStarted.mag = [] := rfl
@[simp] theorem State.rxStarted_mmax : s.rxStarted.mmax = Num.zero := rfl
@[simp] theorem State.rxStarted_boots : s.rxStarted.boots = s.boots := rfl
@[simp] theorem State.rxStarted_host : s.rxStarted.host = s.host := rfl

/-! ### `State.softReset` -/

@[simp] theorem State.softReset_cfg : s.softReset.cfg = s.cfg := rfl
@[simp] theorem State.softReset_params : s.softReset.params = (State.resetOf s.cfg).params := rfl
@[simp] theorem State.softReset_status : s.softReset.status = (State.resetOf s.cfg).status := rfl
@[simp] theorem State.softReset_errcode : s.softReset.errcode = (State.resetOf s.cfg).errcode := rfl
@[simp] theorem State.softReset_errcmd : s.softReset.errcmd = (State.resetOf s.cfg).errcmd := rfl
@[simp] theorem State.softReset_spf : s.softReset.spf = (State.resetOf s.cfg).spf := rfl
@[simp] theorem State.softReset_bandw : s.softReset.bandw = (State.resetOf s.cfg).bandw := rfl
@[simp] theorem State.softReset_bpb : s.softReset.bpb = (State.resetOf s.cfg).bpb := rfl
@[simp] theorem State.softReset_avail : s.softReset.avail = (State.resetOf s.cfg).avail := rfl
@[simp] theorem State.softReset_nmin : s.softReset.nmin = (State.resetOf s.cfg).nmin := rfl
@[simp] theorem State.softReset_nmax : s.softReset.nmax = (State.resetOf s.cfg).nmax := rfl
@[simp] theorem State.softReset_wc : s.softReset.wc = (State.resetOf s.cfg).wc := rfl
@[simp] theorem State.softReset_nb : s.softReset.nb = (State.resetOf s.cfg).nb := rfl
@[simp] theorem State.softReset_widx : s.softReset.widx = (State.resetOf s.cfg).widx := rfl
@[simp] theorem State.softReset_sidx : s.softReset.sidx = (State.resetOf s.cfg).sidx := rfl
@[simp] theorem State.softReset_pcmlen : s.softReset.pcmlen = (State.resetOf s.cfg).pcmlen := rfl
@[simp] theorem State.softReset_slen : s.softReset.slen = (State.resetOf s.cfg).slen := rfl
@[simp] theorem State.softReset_bitix : s.softReset.bitix = (State.resetOf s.cfg).bitix := rfl
@[simp] theorem State.softReset_bitv : s.softReset.bitv = (State.resetOf s.cfg).bitv := rfl
@[simp] theorem State.softReset_phase : s.softReset.phase = (State.resetOf s.cfg).phase := rfl
@[simp] theorem State.softReset_acc : s.softReset.acc = (State.resetOf s.cfg).acc := rfl
@[simp] theorem State.softReset_sb : s.softReset.sb = s.sb := rfl
@[simp] theorem State.softReset_pcm : s.softReset.pcm = s.pcm := rfl
@[simp] theorem State.softReset_wave : s.softReset.wave = (State.resetOf s.cfg).wave := rfl
@[simp] theorem State.softReset_amax : s.softReset.amax = (State.resetOf s.cfg).amax := rfl
@[simp] theorem State.softReset_mag : s.softReset.mag = (State.resetOf s.cfg).mag := rfl
@[simp] theorem State.softReset_mmax : s.softReset.mmax = (State.resetOf s.cfg).mmax := rfl
@[simp] theorem State.softReset_boots : s.softReset.boots = s.boots := rfl
@[simp] theorem State.softReset_host : s.softReset.host = s.host := rfl

/-! ### `State.hardReset` -/

@[simp] theorem State.hardReset_cfg : s.hardReset.cfg = s.cfg := rfl
@[simp] theorem State.hardReset_params : s.hardReset.params = (State.resetOf s.cfg).params := rfl
@[simp] theorem State.hardReset_status : s.hardReset.status = (State.resetOf s.cfg).status := rfl
@[simp] theorem State.hardReset_errcode : s.hardReset.errcode = (State.resetOf s.cfg).errcode := rfl
@[simp] theorem State.hardReset_errcmd : s.hardReset.errcmd = (State.resetOf s.cfg).errcmd := rfl
@[simp] theorem State.hardReset_spf : s.hardReset.spf = (State.resetOf s.cfg).spf := rfl
@[simp] theorem State.hardReset_bandw : s.hardReset.bandw = (State.resetOf s.cfg).bandw := rfl
@[simp] theorem State.hardReset_bpb : s.hardReset.bpb = (State.resetOf s.cfg).bpb := rfl
@[simp] theorem State.hardReset_avail : s.hardReset.avail = (State.resetOf s.cfg).avail := rfl
@[simp] theorem State.hardReset_nmin : s.hardReset.nmin = (State.resetOf s.cfg).nmin := rfl
@[simp] theorem State.hardReset_nmax : s.hardReset.nmax = (State.resetOf s.cfg).nmax := rfl
@[simp] theorem State.hardReset_wc : s.hardReset.wc = (State.resetOf s.cfg).wc := rfl
@[simp] theorem State.hardReset_nb : s.hardReset.nb = (State.resetOf s.cfg).nb := rfl
@[simp] theorem State.hardReset_widx : s.hardReset.widx = (State.resetOf s.cfg).widx := rfl
@[simp] theorem State.hardReset_sidx : s.hardReset.sidx = (State.resetOf s.cfg).sidx := rfl
@[simp] theorem State.hardReset_pcmlen : s.hardReset.pcmlen = (State.resetOf s.cfg).pcmlen := rfl
@[simp] theorem State.hardReset_slen : s.hardReset.slen = (State.resetOf s.cfg).slen := rfl
@[simp] theorem State.hardReset_bitix : s.hardReset.bitix = (State.resetOf s.cfg).bitix := rfl
@[simp] theorem State.hardReset_bitv : s.hardReset.bitv = (State.resetOf s.cfg).bitv := rfl
@[simp] theorem State.hardReset_phase : s.hardReset.phase = (State.resetOf s.cfg).phase := rfl
@[simp] theorem State.hardReset_acc : s.hardReset.acc = (State.resetOf s.cfg).acc := rfl
@[simp] theorem State.hardReset_sb : s.hardReset.sb = (State.resetOf s.cfg).sb := rfl
@[simp] theorem State.hardReset_pcm : s.hardReset.pcm = (State.resetOf s.cfg).pcm := rfl
@[simp] theorem State.hardReset_wave : s.hardReset.wave = (State.resetOf s.cfg).wave := rfl
@[simp] theorem State.hardReset_amax : s.hardReset.amax = (State.resetOf s.cfg).amax := rfl
@[simp] theorem State.hardReset_mag : s.hardReset.mag = (State.resetOf s.cfg).mag := rfl
@[simp] theorem State.hardReset_mmax : s.hardReset.mmax = (State.resetOf s.cfg).mmax := rfl
@[simp] theorem State.hardReset_boots : s.hardReset.boots = s.boots + 1 := rfl
@[simp] theorem State.hardReset_host : s.hardReset.host = s.host := rfl

/-! ### `State.synthWindows` -/

theorem State.synthWindows_succ (n : Nat) :
    s.synthWindows (n + 1) = (s.synthWindows n).synthWindow := rfl
@[simp] theorem State.synthWindows_cfg (n : Nat) : (s.synthWindows n).cfg = s.cfg := by
  induction n with
  | zero => rfl
  | succ n ih => exact ih
@[simp] theorem State.synthWindows_params (n : Nat) : (s.synthWindows n).params = s.params := by
  induction n with
  | zero => rfl
  | succ n ih => exact ih
@[simp] theorem State.synthWindows_status (n : Nat) : (s.synthWindows n).status = s.status := by
  induction n with
  | zero => rfl
  | succ n ih => exact ih
@[simp] theorem State.synthWindows_errcode (n : Nat) : (s.synthWindows n).errcode = s.errcode := by
  induction n with
  | zero => rfl
  | succ n ih => exact ih
@[simp] theorem State.synthWindows_errcmd (n : Nat) : (s.synthWindows n).errcmd = s.errcmd := by
  induction n with
  | zero => rfl
  | succ n ih => exact ih
@[simp] theorem State.synthWindows_spf (n : Nat) : (s.synthWindows n).spf = s.spf := by
  induction n with
  | zero => rfl
  | succ n ih => exact ih
@[simp] theorem State.synthWindows_bandw (n : Nat) : (s.synthWindows n).bandw = s.bandw := by
  induction n with
  | zero => rfl
  | succ n ih => exact ih
@[simp] theorem State.synthWindows_bpb (n : Nat) : (s.synthWindows n).bpb = s.bpb := by
  induction n with
  | zero => rfl
  | succ n ih => exact ih
@[simp] theorem State.synthWindows_avail (n : Nat) : (s.synthWindows n).avail = s.avail := by
  induction n with
  | zero => rfl
  | succ n ih => exact ih
@[simp] theorem State.synthWindows_nmin (n : Nat) : (s.synthWindows n).nmin = s.nmin := by
  induction n with
  | zero => rfl
  | succ n ih => exact ih
@[simp] theorem State.synthWindows_nmax (n : Nat) : (s.synthWindows n).nmax = s.nmax := by
  induction n with
  | zero => rfl
  | succ n ih => exact ih
@[simp] theorem State.synthWindows_wc (n : Nat) : (s.synthWindows n).wc = s.wc := by
  induction n with
  | zero => rfl
  | succ n ih => exact ih
@[simp] theorem State.synthWindows_nb (n : Nat) : (s.synthWindows n).nb = s.nb := by
  induction n with
  | zero => rfl
  | succ n ih => exact ih
@[simp] theorem State.synthWindows_sidx (n : Nat) : (s.synthWindows n).sidx = s.sidx := by
  induction n with
  | zero => rfl
  | succ n ih => exact ih
@[simp] theorem State.synthWindows_pcmlen (n : Nat) : (s.synthWindows n).pcmlen = s.pcmlen := by
  induction n with
  | zero => rfl
  | succ n ih => exact ih
@[simp] theorem State.synthWindows_slen (n : Nat) : (s.synthWindows n).slen = s.slen := by
  induction n with
  | zero => rfl
  | succ n ih => exact ih
@[simp] theorem State.synthWindows_bitix (n : Nat) : (s.synthWindows n).bitix = s.bitix := by
  induction n with
  | zero => rfl
  | succ n ih => exact ih
@[simp] theorem State.synthWindows_bitv (n : Nat) : (s.synthWindows n).bitv = s.bitv := by
  induction n with
  | zero => rfl
  | succ n ih => exact ih
@[simp] theorem State.synthWindows_acc (n : Nat) : (s.synthWindows n).acc = s.acc := by
  induction n with
  | zero => rfl
  | succ n ih => exact ih
@[simp] theorem State.synthWindows_sb (n : Nat) : (s.synthWindows n).sb = s.sb := by
  induction n with
  | zero => rfl
  | succ n ih => exact ih
@[simp] theorem State.synthWindows_pcm (n : Nat) : (s.synthWindows n).pcm = s.pcm := by
  induction n with
  | zero => rfl
  | succ n ih => exact ih
@[simp] theorem State.synthWindows_mag (n : Nat) : (s.synthWindows n).mag = s.mag := by
  induction n with
  | zero => rfl
  | succ n ih => exact ih
@[simp] theorem State.synthWindows_mmax (n : Nat) : (s.synthWindows n).mmax = s.mmax := by
  induction n with
  | zero => rfl
  | succ n ih => exact ih
@[simp] theorem State.synthWindows_boots (n : Nat) : (s.synthWindows n).boots = s.boots := by
  induction n with
  | zero => rfl
  | succ n ih => exact ih
@[simp] theorem State.synthWindows_host (n : Nat) : (s.synthWindows n).host = s.host := by
  induction n with
  | zero => rfl
  | succ n ih => exact ih

/-! ### `State.takeSpectra` -/

theorem State.takeSpectra_succ (n : Nat) :
    s.takeSpectra (n + 1) = (s.takeSpectra n).takeSpectrum := rfl
@[simp] theorem State.takeSpectra_cfg (n : Nat) : (s.takeSpectra n).cfg = s.cfg := by
  induction n with
  | zero => rfl
  | succ n ih => exact ih
@[simp] theorem State.takeSpectra_params (n : Nat) : (s.takeSpectra n).params = s.params := by
  induction n with
  | zero => rfl
  | succ n ih => exact ih
@[simp] theorem State.takeSpectra_status (n : Nat) : (s.takeSpectra n).status = s.status := by
  induction n with
  | zero => rfl
  | succ n ih => exact ih
@[simp] theorem State.takeSpectra_errcode (n : Nat) : (s.takeSpectra n).errcode = s.errcode := by
  induction n with
  | zero => rfl
  | succ n ih => exact ih
@[simp] theorem State.takeSpectra_errcmd (n : Nat) : (s.takeSpectra n).errcmd = s.errcmd := by
  induction n with
  | zero => rfl
  | succ n ih => exact ih
@[simp] theorem State.takeSpectra_spf (n : Nat) : (s.takeSpectra n).spf = s.spf := by
  induction n with
  | zero => rfl
  | succ n ih => exact ih
@[simp] theorem State.takeSpectra_bandw (n : Nat) : (s.takeSpectra n).bandw = s.bandw := by
  induction n with
  | zero => rfl
  | succ n ih => exact ih
@[simp] theorem State.takeSpectra_bpb (n : Nat) : (s.takeSpectra n).bpb = s.bpb := by
  induction n with
  | zero => rfl
  | succ n ih => exact ih
@[simp] theorem State.takeSpectra_avail (n : Nat) : (s.takeSpectra n).avail = s.avail := by
  induction n with
  | zero => rfl
  | succ n ih => exact ih
@[simp] theorem State.takeSpectra_nmin (n : Nat) : (s.takeSpectra n).nmin = s.nmin := by
  induction n with
  | zero => rfl
  | succ n ih => exact ih
@[simp] theorem State.takeSpectra_nmax (n : Nat) : (s.takeSpectra n).nmax = s.nmax := by
  induction n with
  | zero => rfl
  | succ n ih => exact ih
@[simp] theorem State.takeSpectra_wc (n : Nat) : (s.takeSpectra n).wc = s.wc := by
  induction n with
  | zero => rfl
  | succ n ih => exact ih
@[simp] theorem State.takeSpectra_nb (n : Nat) : (s.takeSpectra n).nb = s.nb := by
  induction n with
  | zero => rfl
  | succ n ih => exact ih
@[simp] theorem State.takeSpectra_widx (n : Nat) : (s.takeSpectra n).widx = s.widx := by
  induction n with
  | zero => rfl
  | succ n ih => exact ih
@[simp] theorem State.takeSpectra_pcmlen (n : Nat) : (s.takeSpectra n).pcmlen = s.pcmlen := by
  induction n with
  | zero => rfl
  | succ n ih => exact ih
@[simp] theorem State.takeSpectra_slen (n : Nat) : (s.takeSpectra n).slen = s.slen := by
  induction n with
  | zero => rfl
  | succ n ih => exact ih
@[simp] theorem State.takeSpectra_bitix (n : Nat) : (s.takeSpectra n).bitix = s.bitix := by
  induction n with
  | zero => rfl
  | succ n ih => exact ih
@[simp] theorem State.takeSpectra_bitv (n : Nat) : (s.takeSpectra n).bitv = s.bitv := by
  induction n with
  | zero => rfl
  | succ n ih => exact ih
@[simp] theorem State.takeSpectra_phase (n : Nat) : (s.takeSpectra n).phase = s.phase := by
  induction n with
  | zero => rfl
  | succ n ih => exact ih
@[simp] theorem State.takeSpectra_acc (n : Nat) : (s.takeSpectra n).acc = s.acc := by
  induction n with
  | zero => rfl
  | succ n ih => exact ih
@[simp] theorem State.takeSpectra_sb (n : Nat) : (s.takeSpectra n).sb = s.sb := by
  induction n with
  | zero => rfl
  | succ n ih => exact ih
@[simp] theorem State.takeSpectra_pcm (n : Nat) : (s.takeSpectra n).pcm = s.pcm := by
  induction n with
  | zero => rfl
  | succ n ih => exact ih
@[simp] theorem State.takeSpectra_wave (n : Nat) : (s.takeSpectra n).wave = s.wave := by
  induction n with
  | zero => rfl
  | succ n ih => exact ih
@[simp] theorem State.takeSpectra_amax (n : Nat) : (s.takeSpectra n).amax = s.amax := by
  induction n with
  | zero => rfl
  | succ n ih => exact ih
@[simp] theorem State.takeSpectra_boots (n : Nat) : (s.takeSpectra n).boots = s.boots := by
  induction n with
  | zero => rfl
  | succ n ih => exact ih
@[simp] theorem State.takeSpectra_host (n : Nat) : (s.takeSpectra n).host = s.host := by
  induction n with
  | zero => rfl
  | succ n ih => exact ih

/-! ### Two states with the same fields are the same -/

theorem State.ext_fields {s t : State} (cfg : s.cfg = t.cfg)
    (params : s.params = t.params)
    (status : s.status = t.status)
    (errcode : s.errcode = t.errcode)
    (errcmd : s.errcmd = t.errcmd)
    (spf : s.spf = t.spf)
    (bandw : s.bandw = t.bandw)
    (bpb : s.bpb = t.bpb)
    (avail : s.avail = t.avail)
    (nmin : s.nmin = t.nmin)
    (nmax : s.nmax = t.nmax)
    (wc : s.wc = t.wc)
    (nb : s.nb = t.nb)
    (widx : s.widx = t.widx)
    (sidx : s.sidx = t.sidx)
    (pcmlen : s.pcmlen = t.pcmlen)
    (slen : s.slen = t.slen)
    (bitix : s.bitix = t.bitix)
    (bitv : s.bitv = t.bitv)
    (phase : s.phase = t.phase)
    (acc : s.acc = t.acc)
    (sb : s.sb = t.sb)
    (pcm : s.pcm = t.pcm)
    (wave : s.wave = t.wave)
    (amax : s.amax = t.amax)
    (mag : s.mag = t.mag)
    (mmax : s.mmax = t.mmax)
    (boots : s.boots = t.boots)
    (host : s.host = t.host) : s = t := by
  cases s; cases t
  simp only [State.mk.injEq]
  exact ⟨cfg, params, status, errcode, errcmd, spf, bandw, bpb, avail, nmin, nmax, wc, nb, widx,
    sidx, pcmlen, slen, bitix, bitv, phase, acc, sb, pcm, wave, amax, mag, mmax, boots, host⟩

end Sys2Proof.Machine
end

