-- ==== Sys2Proof/Laws/Access.lean ====
section
/-! SUPPORT. What the accessors of registers and buffers give after each write, and the accessors that
an update leaves alone. -/

namespace Sys2Proof.Machine

@[simp] theorem tabulate_getElem? {α : Type} {n : Nat} (f : Nat → α) (i : Nat) :
    (tabulate f : Vector α n)[i]? = if i < n then some (f i) else none := by
  simp only [tabulate, Vector.getElem?_mk, List.getElem?_toArray, List.getElem?_map]
  split
  · rename_i h; simp [h]
  · rename_i h; rw [List.getElem?_eq_none (by simpa using h)]; rfl

/-- A stream that exists has an entry in every register file. -/
theorem lt_bankSize (c : Config) {i : Nat} (h : i < c.maxStreams) : i < bankSize :=
  lt_of_lt_of_le h c.maxStreams_range.2

theorem getElem?_setIfInBounds {α : Type} {n : Nat} (v : Vector α n) (i j : Nat) (a : α) :
    (v.setIfInBounds i a)[j]? = if j = i ∧ i < n then some a else v[j]? := by
  rw [Vector.getElem?_setIfInBounds]
  split
  · rename_i h; subst h
    split
    · rename_i h; rw [if_pos ⟨rfl, h⟩]
    · rename_i h; rw [if_neg (fun h' => h h'.2), Vector.getElem?_eq_none (Nat.le_of_not_lt h)]
  · rename_i h; rw [if_neg (fun h' => h h'.1.symm)]

variable (s : State)

theorem State.param_setParam (i j : Nat) (v : Word) :
    (s.setParam i v).param j = if j = i ∧ i < 8 then v else s.param j := by
  simp only [State.param, State.setParam_params, getElem?_setIfInBounds]; split <;> rfl

theorem State.slenOf_setSlen (st : Nat) (v : Word) (i : Nat) :
    (s.setSlen st v).slenOf i = if i = st ∧ st < bankSize then v.toNat else s.slenOf i := by
  simp only [State.slenOf, State.setSlen_slen, getElem?_setIfInBounds]; split <;> rfl

theorem State.accOf_setAcc (st : Nat) (a : Acc) (i : Nat) :
    (s.setAcc st a).accOf i = if i = st ∧ st < bankSize then a else s.accOf i := by
  simp only [State.accOf, State.setAcc_acc, getElem?_setIfInBounds]; split <;> rfl

theorem State.sbOf_sbWrite (st a : Nat) (v : Byte) (i : Nat) :
    (s.sbWrite st a v).sbOf i =
      if i = st ∧ st < bankSize then Memory.write (s.sbOf st) a v else s.sbOf i := by
  simp only [State.sbOf, State.sbWrite_sb, getElem?_setIfInBounds]; split <;> rfl

/-- One element of one stream buffer changes. -/
theorem State.sbRead_sbWrite (st a : Nat) (v : Byte) (i b : Nat) :
    (s.sbWrite st a v).sbRead i b =
      if i = st ∧ st < bankSize ∧ b = a then v else s.sbRead i b := by
  simp only [State.sbRead, State.sbOf_sbWrite, State.sbWrite_boots]
  by_cases h : i = st ∧ st < bankSize
  · obtain ⟨rfl, h⟩ := h
    rw [if_pos ⟨rfl, h⟩, Memory.read_write]
    by_cases hb : b = a
    · simp [hb, h]
    · simp [hb]
  · rw [if_neg h, if_neg fun h' => h ⟨h'.1, h'.2.1⟩]

/-- One element of the sample buffer changes, to the low B bits written. -/
theorem State.pcmRead_pcmWrite (a : Nat) (v : Sample) (b : Nat) :
    (s.pcmWrite a v).pcmRead b = if b = a then s.cfg.wrapSample v else s.pcmRead b := by
  simp only [State.pcmRead, State.pcmWrite_pcm, State.pcmWrite_boots, State.pcmWrite_cfg,
    Memory.read_write]
  split <;> rfl

@[simp] theorem State.param_setDone (v : Bool) (j : Nat) : (s.setDone v).param j = s.param j := rfl
@[simp] theorem State.geoParams_setDone (v : Bool) : (s.setDone v).geoParams = s.geoParams := rfl
@[simp] theorem State.nstr_setDone (v : Bool) : (s.setDone v).nstr = s.nstr := rfl
@[simp] theorem State.nfft_setDone (v : Bool) : (s.setDone v).nfft = s.nfft := rfl
@[simp] theorem State.kdec_setDone (v : Bool) : (s.setDone v).kdec = s.kdec := rfl
@[simp] theorem State.thr_setDone (v : Bool) : (s.setDone v).thr = s.thr := rfl
@[simp] theorem State.slenOf_setDone (v : Bool) (j : Nat) :
    (s.setDone v).slenOf j = s.slenOf j := rfl
@[simp] theorem State.accOf_setDone (v : Bool) (j : Nat) : (s.setDone v).accOf j = s.accOf j := rfl
@[simp] theorem State.nbOf_setDone (v : Bool) (j : Nat) : (s.setDone v).nbOf j = s.nbOf j := rfl
@[simp] theorem State.nativeBin_setDone (v : Bool) (j k : Nat) :
    (s.setDone v).nativeBin j k = s.nativeBin j k := rfl
@[simp] theorem State.phaseOf_setDone (v : Bool) (j k : Nat) :
    (s.setDone v).phaseOf j k = s.phaseOf j k := rfl
@[simp] theorem State.sbOf_setDone (v : Bool) (j : Nat) : (s.setDone v).sbOf j = s.sbOf j := rfl
@[simp] theorem State.sbRead_setDone (v : Bool) (j k : Nat) :
    (s.setDone v).sbRead j k = s.sbRead j k := rfl
@[simp] theorem State.pcmRead_setDone (v : Bool) (j : Nat) :
    (s.setDone v).pcmRead j = s.pcmRead j := rfl
@[simp] theorem State.xpad_setDone (v : Bool) (j : Nat) : (s.setDone v).xpad j = s.xpad j := rfl
@[simp] theorem State.streamBit_setDone (v : Bool) (j k : Nat) :
    (s.setDone v).streamBit j k = s.streamBit j k := rfl

@[simp] theorem State.param_setSlen (st : Nat) (v : Word) (j : Nat) :
    (s.setSlen st v).param j = s.param j := rfl
@[simp] theorem State.geoParams_setSlen (st : Nat) (v : Word) :
    (s.setSlen st v).geoParams = s.geoParams := rfl
@[simp] theorem State.nstr_setSlen (st : Nat) (v : Word) : (s.setSlen st v).nstr = s.nstr := rfl
@[simp] theorem State.nfft_setSlen (st : Nat) (v : Word) : (s.setSlen st v).nfft = s.nfft := rfl
@[simp] theorem State.kdec_setSlen (st : Nat) (v : Word) : (s.setSlen st v).kdec = s.kdec := rfl
@[simp] theorem State.thr_setSlen (st : Nat) (v : Word) : (s.setSlen st v).thr = s.thr := rfl
@[simp] theorem State.accOf_setSlen (st : Nat) (v : Word) (j : Nat) :
    (s.setSlen st v).accOf j = s.accOf j := rfl
@[simp] theorem State.nbOf_setSlen (st : Nat) (v : Word) (j : Nat) :
    (s.setSlen st v).nbOf j = s.nbOf j := rfl
@[simp] theorem State.nativeBin_setSlen (st : Nat) (v : Word) (j k : Nat) :
    (s.setSlen st v).nativeBin j k = s.nativeBin j k := rfl
@[simp] theorem State.phaseOf_setSlen (st : Nat) (v : Word) (j k : Nat) :
    (s.setSlen st v).phaseOf j k = s.phaseOf j k := rfl
@[simp] theorem State.sbOf_setSlen (st : Nat) (v : Word) (j : Nat) :
    (s.setSlen st v).sbOf j = s.sbOf j := rfl
@[simp] theorem State.sbRead_setSlen (st : Nat) (v : Word) (j k : Nat) :
    (s.setSlen st v).sbRead j k = s.sbRead j k := rfl
@[simp] theorem State.pcmRead_setSlen (st : Nat) (v : Word) (j : Nat) :
    (s.setSlen st v).pcmRead j = s.pcmRead j := rfl
@[simp] theorem State.xpad_setSlen (st : Nat) (v : Word) (j : Nat) :
    (s.setSlen st v).xpad j = s.xpad j := rfl

@[simp] theorem State.param_setAcc (st : Nat) (a : Acc) (j : Nat) :
    (s.setAcc st a).param j = s.param j := rfl
@[simp] theorem State.geoParams_setAcc (st : Nat) (a : Acc) :
    (s.setAcc st a).geoParams = s.geoParams := rfl
@[simp] theorem State.nstr_setAcc (st : Nat) (a : Acc) : (s.setAcc st a).nstr = s.nstr := rfl
@[simp] theorem State.nfft_setAcc (st : Nat) (a : Acc) : (s.setAcc st a).nfft = s.nfft := rfl
@[simp] theorem State.kdec_setAcc (st : Nat) (a : Acc) : (s.setAcc st a).kdec = s.kdec := rfl
@[simp] theorem State.thr_setAcc (st : Nat) (a : Acc) : (s.setAcc st a).thr = s.thr := rfl
@[simp] theorem State.slenOf_setAcc (st : Nat) (a : Acc) (j : Nat) :
    (s.setAcc st a).slenOf j = s.slenOf j := rfl
@[simp] theorem State.nbOf_setAcc (st : Nat) (a : Acc) (j : Nat) :
    (s.setAcc st a).nbOf j = s.nbOf j := rfl
@[simp] theorem State.nativeBin_setAcc (st : Nat) (a : Acc) (j k : Nat) :
    (s.setAcc st a).nativeBin j k = s.nativeBin j k := rfl
@[simp] theorem State.phaseOf_setAcc (st : Nat) (a : Acc) (j k : Nat) :
    (s.setAcc st a).phaseOf j k = s.phaseOf j k := rfl
@[simp] theorem State.sbOf_setAcc (st : Nat) (a : Acc) (j : Nat) :
    (s.setAcc st a).sbOf j = s.sbOf j := rfl
@[simp] theorem State.sbRead_setAcc (st : Nat) (a : Acc) (j k : Nat) :
    (s.setAcc st a).sbRead j k = s.sbRead j k := rfl
@[simp] theorem State.pcmRead_setAcc (st : Nat) (a : Acc) (j : Nat) :
    (s.setAcc st a).pcmRead j = s.pcmRead j := rfl
@[simp] theorem State.xpad_setAcc (st : Nat) (a : Acc) (j : Nat) :
    (s.setAcc st a).xpad j = s.xpad j := rfl
@[simp] theorem State.streamBit_setAcc (st : Nat) (a : Acc) (j k : Nat) :
    (s.setAcc st a).streamBit j k = s.streamBit j k := rfl

@[simp] theorem State.param_sbWrite (st a : Nat) (v : Byte) (j : Nat) :
    (s.sbWrite st a v).param j = s.param j := rfl
@[simp] theorem State.geoParams_sbWrite (st a : Nat) (v : Byte) :
    (s.sbWrite st a v).geoParams = s.geoParams := rfl
@[simp] theorem State.nstr_sbWrite (st a : Nat) (v : Byte) : (s.sbWrite st a v).nstr = s.nstr := rfl
@[simp] theorem State.nfft_sbWrite (st a : Nat) (v : Byte) : (s.sbWrite st a v).nfft = s.nfft := rfl
@[simp] theorem State.kdec_sbWrite (st a : Nat) (v : Byte) : (s.sbWrite st a v).kdec = s.kdec := rfl
@[simp] theorem State.thr_sbWrite (st a : Nat) (v : Byte) : (s.sbWrite st a v).thr = s.thr := rfl
@[simp] theorem State.slenOf_sbWrite (st a : Nat) (v : Byte) (j : Nat) :
    (s.sbWrite st a v).slenOf j = s.slenOf j := rfl
@[simp] theorem State.accOf_sbWrite (st a : Nat) (v : Byte) (j : Nat) :
    (s.sbWrite st a v).accOf j = s.accOf j := rfl
@[simp] theorem State.nbOf_sbWrite (st a : Nat) (v : Byte) (j : Nat) :
    (s.sbWrite st a v).nbOf j = s.nbOf j := rfl
@[simp] theorem State.nativeBin_sbWrite (st a : Nat) (v : Byte) (j k : Nat) :
    (s.sbWrite st a v).nativeBin j k = s.nativeBin j k := rfl
@[simp] theorem State.phaseOf_sbWrite (st a : Nat) (v : Byte) (j k : Nat) :
    (s.sbWrite st a v).phaseOf j k = s.phaseOf j k := rfl
@[simp] theorem State.pcmRead_sbWrite (st a : Nat) (v : Byte) (j : Nat) :
    (s.sbWrite st a v).pcmRead j = s.pcmRead j := rfl
@[simp] theorem State.xpad_sbWrite (st a : Nat) (v : Byte) (j : Nat) :
    (s.sbWrite st a v).xpad j = s.xpad j := rfl

@[simp] theorem State.param_raise (e : ErrCode) (w : Word) (j : Nat) :
    (s.raise e w).param j = s.param j := rfl
@[simp] theorem State.geoParams_raise (e : ErrCode) (w : Word) :
    (s.raise e w).geoParams = s.geoParams := rfl
@[simp] theorem State.nstr_raise (e : ErrCode) (w : Word) : (s.raise e w).nstr = s.nstr := rfl
@[simp] theorem State.nfft_raise (e : ErrCode) (w : Word) : (s.raise e w).nfft = s.nfft := rfl
@[simp] theorem State.kdec_raise (e : ErrCode) (w : Word) : (s.raise e w).kdec = s.kdec := rfl
@[simp] theorem State.thr_raise (e : ErrCode) (w : Word) : (s.raise e w).thr = s.thr := rfl
@[simp] theorem State.slenOf_raise (e : ErrCode) (w : Word) (j : Nat) :
    (s.raise e w).slenOf j = s.slenOf j := rfl
@[simp] theorem State.accOf_raise (e : ErrCode) (w : Word) (j : Nat) :
    (s.raise e w).accOf j = s.accOf j := rfl
@[simp] theorem State.nbOf_raise (e : ErrCode) (w : Word) (j : Nat) :
    (s.raise e w).nbOf j = s.nbOf j := rfl
@[simp] theorem State.nativeBin_raise (e : ErrCode) (w : Word) (j k : Nat) :
    (s.raise e w).nativeBin j k = s.nativeBin j k := rfl
@[simp] theorem State.phaseOf_raise (e : ErrCode) (w : Word) (j k : Nat) :
    (s.raise e w).phaseOf j k = s.phaseOf j k := rfl
@[simp] theorem State.sbOf_raise (e : ErrCode) (w : Word) (j : Nat) :
    (s.raise e w).sbOf j = s.sbOf j := rfl
@[simp] theorem State.sbRead_raise (e : ErrCode) (w : Word) (j k : Nat) :
    (s.raise e w).sbRead j k = s.sbRead j k := rfl
@[simp] theorem State.pcmRead_raise (e : ErrCode) (w : Word) (j : Nat) :
    (s.raise e w).pcmRead j = s.pcmRead j := rfl
@[simp] theorem State.xpad_raise (e : ErrCode) (w : Word) (j : Nat) :
    (s.raise e w).xpad j = s.xpad j := rfl
@[simp] theorem State.streamBit_raise (e : ErrCode) (w : Word) (j k : Nat) :
    (s.raise e w).streamBit j k = s.streamBit j k := rfl

/-! ### The starts of the runs -/

@[simp] theorem State.phaseOf_txStarted (i j : Nat) : s.txStarted.phaseOf i j = 0 := by
  simp only [State.phaseOf, State.txStarted_phase, List.getD_eq_getElem?_getD]
  by_cases hi : i < s.nstr <;> by_cases hj : j < s.bpb.toNat <;>
    simp [hi, hj]

@[simp] theorem State.slenOf_rxStarted (i : Nat) :
    s.rxStarted.slenOf i = if i < s.nstr then 0 else s.slenOf i := by
  simp only [State.slenOf, State.rxStarted_slen, tabulate_getElem?]
  by_cases h : i < bankSize
  · by_cases h' : i < s.nstr <;> simp [h, h']
  · simp [h]

@[simp] theorem State.accOf_rxStarted (i : Nat) :
    s.rxStarted.accOf i = if i < s.nstr then Acc.clear else s.accOf i := by
  rw [State.accOf, State.rxStarted_acc, tabulate_getElem?]
  by_cases h : i < bankSize
  · by_cases h' : i < s.nstr <;> simp [h, h']
  · rw [if_neg h, State.accOf, Vector.getElem?_eq_none (Nat.le_of_not_lt h)]
    simp

end Sys2Proof.Machine
end

