-- ==== Sys2Proof/Laws/Command.lean ====
section
/-! SUPPORT. The life of a command: everything `runCommand` can do, said once, and the four ways it can
go as equations. -/

namespace Sys2Proof.Machine

open Host (Outcome)

@[simp] theorem furtherCondition_setDone (i : Instr) (s : State) (v : Bool) :
    furtherCondition (s.setDone v) i = furtherCondition s i := by cases i <;> rfl

/-- Clearing `DONE` does not change which checks a command passes. -/
@[simp] theorem legality_setDone (i : Instr) (s : State) (v : Bool) :
    legality i (s.setDone v) = legality i s := by
  rw [legality, furtherCondition_setDone]; rfl

theorem runCommand_refused (i : Instr) (body : State → Except ErrCode State) {s : State}
    (h : s.status.err = true) : runCommand i body s = .next s := by
  simp [runCommand, h]

theorem runCommand_illegal {i : Instr} {body : State → Except ErrCode State} {s : State}
    {e : ErrCode} (h : s.status.err = false) (hl : legality i s = some e) :
    runCommand i body s = .next ((s.setDone false).raise e (encode i)) := by
  simp [runCommand, h, hl]

theorem runCommand_raise {i : Instr} {body : State → Except ErrCode State} {s : State}
    {e : ErrCode} (h : s.status.err = false) (hl : legality i s = none)
    (hb : body (s.setDone false) = .error e) :
    runCommand i body s = .next ((s.setDone false).raise e (encode i)) := by
  simp [runCommand, h, hl, hb]

theorem runCommand_done {i : Instr} {body : State → Except ErrCode State} {s t : State}
    (h : s.status.err = false) (hl : legality i s = none) (hb : body (s.setDone false) = .ok t) :
    runCommand i body s = .next (t.setDone true) := by
  simp [runCommand, h, hl, hb]

/-- Everything `runCommand` can do: refuse, raise, or complete; it always answers a next state. -/
theorem runCommand_cases (i : Instr) (body : State → Except ErrCode State) (s : State) :
    ∃ t, runCommand i body s = .next t ∧
      ((s.status.err = true ∧ t = s) ∨
       (s.status.err = false ∧ ∃ e, t = (s.setDone false).raise e (encode i) ∧
          (legality i s = some e ∨ legality i s = none ∧ body (s.setDone false) = .error e)) ∨
       (s.status.err = false ∧ legality i s = none ∧
          ∃ u, body (s.setDone false) = .ok u ∧ t = u.setDone true)) := by
  cases h : s.status.err with
  | true => exact ⟨s, runCommand_refused i body h, .inl ⟨rfl, rfl⟩⟩
  | false =>
      cases hl : legality i s with
      | some e => exact ⟨_, runCommand_illegal h hl, .inr (.inl ⟨rfl, e, rfl, .inl rfl⟩)⟩
      | none =>
          cases hb : body (s.setDone false) with
          | error e =>
              exact ⟨_, runCommand_raise h hl hb, .inr (.inl ⟨rfl, e, rfl, .inr ⟨rfl, rfl⟩⟩)⟩
          | ok u => exact ⟨_, runCommand_done h hl hb, .inr (.inr ⟨rfl, rfl, u, rfl, rfl⟩)⟩

/-- The same, from an answer. -/
theorem runCommand_next {i : Instr} {body : State → Except ErrCode State} {s t : State}
    (h : runCommand i body s = .next t) :
    (s.status.err = true ∧ t = s) ∨
    (s.status.err = false ∧ ∃ e, t = (s.setDone false).raise e (encode i) ∧
      (legality i s = some e ∨ legality i s = none ∧ body (s.setDone false) = .error e)) ∨
    (s.status.err = false ∧ legality i s = none ∧
      ∃ u, body (s.setDone false) = .ok u ∧ t = u.setDone true) := by
  obtain ⟨t', h', hc⟩ := runCommand_cases i body s
  rw [h] at h'
  cases h'
  exact hc

/-- Everything `legality` can say. -/
theorem legality_cases (i : Instr) (s : State) :
    (legality i s = some .seq ∧ ∃ m, modeNeeded i = some m ∧ s.status.mode ≠ m) ∨
    ((∀ m, modeNeeded i = some m → s.status.mode = m) ∧
      ((legality i s = some .nogeo ∧ geoNeeded i = true ∧ s.status.geov = false) ∨
       ((geoNeeded i = true → s.status.geov = true) ∧
         (legality i s = some .seq ∧ furtherCondition s i = false ∨
          legality i s = none ∧ furtherCondition s i = true)))) := by
  cases hm : modeNeeded i with
  | none =>
      cases hg : geoNeeded i <;> cases hv : s.status.geov <;> cases hf : furtherCondition s i <;>
        simp [legality, hm, hg, hv, hf]
  | some m =>
      by_cases h : s.status.mode = m
      · cases hg : geoNeeded i <;> cases hv : s.status.geov <;>
          cases hf : furtherCondition s i <;> simp [legality, hm, hg, hv, hf, h]
      · exact .inl ⟨by simp [legality, hm, h], m, rfl, h⟩

end Sys2Proof.Machine
end

