-- ==== Sys2Proof/Laws/NumValue.lean ====
section
/-! SUPPORT. What the operations on `TrigSum`s do to the real numbers they stand for. -/

namespace Sys2Proof.Num

open Real

theorem ord_pos (x : TrigSum) : 0 < ord x := lt_of_lt_of_le Nat.one_pos (Nat.le_max_right _ _)

theorem ord_of_pos {n : Nat} (h : 0 < n) (t : List (Int × Nat)) : ord ⟨n, t⟩ = n :=
  Nat.max_eq_left h

/-- The value of a list of terms over the order n. -/
noncomputable def termsValue (n : Nat) (l : List (Int × Nat)) : ℝ :=
  (l.map fun t => (t.1 : ℝ) * cos (2 * π * t.2 / n)).sum

theorem value_eq (x : TrigSum) : value x = termsValue (ord x) x.terms := rfl

theorem value_mk {n : Nat} (h : 0 < n) (l : List (Int × Nat)) : value ⟨n, l⟩ = termsValue n l := by
  rw [value_eq, ord_of_pos h]

@[simp] theorem termsValue_nil (n : Nat) : termsValue n [] = 0 := rfl

@[simp] theorem termsValue_cons (n : Nat) (t : Int × Nat) (l : List (Int × Nat)) :
    termsValue n (t :: l) = (t.1 : ℝ) * cos (2 * π * t.2 / n) + termsValue n l := by
  simp [termsValue]

@[simp] theorem termsValue_append (n : Nat) (l m : List (Int × Nat)) :
    termsValue n (l ++ m) = termsValue n l + termsValue n m := by
  simp [termsValue]

theorem termsValue_lift {n : Nat} (x : TrigSum) (h : ord x ∣ n) (hn : 0 < n) :
    termsValue n (lift n x) = value x := by
  obtain ⟨c, rfl⟩ := h
  have ho : (ord x : ℝ) ≠ 0 := by exact_mod_cast (ord_pos x).ne'
  have hc : (c : ℝ) ≠ 0 := by
    have := Nat.pos_of_mul_pos_left hn
    exact_mod_cast (Nat.pos_of_mul_pos_left (by simpa [Nat.mul_comm] using hn)).ne'
  rw [value_eq, termsValue, termsValue, lift, List.map_map]
  congr 1
  apply List.map_congr_left
  rintro ⟨d, k⟩ _
  simp only [Function.comp, Nat.mul_div_cancel_left _ (ord_pos x)]
  push_cast
  congr 2
  field_simp

theorem lcm_ord_pos (x y : TrigSum) : 0 < Nat.lcm (ord x) (ord y) :=
  Nat.lcm_pos (ord_pos x) (ord_pos y)

@[simp] theorem value_zero : value zero = 0 := by simp [value, zero]

@[simp] theorem value_ofInt (c : Int) : value (ofInt c) = c := by simp [value, ofInt]

@[simp] theorem value_add (x y : TrigSum) : value (add x y) = value x + value y := by
  have h := lcm_ord_pos x y
  rw [add, value_mk h, termsValue_append, termsValue_lift x (Nat.dvd_lcm_left _ _) h,
    termsValue_lift y (Nat.dvd_lcm_right _ _) h]

theorem termsValue_smul (n : Nat) (c : Int) (l : List (Int × Nat)) :
    termsValue n (l.map fun t => (c * t.1, t.2)) = c * termsValue n l := by
  induction l with
  | nil => simp
  | cons t l ih => rw [List.map_cons, termsValue_cons, ih, termsValue_cons]; push_cast; ring

@[simp] theorem value_smul (c : Int) (x : TrigSum) : value (smul c x) = c * value x := by
  rw [value_eq, value_eq, ← termsValue_smul]; rfl

@[simp] theorem value_sub (x y : TrigSum) : value (sub x y) = value x - value y := by
  simp [sub]; ring

theorem cos_product_terms {n : Nat} (hn : 0 < n) (k l : Nat) :
    cos (2 * π * ((k + l : Nat) : ℝ) / n) + cos (2 * π * ((k + (n - l % n) : Nat) : ℝ) / n) =
      2 * (cos (2 * π * k / n) * cos (2 * π * l / n)) := by
  have hn' : (n : ℝ) ≠ 0 := by exact_mod_cast hn.ne'
  have hle : l % n ≤ n := (Nat.mod_lt l hn).le
  have hl : (l : ℝ) = n * (l / n : Nat) + (l % n : Nat) := by exact_mod_cast (Nat.div_add_mod l n).symm
  have e1 : 2 * π * ((k + l : Nat) : ℝ) / n = 2 * π * k / n + 2 * π * l / n := by
    push_cast; ring
  have e2 : 2 * π * ((k + (n - l % n) : Nat) : ℝ) / n =
      2 * π * k / n - 2 * π * l / n + ((l / n + 1 : Nat) : ℝ) * (2 * π) := by
    push_cast [Nat.cast_sub hle]
    rw [eq_comm, hl]
    field_simp
    ring_nf
  rw [e1, e2, cos_add_nat_mul_two_pi, cos_add, cos_sub]
  ring

theorem termsValue_mul {n : Nat} (hn : 0 < n) (l m : List (Int × Nat)) :
    termsValue n (l.flatMap fun s => m.flatMap fun t =>
      [(s.1 * t.1, s.2 + t.2), (s.1 * t.1, s.2 + (n - t.2 % n))]) =
      2 * (termsValue n l * termsValue n m) := by
  have inner (s : Int × Nat) : termsValue n (m.flatMap fun t =>
      [(s.1 * t.1, s.2 + t.2), (s.1 * t.1, s.2 + (n - t.2 % n))]) =
      2 * ((s.1 : ℝ) * cos (2 * π * s.2 / n) * termsValue n m) := by
    induction m with
    | nil => simp
    | cons t m ih =>
        rw [List.flatMap_cons, termsValue_append, ih]
        have := cos_product_terms hn s.2 t.2
        simp only [termsValue_cons, termsValue_nil]
        push_cast at this ⊢
        linear_combination (s.1 : ℝ) * t.1 * this
  induction l with
  | nil => simp
  | cons s l ih =>
      rw [List.flatMap_cons, termsValue_append, ih, inner, termsValue_cons]; ring

@[simp] theorem value_doubleMul (x y : TrigSum) :
    value (doubleMul x y) = 2 * (value x * value y) := by
  have h := lcm_ord_pos x y
  rw [doubleMul, value_mk h, ← termsValue_lift x (Nat.dvd_lcm_left _ _) h,
    ← termsValue_lift y (Nat.dvd_lcm_right _ _) h, ← termsValue_mul h]

@[simp] theorem value_doublePow (x : TrigSum) (v : Nat) :
    value (doublePow x v) = 2 ^ v * value x ^ (v + 1) := by
  induction v with
  | zero => simp [doublePow]
  | succ v ih => rw [doublePow, value_doubleMul, ih]; ring

/-- `NUM.sinT(a, n)` is sin(2·pi·a/n) (00_scope.md R13). -/
theorem value_sinT {n : Nat} (hn : 0 < n) (a : Nat) : value (sinT a n) = sin (2 * π * a / n) := by
  have h4 : 0 < 4 * n := by omega
  have hn' : (n : ℝ) ≠ 0 := by exact_mod_cast hn.ne'
  have hm : (((4 * a + 3 * n) % (4 * n) : Nat) : ℝ) =
      4 * a + 3 * n - 4 * n * ((4 * a + 3 * n) / (4 * n) : Nat) := by
    have := Nat.div_add_mod (4 * a + 3 * n) (4 * n)
    have h2 : ((4 * n * ((4 * a + 3 * n) / (4 * n)) + (4 * a + 3 * n) % (4 * n) : Nat) : ℝ) =
      ((4 * a + 3 * n : Nat) : ℝ) := by rw [this]
    push_cast at h2 ⊢
    linarith
  rw [sinT, value_mk h4]
  simp only [termsValue_cons, termsValue_nil, Int.cast_one, one_mul, add_zero]
  rw [hm]
  set q := (4 * a + 3 * n) / (4 * n)
  have e : 2 * π * (4 * (a : ℝ) + 3 * n - 4 * n * (q : ℝ)) / ((4 * n : Nat) : ℝ) =
      (2 * π * a / n - π / 2 + 2 * π) - (q : ℝ) * (2 * π) := by
    push_cast; field_simp; ring
  rw [e, cos_sub_nat_mul_two_pi, cos_add_two_pi, cos_sub_pi_div_two]

end Sys2Proof.Num
end

