-- ==== Sys2Proof/Laws/NumEnclosure.lean ====
section
/-! SUPPORT. The fixed-point enclosures hold: `cosFix` is within `cosErr`, `enclosure` within
`enclosureErr`, and a sign that an enclosure shows is the sign. -/

namespace Sys2Proof.Num

open Real Finset

/-! ### pi -/

/-- The partial sum of the series of arctan(1/m). -/
noncomputable def arctanPartial (m n : Nat) : ℝ :=
  ∑ j ∈ range n, (-1) ^ j * ((m : ℝ)⁻¹) ^ (2 * j + 1) / (2 * j + 1 : ℕ)

theorem abs_natDiv_sub_le (a b : Nat) (hb : 0 < b) : |((a / b : Nat) : ℝ) - a / b| ≤ 1 := by
  have hb' : (0 : ℝ) < b := by exact_mod_cast hb
  have h1 : ((a / b : Nat) : ℝ) ≤ a / b := Nat.cast_div_le
  have h2 : (a : ℝ) / b < (a / b : Nat) + 1 := by
    rw [div_lt_iff₀ hb']
    exact_mod_cast (Nat.lt_mul_of_div_lt (Nat.lt_succ_self _) hb)
  rw [abs_le]; constructor <;> linarith

theorem arctanInv_partial (prec m n : Nat) (hm : 0 < m) :
    |(arctanInv prec m n : ℝ) - 2 ^ prec * arctanPartial m n| ≤ n := by
  induction n with
  | zero => simp [arctanInv, arctanPartial]
  | succ n ih =>
      have hd := abs_natDiv_sub_le (2 ^ prec) ((2 * n + 1) * m ^ (2 * n + 1)) (by positivity)
      have hsgn : ((if n % 2 = 0 then 1 else -1 : Int) : ℝ) = (-1) ^ n := by
        split
        · rename_i h; simp [(Nat.even_iff.mpr h).neg_one_pow]
        · rename_i h
          simp [(Nat.odd_iff.mpr (by omega : n % 2 = 1)).neg_one_pow]
      have hm' : (m : ℝ) ≠ 0 := by exact_mod_cast hm.ne'
      rw [arctanInv, arctanPartial, sum_range_succ, ← arctanPartial, Int.cast_add, Int.cast_mul,
        Int.cast_natCast, hsgn]
      set d : ℝ := ((2 ^ prec / ((2 * n + 1) * m ^ (2 * n + 1)) : ℕ) : ℝ)
      push_cast at hd ⊢
      have habs : |(-1 : ℝ) ^ n * (d - 2 ^ prec / ((2 * n + 1) * (m : ℝ) ^ (2 * n + 1)))| ≤ 1 := by
        rw [abs_mul, abs_neg_one_pow, one_mul]; exact hd
      have e : (arctanInv prec m n : ℝ) + (-1) ^ n * d - 2 ^ prec * (arctanPartial m n +
          (-1) ^ n * (m : ℝ)⁻¹ ^ (2 * n + 1) / (2 * n + 1)) =
          ((arctanInv prec m n : ℝ) - 2 ^ prec * arctanPartial m n) +
          (-1 : ℝ) ^ n * (d - 2 ^ prec / ((2 * n + 1) * (m : ℝ) ^ (2 * n + 1))) := by
        rw [inv_pow]; field_simp; ring
      rw [e]
      exact (abs_add_le _ _).trans (by linarith)

theorem arctanPartial_tail (m n : Nat) (hm : 5 ≤ m) :
    |arctan ((m : ℝ)⁻¹) - arctanPartial m n| ≤ 2 * ((m : ℝ)⁻¹) ^ (2 * n + 1) := by
  have hm' : (5 : ℝ) ≤ m := by exact_mod_cast hm
  set x := (m : ℝ)⁻¹ with hx
  have hx0 : 0 < x := by positivity
  have hx1 : x ≤ 1 / 5 := by rw [hx, inv_eq_one_div]; exact one_div_le_one_div_of_le (by norm_num) hm'
  have hs := Real.hasSum_arctan (x := x) (by rw [Real.norm_eq_abs, abs_of_pos hx0]; linarith)
  have ht := (hasSum_nat_add_iff' n).mpr hs
  have hg : HasSum (fun i : ℕ => x ^ (2 * n + 1) * (x ^ 2) ^ i) (x ^ (2 * n + 1) * (1 - x ^ 2)⁻¹) :=
    (hasSum_geometric_of_lt_one (by positivity) (by nlinarith)).mul_left _
  have hb := tsum_of_norm_bounded hg (f := fun i : ℕ =>
      (-1 : ℝ) ^ (i + n) * x ^ (2 * (i + n) + 1) / (2 * (i + n) + 1 : ℕ)) (by
    intro i
    rw [norm_div, norm_mul, norm_pow, norm_neg, norm_one, one_pow, one_mul, Real.norm_eq_abs,
      abs_of_pos (pow_pos hx0 _), Real.norm_of_nonneg (by positivity)]
    have : (1 : ℝ) ≤ ((2 * (i + n) + 1 : ℕ) : ℝ) := by
      have : 1 ≤ 2 * (i + n) + 1 := by omega
      exact_mod_cast this
    refine (div_le_self (by positivity) this).trans (le_of_eq ?_)
    rw [← pow_mul, ← pow_add]; congr 1; ring)
  rw [ht.tsum_eq, Real.norm_eq_abs] at hb
  refine hb.trans ?_
  have : (1 - x ^ 2)⁻¹ ≤ 2 := by
    rw [inv_le_comm₀ (by nlinarith) (by norm_num)]; nlinarith
  have h0 : 0 < x ^ (2 * n + 1) := by positivity
  nlinarith

theorem arctanInv_err (prec m : Nat) (hm : 5 ≤ m) :
    |(arctanInv prec m (prec / 2 + 1) : ℝ) - 2 ^ prec * arctan ((m : ℝ)⁻¹)| ≤ prec / 2 + 2 := by
  have h1 := arctanInv_partial prec m (prec / 2 + 1) (by omega)
  have h2 := arctanPartial_tail m (prec / 2 + 1) hm
  have hm' : (5 : ℝ) ≤ m := by exact_mod_cast hm
  have hx1 : (m : ℝ)⁻¹ ≤ 1 / 2 := by
    rw [inv_eq_one_div]; exact one_div_le_one_div_of_le (by norm_num) (by linarith)
  have hp : ((m : ℝ)⁻¹) ^ (2 * (prec / 2 + 1) + 1) ≤ (1 / 2) ^ (prec + 1) := by
    refine (pow_le_pow_left₀ (by positivity) hx1 _).trans ?_
    exact pow_le_pow_of_le_one (by norm_num) (by norm_num) (by omega)
  have h3 : (2 : ℝ) ^ prec * |arctan ((m : ℝ)⁻¹) - arctanPartial m (prec / 2 + 1)| ≤ 1 := by
    calc (2 : ℝ) ^ prec * |arctan ((m : ℝ)⁻¹) - arctanPartial m (prec / 2 + 1)|
        ≤ 2 ^ prec * (2 * (1 / 2) ^ (prec + 1)) := by
          apply mul_le_mul_of_nonneg_left _ (by positivity)
          linarith
      _ = 1 := by rw [one_div, inv_pow, pow_succ]; field_simp
  have hn : ((prec / 2 + 1 : ℕ) : ℝ) ≤ prec / 2 + 1 := by
    push_cast; linarith [@Nat.cast_div_le ℝ _ _ _ prec 2]
  have e : (arctanInv prec m (prec / 2 + 1) : ℝ) - 2 ^ prec * arctan ((m : ℝ)⁻¹) =
      ((arctanInv prec m (prec / 2 + 1) : ℝ) - 2 ^ prec * arctanPartial m (prec / 2 + 1)) -
      2 ^ prec * (arctan ((m : ℝ)⁻¹) - arctanPartial m (prec / 2 + 1)) := by ring
  rw [e]
  refine (abs_sub _ _).trans ?_
  rw [abs_mul, abs_of_pos (by positivity : (0 : ℝ) < 2 ^ prec)]
  linarith

theorem piFix_err (prec : Nat) : |(piFix prec : ℝ) - 2 ^ prec * π| ≤ 10 * prec + 40 := by
  have h1 := arctanInv_err prec 5 (by norm_num)
  have h2 := arctanInv_err prec 239 (by norm_num)
  have hm := Real.four_mul_arctan_inv_5_sub_arctan_inv_239
  push_cast at h1 h2
  rw [show (π : ℝ) = 16 * arctan 5⁻¹ - 4 * arctan 239⁻¹ by linarith, piFix]
  push_cast
  rw [abs_le] at *
  constructor <;> nlinarith

/-! ### Sine and cosine -/

/-- The sum t - t·x²/((m+1)(m+2)) + …, n terms. -/
noncomputable def taylorReal (x : ℝ) : (n m : Nat) → ℝ → ℝ
  | 0, _, _ => 0
  | n + 1, m, t => t - taylorReal x n (m + 2) (t * x ^ 2 / ((m + 1) * (m + 2)))

theorem taylor_err (p q n m num den : Nat) (hq : 0 < q) (hd : 0 < den) :
    |(taylor p q n m num den : ℝ) - taylorReal (p / q) n m (num / den)| ≤ n := by
  induction n generalizing m num den with
  | zero => simp [taylor, taylorReal]
  | succ n ih =>
      have h1 := abs_natDiv_sub_le num den hd
      have h2 := ih (m + 2) (num * p ^ 2) (den * (q ^ 2 * ((m + 1) * (m + 2)))) (by positivity)
      have hq' : (q : ℝ) ≠ 0 := by exact_mod_cast hq.ne'
      have hd' : (den : ℝ) ≠ 0 := by exact_mod_cast hd.ne'
      have e : (((num * p ^ 2 : ℕ) : ℝ) / ((den * (q ^ 2 * ((m + 1) * (m + 2))) : ℕ) : ℝ)) =
          (num / den : ℝ) * (p / q : ℝ) ^ 2 / ((m + 1) * (m + 2)) := by
        push_cast; field_simp
      rw [e] at h2
      rw [taylor, taylorReal, Int.cast_sub, Int.cast_natCast, Nat.cast_succ]
      rw [abs_le] at *
      constructor <;> linarith

theorem taylorReal_eq_sum (x : ℝ) (c : ℝ) (n m : Nat) :
    taylorReal x n m (c * (x ^ m / m.factorial)) =
      c * ∑ j ∈ range n, (-1) ^ j * (x ^ (m + 2 * j) / (m + 2 * j).factorial) := by
  induction n generalizing m with
  | zero => simp [taylorReal]
  | succ n ih =>
      have hf : ((m + 2).factorial : ℝ) = (m + 2) * ((m + 1) * m.factorial) := by
        rw [Nat.factorial_succ, Nat.factorial_succ]; push_cast; ring
      have e : c * (x ^ m / m.factorial) * x ^ 2 / ((m + 1) * (m + 2)) =
          c * (x ^ (m + 2) / (m + 2).factorial) := by
        rw [hf]
        have : (m.factorial : ℝ) ≠ 0 := by exact_mod_cast (Nat.factorial_pos m).ne'
        field_simp
        ring
      rw [taylorReal, e, ih, sum_range_succ']
      simp only [pow_zero, one_mul, Nat.mul_zero, Nat.add_zero]
      rw [mul_add, sub_eq_add_neg, add_comm, ← mul_neg, ← sum_neg_distrib]
      congr 2
      apply sum_congr rfl
      intro j _
      rw [show m + 2 * (j + 1) = m + 2 + 2 * j by ring, pow_succ]
      ring

theorem exp_I_partial (x : ℝ) (n : Nat) :
    ∑ m ∈ range (2 * n), ((x : ℂ) * Complex.I) ^ m / m.factorial =
      ((∑ j ∈ range n, (-1) ^ j * (x ^ (2 * j) / (2 * j).factorial) : ℝ) : ℂ) +
      ((∑ j ∈ range n, (-1) ^ j * (x ^ (2 * j + 1) / (2 * j + 1).factorial) : ℝ) : ℂ) *
        Complex.I := by
  induction n with
  | zero => simp
  | succ n ih =>
      have hI : Complex.I ^ (2 * n) = (-1) ^ n := by rw [pow_mul, Complex.I_sq]
      rw [show 2 * (n + 1) = 2 * n + 1 + 1 by ring, sum_range_succ, sum_range_succ, ih,
        sum_range_succ (n := n), sum_range_succ (n := n)]
      push_cast
      rw [mul_pow, mul_pow, pow_succ Complex.I, hI]
      ring

theorem sin_cos_tail {x : ℝ} (hx : |x| ≤ 2) {n : Nat} (hn : 2 ≤ n) :
    |cos x - ∑ j ∈ range n, (-1) ^ j * (x ^ (2 * j) / (2 * j).factorial)| ≤
      2 ^ (2 * n) / (2 * n).factorial * 2 ∧
    |sin x - ∑ j ∈ range n, (-1) ^ j * (x ^ (2 * j + 1) / (2 * j + 1).factorial)| ≤
      2 ^ (2 * n) / (2 * n).factorial * 2 := by
  have hnorm : ‖(x : ℂ) * Complex.I‖ = |x| := by simp
  have hb := Complex.exp_bound' (x := (x : ℂ) * Complex.I) (n := 2 * n) (by
    rw [hnorm, div_le_iff₀ (by positivity)]
    have : (4 : ℝ) ≤ ((2 * n).succ : ℕ) := by
      have : 4 ≤ (2 * n).succ := by omega
      exact_mod_cast this
    linarith)
  rw [exp_I_partial, Complex.exp_mul_I, hnorm] at hb
  have hle : |x| ^ (2 * n) / ((2 * n).factorial : ℝ) * 2 ≤ 2 ^ (2 * n) / (2 * n).factorial * 2 := by
    gcongr
  have hb := hb.trans hle
  rw [← Complex.ofReal_cos, ← Complex.ofReal_sin] at hb
  constructor
  · refine le_trans (le_of_eq ?_) ((Complex.abs_re_le_norm _).trans hb)
    simp [-Complex.ofReal_sum, Complex.cos_ofReal_re]
  · refine le_trans (le_of_eq ?_) ((Complex.abs_im_le_norm _).trans hb)
    simp [-Complex.ofReal_sum, Complex.sin_ofReal_re]

theorem four_pow_le_factorial (n : Nat) : 4 ^ n ≤ 64 * n.factorial := by
  match n with
  | 0 | 1 | 2 | 3 => decide
  | n + 4 =>
      induction n with
      | zero => decide
      | succ n ih =>
          rw [pow_succ, show n + 1 + 4 = (n + 4) + 1 by ring, Nat.factorial_succ]
          nlinarith

theorem tail_small (prec : Nat) :
    (2 : ℝ) ^ prec * (2 ^ (2 * (prec / 2 + 4)) / (2 * (prec / 2 + 4)).factorial * 2) ≤ 1 := by
  set N := 2 * (prec / 2 + 4) with hN
  have h4 := four_pow_le_factorial N
  have hp : 2 ^ (prec + N + 1) * 64 ≤ 4 ^ N := by
    rw [show (4 : Nat) = 2 ^ 2 by norm_num, ← pow_mul, show (64 : Nat) = 2 ^ 6 by norm_num, ← pow_add]
    exact Nat.pow_le_pow_right (by norm_num) (by omega)
  have hf : (0 : ℝ) < N.factorial := by exact_mod_cast Nat.factorial_pos N
  have h : 2 ^ (prec + N + 1) ≤ N.factorial := by omega
  have h' : (2 : ℝ) ^ (prec + N + 1) ≤ N.factorial := by exact_mod_cast h
  rw [show (2 : ℝ) ^ prec * (2 ^ N / N.factorial * 2) = 2 ^ (prec + N + 1) / N.factorial by
    rw [pow_succ, pow_add]; ring]
  exact (div_le_one hf).mpr h'

theorem prec_small {prec : Nat} (h : 64 ≤ prec) : 10 * prec + 40 ≤ 2 ^ prec / 8 := by
  induction prec, h using Nat.le_induction with
  | base => norm_num
  | succ n hn ih => rw [pow_succ]; omega

/-- The Taylor sums of the reduced angle are within the error bound. -/
theorem quarter_err {prec r n : Nat} (hp : 64 ≤ prec) (hr : r < n) :
    |(taylor ((piFix prec).toNat * r) (2 ^ (prec + 1) * n) (prec / 2 + 4) 0 (2 ^ prec) 1 : ℝ) -
        2 ^ prec * cos (π / 2 * (r / n))| ≤ cosErr prec ∧
    |(taylor ((piFix prec).toNat * r) (2 ^ (prec + 1) * n) (prec / 2 + 4) 1
        (2 ^ prec * ((piFix prec).toNat * r)) (2 ^ (prec + 1) * n) : ℝ) -
        2 ^ prec * sin (π / 2 * (r / n))| ≤ cosErr prec := by
  have hn : 0 < n := by omega
  have hn' : (0 : ℝ) < n := by exact_mod_cast hn
  have hpi := piFix_err prec
  have hsm : (10 * prec + 40 : ℝ) ≤ 2 ^ prec / 8 := by
    have := prec_small hp
    have h8 : 8 * (10 * prec + 40) ≤ 2 ^ prec := by omega
    have : (8 * (10 * prec + 40) : ℝ) ≤ 2 ^ prec := by exact_mod_cast h8
    linarith
  have hK : (0 : ℝ) < 2 ^ prec := by positivity
  have hpi3 := Real.pi_gt_three
  have hpi4 := Real.pi_lt_d2
  have hpos : 0 ≤ piFix prec := by
    have : (0 : ℝ) ≤ piFix prec := by rw [abs_le] at hpi; nlinarith
    exact_mod_cast this
  have hcast : (((piFix prec).toNat : ℕ) : ℝ) = piFix prec := by
    have : (((piFix prec).toNat : ℤ) : ℝ) = piFix prec := by rw [Int.toNat_of_nonneg hpos]
    exact_mod_cast this
  set P : ℝ := ((piFix prec : Int) : ℝ) with hP
  set x : ℝ := (((piFix prec).toNat * r : ℕ) : ℝ) / ((2 ^ (prec + 1) * n : ℕ) : ℝ) with hx
  set f : ℝ := (r : ℝ) / n with hf
  have hf0 : 0 ≤ f := by positivity
  have hf1 : f ≤ 1 := by
    rw [hf, div_le_one hn']; exact_mod_cast hr.le
  have hxe : x = P * f / 2 / 2 ^ prec := by
    rw [hx, hf]; push_cast; rw [hcast, pow_succ]; field_simp
  have hP0 : 0 ≤ P := by rw [hP]; exact_mod_cast hpos
  have hP1 : P ≤ 4 * 2 ^ prec := by rw [abs_le] at hpi; nlinarith
  have hx0 : 0 ≤ x := by rw [hxe]; positivity
  have hx2 : |x| ≤ 2 := by
    rw [abs_of_nonneg hx0, hxe, div_le_iff₀ hK]; nlinarith
  have hdiff : 2 ^ prec * |x - π / 2 * f| ≤ 5 * prec + 20 := by
    have e : x - π / 2 * f = (P - 2 ^ prec * π) * (f / 2) / 2 ^ prec := by
      rw [hxe]; field_simp
    rw [e, abs_div, abs_mul, abs_of_pos hK, abs_of_nonneg (by positivity : 0 ≤ f / 2)]
    rw [mul_div_cancel₀ _ hK.ne']
    have : |P - 2 ^ prec * π| * (f / 2) ≤ (10 * prec + 40) * (1 / 2) := by
      apply mul_le_mul hpi (by linarith) (by positivity) (by positivity)
    linarith
  have hterms : ((prec / 2 + 4 : ℕ) : ℝ) ≤ prec / 2 + 4 := by
    push_cast; linarith [@Nat.cast_div_le ℝ _ _ _ prec 2]
  have hts := tail_small prec
  have hcs := sin_cos_tail hx2 (n := prec / 2 + 4) (by omega)
  have hq : 0 < 2 ^ (prec + 1) * n := by positivity
  have hce : ((cosErr prec : ℕ) : ℝ) = 8 * prec + 64 := by simp [cosErr]
  have hprec : (0 : ℝ) ≤ prec := by positivity
  rw [hce]
  constructor
  · have h1 := taylor_err ((piFix prec).toNat * r) (2 ^ (prec + 1) * n) (prec / 2 + 4) 0 (2 ^ prec) 1
      hq one_pos
    rw [← hx, show (((2 ^ prec : ℕ) : ℝ) / ((1 : ℕ) : ℝ)) = 2 ^ prec * (x ^ 0 / Nat.factorial 0) by simp,
      taylorReal_eq_sum] at h1
    simp only [Nat.zero_add] at h1
    have h2 := mul_le_mul_of_nonneg_left hcs.1 hK.le
    have h3 := mul_le_mul_of_nonneg_left (Real.abs_cos_sub_cos_le x (π / 2 * f)) hK.le
    rw [← abs_of_pos hK, ← abs_mul, abs_of_pos hK, mul_sub] at h2 h3
    rw [abs_le] at h1 h2 h3 ⊢
    constructor <;> linarith [h1.1, h1.2, h2.1, h2.2, h3.1, h3.2]
  · have h1 := taylor_err ((piFix prec).toNat * r) (2 ^ (prec + 1) * n) (prec / 2 + 4) 1
      (2 ^ prec * ((piFix prec).toNat * r)) (2 ^ (prec + 1) * n) hq hq
    rw [← hx, show (((2 ^ prec * ((piFix prec).toNat * r) : ℕ) : ℝ) / ((2 ^ (prec + 1) * n : ℕ) : ℝ)) =
      2 ^ prec * (x ^ 1 / Nat.factorial 1) by
        rw [hx]; push_cast; simp [mul_div_assoc], taylorReal_eq_sum] at h1
    simp only [Nat.add_comm 1] at h1
    have h2 := mul_le_mul_of_nonneg_left hcs.2 hK.le
    have h3 := mul_le_mul_of_nonneg_left (Real.abs_sin_sub_sin_le x (π / 2 * f)) hK.le
    rw [← abs_of_pos hK, ← abs_mul, abs_of_pos hK, mul_sub] at h2 h3
    rw [abs_le] at h1 h2 h3 ⊢
    constructor <;> linarith [h1.1, h1.2, h2.1, h2.2, h3.1, h3.2]

theorem cos_quarter_turn (q : Nat) (y : ℝ) :
    cos (π / 2 * q + y) =
      match q % 4 with
      | 0 => cos y
      | 1 => -sin y
      | 2 => -cos y
      | _ => sin y := by
  have hq : (q : ℝ) = 4 * (q / 4 : Nat) + (q % 4 : Nat) := by
    exact_mod_cast (Nat.div_add_mod q 4).symm
  have e : π / 2 * q + y = (π / 2 * (q % 4 : Nat) + y) + (q / 4 : Nat) * (2 * π) := by
    rw [hq]; ring_nf
  rw [e, cos_add_nat_mul_two_pi]
  have h4 : q % 4 < 4 := Nat.mod_lt _ (by norm_num)
  interval_cases q % 4
  · simp
  · simp [add_comm, cos_add_pi_div_two]
  · rw [show π / 2 * ((2 : ℕ) : ℝ) + y = y + π by push_cast; ring, cos_add_pi]
    rfl
  · rw [show π / 2 * ((3 : ℕ) : ℝ) + y = (y + π / 2) + π by push_cast; ring, cos_add_pi,
      cos_add_pi_div_two]; simp

/-- `cosFix` is within `cosErr` of 2^prec·cos(2·pi·k/n). -/
theorem cosFix_err {prec n : Nat} (hp : 64 ≤ prec) (hn : 0 < n) (k : Nat) :
    |(cosFix prec k n : ℝ) - 2 ^ prec * cos (2 * π * k / n)| ≤ cosErr prec := by
  have hn' : (n : ℝ) ≠ 0 := by exact_mod_cast hn.ne'
  have h4k : (4 * k : ℝ) = n * (4 * k / n : Nat) + (4 * k % n : Nat) := by
    exact_mod_cast (Nat.div_add_mod (4 * k) n).symm
  have e : 2 * π * k / n = π / 2 * (4 * k / n : Nat) + π / 2 * ((4 * k % n : Nat) / n) := by
    have : (k : ℝ) = (n * (4 * k / n : Nat) + (4 * k % n : Nat)) / 4 := by linarith
    rw [this]
    field_simp
    ring
  have hc0 : (0 : ℝ) ≤ cosErr prec := by positivity
  rw [e, cos_quarter_turn]
  obtain ⟨hc, hs⟩ := quarter_err hp (Nat.mod_lt (4 * k) hn)
  have hcos : |((if 4 * k % n = 0 then 2 ^ prec else
      taylor ((piFix prec).toNat * (4 * k % n)) (2 ^ (prec + 1) * n) (prec / 2 + 4) 0 (2 ^ prec) 1 : Int) : ℝ) -
        2 ^ prec * cos (π / 2 * ((4 * k % n : Nat) / n))| ≤ cosErr prec := by
    split
    · rename_i h; simp [h]
    · exact hc
  have hsin : |((if 4 * k % n = 0 then 0 else
      taylor ((piFix prec).toNat * (4 * k % n)) (2 ^ (prec + 1) * n) (prec / 2 + 4) 1
        (2 ^ prec * ((piFix prec).toNat * (4 * k % n))) (2 ^ (prec + 1) * n) : Int) : ℝ) -
        2 ^ prec * sin (π / 2 * ((4 * k % n : Nat) / n))| ≤ cosErr prec := by
    split
    · rename_i h; simp [h]
    · exact hs
  unfold cosFix
  have neg_case (a b c : ℝ) (h : |a - b| ≤ c) : |-a - -b| ≤ c := by
    rw [← neg_add', ← sub_eq_add_neg, abs_neg]; exact h
  have h4 : 4 * k / n % 4 < 4 := Nat.mod_lt _ (by norm_num)
  interval_cases 4 * k / n % 4
  · exact hcos
  · have := neg_case _ _ _ hsin
    push_cast at this ⊢; rwa [mul_neg]
  · have := neg_case _ _ _ hcos
    push_cast at this ⊢; rwa [mul_neg]
  · exact hsin

/-! ### Enclosures -/

/-- `enclosure` is within `enclosureErr` of 2^prec·x. -/
theorem enclosure_err {prec : Nat} (hp : 64 ≤ prec) (x : TrigSum) :
    |(enclosure prec x : ℝ) - 2 ^ prec * value x| ≤ enclosureErr prec x := by
  rw [enclosure, enclosureErr, weight, value]
  induction x.terms with
  | nil => simp
  | cons t l ih =>
      have h := cosFix_err hp (ord_pos x) t.2
      simp only [List.map_cons, List.sum_cons]
      push_cast at ih ⊢
      have e : (t.1 : ℝ) * cosFix prec t.2 (ord x) +
          ((l.map fun t => t.1 * cosFix prec t.2 (ord x)).sum : Int) -
          2 ^ prec * ((t.1 : ℝ) * cos (2 * π * t.2 / ord x) +
            (l.map fun t => (t.1 : ℝ) * cos (2 * π * t.2 / ord x)).sum) =
          t.1 * ((cosFix prec t.2 (ord x) : ℝ) - 2 ^ prec * cos (2 * π * t.2 / ord x)) +
          (((l.map fun t => t.1 * cosFix prec t.2 (ord x)).sum : Int) -
            2 ^ prec * (l.map fun t => (t.1 : ℝ) * cos (2 * π * t.2 / ord x)).sum) := by ring
      have ht : |(t.1 : ℝ) * ((cosFix prec t.2 (ord x) : ℝ) - 2 ^ prec * cos (2 * π * t.2 / ord x))| ≤
          (t.1.natAbs : ℝ) * cosErr prec := by
        rw [abs_mul, Nat.cast_natAbs, Int.cast_abs]
        exact mul_le_mul_of_nonneg_left h (abs_nonneg _)
      push_cast at e
      rw [e, add_mul]
      exact (abs_add_le _ _).trans (add_le_add ht ih)

/-- A sign that an enclosure shows is the sign of the value. -/
theorem signAt_sound {prec : Nat} (hp : 64 ≤ prec) {x : TrigSum} {s : SignType}
    (h : signAt prec x = some s) : s = SignType.sign (value x) := by
  have he := abs_le.mp (enclosure_err hp x)
  have hK : (0 : ℝ) < 2 ^ prec := by positivity
  rw [signAt] at h
  split at h
  · rename_i h1
    have h1 : ((enclosureErr prec x : ℕ) : ℝ) < enclosure prec x := by exact_mod_cast h1
    cases h
    refine (sign_eq_one_iff.mpr ?_).symm
    by_contra hv
    nlinarith
  · split at h
    · rename_i h1
      have h1 : (enclosure prec x : ℝ) < -((enclosureErr prec x : ℕ) : ℝ) := by exact_mod_cast h1
      cases h
      refine (sign_eq_neg_one_iff.mpr ?_).symm
      by_contra hv
      nlinarith
    · cases h

end Sys2Proof.Num
end

