-- ==== Sys2Proof/Laws/NumZero.lean ====
section
/-! SUPPORT. `isZero` decides whether the value is zero, and a nonzero value is not too small. -/

namespace Sys2Proof.Num

open Polynomial

/-- The integer polynomial with these coefficients, lowest degree first. -/
noncomputable def listPoly : List Int → ℤ[X]
  | [] => 0
  | c :: v => C c + X * listPoly v

theorem listPoly_append (v w : List Int) : listPoly (v ++ w) = listPoly v + X ^ v.length * listPoly w := by
  induction v with
  | nil => simp [listPoly]
  | cons c v ih => simp only [List.cons_append, listPoly, ih, List.length_cons]; ring

theorem listPoly_zipWith_sub (v w : List Int) (h : v.length = w.length) :
    listPoly (List.zipWith (· - ·) v w) = listPoly v - listPoly w := by
  induction v generalizing w with
  | nil => cases w <;> simp_all [listPoly]
  | cons c v ih =>
      cases w with
      | nil => simp at h
      | cons d w =>
          simp only [List.length_cons, Nat.add_right_cancel_iff] at h
          simp only [List.zipWith_cons_cons, listPoly, ih w h, C_sub]; ring

theorem listPoly_coeff (v : List Int) (i : Nat) : (listPoly v).coeff i = v.getD i 0 := by
  induction v generalizing i with
  | nil => simp [listPoly]
  | cons c v ih =>
      cases i with
      | zero => simp [listPoly]
      | succ i => rw [listPoly, coeff_add, coeff_C_succ, zero_add, coeff_X_mul, ih]; simp

theorem listPoly_degree (v : List Int) : (listPoly v).degree < v.length ∨ v.length = 0 := by
  by_cases h : v.length = 0
  · exact .inr h
  · refine .inl ((degree_lt_iff_coeff_zero _ _).mpr fun m hm => ?_)
    rw [listPoly_coeff]
    simp [List.getD, List.getElem?_eq_none hm]

theorem listPoly_range (n : Nat) (f : Nat → Int) :
    listPoly ((List.range n).map f) = ∑ i ∈ Finset.range n, C (f i) * X ^ i := by
  induction n with
  | zero => simp [listPoly]
  | succ n ih =>
      rw [List.range_succ, List.map_append, listPoly_append, ih, Finset.sum_range_succ]
      simp [listPoly]; ring

theorem shiftSub_length (v : List Int) (m : Nat) : (shiftSub v m).length = v.length := by
  simp [shiftSub]; omega

/-- On an n-th root of unity, `shiftSub` multiplies by ω^(-m) - 1. -/
theorem aeval_shiftSub {ω : ℂ} (v : List Int) (m : Nat) (hm : m ≤ v.length)
    (hω : ω ^ v.length = 1) :
    ω ^ m * aeval ω (listPoly (shiftSub v m)) = (1 - ω ^ m) * aeval ω (listPoly v) := by
  have hlen : (v.drop m ++ v.take m).length = v.length := by simp; omega
  have hv : aeval ω (listPoly v) =
      aeval ω (listPoly (v.take m)) + ω ^ m * aeval ω (listPoly (v.drop m)) := by
    conv_lhs => rw [← List.take_append_drop m v]
    rw [listPoly_append]
    simp [List.length_take, Nat.min_eq_left hm]
  have hs : ω ^ m * ω ^ (v.length - m) = 1 := by rw [← pow_add, Nat.add_sub_cancel' hm, hω]
  rw [shiftSub, listPoly_zipWith_sub _ _ hlen, listPoly_append, hv]
  simp only [map_sub, map_add, map_mul, map_pow, aeval_X, List.length_drop, hv]
  linear_combination (aeval ω (listPoly (v.take m))) * hs

/-! ### The coefficients -/

/-- 2·x as a sum over the powers of ω. -/
noncomputable def symValue (x : TrigSum) (ω : ℂ) : ℂ :=
  (x.terms.map fun t => (t.1 : ℂ) * (ω ^ t.2 + (ω ^ t.2)⁻¹)).sum

theorem dense_length (x : TrigSum) : (dense x).length = ord x := by simp [dense]

theorem sum_single (n k : Nat) (hn : 0 < n) (c : Int) {ω : ℂ} (hω : ω ^ n = 1) :
    ∑ i ∈ Finset.range n, ((if k % n = i then c else 0 : Int) : ℂ) * ω ^ i = c * ω ^ k := by
  rw [Finset.sum_eq_single (k % n)]
  · rw [if_pos rfl, ← pow_mod_orderOf ω (k % n), Nat.mod_mod_of_dvd _ (orderOf_dvd_of_pow_eq_one hω),
      pow_mod_orderOf]
  · intro b _ hb; rw [if_neg (Ne.symm hb)]; simp
  · intro h; exact absurd (Finset.mem_range.mpr (Nat.mod_lt k hn)) h

theorem sum_single_inv (n k : Nat) (hn : 0 < n) (c : Int) {ω : ℂ} (hω : ω ^ n = 1) :
    ∑ i ∈ Finset.range n, ((if (k + i) % n = 0 then c else 0 : Int) : ℂ) * ω ^ i =
      c * (ω ^ k)⁻¹ := by
  have hω0 : ω ≠ 0 := by rintro rfl; simp [hn.ne'] at hω
  have hk := Nat.mod_lt k hn
  have hdvd : n ∣ k + (n - k % n) % n := by
    have h1 : (k + (n - k % n) % n) % n = 0 := by
      have : k % n + (n - k % n) = n := by omega
      rw [Nat.add_mod_mod, ← Nat.mod_add_mod k n, this, Nat.mod_self]
    exact Nat.dvd_of_mod_eq_zero h1
  rw [Finset.sum_eq_single ((n - k % n) % n)]
  · rw [if_pos (Nat.mod_eq_zero_of_dvd hdvd)]
    congr 1
    obtain ⟨q, hq⟩ := hdvd
    apply eq_inv_of_mul_eq_one_left
    rw [← pow_add, add_comm, hq, pow_mul, hω, one_pow]
  · intro b hb hne
    rw [if_neg, Int.cast_zero, zero_mul]
    intro h
    apply hne
    have hb' := Finset.mem_range.mp hb
    have e1 : (k % n + b) % n = 0 := by rw [Nat.mod_add_mod]; exact h
    obtain ⟨q, hq⟩ := Nat.dvd_of_mod_eq_zero e1
    by_cases h0 : k % n = 0
    · rw [h0, Nat.sub_zero, Nat.mod_self]
      rw [h0, Nat.zero_add, Nat.mod_eq_of_lt hb'] at e1
      exact e1
    · have hq0 : q ≠ 0 := by rintro rfl; omega
      have hq2 : q < 2 := by nlinarith
      have : q = 1 := by omega
      rw [Nat.mod_eq_of_lt (by omega)]
      subst this; omega
  · intro h; exact absurd (Finset.mem_range.mpr (Nat.mod_lt _ hn)) h

theorem aeval_dense (x : TrigSum) {ω : ℂ} (hω : ω ^ ord x = 1) :
    aeval ω (listPoly (dense x)) = symValue x ω := by
  rw [dense, listPoly_range]
  simp only [map_sum, map_mul, map_pow, aeval_X, aeval_C, symValue]
  induction x.terms with
  | nil => simp
  | cons t l ih =>
      simp only [List.map_cons, List.sum_cons, map_add, add_mul, Finset.sum_add_distrib, ih]
      congr 1
      have h1 := sum_single (ord x) t.2 (ord_pos x) t.1 hω
      have h2 := sum_single_inv (ord x) t.2 (ord_pos x) t.1 hω
      simp only [algebraMap_int_eq, eq_intCast] at *
      rw [h1, h2, mul_add]

/-- The root of unity at which `symValue` is twice the value. -/
noncomputable def rootOf (n : Nat) : ℂ := Complex.exp (2 * Real.pi * Complex.I / n)

theorem rootOf_primitive {n : Nat} (hn : 0 < n) : IsPrimitiveRoot (rootOf n) n :=
  Complex.isPrimitiveRoot_exp n hn.ne'

theorem symValue_rootOf (x : TrigSum) : symValue x (rootOf (ord x)) = 2 * (value x : ℂ) := by
  have hterm (k : Nat) : rootOf (ord x) ^ k + (rootOf (ord x) ^ k)⁻¹ =
      2 * ((Real.cos (2 * Real.pi * k / ord x) : ℝ) : ℂ) := by
    rw [rootOf, ← Complex.exp_nat_mul, ← Complex.exp_neg, Complex.ofReal_cos, Complex.cos]
    push_cast
    ring_nf
  rw [symValue, value]
  simp only [hterm]
  induction x.terms with
  | nil => simp
  | cons t l ih =>
      simp only [List.map_cons, List.sum_cons, ih, Complex.ofReal_add, Complex.ofReal_mul,
        Complex.ofReal_intCast]
      ring

/-! ### Conjugates -/

/-- An integer polynomial that vanishes at one primitive root vanishes at all. -/
theorem aeval_conj {n : Nat} (hn : 0 < n) {ζ ω : ℂ} (hζ : IsPrimitiveRoot ζ n)
    (hω : IsPrimitiveRoot ω n) (f : ℤ[X]) (h : aeval ζ f = 0) : aeval ω f = 0 := by
  have hdvd : minpoly ℤ ζ ∣ f := minpoly.isIntegrallyClosed_dvd (hζ.isIntegral hn) h
  rw [← cyclotomic_eq_minpoly hζ hn, cyclotomic_eq_minpoly hω hn] at hdvd
  obtain ⟨g, rfl⟩ := hdvd
  rw [map_mul, minpoly.aeval, zero_mul]

/-! ### The zero test -/

/-- The divisors the zero test goes through. -/
def testDivisors (n : Nat) : List Nat :=
  (List.range (n + 1)).filter fun q => decide (2 ≤ q) && n % q == 0

theorem mem_testDivisors {n q : Nat} : q ∈ testDivisors n ↔ q ≤ n ∧ 2 ≤ q ∧ q ∣ n := by
  simp [testDivisors, Nat.dvd_iff_mod_eq_zero]

/-- The coefficients after multiplying by ω^(-n/q) - 1 for each listed q. -/
def shiftAll (n : Nat) (qs : List Nat) (v : List Int) : List Int :=
  qs.foldl (fun v q => shiftSub v (n / q)) v

theorem isZero_eq (x : TrigSum) :
    isZero x = (shiftAll (ord x) (testDivisors (ord x)) (dense x)).all (· == 0) := rfl

theorem shiftAll_length (n : Nat) (qs : List Nat) (v : List Int) :
    (shiftAll n qs v).length = v.length := by
  induction qs generalizing v with
  | nil => rfl
  | cons q qs ih => exact (ih _).trans (shiftSub_length _ _)

theorem aeval_shiftAll {ω : ℂ} (n : Nat) (qs : List Nat) (v : List Int) (hv : v.length = n)
    (hω : ω ^ n = 1) :
    (qs.map fun q => ω ^ (n / q)).prod * aeval ω (listPoly (shiftAll n qs v)) =
      (qs.map fun q => 1 - ω ^ (n / q)).prod * aeval ω (listPoly v) := by
  induction qs generalizing v with
  | nil => simp [shiftAll]
  | cons q qs ih =>
      have h1 := ih (shiftSub v (n / q)) ((shiftSub_length _ _).trans hv)
      have h2 := aeval_shiftSub (ω := ω) v (n / q) (hv ▸ Nat.div_le_self _ _) (hv ▸ hω)
      simp only [List.map_cons, List.prod_cons]
      have e : shiftAll n (q :: qs) v = shiftAll n qs (shiftSub v (n / q)) := rfl
      rw [e]
      linear_combination (ω ^ (n / q)) * h1 + (qs.map fun q => 1 - ω ^ (n / q)).prod * h2

/-- A list of n coefficients whose polynomial vanishes at every n-th root of unity is zero. -/
theorem all_zero_of_roots {n : Nat} (hn : 0 < n) (v : List Int) (hv : v.length = n)
    (h : ∀ ω : ℂ, ω ^ n = 1 → aeval ω (listPoly v) = 0) : ∀ c ∈ v, c = 0 := by
  have hz : (listPoly v).map (Int.castRingHom ℂ) = 0 := by
    apply eq_zero_of_degree_lt_of_eval_finset_eq_zero (nthRootsFinset n (1 : ℂ))
    · rw [(rootOf_primitive hn).card_nthRootsFinset]
      refine lt_of_le_of_lt degree_map_le ?_
      rcases listPoly_degree v with h | h
      · rwa [hv] at h
      · omega
    · intro ω hω
      rw [eval_map, ← h ω ((mem_nthRootsFinset hn _).mp hω), aeval_def]
      rfl
  have hp : listPoly v = 0 :=
    (Polynomial.map_eq_zero_iff (Int.castRingHom ℂ).injective_int).mp hz
  intro c hc
  obtain ⟨i, hi, rfl⟩ := List.getElem_of_mem hc
  have := listPoly_coeff v i
  rw [hp, coeff_zero] at this
  rw [this]; simp [List.getD, hi]

/-- `isZero` decides whether the value is 0. -/
theorem isZero_iff (x : TrigSum) : isZero x = true ↔ value x = 0 := by
  have hn := ord_pos x
  have hζ := rootOf_primitive hn
  have hζ1 : rootOf (ord x) ^ ord x = 1 := hζ.pow_eq_one
  have hlen := dense_length x
  have hval : aeval (rootOf (ord x)) (listPoly (dense x)) = 2 * (value x : ℂ) := by
    rw [aeval_dense x hζ1, symValue_rootOf]
  rw [isZero_eq, List.all_eq_true]
  simp only [beq_iff_eq]
  constructor
  · intro h
    have hw : aeval (rootOf (ord x))
        (listPoly (shiftAll (ord x) (testDivisors (ord x)) (dense x))) = 0 := by
      have : listPoly (shiftAll (ord x) (testDivisors (ord x)) (dense x)) = 0 := by
        ext i
        rw [listPoly_coeff, coeff_zero]
        set w := shiftAll (ord x) (testDivisors (ord x)) (dense x)
        by_cases hi : i < w.length
        · simpa [List.getD, hi] using h _ (List.getElem_mem hi)
        · simp [List.getD, List.getElem?_eq_none (not_lt.mp hi)]
      rw [this, map_zero]
    have hprod := aeval_shiftAll (ω := rootOf (ord x)) (ord x) (testDivisors (ord x)) (dense x) hlen hζ1
    rw [hw, mul_zero, hval] at hprod
    have hne : ((testDivisors (ord x)).map fun q => 1 - rootOf (ord x) ^ (ord x / q)).prod ≠ 0 := by
      rw [ne_eq, List.prod_eq_zero_iff, List.mem_map]
      rintro ⟨q, hq, h0⟩
      obtain ⟨hqn, hq2, hqd⟩ := mem_testDivisors.mp hq
      have h1 : rootOf (ord x) ^ (ord x / q) = 1 := (sub_eq_zero.mp h0).symm
      have h2 := hζ.dvd_of_pow_eq_one _ h1
      have h3 := Nat.le_of_dvd (Nat.div_pos hqn (by omega)) h2
      have h4 := Nat.div_lt_self hn hq2
      omega
    rcases mul_eq_zero.mp hprod.symm with h0 | h0
    · exact absurd h0 hne
    · simpa using h0
  · intro h
    apply all_zero_of_roots hn _ ((shiftAll_length _ _ _).trans hlen)
    intro ω hω
    have hω0 : ω ≠ 0 := by rintro rfl; simp [hn.ne'] at hω
    have hprod := aeval_shiftAll (ω := ω) (ord x) (testDivisors (ord x)) (dense x) hlen hω
    have hne : ((testDivisors (ord x)).map fun q => ω ^ (ord x / q)).prod ≠ 0 := by
      rw [ne_eq, List.prod_eq_zero_iff, List.mem_map]
      rintro ⟨q, _, h0⟩
      exact pow_ne_zero _ hω0 h0
    have hz : ((testDivisors (ord x)).map fun q => 1 - ω ^ (ord x / q)).prod *
        aeval ω (listPoly (dense x)) = 0 := by
      have hord := orderOf_dvd_of_pow_eq_one hω
      obtain ⟨q, hq⟩ := hord
      have ho : 0 < orderOf ω := Nat.pos_of_dvd_of_pos (Dvd.intro _ hq.symm) hn
      by_cases hq1 : q = 1
      · have hp : IsPrimitiveRoot ω (ord x) := by
          rw [hq, hq1, mul_one]; exact IsPrimitiveRoot.orderOf ω
        have : aeval (rootOf (ord x)) (listPoly (dense x)) = 0 := by rw [hval, h]; simp
        rw [aeval_conj hn hζ hp _ this, mul_zero]
      · have hq0 : 0 < q := Nat.pos_of_ne_zero (by rintro rfl; omega)
        have : (1 - ω ^ (ord x / q)) ∈ (testDivisors (ord x)).map fun q => 1 - ω ^ (ord x / q) :=
          List.mem_map.mpr ⟨q, mem_testDivisors.mpr
            ⟨Nat.le_of_dvd hn ⟨orderOf ω, by rw [hq, mul_comm]⟩, by omega,
              ⟨orderOf ω, by rw [hq, mul_comm]⟩⟩, rfl⟩
        have h0 : 1 - ω ^ (ord x / q) = 0 := by
          have e : ord x / q = orderOf ω := by rw [hq]; exact Nat.mul_div_cancel _ hq0
          rw [e, pow_orderOf_eq_one, sub_self]
        rw [List.prod_eq_zero_iff.mpr (h0 ▸ this), zero_mul]
    exact (mul_eq_zero.mp (hprod.trans hz)).resolve_left hne

end Sys2Proof.Num
end

