-- ==== Sys2Proof/Laws/NumSign.lean ====
section
/-! SUPPORT. `sign` is the sign of the value, exactly, for every `TrigSum`; and what follows for `abs`
and `max`. -/

namespace Sys2Proof.Num

open Polynomial

/-! ### A nonzero value is not too small -/

theorem norm_symValue_le (x : TrigSum) {ω : ℂ} (hω : ω ^ ord x = 1) :
    ‖symValue x ω‖ ≤ 2 * weight x := by
  have h1 : ‖ω‖ = 1 := by
    have : ‖ω‖ ^ ord x = 1 := by rw [← norm_pow, hω, norm_one]
    exact (pow_eq_one_iff_of_nonneg (norm_nonneg _) (ord_pos x).ne').mp this
  have hk (k : Nat) : ‖ω ^ k + (ω ^ k)⁻¹‖ ≤ 2 := by
    refine (norm_add_le _ _).trans ?_
    rw [norm_inv, norm_pow, h1]; norm_num
  rw [symValue, weight]
  induction x.terms with
  | nil => simp
  | cons t l ih =>
      simp only [List.map_cons, List.sum_cons]
      refine (norm_add_le _ _).trans ?_
      have ht : ‖(t.1 : ℂ) * (ω ^ t.2 + (ω ^ t.2)⁻¹)‖ ≤ 2 * (t.1.natAbs : ℝ) := by
        rw [norm_mul, Complex.norm_intCast, Nat.cast_natAbs, Int.cast_abs, mul_comm]
        exact mul_le_mul_of_nonneg_right (hk _) (abs_nonneg _)
      refine (add_le_add ht ih).trans (le_of_eq ?_)
      push_cast; ring

/-- The product over the primitive roots is the norm from a cyclotomic field, an integer. -/
theorem prod_conj_int_of {n : Nat} (hn : 0 < n) (L : Type) [Field L] [NumberField L]
    [Algebra ℚ L] [IsCyclotomicExtension {n} ℚ L] (f : ℤ[X]) :
    ∃ z : ℤ, ∏ ω ∈ primitiveRoots n ℂ, aeval ω f = (z : ℂ) := by
  have : NeZero n := ⟨hn.ne'⟩
  have : FiniteDimensional ℚ L := IsCyclotomicExtension.finiteDimensional {n} ℚ L
  set ζ : L := IsCyclotomicExtension.zeta n ℚ L
  have hζ : IsPrimitiveRoot ζ n := IsCyclotomicExtension.zeta_spec n ℚ L
  have hint : IsIntegral ℤ (aeval ζ f) :=
    IsIntegral.of_mem_of_fg _ (hζ.isIntegral hn).fg_adjoin_singleton _
      (aeval_mem_adjoin_singleton _ _)
  obtain ⟨z, hz⟩ := IsIntegrallyClosed.isIntegral_iff.mp
    (Algebra.isIntegral_norm ℚ hint)
  refine ⟨z, ?_⟩
  have hnorm := Algebra.norm_eq_prod_embeddings ℚ ℂ (aeval ζ f)
  rw [← hz] at hnorm
  have hp : ∏ σ : L →ₐ[ℚ] ℂ, σ (aeval ζ f) =
      ∏ ω : primitiveRoots n ℂ, aeval (ω : ℂ) f := by
    refine Fintype.prod_equiv (hζ.embeddingsEquivPrimitiveRoots ℂ (cyclotomic.irreducible_rat hn))
      _ _ fun σ => ?_
    rw [IsPrimitiveRoot.embeddingsEquivPrimitiveRoots_apply_coe]
    exact (Polynomial.map_aeval_eq_aeval_map (φ := RingHom.id ℤ) (ψ := (σ : L →+* ℂ))
      (by ext; simp) f ζ).trans (by simp)
  rw [← Finset.prod_coe_sort, ← hp, ← hnorm]
  simp

/-- The product over the primitive roots is an integer. -/
theorem prod_conj_int {n : Nat} (hn : 0 < n) (f : ℤ[X]) :
    ∃ z : ℤ, ∏ ω ∈ primitiveRoots n ℂ, aeval ω f = (z : ℂ) :=
  @prod_conj_int_of n hn (CyclotomicField n ℚ) _ _ (CyclotomicField.algebra n ℚ) _ f

/-- A nonzero value of order n and weight w is at least (2·w)^(-n) / 2. -/
theorem value_lower_bound (x : TrigSum) (h : value x ≠ 0) :
    1 ≤ 2 * |value x| * (2 * weight x : ℝ) ^ ord x := by
  have hn := ord_pos x
  have hζ := rootOf_primitive hn
  obtain ⟨z, hz⟩ := prod_conj_int hn (listPoly (dense x))
  have hmem : rootOf (ord x) ∈ primitiveRoots (ord x) ℂ := (mem_primitiveRoots hn).mpr hζ
  have hne (ω : ℂ) (hω : ω ∈ primitiveRoots (ord x) ℂ) : aeval ω (listPoly (dense x)) ≠ 0 := by
    intro h0
    have := aeval_conj hn ((mem_primitiveRoots hn).mp hω) hζ _ h0
    rw [aeval_dense x hζ.pow_eq_one, symValue_rootOf] at this
    exact h (by simpa using this)
  have hz1 : (1 : ℝ) ≤ ‖∏ ω ∈ primitiveRoots (ord x) ℂ, aeval ω (listPoly (dense x))‖ := by
    have hz0 : z ≠ 0 := by
      rintro rfl
      have : ∏ ω ∈ primitiveRoots (ord x) ℂ, aeval ω (listPoly (dense x)) ≠ 0 :=
        Finset.prod_ne_zero_iff.mpr hne
      exact this (by simpa using hz)
    rw [hz, Complex.norm_intCast]
    exact_mod_cast Int.one_le_abs hz0
  have hb (ω : ℂ) (hω : ω ∈ primitiveRoots (ord x) ℂ) :
      ‖aeval ω (listPoly (dense x))‖ ≤ 2 * weight x := by
    have h1 := ((mem_primitiveRoots hn).mp hω).pow_eq_one
    rw [aeval_dense x h1]; exact norm_symValue_le x h1
  have hw : (1 : ℝ) ≤ 2 * weight x := by
    have h0 : weight x ≠ 0 := by
      intro h0
      have := hb _ hmem
      rw [h0] at this
      simp only [Nat.cast_zero, mul_zero, norm_le_zero_iff] at this
      exact hne _ hmem this
    have : 1 ≤ weight x := Nat.one_le_iff_ne_zero.mpr h0
    have : (1 : ℝ) ≤ weight x := by exact_mod_cast this
    linarith
  rw [norm_prod, ← Finset.mul_prod_erase _ _ hmem] at hz1
  have hroot : ‖aeval (rootOf (ord x)) (listPoly (dense x))‖ = 2 * |value x| := by
    rw [aeval_dense x hζ.pow_eq_one, symValue_rootOf, norm_mul, Complex.norm_real]
    simp
  rw [hroot] at hz1
  refine hz1.trans (mul_le_mul_of_nonneg_left ?_ (by positivity))
  calc ∏ ω ∈ (primitiveRoots (ord x) ℂ).erase (rootOf (ord x)), ‖aeval ω (listPoly (dense x))‖
      ≤ ∏ _ω ∈ (primitiveRoots (ord x) ℂ).erase (rootOf (ord x)), (2 * weight x : ℝ) :=
        Finset.prod_le_prod (fun _ _ => norm_nonneg _)
          fun ω hω => hb ω (Finset.mem_of_mem_erase hω)
    _ = (2 * weight x : ℝ) ^ ((primitiveRoots (ord x) ℂ).erase (rootOf (ord x))).card := by
        rw [Finset.prod_const]
    _ ≤ (2 * weight x : ℝ) ^ ord x := by
        apply pow_le_pow_right₀ hw
        refine (Finset.card_erase_le).trans ?_
        rw [hζ.card_primitiveRoots]
        exact Nat.totient_le _

/-! ### The search for the sign ends -/

theorem half_pow {m : Nat} (h : 8 ≤ m) : 2 * m + 9 < 2 ^ m := by
  induction m, h using Nat.le_induction with
  | base => norm_num
  | succ n hn ih => rw [pow_succ]; omega

/-- At the last precision of the search the enclosure shows the sign of a nonzero value. -/
theorem signAt_last (x : TrigSum) (h : value x ≠ 0) :
    (signAt (64 * 2 ^ (signFuel x - 1)) x).isSome := by
  have hlow := value_lower_bound x h
  have hn := ord_pos x
  set a := ord x * (Nat.log2 (weight x) + 2) with ha
  set K := 64 * 2 ^ (signFuel x - 1) with hK
  have ha2 : Nat.log2 (weight x) + 2 ≤ a := Nat.le_mul_of_pos_left _ hn
  have hKa : 4096 * a ≤ K := by
    have h1 : a < 2 ^ (Nat.log2 a + 1) := by
      rw [Nat.log2_eq_log_two]
      exact Nat.lt_pow_succ_log_self (by norm_num) _
    have h2 : signFuel x - 1 = (Nat.log2 a + 1) + 6 := rfl
    rw [hK, h2, pow_add]
    have : (2 : Nat) ^ 6 = 64 := by norm_num
    rw [this]; omega
  have hwl : 2 * weight x ≤ 2 ^ (Nat.log2 (weight x) + 2) := by
    have : weight x < 2 ^ (Nat.log2 (weight x) + 1) := by
      rw [Nat.log2_eq_log_two]
      exact Nat.lt_pow_succ_log_self (by norm_num) _
    rw [pow_succ]; omega
  have hwR : (2 * weight x : ℝ) ≤ 2 ^ (Nat.log2 (weight x) + 2) := by exact_mod_cast hwl
  have hwa : (2 * weight x : ℝ) ^ ord x ≤ 2 ^ a := by
    calc (2 * weight x : ℝ) ^ ord x ≤ (2 ^ (Nat.log2 (weight x) + 2)) ^ ord x :=
          pow_le_pow_left₀ (by positivity) hwR _
      _ = 2 ^ a := by rw [← pow_mul, ha, Nat.mul_comm]
  have hv : 1 ≤ 2 * |value x| * 2 ^ a :=
    hlow.trans (mul_le_mul_of_nonneg_left hwa (by positivity))
  have hKh : 2 * (K / 2) = K := by
    have h2 : signFuel x - 1 = Nat.log2 a + 7 := rfl
    rw [hK, h2, pow_succ]; omega
  have hpow : (8 * K + 64) * 2 ^ (2 * a + 1) < 2 ^ K := by
    have h1 := half_pow (m := K / 2) (by omega)
    have h2 : (8 * K + 64) ≤ 8 * 2 ^ (K / 2) := by omega
    calc (8 * K + 64) * 2 ^ (2 * a + 1) ≤ 8 * 2 ^ (K / 2) * 2 ^ (2 * a + 1) :=
          Nat.mul_le_mul_right _ h2
      _ = 2 ^ (3 + K / 2 + (2 * a + 1)) := by rw [pow_add 2 (3 + K / 2), pow_add 2 3]; norm_num
      _ < 2 ^ K := Nat.pow_lt_pow_right (by norm_num) (by omega)
  have hpowR : ((8 * K + 64 : ℕ) : ℝ) * 2 ^ (2 * a + 1) < 2 ^ K := by exact_mod_cast hpow
  have hP : (0 : ℝ) < 2 ^ K := by positivity
  have herr : 2 * (enclosureErr K x : ℝ) < 2 ^ K * |value x| := by
    have hwa1 : (2 * weight x : ℝ) ≤ 2 ^ a :=
      hwR.trans (pow_le_pow_right₀ (by norm_num) ha2)
    have e : (enclosureErr K x : ℝ) = weight x * ((8 * K + 64 : ℕ) : ℝ) := by
      simp [enclosureErr, cosErr]
    rw [e]
    have h6 : (2 : ℝ) ^ K ≤ 2 ^ K * |value x| * (2 * 2 ^ a) := by
      calc (2 : ℝ) ^ K = 2 ^ K * 1 := (mul_one _).symm
        _ ≤ 2 ^ K * (2 * |value x| * 2 ^ a) := mul_le_mul_of_nonneg_left hv hP.le
        _ = _ := by ring
    have h5 : 2 ^ a * ((8 * K + 64 : ℕ) : ℝ) < 2 ^ K * |value x| := by
      refine lt_of_mul_lt_mul_right (a := 2 * 2 ^ a) ?_ (by positivity)
      calc 2 ^ a * ((8 * K + 64 : ℕ) : ℝ) * (2 * 2 ^ a)
          = ((8 * K + 64 : ℕ) : ℝ) * 2 ^ (2 * a + 1) := by rw [pow_succ, two_mul a, pow_add]; ring
        _ < 2 ^ K := hpowR
        _ ≤ _ := h6
    calc 2 * ((weight x : ℝ) * ((8 * K + 64 : ℕ) : ℝ))
        = 2 * weight x * ((8 * K + 64 : ℕ) : ℝ) := by ring
      _ ≤ 2 ^ a * ((8 * K + 64 : ℕ) : ℝ) := mul_le_mul_of_nonneg_right hwa1 (by positivity)
      _ < _ := h5
  have he := abs_le.mp (enclosure_err (by omega : 64 ≤ K) x)
  rw [signAt]
  rcases lt_or_gt_of_ne h with hneg | hpos
  · rw [abs_of_neg hneg, mul_neg] at herr
    have : enclosure K x < -(enclosureErr K x : Int) := by
      have : (enclosure K x : ℝ) < -((enclosureErr K x : ℕ) : ℝ) := by linarith [he.2]
      exact_mod_cast this
    split <;> rfl
  · rw [abs_of_pos hpos] at herr
    have : (enclosureErr K x : Int) < enclosure K x := by
      have : ((enclosureErr K x : ℕ) : ℝ) < enclosure K x := by linarith [he.1]
      exact_mod_cast this
    rw [if_pos this]; rfl

theorem signFrom_eq (x : TrigSum) (f prec i : Nat) (hp : 64 ≤ prec) (hi : i < f)
    (h : (signAt (prec * 2 ^ i) x).isSome) : signFrom x f prec = SignType.sign (value x) := by
  induction f generalizing prec i with
  | zero => omega
  | succ f ih =>
      rw [signFrom]
      split
      · rename_i s hs; exact signAt_sound hp hs
      · rename_i hs
        cases i with
        | zero => simp [hs] at h
        | succ i =>
            refine ih (2 * prec) i (by omega) (by omega) ?_
            rwa [show 2 * prec * 2 ^ i = prec * 2 ^ (i + 1) by ring]

/-- `sign` is exact. -/
theorem sign_eq (x : TrigSum) : sign x = SignType.sign (value x) := by
  rw [sign]
  split
  · rename_i s hs; exact signAt_sound le_rfl hs
  · split
    · rename_i hz; rw [(isZero_iff x).mp hz, sign_zero]
    · rename_i hz
      have hne : value x ≠ 0 := fun h => hz ((isZero_iff x).mpr h)
      exact signFrom_eq x _ 64 (signFuel x - 1) le_rfl (by simp [signFuel]) (signAt_last x hne)

theorem sign_eq_one (x : TrigSum) : sign x = 1 ↔ 0 < value x := by
  rw [sign_eq, sign_eq_one_iff]

theorem sign_eq_neg_one (x : TrigSum) : sign x = -1 ↔ value x < 0 := by
  rw [sign_eq, sign_eq_neg_one_iff]

theorem sign_eq_zero (x : TrigSum) : sign x = 0 ↔ value x = 0 := by
  rw [sign_eq, sign_eq_zero_iff]

/-- `abs` is the absolute value. -/
@[simp] theorem value_abs (x : TrigSum) : value (abs x) = |value x| := by
  rw [abs]
  split
  · rename_i h; rw [value_smul, abs_of_neg ((sign_eq_neg_one x).mp h)]; simp
  · rename_i h
    rw [abs_of_nonneg (not_lt.mp fun hn => h ((sign_eq_neg_one x).mpr hn))]

/-- `max` is the maximum. -/
@[simp] theorem value_max (x y : TrigSum) : value (max x y) = Max.max (value x) (value y) := by
  rw [max]
  split
  · rename_i h
    have := (sign_eq_one _).mp h
    rw [value_sub] at this
    rw [max_eq_right (by linarith)]
  · rename_i h
    have : ¬ 0 < value (sub y x) := fun hn => h ((sign_eq_one _).mpr hn)
    rw [value_sub] at this
    rw [max_eq_left (by linarith)]

end Sys2Proof.Num
end

