-- ==== Sys2Proof/Laws/NumDb.lean ====
section
/-! SUPPORT. `dbgt` is `NUM.DBGT` (00_scope.md R16), with its logarithm, of the magnitudes whose squares
it is given. -/

namespace Sys2Proof.Num

open Real

theorem enclosure_bounds {prec : Nat} (hp : 64 ≤ prec) {x : TrigSum} (hx : 0 < value x) :
    (((enclosure prec x - enclosureErr prec x).toNat : Nat) : ℝ) ≤ 2 ^ prec * value x ∧
    2 ^ prec * value x ≤ (((enclosure prec x + enclosureErr prec x).toNat : Nat) : ℝ) := by
  obtain ⟨h1, h2⟩ := abs_le.mp (enclosure_err hp x)
  have hpos : (0 : ℝ) < 2 ^ prec * value x := mul_pos (by positivity) hx
  constructor
  · rcases le_total (enclosure prec x - enclosureErr prec x) 0 with h | h
    · rw [Int.toNat_of_nonpos h]; simpa using hpos.le
    · have : (((enclosure prec x - enclosureErr prec x).toNat : Nat) : ℝ) =
          ((enclosure prec x - enclosureErr prec x : Int) : ℝ) := by
        exact_mod_cast Int.toNat_of_nonneg h
      rw [this]; push_cast; linarith
  · have : ((enclosure prec x + enclosureErr prec x : Int) : ℝ) ≤
        (((enclosure prec x + enclosureErr prec x).toNat : Nat) : ℝ) := by
      exact_mod_cast Int.self_le_toNat _
    refine le_trans ?_ this
    push_cast; linarith

theorem powGtAt_sound {prec v i j : Nat} {a b : TrigSum} (hp : 64 ≤ prec) (ha : 0 < value a)
    (hb : 0 < value b) {r : Bool} (h : powGtAt prec v i j a b = some r) :
    r = true ↔ value b ^ v * 10 ^ j < value a ^ v * 10 ^ i := by
  obtain ⟨al, ah⟩ := enclosure_bounds hp ha
  obtain ⟨bl, bh⟩ := enclosure_bounds hp hb
  have hP : (0 : ℝ) < 2 ^ prec := by positivity
  have hPv : (0 : ℝ) < (2 ^ prec) ^ v := by positivity
  have scale (z : ℝ) (k : Nat) : (2 ^ prec * z) ^ v * 10 ^ k = (2 ^ prec) ^ v * (z ^ v * 10 ^ k) := by
    rw [mul_pow, mul_assoc]
  have up {n : Nat} {z : ℝ} (hz : 0 < z) (h : 2 ^ prec * z ≤ (n : ℝ)) (k : Nat) :
      (2 ^ prec) ^ v * (z ^ v * 10 ^ k) ≤ (n : ℝ) ^ v * 10 ^ k := by
    rw [← scale]
    exact mul_le_mul_of_nonneg_right (pow_le_pow_left₀ (mul_pos hP hz).le h v) (by positivity)
  have down {n : Nat} {z : ℝ} (h : (n : ℝ) ≤ 2 ^ prec * z) (k : Nat) :
      (n : ℝ) ^ v * 10 ^ k ≤ (2 ^ prec) ^ v * (z ^ v * 10 ^ k) := by
    rw [← scale]
    exact mul_le_mul_of_nonneg_right (pow_le_pow_left₀ (Nat.cast_nonneg n) h v) (by positivity)
  rw [powGtAt] at h
  simp only at h
  split at h
  · rename_i hlt
    cases h
    simp only [true_iff]
    have : ((_ : Nat) : ℝ) < ((_ : Nat) : ℝ) := Nat.cast_lt.mpr hlt
    push_cast at this
    exact lt_of_mul_lt_mul_left ((up hb bh j).trans_lt (this.trans_le (down al i))) hPv.le
  · split at h
    · rename_i hle
      cases h
      simp only [Bool.false_eq_true, false_iff, not_lt]
      have : ((_ : Nat) : ℝ) ≤ ((_ : Nat) : ℝ) := Nat.cast_le.mpr hle
      push_cast at this
      exact le_of_mul_le_mul_left ((up ha ah i).trans (this.trans (down bl j))) hPv
    · cases h

theorem powGt_iff {v i j : Nat} {a b : TrigSum} (hv : 1 ≤ v) (ha : 0 < value a)
    (hb : 0 < value b) : powGt v i j a b = true ↔ value b ^ v * 10 ^ j < value a ^ v * 10 ^ i := by
  rw [powGt]
  split
  · rename_i r h; exact powGtAt_sound le_rfl ha hb h
  · split
    · rename_i r h; exact powGtAt_sound (by norm_num) ha hb h
    · rw [beq_iff_eq, sign_eq_one, value_sub, value_smul, value_smul, value_doublePow,
        value_doublePow, Nat.sub_add_cancel hv]
      have : (0 : ℝ) < 2 ^ (v - 1) := by positivity
      push_cast
      constructor
      · intro h
        refine lt_of_mul_lt_mul_left (a := (2 : ℝ) ^ (v - 1)) ?_ this.le
        linarith
      · intro h
        have := mul_lt_mul_of_pos_left h this
        linarith

/-- `dbgt` is the reference `NUM.DBGT` of the square roots. -/
theorem dbgt_iff (mSq maxSq : TrigSum) (thr : Int) :
    dbgt mSq maxSq thr = true ↔
      refDBGT (√(value mSq)) (√(value maxSq)) ((thr : ℝ) / 2 ^ Config.thrFrac) := by
  rw [dbgt, refDBGT]
  simp only [sign_eq_one, sqrt_pos]
  split
  · rename_i h
    obtain ⟨hM, hm⟩ := h
    simp only [hM, hm, true_and]
    have hden : (10 * 2 ^ Config.thrFrac : Nat) = 2560 := rfl
    rw [hden]
    set g := Nat.gcd thr.natAbs 2560 with hg
    have hgpos : 0 < g := Nat.gcd_pos_of_pos_right _ (by norm_num)
    obtain ⟨v, hv⟩ := Nat.gcd_dvd_right thr.natAbs 2560
    obtain ⟨n, hn⟩ := Nat.gcd_dvd_left thr.natAbs 2560
    rw [← hg] at hv hn
    have hdv : 2560 / g = v := by rw [hv, Nat.mul_div_cancel_left _ hgpos]
    have hv1 : 1 ≤ v := by
      rcases Nat.eq_zero_or_pos v with h0 | h0
      · rw [h0] at hv; simp at hv
      · exact h0
    rw [hdv, powGt_iff hv1 hm hM]
    have hu : (((thr.toNat / g : Nat) : ℝ)) - (((-thr).toNat / g : Nat) : ℝ) = (thr : ℝ) / g := by
      have hgr : (g : ℝ) ≠ 0 := by exact_mod_cast hgpos.ne'
      rcases le_total 0 thr with h0 | h0
      · have e1 : thr.toNat = g * n := by omega
        have e2 : (-thr).toNat = 0 := by omega
        rw [e1, e2, Nat.mul_div_cancel_left _ hgpos]
        have : (thr : ℝ) = g * n := by
          have : thr = ((g * n : Nat) : Int) := by omega
          rw [this]; push_cast; ring
        rw [this]; field_simp; simp
      · have e1 : (-thr).toNat = g * n := by omega
        have e2 : thr.toNat = 0 := by omega
        rw [e1, e2, Nat.mul_div_cancel_left _ hgpos]
        have : (thr : ℝ) = -(g * n) := by
          have : thr = -((g * n : Nat) : Int) := by omega
          rw [this]; push_cast; ring
        rw [this]; field_simp; simp
    have ha := hm
    have hlog : logb 10 (√(value mSq) / √(value maxSq)) =
        (logb 10 (value mSq) - logb 10 (value maxSq)) / 2 := by
      rw [logb_div (sqrt_pos.mpr hm).ne' (sqrt_pos.mpr hM).ne', sqrt_eq_rpow, sqrt_eq_rpow,
        logb_rpow_eq_mul_logb_of_pos hm, logb_rpow_eq_mul_logb_of_pos hM]
      ring
    have hvg : (2560 : ℝ) = g * v := by exact_mod_cast hv
    have hgr : (0 : ℝ) < g := by exact_mod_cast hgpos
    have hvr : (0 : ℝ) < v := by exact_mod_cast hv1
    rw [← logb_lt_logb_iff (b := 10) (by norm_num) (by positivity) (by positivity),
      logb_mul (by positivity) (by positivity), logb_mul (by positivity) (by positivity),
      logb_pow, logb_pow, logb_pow, logb_pow, logb_self_eq_one (by norm_num), hlog]
    have hthr : (thr : ℝ) / 2 ^ Config.thrFrac = 10 * ((thr : ℝ) / g) / v := by
      have : (2 : ℝ) ^ Config.thrFrac = g * v / 10 := by rw [← hvg]; norm_num [Config.thrFrac]
      rw [this]; field_simp
    rw [hthr, ← hu, div_lt_iff₀ hvr]
    constructor <;> intro h <;> linarith
  · rename_i h
    simp only [Bool.false_eq_true, false_iff]
    rintro ⟨h1, h2, -⟩
    exact h ⟨h1, h2⟩

end Sys2Proof.Num
end

