-- ==== Sys2Proof/Laws/NumMag.lean ====
section
/-! SUPPORT. `magSq` holds the squares of `NUM.MAG` (00_scope.md R15), and `peak` and `greatest` are
maxima (41_tx_synth.md R133, 42_rx_spectro_detect.md R168). -/

namespace Sys2Proof.Num

open Real

theorem list_sum_range {α : Type} [AddCommMonoid α] (f : Nat → α) (n : Nat) :
    ((List.range n).map f).sum = ∑ i ∈ Finset.range n, f i := by
  induction n with
  | zero => simp
  | succ n ih => rw [List.range_succ, List.map_append, List.sum_append, ih, Finset.sum_range_succ]; simp

theorem autocorr_eq (x : List Int) (d : Nat) :
    autocorr x d = ∑ t ∈ Finset.range x.length, x.getD t 0 * x.getD ((t + d) % x.length) 0 :=
  list_sum_range _ _

/-- Over a whole circle, a shifted sum is the sum. -/
theorem sum_range_shift {n : Nat} (hn : 0 < n) (t : Nat) (g : Nat → ℝ) :
    ∑ d ∈ Finset.range n, g ((t + d) % n) = ∑ u ∈ Finset.range n, g u := by
  have hlt (d : Nat) : (t + d) % n < n := Nat.mod_lt _ hn
  refine Finset.sum_nbij (fun d => (t + d) % n) ?_ ?_ ?_ fun _ _ => rfl
  · intro d _; exact Finset.mem_range.mpr (hlt d)
  · intro a ha b hb hab
    simp only [Finset.coe_range, Set.mem_Iio] at ha hb
    have : a ≡ b [MOD n] := Nat.ModEq.add_left_cancel' t hab
    rwa [Nat.ModEq, Nat.mod_eq_of_lt ha, Nat.mod_eq_of_lt hb] at this
  · intro u hu
    simp only [Finset.coe_range, Set.mem_Iio] at hu
    refine ⟨(u + (n - t % n)) % n, Finset.mem_coe.mpr (Finset.mem_range.mpr (Nat.mod_lt _ hn)), ?_⟩
    have ht : t % n < n := Nat.mod_lt _ hn
    change (t + (u + (n - t % n)) % n) % n = u
    rw [Nat.add_mod_mod, show t + (u + (n - t % n)) = u + (t - t % n + n) by
      have := Nat.mod_le t n; omega]
    have h1 : t - t % n = n * (t / n) := by have := Nat.div_add_mod t n; omega
    rw [h1, show u + (n * (t / n) + n) = u + n * (t / n + 1) by ring, Nat.add_mul_mod_self_left,
      Nat.mod_eq_of_lt hu]

theorem cos_mod {n : Nat} (hn : 0 < n) (m k : Nat) :
    cos (2 * π * ((m * (k % n) : Nat) : ℝ) / n) = cos (2 * π * ((m * k : Nat) : ℝ) / n) := by
  have hn' : (n : ℝ) ≠ 0 := by exact_mod_cast hn.ne'
  have hk : (k : ℝ) = n * (k / n : Nat) + (k % n : Nat) := by exact_mod_cast (Nat.div_add_mod k n).symm
  have : 2 * π * ((m * k : Nat) : ℝ) / n =
      2 * π * ((m * (k % n) : Nat) : ℝ) / n + ((m * (k / n) : Nat) : ℝ) * (2 * π) := by
    push_cast; rw [hk]; field_simp; ring
  rw [this, cos_add_nat_mul_two_pi]

theorem norm_sq_dft (x : Nat → ℝ) (θ : ℝ) (n : Nat) :
    ‖∑ t ∈ Finset.range n, (x t : ℂ) * Complex.exp (-(θ * t : ℝ) * Complex.I)‖ ^ 2 =
      ∑ t ∈ Finset.range n, ∑ u ∈ Finset.range n, x t * x u * cos (θ * u - θ * t) := by
  have he (t : Nat) : (x t : ℂ) * Complex.exp (-(θ * t : ℝ) * Complex.I) =
      ((x t * cos (θ * t) : ℝ) : ℂ) + ((-(x t * sin (θ * t)) : ℝ) : ℂ) * Complex.I := by
    rw [show (-(θ * t : ℝ) : ℂ) * Complex.I = ((-(θ * t) : ℝ) : ℂ) * Complex.I by push_cast; ring,
      Complex.exp_mul_I, ← Complex.ofReal_cos, ← Complex.ofReal_sin, cos_neg, sin_neg]
    push_cast; ring
  rw [Finset.sum_congr rfl fun t _ => he t, Finset.sum_add_distrib, ← Finset.sum_mul,
    ← Complex.ofReal_sum, ← Complex.ofReal_sum, ← Complex.normSq_eq_norm_sq, Complex.normSq_add_mul_I,
    Finset.sum_neg_distrib, neg_sq, sq, sq, Finset.sum_mul_sum, Finset.sum_mul_sum,
    ← Finset.sum_add_distrib]
  refine Finset.sum_congr rfl fun t _ => ?_
  rw [← Finset.sum_add_distrib]
  refine Finset.sum_congr rfl fun u _ => ?_
  rw [cos_sub]; ring

@[simp] theorem magSq_length (x : List Int) : (magSq x).length = x.length := by simp [magSq]

/-- Entry m of `magSq x` is the square of `NUM.MAG(x)[m]`. -/
theorem value_magSq (x : List Int) {m : Nat} (hm : m < x.length) :
    value ((magSq x).getD m zero) = refMAG x m ^ 2 := by
  have hn : 0 < x.length := Nat.lt_of_le_of_lt (Nat.zero_le _) hm
  have hget : (magSq x).getD m zero = ⟨x.length, (List.range x.length).map fun d =>
      (((List.range x.length).map (autocorr x)).getD d 0, m * d % x.length)⟩ := by
    rw [List.getD_eq_getElem _ _ (by simpa using hm)]
    simp [magSq]
  have hmag : refMAG x m ^ 2 = ∑ t ∈ Finset.range x.length, ∑ u ∈ Finset.range x.length,
      ((x.getD t 0 : ℤ) : ℝ) * ((x.getD u 0 : ℤ) : ℝ) *
        cos (2 * π * m / x.length * u - 2 * π * m / x.length * t) := by
    rw [← norm_sq_dft, refMAG]
    congr 2
    refine Finset.sum_congr rfl fun t _ => ?_
    push_cast
    congr 3
    ring
  rw [hmag, hget, value_mk hn, termsValue, List.map_map, list_sum_range]
  have hd (d : Nat) (h : d < x.length) :
      ((List.range x.length).map (autocorr x)).getD d 0 = autocorr x d := by
    rw [List.getD_eq_getElem _ _ (by simpa using h)]; simp
  have step1 : ∀ d ∈ Finset.range x.length,
      ((fun t : Int × Nat => (t.1 : ℝ) * cos (2 * π * t.2 / (x.length : ℕ))) ∘ fun d =>
        (((List.range x.length).map (autocorr x)).getD d 0, m * d % x.length)) d =
      ∑ t ∈ Finset.range x.length, ((x.getD t 0 : ℤ) : ℝ) *
        ((x.getD ((t + d) % x.length) 0 : ℤ) : ℝ) * cos (2 * π * m / x.length * d) := by
    intro d hdr
    rw [Finset.mem_range] at hdr
    simp only [Function.comp, hd d hdr]
    rw [autocorr_eq, ← Finset.sum_mul]
    congr 1
    · push_cast; rfl
    · have := cos_mod hn 1 (m * d)
      simp only [one_mul] at this
      rw [this]; congr 1; push_cast; ring
  rw [Finset.sum_congr rfl step1, Finset.sum_comm]
  refine Finset.sum_congr rfl fun t _ => ?_
  refine Eq.trans ?_ (sum_range_shift hn t fun u => ((x.getD t 0 : ℤ) : ℝ) *
    ((x.getD u 0 : ℤ) : ℝ) * cos (2 * π * m / x.length * u - 2 * π * m / x.length * t))
  refine Finset.sum_congr rfl fun d _ => ?_
  congr 1
  have hx : (x.length : ℝ) ≠ 0 := by exact_mod_cast hn.ne'
  have h2 : ((t + d : Nat) : ℝ) = x.length * ((t + d) / x.length : Nat) + ((t + d) % x.length : Nat) := by
    exact_mod_cast (Nat.div_add_mod (t + d) x.length).symm
  have : 2 * π * m / x.length * (((t + d) % x.length : Nat) : ℝ) - 2 * π * m / x.length * t =
      2 * π * m / x.length * d - ((m * ((t + d) / x.length) : Nat) : ℝ) * (2 * π) := by
    have h3 : (((t + d) % x.length : Nat) : ℝ) = t + d - x.length * ((t + d) / x.length : Nat) := by
      push_cast at h2 ⊢; linarith
    rw [h3]; push_cast; field_simp; ring
  rw [this, cos_sub_nat_mul_two_pi]

theorem refMAG_nonneg (x : List Int) (m : Nat) : 0 ≤ refMAG x m := norm_nonneg _

/-- The square root of an entry of `magSq` is the magnitude. -/
theorem sqrt_magSq (x : List Int) {m : Nat} (hm : m < x.length) :
    √(value ((magSq x).getD m zero)) = refMAG x m := by
  rw [value_magSq x hm, sqrt_sq (refMAG_nonneg x m)]

end Sys2Proof.Num

namespace Sys2Proof

@[simp] theorem greatestOf_nil : greatestOf [] = 0 := rfl

theorem greatestOf_nonneg (xs : List ℝ) : 0 ≤ greatestOf xs := by
  induction xs with
  | nil => exact le_rfl
  | cons x xs ih => exact le_trans ih (le_max_right _ _)

theorem greatestOf_append (xs ys : List ℝ) :
    greatestOf (xs ++ ys) = max (greatestOf xs) (greatestOf ys) := by
  induction xs with
  | nil => exact (max_eq_right (greatestOf_nonneg ys)).symm
  | cons x xs ih =>
      change max x (greatestOf (xs ++ ys)) = max (max x (greatestOf xs)) (greatestOf ys)
      rw [ih, max_assoc]

theorem le_greatestOf {xs : List ℝ} {x : ℝ} (h : x ∈ xs) : x ≤ greatestOf xs := by
  induction xs with
  | nil => cases h
  | cons y ys ih =>
      rcases List.mem_cons.mp h with rfl | h
      · exact le_max_left _ _
      · exact (ih h).trans (le_max_right _ _)

/-- The greatest of a list is 0 or one of them. -/
theorem greatestOf_mem (xs : List ℝ) : greatestOf xs = 0 ∨ greatestOf xs ∈ xs := by
  induction xs with
  | nil => exact .inl rfl
  | cons x xs ih =>
      change max x (greatestOf xs) = 0 ∨ max x (greatestOf xs) ∈ x :: xs
      rcases max_choice x (greatestOf xs) with h | h <;> rw [h]
      · exact .inr List.mem_cons_self
      · exact ih.imp_right (List.mem_cons_of_mem _)

namespace Machine

open Sys2Proof.Num

/-- `peak` continues the maximum of the absolute values (R133). -/
theorem value_peak (m : TrigSum) (xs : List TrigSum) (h : 0 ≤ value m) :
    value (peak m xs) = max (value m) (greatestOf (xs.map fun x => |value x|)) := by
  induction xs generalizing m with
  | nil => exact (max_eq_left h).symm
  | cons x xs ih =>
      rw [peak, List.foldl_cons]
      have h' : 0 ≤ value (Num.max m (Num.abs x)) := by rw [value_max]; exact le_max_of_le_left h
      have := ih (Num.max m (Num.abs x)) h'
      rw [peak] at this
      rw [this, value_max, value_abs, max_assoc]; rfl

/-- `greatest` continues the maximum of the magnitudes (R168). -/
theorem sqrt_greatest (m : TrigSum) (xs : List TrigSum) :
    √(value (greatest m xs)) = max √(value m) (greatestOf (xs.map fun x => √(value x))) := by
  have hmax (a b : ℝ) : √(max a b) = max √a √b :=
    Monotone.map_max (f := Real.sqrt) (fun _ _ h => Real.sqrt_le_sqrt h)
  induction xs generalizing m with
  | nil => exact (max_eq_left (Real.sqrt_nonneg _)).symm
  | cons x xs ih =>
      rw [greatest, List.foldl_cons]
      have := ih (Num.max m x)
      rw [greatest] at this
      rw [this, value_max, hmax, max_assoc]; rfl

end Machine

end Sys2Proof
end

