-- ==== Sys2Proof/Laws/NumRound.lean ====
section
/-! SUPPORT. `rnd` is `NUM.RND` (00_scope.md R14) of the quotient. -/

namespace Sys2Proof.Num

theorem sign_bne_neg_one (x : TrigSum) : (sign x != -1) = true ↔ 0 ≤ value x := by
  rw [bne_iff_ne, ne_eq, sign_eq_neg_one, not_lt]

theorem sign_beq_neg_one (x : TrigSum) : (sign x == -1) = true ↔ value x < 0 := by
  rw [beq_iff_eq, sign_eq_neg_one]

/-- `isFloor` tests for the floor of the quotient. -/
theorem isFloor_iff {x y : TrigSum} (hy : 0 < value y) (k : Int) :
    isFloor x y k = true ↔ ⌊value x / value y⌋ = k := by
  rw [isFloor, Bool.and_eq_true, sign_bne_neg_one, sign_beq_neg_one, Int.floor_eq_iff,
    le_div_iff₀ hy, div_lt_iff₀ hy, value_sub, value_sub, value_smul, value_smul]
  push_cast
  constructor <;> rintro ⟨h1, h2⟩ <;> constructor <;> linarith

/-- The search by halves finds the last integer with the property. -/
theorem bisect_spec (p : Int → Bool) (f : Nat) (lo hi : Int) (hlo : p lo = true)
    (hhi : p hi = false) (hlt : lo < hi) (hf : hi - lo ≤ 2 ^ f) :
    p (bisect p f lo hi) = true ∧ ∃ k, p k = false ∧ k = bisect p f lo hi + 1 := by
  induction f generalizing lo hi with
  | zero =>
      have : hi = lo + 1 := by simp at hf; omega
      exact ⟨hlo, hi, hhi, this⟩
  | succ f ih =>
      rw [bisect]
      split
      · exact ⟨hlo, hi, hhi, by omega⟩
      · rename_i h
        rw [pow_succ] at hf
        split
        · rename_i hp; exact ih _ _ hp hhi (by omega) (by omega)
        · rename_i hp
          exact ih _ _ hlo (by simpa using hp) (by omega) (by omega)

/-- `floorDiv` is the floor of the quotient. -/
theorem floorDiv_eq {bound : Nat} {x y : TrigSum} (hy : 0 < value y)
    (hb : |value x / value y| ≤ bound) : floorDiv bound x y = ⌊value x / value y⌋ := by
  rw [floorDiv]
  split
  · rename_i h; exact ((isFloor_iff hy _).mp h).symm
  · have hp (k : Int) : (sign (sub x (smul k y)) != -1) = true ↔ (k : ℝ) ≤ value x / value y := by
      rw [sign_bne_neg_one, value_sub, value_smul, le_div_iff₀ hy, sub_nonneg]
    obtain ⟨h1, h2⟩ := abs_le.mp hb
    have hlog : 2 * bound + 1 < 2 ^ (Nat.log2 (2 * bound + 1) + 1) := by
      rw [Nat.log2_eq_log_two]
      exact Nat.lt_pow_succ_log_self (by norm_num) _
    obtain ⟨ha, k, hk, rfl⟩ := bisect_spec (fun k => sign (sub x (smul k y)) != -1)
      (Nat.log2 (2 * bound + 1) + 1) (-(bound : Int)) (bound + 1)
      ((hp _).mpr (by push_cast; exact h1))
      (by
        rw [← Bool.not_eq_true, hp]
        push_cast
        linarith) (by omega)
      (by
        have : ((2 * bound + 1 : Nat) : Int) < ((2 ^ (Nat.log2 (2 * bound + 1) + 1) : Nat) : Int) :=
          by exact_mod_cast hlog
        push_cast at this
        omega)
    rw [eq_comm, Int.floor_eq_iff]
    refine ⟨(hp _).mp ha, ?_⟩
    rw [← Bool.not_eq_true, hp, not_le] at hk
    exact_mod_cast hk

/-- A rounding with given cuts and ties, over the reals. -/
noncomputable def roundReal (cut : Int → Rat) (tie : Int → Bool) (x : ℝ) : ℤ :=
  if x = ⌊x⌋ then ⌊x⌋
  else if (cut ⌊x⌋ : ℝ) < x ∨ x = cut ⌊x⌋ ∧ tie ⌊x⌋ = true then ⌊x⌋ + 1
  else ⌊x⌋

theorem RND_eq (r : NumInstance) (x : ℝ) : RND r x = roundReal (roundCut r) (roundTie r) x := rfl

theorem roundDiv_eq {cut : Int → Rat} {tie : Int → Bool} {bound : Nat} {x y : TrigSum}
    (hy : 0 < value y) (hb : |value x / value y| ≤ bound) :
    roundDiv cut tie bound x y = roundReal cut tie (value x / value y) := by
  have hk := floorDiv_eq hy hb
  rw [roundDiv, roundReal, hk]
  set k := ⌊value x / value y⌋
  have h0 : sign (sub x (smul k y)) = 0 ↔ value x / value y = k := by
    rw [sign_eq_zero, value_sub, value_smul, sub_eq_zero, div_eq_iff hy.ne']
  rw [if_congr h0 rfl rfl]
  split
  · rfl
  · have hd : (0 : ℝ) < ((cut k).den : ℝ) := by exact_mod_cast (cut k).pos
    have hv : value (sub (smul (cut k).den x) (smul (cut k).num y)) =
        (value x / value y - cut k) * (((cut k).den : ℝ) * value y) := by
      have hc : ((cut k : ℚ) : ℝ) = ((cut k).num : ℝ) / ((cut k).den : ℝ) := by
        rw [Rat.cast_def]
      rw [value_sub, value_smul, value_smul, hc]
      field_simp
      push_cast
      ring
    have hpos := mul_pos hd hy
    rcases lt_trichotomy ((cut k : ℚ) : ℝ) (value x / value y) with h | h | h
    · have : sign (sub (smul (cut k).den x) (smul (cut k).num y)) = 1 := by
        rw [sign_eq_one, hv]; exact mul_pos (sub_pos.mpr h) hpos
      rw [this]; simp [h]
    · have : sign (sub (smul (cut k).den x) (smul (cut k).num y)) = 0 := by
        rw [sign_eq_zero, hv, h]; simp
      rw [this]; simp [h]
    · have : sign (sub (smul (cut k).den x) (smul (cut k).num y)) = -1 := by
        rw [sign_eq_neg_one, hv]; exact mul_neg_of_neg_of_pos (sub_neg.mpr h) hpos
      rw [this]
      simp [not_lt.mpr h.le, h.ne]

/-- `rnd` is `NUM.RND` of the quotient. -/
theorem rnd_eq (r : NumInstance) {bound : Nat} {x y : TrigSum} (hy : 0 < value y)
    (hb : |value x / value y| ≤ bound) : rnd r bound x y = RND r (value x / value y) :=
  roundDiv_eq hy hb

end Sys2Proof.Num
end

