-- ==== Sys2Proof/Laws/NumInst.lean ====
section
/-! SUPPORT. The numerics record in any instance (00_scope.md R13 to R16): what the machine computes is the
real function of the same instance; and the transform contract (42_rx_spectro_detect.md R166). -/

namespace Sys2Proof.Num

open Real

/-- `instSinT` is `NUM.sinT` (R13). -/
theorem value_instSinT (i : NumInstance) {n : Nat} (hn : 0 < n) (a : Nat) :
    value (instSinT i a n) = SIN i a n := by
  cases i with
  | reference => exact value_sinT hn a
  | other id => exact value_ofInt _

@[simp] theorem instMagSq_length (i : NumInstance) (x : List Int) :
    (instMagSq i x).length = x.length := by cases i <;> simp [instMagSq]

/-- The square root of what is stored is `NUM.MAG` (R15). -/
theorem sqrt_instMagSq (i : NumInstance) (x : List Int) {m : Nat} (hm : m < x.length) :
    √(value ((instMagSq i x).getD m zero)) = MAG i x m := by
  cases i with
  | reference => exact sqrt_magSq x hm
  | other id => simp [instMagSq, hm, MAG, sqrt_sq]

theorem MAG_nonneg (i : NumInstance) (x : List Int) (m : Nat) : 0 ≤ MAG i x m := by
  cases i with
  | reference => exact refMAG_nonneg x m
  | other id => exact mul_nonneg (Nat.cast_nonneg _) (sqrt_nonneg _)

/-! ### The transform contract (42_rx_spectro_detect.md R166) -/

theorem content_cons (a : Int) (x : List Int) : content (a :: x) = Nat.gcd a.natAbs (content x) := rfl

theorem content_dvd {x : List Int} {a : Int} (h : a ∈ x) : (content x : Int) ∣ a := by
  induction x with
  | nil => cases h
  | cons b x ih =>
      rw [content_cons]
      rcases List.mem_cons.mp h with rfl | h
      · exact Int.natCast_dvd.mpr (Nat.gcd_dvd_left _ _)
      · exact (Int.natCast_dvd_natCast.mpr (Nat.gcd_dvd_right _ _)).trans (ih h)

theorem content_map_mul (k : Nat) (x : List Int) : content (x.map ((k : Int) * ·)) = k * content x := by
  induction x with
  | nil => rfl
  | cons a x ih =>
      rw [List.map_cons, content_cons, ih, Int.natAbs_mul, Int.natAbs_natCast, Nat.gcd_mul_left,
        content_cons]

theorem content_eq_zero {x : List Int} : content x = 0 ↔ ∀ a ∈ x, a = 0 := by
  induction x with
  | nil => simp [content]
  | cons a x ih => rw [content_cons, Nat.gcd_eq_zero_iff, ih, Int.natAbs_eq_zero]; simp

@[simp] theorem primitive_length (x : List Int) : (primitive x).length = x.length := by
  simp [primitive]

/-- Scaling by a positive factor scales the content and leaves the primitive part. -/
theorem content_scale {x y : List Int} {r : ℝ} (hr : 0 < r) (hl : y.length = x.length)
    (h : ∀ t < x.length, (y.getD t 0 : ℝ) = r * (x.getD t 0 : ℝ)) :
    (content y : ℝ) = r * content x ∧ primitive y = primitive x := by
  have hget (t : Nat) (ht : t < x.length) : (y[t] : ℝ) = r * (x[t] : ℝ) := by
    have := h t ht
    simpa [List.getD_eq_getElem?_getD, ht, hl] using this
  by_cases h0 : ∀ a ∈ x, a = 0
  · have hyx : y = x := by
      apply List.ext_getElem hl
      intro t h1 h2
      have hx := h0 _ (List.getElem_mem h2)
      have := hget t h2
      rw [hx] at this ⊢
      simpa using this
    rw [hyx, content_eq_zero.mpr h0]
    simp
  · push Not at h0
    obtain ⟨a, ha, hane⟩ := h0
    obtain ⟨j, hj, rfl⟩ := List.mem_iff_getElem.mp ha
    have hjy := hget j hj
    set q := (x[j]).natAbs with hq
    set p := (y[j]).natAbs with hp
    have hqpos : 0 < q := Int.natAbs_pos.mpr hane
    have hpq : (p : ℝ) = r * q := by
      rw [hp, hq, Nat.cast_natAbs, Nat.cast_natAbs, Int.cast_abs, Int.cast_abs, hjy, abs_mul,
        abs_of_pos hr]
    have hmul : y.map ((q : Int) * ·) = x.map ((p : Int) * ·) := by
      apply List.ext_getElem (by simp [hl])
      intro t h1 h2
      simp only [List.length_map] at h2
      simp only [List.getElem_map]
      have : ((q : Int) * y[t] : ℝ) = ((p : Int) * x[t] : ℝ) := by
        push_cast; rw [hget t h2, hpq]; ring
      exact_mod_cast this
    have hc : q * content y = p * content x := by
      rw [← content_map_mul, ← content_map_mul, hmul]
    have hqr : (0 : ℝ) < q := by exact_mod_cast hqpos
    have hcr : (content y : ℝ) = r * content x := by
      have : (q : ℝ) * content y = p * content x := by exact_mod_cast hc
      rw [hpq] at this
      have : (q : ℝ) * content y = q * (r * content x) := by rw [this]; ring
      exact mul_left_cancel₀ hqr.ne' this
    refine ⟨hcr, ?_⟩
    have hx0 : 0 < content x := Nat.pos_of_ne_zero fun hh => hane (content_eq_zero.mp hh _ ha)
    have hxr : (0 : ℝ) < content x := by exact_mod_cast hx0
    have hy0 : 0 < content y := by
      have : (0 : ℝ) < content y := by rw [hcr]; exact mul_pos hr hxr
      exact_mod_cast this
    apply List.ext_getElem (by simp [hl])
    intro t h1 h2
    simp only [primitive_length] at h1 h2
    simp only [primitive, List.getElem_map]
    obtain ⟨u, hu⟩ := content_dvd (List.getElem_mem h1)
    obtain ⟨v, hv⟩ := content_dvd (List.getElem_mem h2)
    have e := hget t h2
    rw [hu, hv] at e ⊢
    rw [Int.mul_ediv_cancel_left _ (by omega), Int.mul_ediv_cancel_left _ (by omega)]
    push_cast at e
    rw [hcr] at e
    have : (u : ℝ) = v := by
      refine mul_left_cancel₀ (mul_pos hr hxr).ne' ?_
      rw [e]; ring
    exact_mod_cast this

theorem refMAG_scale {x y : List Int} (r : ℝ) (hl : y.length = x.length)
    (h : ∀ t < x.length, (y.getD t 0 : ℝ) = r * (x.getD t 0 : ℝ)) (m : Nat) :
    refMAG y m = |r| * refMAG x m := by
  rw [refMAG, refMAG, hl, ← Real.norm_eq_abs, ← Complex.norm_real, ← norm_mul, Finset.mul_sum]
  congr 1
  refine Finset.sum_congr rfl fun t ht => ?_
  have : ((y.getD t 0 : ℤ) : ℂ) = (r : ℂ) * ((x.getD t 0 : ℤ) : ℂ) := by
    exact_mod_cast congrArg Complex.ofReal (h t (Finset.mem_range.mp ht))
  rw [this, mul_assoc]

/-- Scaling the input by a positive factor scales every output by that factor, in every instance. -/
theorem MAG_scale (i : NumInstance) {x y : List Int} {r : ℝ} (hr : 0 < r) (hl : y.length = x.length)
    (h : ∀ t < x.length, (y.getD t 0 : ℝ) = r * (x.getD t 0 : ℝ)) (m : Nat) :
    MAG i y m = r * MAG i x m := by
  cases i with
  | reference => rw [MAG, MAG, refMAG_scale r hl h, abs_of_pos hr]
  | other id =>
      obtain ⟨hc, hp⟩ := content_scale hr hl h
      rw [MAG, MAG, hc, hp, mul_assoc]

/-- The all-zero input gives the all-zero output, in every instance. -/
theorem MAG_zero (i : NumInstance) {x : List Int} (h : ∀ a ∈ x, a = 0) (m : Nat) : MAG i x m = 0 := by
  cases i with
  | reference =>
      have hx (t : Nat) : x.getD t 0 = 0 := by
        rw [List.getD_eq_getElem?_getD]
        rcases ht : x[t]? with _ | a
        · rfl
        · exact h a (List.mem_of_getElem? ht)
      simp only [MAG, refMAG, hx, Int.cast_zero, zero_mul, Finset.sum_const_zero, norm_zero]
  | other id => simp [MAG, content_eq_zero.mpr h]

/-! ### The comparison -/

theorem abs_value_le_weight (x : TrigSum) : |value x| ≤ weight x := by
  rw [value, weight]
  induction x.terms with
  | nil => simp
  | cons t l ih =>
      simp only [List.map_cons, List.sum_cons]
      refine (abs_add_le _ _).trans ?_
      push_cast
      refine add_le_add ?_ (by exact_mod_cast ih)
      rw [abs_mul]
      have : |(t.1 : ℝ)| * |cos (2 * π * t.2 / ord x)| ≤ |(t.1 : ℝ)| * 1 :=
        mul_le_mul_of_nonneg_left (abs_cos_le_one _) (abs_nonneg _)
      simpa using this

/-- `floor` is the floor of the value. -/
theorem floor_eq (x : TrigSum) : floor x = ⌊value x⌋ := by
  rw [floor, floorDiv_eq (by simp) (by simpa using abs_value_le_weight x)]
  simp

theorem floor_toNat {x : TrigSum} (h : 0 < value x) : (floor x).toNat = ⌊√(value x) ^ 2⌋₊ := by
  rw [floor_eq, sq_sqrt h.le, Int.floor_toNat]

/-- `instDbgt` is `NUM.DBGT` (R16, R172) of the square roots. -/
theorem instDbgt_iff (i : NumInstance) (mSq maxSq : TrigSum) (thr : Int) :
    instDbgt i mSq maxSq thr = true ↔ DBGT i (√(value mSq)) (√(value maxSq)) thr := by
  cases i with
  | reference => exact dbgt_iff mSq maxSq thr
  | other id =>
      simp only [instDbgt, DBGT, Bool.and_eq_true, beq_iff_eq, sign_eq_one, sqrt_pos, and_assoc]
      refine and_congr_right fun hM => and_congr_right fun hm => ?_
      rw [floor_toNat hm, floor_toNat hM]

/-- A free comparison sees only the quotient of the squares (R175). -/
theorem otherDbgt_congr (id : Nat) {a b c d : Nat} (ha : 0 < a) (hc : 0 < c) (h : a * d = c * b)
    (thr : Int) : otherDbgt id a b thr = otherDbgt id c d thr := by
  have reduce {a b c d : Nat} (ha : 0 < a) (hc : 0 < c) (h : a * d = c * b) :
      a / Nat.gcd a b ∣ c / Nat.gcd c d := by
    have hg := Nat.gcd_pos_of_pos_left b ha
    have hg' := Nat.gcd_pos_of_pos_left d hc
    have hco := Nat.coprime_div_gcd_div_gcd hg
    refine hco.dvd_of_dvd_mul_right (n := b / Nat.gcd a b) ⟨d / Nat.gcd c d, ?_⟩
    apply Nat.eq_of_mul_eq_mul_left (Nat.mul_pos hg hg')
    calc Nat.gcd a b * Nat.gcd c d * (c / Nat.gcd c d * (b / Nat.gcd a b))
        = (Nat.gcd c d * (c / Nat.gcd c d)) * (Nat.gcd a b * (b / Nat.gcd a b)) := by ring
      _ = c * b := by
          rw [Nat.mul_div_cancel' (Nat.gcd_dvd_left c d), Nat.mul_div_cancel' (Nat.gcd_dvd_right a b)]
      _ = a * d := h.symm
      _ = (Nat.gcd a b * (a / Nat.gcd a b)) * (Nat.gcd c d * (d / Nat.gcd c d)) := by
          rw [Nat.mul_div_cancel' (Nat.gcd_dvd_left a b), Nat.mul_div_cancel' (Nat.gcd_dvd_right c d)]
      _ = Nat.gcd a b * Nat.gcd c d * (a / Nat.gcd a b * (d / Nat.gcd c d)) := by ring
  have e1 : a / Nat.gcd a b = c / Nat.gcd c d :=
    Nat.dvd_antisymm (reduce ha hc h) (reduce hc ha h.symm)
  have hb : b / Nat.gcd a b = d / Nat.gcd c d := by
    have hg := Nat.gcd_pos_of_pos_left b ha
    have hg' := Nat.gcd_pos_of_pos_left d hc
    have hu : 0 < a / Nat.gcd a b := Nat.div_pos (Nat.gcd_le_left b ha) hg
    apply Nat.eq_of_mul_eq_mul_left (Nat.mul_pos (Nat.mul_pos hg hg') hu)
    calc Nat.gcd a b * Nat.gcd c d * (a / Nat.gcd a b) * (b / Nat.gcd a b)
        = (Nat.gcd c d * (c / Nat.gcd c d)) * (Nat.gcd a b * (b / Nat.gcd a b)) := by rw [e1]; ring
      _ = c * b := by
          rw [Nat.mul_div_cancel' (Nat.gcd_dvd_left c d), Nat.mul_div_cancel' (Nat.gcd_dvd_right a b)]
      _ = a * d := h.symm
      _ = (Nat.gcd a b * (a / Nat.gcd a b)) * (Nat.gcd c d * (d / Nat.gcd c d)) := by
          rw [Nat.mul_div_cancel' (Nat.gcd_dvd_left a b), Nat.mul_div_cancel' (Nat.gcd_dvd_right c d)]
      _ = Nat.gcd a b * Nat.gcd c d * (a / Nat.gcd a b) * (d / Nat.gcd c d) := by ring
  rw [otherDbgt, otherDbgt, e1, hb]

end Sys2Proof.Num
end

