-- ==== Sys2Proof/Laws/Serial.lean ====
section
/-! SUPPORT. The serializer procedures (43_bitpack.md R200, R202, R204): everything each can do, said
once, and what it does to the bits placed in the streams. -/

namespace Sys2Proof.Machine

/-- The state after one whole byte is appended to stream st. -/
def State.appended (s : State) (st : Nat) (b : Byte) : State :=
  ((s.sbWrite st (s.slenOf st) b).setSlen st (BitVec.ofNat 32 (s.slenOf st + 1))).setAcc st Acc.clear

/-- Everything `emitByte` can do. -/
theorem State.emitByte_eq (s : State) (st : Nat) (b : Byte) :
    s.emitByte st b =
      if s.slenOf st < s.cfg.strmCap then .ok (s.appended st b) else .error .cap := rfl

theorem State.slenOf_appended (s : State) {st : Nat} (b : Byte) (h : st < bankSize)
    (hc : s.slenOf st < s.cfg.strmCap) (i : Nat) :
    (s.appended st b).slenOf i = if i = st then s.slenOf st + 1 else s.slenOf i := by
  have := s.cfg.strmCap_le
  rw [State.appended, State.slenOf_setAcc, State.slenOf_setSlen, State.slenOf_sbWrite]
  simp only [h, and_true]
  split
  · rw [BitVec.toNat_ofNat]; omega
  · rfl

theorem State.accOf_appended (s : State) {st : Nat} (b : Byte) (h : st < bankSize)
    (i : Nat) : (s.appended st b).accOf i = if i = st then Acc.clear else s.accOf i := by
  rw [State.appended, State.accOf_setAcc]; simp [h]

theorem State.sbRead_appended (s : State) {st : Nat} (b : Byte) (h : st < bankSize)
    (i a : Nat) :
    (s.appended st b).sbRead i a = if i = st ∧ a = s.slenOf st then b else s.sbRead i a := by
  rw [State.appended, State.sbRead_setAcc, State.sbRead_setSlen, State.sbRead_sbWrite]
  simp [h]

/-- Everything `putBit` can do (R202). -/
theorem State.putBit_cases {s t : State} {st : Nat} {v : Bool} (h : s.putBit st v = .ok t) :
    (s.accOf st).cnt = 7 ∧ s.slenOf st < s.cfg.strmCap ∧
      t = s.appended st (((s.accOf st).val <<< 1) ||| (BitVec.ofBool v).zeroExtend 8) ∨
    (s.accOf st).cnt ≠ 7 ∧
      t = s.setAcc st ⟨((s.accOf st).val <<< 1) ||| (BitVec.ofBool v).zeroExtend 8,
        (s.accOf st).cnt + 1⟩ := by
  simp only [State.putBit, State.emitByte_eq] at h
  split at h
  · rename_i hc
    split at h
    · rename_i hl; cases h; exact .inl ⟨hc, hl, rfl⟩
    · cases h
  · rename_i hc; cases h; exact .inr ⟨hc, rfl⟩

/-- When `putBit` raises, and what (R202). -/
theorem State.putBit_error {s : State} {st : Nat} {v : Bool} {e : ErrCode} :
    s.putBit st v = .error e ↔
      e = .cap ∧ (s.accOf st).cnt = 7 ∧ ¬ s.slenOf st < s.cfg.strmCap := by
  simp only [State.putBit, State.emitByte_eq]
  split
  · split <;> simp_all [eq_comm]
  · simp_all

/-- Everything `flushBits` can do (R204). -/
theorem State.flushBits_cases {s t : State} {st : Nat} (h : s.flushBits st = .ok t) :
    (s.accOf st).cnt = 0 ∧ t = s ∨
    (s.accOf st).cnt ≠ 0 ∧ s.slenOf st < s.cfg.strmCap ∧
      t = s.appended st ((s.accOf st).val <<< (8 - (s.accOf st).cnt.toNat)) := by
  simp only [State.flushBits, State.emitByte_eq] at h
  split at h
  · rename_i hc; cases h; exact .inl ⟨hc, rfl⟩
  · rename_i hc
    split at h
    · rename_i hl; cases h; exact .inr ⟨hc, hl, rfl⟩
    · cases h

/-- When `flushBits` raises, and what (R204). -/
theorem State.flushBits_error {s : State} {st : Nat} {e : ErrCode} :
    s.flushBits st = .error e ↔
      e = .cap ∧ (s.accOf st).cnt ≠ 0 ∧ ¬ s.slenOf st < s.cfg.strmCap := by
  simp only [State.flushBits, State.emitByte_eq]
  split
  · simp_all
  · split <;> simp_all [eq_comm]

/-! ### The bits placed -/

@[simp] theorem State.placed_length (s : State) (st : Nat) :
    (s.placed st).length = 8 * s.slenOf st + (s.accOf st).cnt.toNat := by
  simp [State.placed]

/-- A stream whose length, bytes and accumulator are the same has the same bits. -/
theorem State.placed_congr {s t : State} {st : Nat} (hl : t.slenOf st = s.slenOf st)
    (ha : t.accOf st = s.accOf st) (hb : ∀ a < s.slenOf st, t.sbRead st a = s.sbRead st a) :
    t.placed st = s.placed st := by
  rw [State.placed, State.placed, hl, ha]
  congr 1
  apply List.map_congr_left
  intro b hb'
  rw [List.mem_range] at hb'
  simp only [State.streamBit, hl, hb', ↓reduceIte]
  rw [hb _ (by omega)]

/-- A byte appended while the accumulator holds c bits puts its lowest 8 - c bits after them, where its
highest c bits are the accumulator's. -/
theorem State.placed_appended {s : State} {st : Nat} {b : Byte} (h : st < bankSize)
    (hc : s.slenOf st < s.cfg.strmCap)
    (hb : ∀ r < (s.accOf st).cnt.toNat,
      b.getLsbD (7 - r) = (s.accOf st).val.getLsbD ((s.accOf st).cnt.toNat - 1 - r)) :
    (s.appended st b).placed st = s.placed st ++
      (List.range (8 - (s.accOf st).cnt.toNat)).map fun r =>
        b.getLsbD (7 - (s.accOf st).cnt.toNat - r) := by
  have hcnt : (s.accOf st).cnt.toNat < 8 := (s.accOf st).cnt.isLt
  set c := (s.accOf st).cnt.toNat with hcdef
  have hacc : (s.appended st b).accOf st = Acc.clear := by simp [State.accOf_appended s b h]
  have hlen : (s.appended st b).slenOf st = s.slenOf st + 1 := by
    simp [State.slenOf_appended s b h hc]
  have hold (x : Nat) (hx : x < 8 * s.slenOf st) :
      (s.appended st b).streamBit st x = s.streamBit st x := by
    simp only [State.streamBit, hlen, hx, ↓reduceIte, State.sbRead_appended s b h]
    rw [if_pos (by omega), if_neg (by omega)]
  have hnew (r : Nat) (hr : r < 8) :
      (s.appended st b).streamBit st (8 * s.slenOf st + r) = b.getLsbD (7 - r) := by
    simp only [State.streamBit, hlen, State.sbRead_appended s b h]
    rw [if_pos (by omega), if_pos ⟨trivial, by omega⟩]
    congr 2; omega
  apply List.ext_getElem
  · rw [List.length_append, State.placed_length, State.placed_length, hlen, hacc]
    simp [Acc.clear]; omega
  · intro x h1 h2
    have hx : x < 8 * s.slenOf st + 8 := by
      rw [State.placed_length, hlen, hacc] at h1; simp [Acc.clear] at h1; omega
    have e1 : ((s.appended st b).placed st)[x] = (s.appended st b).streamBit st x := by
      simp only [State.placed]
      rw [List.getElem_append_left (by simp [hlen]; omega)]
      simp
    rw [e1]
    by_cases hx1 : x < 8 * s.slenOf st
    · rw [hold x hx1, List.getElem_append_left (by simp; omega)]
      simp only [State.placed]
      rw [List.getElem_append_left (by simpa using hx1)]
      simp
    · obtain ⟨r, rfl⟩ := Nat.exists_eq_add_of_le (Nat.le_of_not_lt hx1)
      rw [hnew r (by omega)]
      by_cases hr : r < c
      · rw [hb r hr, List.getElem_append_left (by simp; omega)]
        simp only [State.placed]
        rw [List.getElem_append_right (by simp)]
        simp [← hcdef]
      · rw [List.getElem_append_right (by simp; omega)]
        simp only [State.placed_length, List.getElem_map, List.getElem_range, ← hcdef]
        congr 1; omega

theorem State.placed_appended_ne {s : State} {st i : Nat} {b : Byte} (h : st < bankSize)
    (hc : s.slenOf st < s.cfg.strmCap) (hi : i ≠ st) : (s.appended st b).placed i = s.placed i := by
  refine State.placed_congr ?_ ?_ fun a _ => ?_
  · simp [State.slenOf_appended s b h hc, hi]
  · simp [State.accOf_appended s b h, hi]
  · simp [State.sbRead_appended s b h, hi]

theorem shifted_bit (val : BitVec 8) (v : Bool) (k : Nat) (hk : k < 8) :
    ((val <<< 1) ||| (BitVec.ofBool v).zeroExtend 8).getLsbD k =
      if k = 0 then v else val.getLsbD (k - 1) := by
  rcases k with _ | k
  · simp
  · have : k < 7 := by omega
    simp [hk]
    exact (BitVec.getLsbD_eq_getElem (by omega)).symm

/-- `PutBit` appends its bit to the stream and touches no other (R202). -/
theorem State.placed_putBit {s t : State} {st : Nat} {v : Bool} (h : s.putBit st v = .ok t)
    (hst : st < bankSize) (i : Nat) :
    t.placed i = if i = st then s.placed st ++ [v] else s.placed i := by
  have hcnt : (s.accOf st).cnt.toNat < 8 := (s.accOf st).cnt.isLt
  rcases State.putBit_cases h with ⟨h7, hl, rfl⟩ | ⟨h7, rfl⟩
  · have h7' : (s.accOf st).cnt.toNat = 7 := by rw [h7]; rfl
    split
    · rename_i hi; subst hi
      rw [State.placed_appended hst hl]
      · simp [h7']
      · intro r hr
        rw [h7'] at hr ⊢
        rw [shifted_bit _ _ _ (by omega), if_neg (by omega)]
        congr 1; omega
    · rename_i hi; exact State.placed_appended_ne hst hl hi
  · split
    · rename_i hi; subst hi
      have hne : (s.accOf i).cnt.toNat ≠ 7 := fun hh => h7 (by
        apply BitVec.eq_of_toNat_eq; simpa using hh)
      have hc1 : ((s.accOf i).cnt + 1).toNat = (s.accOf i).cnt.toNat + 1 := by
        rw [BitVec.toNat_add]; simp; omega
      have ha (a : Acc) : (s.setAcc i a).accOf i = a := by simp [State.accOf_setAcc, hst]
      simp only [State.placed, ha, State.slenOf_setAcc, State.streamBit_setAcc, hc1,
        List.append_assoc, List.append_cancel_left_eq]
      rw [List.range_succ, List.map_append]
      congr 1
      · apply List.map_congr_left
        intro r hr
        rw [List.mem_range] at hr
        rw [shifted_bit _ _ _ (by omega), if_neg (by omega)]
        congr 1; omega
      · simp
    · rename_i hi
      refine State.placed_congr ?_ ?_ fun a _ => ?_ <;> simp [State.accOf_setAcc, hi]

/-- `FlushBits` appends zeros up to a whole byte to the stream and touches no other (R204). -/
theorem State.placed_flushBits {s t : State} {st : Nat} (h : s.flushBits st = .ok t)
    (hst : st < bankSize) (i : Nat) :
    t.placed i = if i = st then
        s.placed st ++ List.replicate ((8 - (s.accOf st).cnt.toNat) % 8) false
      else s.placed i := by
  have hcnt : (s.accOf st).cnt.toNat < 8 := (s.accOf st).cnt.isLt
  rcases State.flushBits_cases h with ⟨h0, rfl⟩ | ⟨h0, hl, rfl⟩
  · split
    · rename_i hi; subst hi; simp [h0]
    · rfl
  · have hne : (s.accOf st).cnt.toNat ≠ 0 := fun hh => h0 (by
        apply BitVec.eq_of_toNat_eq; simpa using hh)
    split
    · rename_i hi; subst hi
      rw [State.placed_appended hst hl]
      · congr 1
        rw [Nat.mod_eq_of_lt (by omega)]
        apply List.ext_getElem
        · simp
        · intro x h1 h2
          simp only [List.length_map, List.length_range] at h1
          simp only [List.getElem_map, List.getElem_range, List.getElem_replicate,
            BitVec.getLsbD_shiftLeft]
          simp; omega
      · intro r hr
        rw [BitVec.getLsbD_shiftLeft]
        simp only [show 7 - r < 8 by omega, decide_true, Bool.true_and]
        rw [show decide (7 - r < 8 - (s.accOf i).cnt.toNat) = false by simp; omega]
        simp only [Bool.not_false, Bool.true_and]
        congr 1; omega
    · rename_i hi; exact State.placed_appended_ne hst hl hi

end Sys2Proof.Machine
end

