-- ==== Sys2Proof/Laws/Run.lean ====
section
/-! SUPPORT. The shared operations of the transmit and receive runs: the cells of a window, a sample of
`WAVE` as a real number, and everything the detector's loops can do. -/

namespace Sys2Proof.Machine

open Sys2Proof.Num

/-! ### Cells -/

theorem State.mem_cells (s : State) (c : Nat × Nat) :
    c ∈ s.cells ↔ c.1 < s.nstr ∧ c.2 < s.bpb.toNat := by
  obtain ⟨i, j⟩ := c
  simp [State.cells]

/-- The cells of one band, in order. -/
theorem State.cells_band (s : State) {i : Nat} (h : i < s.nstr) :
    (s.cells.filter fun c => c.1 == i) = (List.range s.bpb.toNat).map fun j => (i, j) := by
  have inner (n b : Nat) : (((List.range n).flatMap fun i' =>
      (List.range b).map fun j => (i', j)).filter fun c => c.1 == i) =
        if i < n then (List.range b).map fun j => (i, j) else [] := by
    induction n with
    | zero => simp
    | succ n ih =>
        rw [List.range_succ, List.flatMap_append, List.filter_append, ih]
        have : (([n].flatMap fun i' => (List.range b).map fun j => (i', j)).filter
            fun c => c.1 == i) = if n = i then (List.range b).map fun j => (i, j) else [] := by
          simp only [List.flatMap_cons, List.flatMap_nil, List.append_nil, List.filter_map]
          split
          · rename_i hn; subst hn; simp [Function.comp_def]
          · rename_i hn; simp [Function.comp_def, hn]
        rw [this]
        by_cases h1 : i < n
        · rw [if_pos h1, if_neg (by omega), if_pos (by omega), List.append_nil]
        · by_cases h2 : n = i
          · rw [if_neg h1, if_pos h2, if_pos (by omega), List.nil_append]
          · rw [if_neg h1, if_neg h2, if_neg (by omega)]; rfl
  rw [State.cells, inner, if_pos h]

/-! ### The synthesizer -/

theorem value_foldl_add {α : Type} (f : α → TrigSum) (l : List α) (x : TrigSum) :
    value (l.foldl (fun x c => Num.add x (f c)) x) = value x + (l.map fun c => value (f c)).sum := by
  induction l generalizing x with
  | nil => simp
  | cons c l ih => rw [List.foldl_cons, ih, value_add, List.map_cons, List.sum_cons]; ring

/-- Sample t of window p is the sum of the sines of its active cells (41_tx_synth.md R133, R136). -/
theorem State.value_windowSample (s : State) (h : 0 < s.nfft) (p t : Nat) :
    value (s.windowSample p t) = ((s.activeCells p).map fun c =>
      SIN s.cfg.num ((s.phaseOf c.1 c.2 + s.nativeBin c.1 c.2 * t) % s.nfft) s.nfft).sum := by
  rw [State.windowSample, value_foldl_add, value_zero, zero_add]
  congr 1
  apply List.map_congr_left
  rintro ⟨i, j⟩ _
  exact value_instSinT _ h _

theorem sin_mod {n : ℕ} (hn : 0 < n) (a : ℕ) :
    Real.sin (2 * Real.pi * ((a % n : ℕ) : ℝ) / n) = Real.sin (2 * Real.pi * (a : ℝ) / n) := by
  have hn' : (n : ℝ) ≠ 0 := by positivity
  have h : (a : ℝ) = n * (a / n : ℕ) + (a % n : ℕ) := by exact_mod_cast (Nat.div_add_mod a n).symm
  have : 2 * Real.pi * (a : ℝ) / n =
      2 * Real.pi * (a % n : ℕ) / n + (a / n : ℕ) * (2 * Real.pi) := by
    rw [h]; field_simp; ring_nf
  rw [this, Real.sin_add_nat_mul_two_pi]

theorem sum_map_filter {α : Type} (l : List α) (p : α → Bool) (f : α → ℝ) :
    ((l.filter p).map f).sum = (l.map fun a => if p a then f a else 0).sum := by
  induction l with
  | nil => rfl
  | cons a l ih => by_cases h : p a <;> simp [h, ih]

/-- Sample t of window p, cell by cell (R133, R136). -/
theorem State.value_windowSample_sum (s : State) (h : 0 < s.nfft) (p t : ℕ) :
    value (s.windowSample p t) =
      ∑ i ∈ Finset.range s.nstr, ∑ j ∈ Finset.range s.bpb.toNat,
        if s.streamBit i (p * s.bpb.toNat + j) then
          SIN s.cfg.num ((s.phaseOf i j + s.nativeBin i j * t) % s.nfft) s.nfft
        else 0 := by
  have flat (l : List ℕ) (g : ℕ → List ℝ) :
      (l.flatMap g).sum = (l.map fun a => (g a).sum).sum := by
    induction l with
    | nil => rfl
    | cons a l ih => simp [List.flatMap_cons, ih]
  rw [State.value_windowSample s h, State.activeCells, sum_map_filter, State.cells,
    List.map_flatMap, flat, list_sum_range]
  apply Finset.sum_congr rfl
  intro i _
  rw [List.map_map, list_sum_range]
  apply Finset.sum_congr rfl
  intro j _
  rfl

@[simp] theorem State.windowSamples_length (s : State) (p : Nat) :
    (s.windowSamples p).length = s.spf.toNat := by simp [State.windowSamples]

/-- The phase of a cell after `TX.WINDOW` (R133). -/
theorem State.phaseOf_synthWindow (s : State) {i j : Nat} (hi : i < s.nstr)
    (hj : j < s.bpb.toNat) : s.synthWindow.phaseOf i j = s.nextPhase s.widx.toNat i j := by
  simp [State.phaseOf, hi, hj]

@[simp] theorem State.emitted_length (s : State) :
    s.emitted.length = s.wc.toNat * s.spf.toNat := by simp [State.emitted]

/-- The samples after `TX.FINISH` (R138). -/
theorem State.pcmRead_finishTx (s : State) (a : Nat) :
    s.finishTx.pcmRead a = if a < s.wc.toNat * s.spf.toNat
      then quantise s.cfg s.amax (s.wave.getD a Num.zero) else s.pcmRead a := by
  simp only [State.pcmRead, State.finishTx_pcm, State.finishTx_boots, State.finishTx_cfg, Memory.read_load,
    State.emitted_length]
  split
  · simp [State.emitted]
  · rfl

/-! ### The spectrogram -/

@[simp] theorem State.subWindow_length (s : State) (p : Nat) : (s.subWindow p).length = s.nfft := by
  simp [State.subWindow]

@[simp] theorem State.spectrum_length (s : State) (p : Nat) : (s.spectrum p).length = s.nfft := by
  simp [State.spectrum]

/-- The magnitudes of a slice are those of its sub-window (42_rx_spectro_detect.md R163). -/
theorem State.sqrt_spectrum (s : State) (p : Nat) {n : Nat} (h : n < s.nfft) :
    √(value ((s.spectrum p).getD n Num.zero)) = MAG s.cfg.num (s.subWindow p) n :=
  sqrt_instMagSq _ _ (by simpa using h)

/-! ### The detector -/

/-- What `PutBit` may change (43_bitpack.md R202). -/
theorem State.putBit_frame {s t : State} {st : Nat} {v : Bool} (h : s.putBit st v = .ok t) :
    t = { s with sb := t.sb, slen := t.slen, acc := t.acc } := by
  rcases State.putBit_cases h with ⟨_, _, rfl⟩ | ⟨_, rfl⟩ <;> rfl

/-- What `FlushBits` may change (R204). -/
theorem State.flushBits_frame {s t : State} {st : Nat} (h : s.flushBits st = .ok t) :
    t = { s with sb := t.sb, slen := t.slen, acc := t.acc } := by
  rcases State.flushBits_cases h with ⟨_, rfl⟩ | ⟨_, _, rfl⟩ <;> rfl

theorem State.putBit_cfg {s t : State} {st : Nat} {v : Bool} (h : s.putBit st v = .ok t) :
    t.cfg = s.cfg := by rw [State.putBit_frame h]

theorem State.flushBits_cfg {s t : State} {st : Nat} (h : s.flushBits st = .ok t) :
    t.cfg = s.cfg := by rw [State.flushBits_frame h]

/-- A decision reads nothing the serializer writes (42_rx_spectro_detect.md R169). -/
theorem State.decision_congr {s t : State}
    (h : t = { s with sb := t.sb, slen := t.slen, acc := t.acc }) (p i j : Nat) :
    t.decision p i j = s.decision p i j := by rw [h]; rfl

/-- The decision is `NUM.DBGT` of the cell's magnitude and the maximum (R169 to R172). -/
theorem State.decision_iff (s : State) (p i j : Nat) :
    s.decision p i j = true ↔
      DBGT s.cfg.num (s.magnitude p (s.nativeBin i j)) s.maxMagnitude s.thr :=
  instDbgt_iff _ _ _ _

theorem State.decideCells_frame {p : Nat} {cs : List (Nat × Nat)} {s t : State}
    (h : State.decideCells p cs s = .ok t) :
    t = { s with sb := t.sb, slen := t.slen, acc := t.acc } := by
  induction cs generalizing s with
  | nil => cases h; rfl
  | cons c cs ih =>
      obtain ⟨i, j⟩ := c
      simp only [State.decideCells, bind, Except.bind] at h
      split at h
      · cases h
      · rename_i s1 h1
        rw [ih h, State.putBit_frame h1]

/-- The detector appends to each stream the decisions for its cells, in order (R169). -/
theorem State.placed_decideCells {p : Nat} {cs : List (Nat × Nat)} {s t : State}
    (h : State.decideCells p cs s = .ok t) (hcs : ∀ c ∈ cs, c.1 < bankSize) (i : Nat) :
    t.placed i = s.placed i ++
      (cs.filter fun c => c.1 == i).map fun c => s.decision p c.1 c.2 := by
  induction cs generalizing s with
  | nil => cases h; simp
  | cons c cs ih =>
      obtain ⟨i', j⟩ := c
      simp only [State.decideCells, bind, Except.bind] at h
      split at h
      · cases h
      · rename_i s1 h1
        have hd := State.decision_congr (State.putBit_frame h1)
        rw [ih h fun c hc => hcs c (List.mem_cons_of_mem _ hc),
          State.placed_putBit h1 (hcs _ List.mem_cons_self), List.filter_cons]
        simp only [hd]
        by_cases hi : i = i'
        · subst hi; simp
        · have : (i' == i) = false := by simpa using fun h' => hi h'.symm
          simp [hi, this]

/-- The room a stream needs for m more bits. -/
def State.hasRoom (s : State) (i m : Nat) : Prop := cdiv ((s.placed i).length + m) 8 ≤ s.cfg.strmCap

/-- `PutBit` completes where the stream has room for a bit (R202, R161). -/
theorem State.putBit_completes {s : State} {st : Nat} (v : Bool) (h : s.hasRoom st 1) :
    ∃ t, s.putBit st v = .ok t := by
  cases hp : s.putBit st v with
  | ok t => exact ⟨t, rfl⟩
  | error e =>
      exfalso
      obtain ⟨-, h7, hl⟩ := State.putBit_error.mp hp
      rw [State.hasRoom, State.placed_length, h7, cdiv] at h
      have : (7#3).toNat = 7 := rfl
      have h8 : (7 : BitVec 3).toNat = 7 := rfl
      omega

/-- `FlushBits` completes where the stream's bits fit (R204, R161). -/
theorem State.flushBits_completes {s : State} {st : Nat} (h : s.hasRoom st 0) :
    ∃ t, s.flushBits st = .ok t := by
  cases hp : s.flushBits st with
  | ok t => exact ⟨t, rfl⟩
  | error e =>
      exfalso
      obtain ⟨-, h0, hl⟩ := State.flushBits_error.mp hp
      have hne : (s.accOf st).cnt.toNat ≠ 0 := fun hh => h0 (by
        apply BitVec.eq_of_toNat_eq; simpa using hh)
      rw [State.hasRoom, State.placed_length, cdiv] at h
      omega

/-- The detector's loop completes where every stream it writes has room for its decisions (R169,
R161). -/
theorem State.decideCells_completes (p : Nat) (cs : List (Nat × Nat)) (s : State)
    (hcs : ∀ c ∈ cs, c.1 < bankSize)
    (h : ∀ c ∈ cs, s.hasRoom c.1 (cs.filter fun d => d.1 == c.1).length) :
    ∃ t, State.decideCells p cs s = .ok t := by
  induction cs generalizing s with
  | nil => exact ⟨s, rfl⟩
  | cons c cs ih =>
      obtain ⟨i, j⟩ := c
      have hi : i < bankSize := hcs _ List.mem_cons_self
      have hroom := h _ List.mem_cons_self
      simp only [List.filter_cons, beq_self_eq_true, ↓reduceIte, List.length_cons,
        State.hasRoom, cdiv] at hroom
      obtain ⟨s1, h1⟩ := State.putBit_completes (st := i) (s := s) (s.decision p i j) (by
        simp only [State.hasRoom, cdiv]; omega)
      have := ih s1 (fun c hc => hcs c (List.mem_cons_of_mem _ hc)) (fun d hd => by
        have hk' := h d (List.mem_cons_of_mem _ hd)
        simp only [State.hasRoom, cdiv, State.placed_putBit h1 hi, State.putBit_cfg h1] at hk' ⊢
        by_cases hki : d.1 = i
        · subst hki
          simp only [List.filter_cons, beq_self_eq_true, ↓reduceIte, List.length_cons,
            List.length_append, List.length_nil] at hk' ⊢
          omega
        · have : (i == d.1) = false := by simpa using fun h' => hki h'.symm
          simpa [List.filter_cons, this, hki] using hk')
      obtain ⟨t, ht⟩ := this
      exact ⟨t, by simp only [State.decideCells, bind, Except.bind, h1]; exact ht⟩

theorem State.flushStreams_frame {is : List Nat} {s t : State}
    (h : State.flushStreams is s = .ok t) :
    t = { s with sb := t.sb, slen := t.slen, acc := t.acc } := by
  induction is generalizing s with
  | nil => cases h; rfl
  | cons i is ih =>
      simp only [State.flushStreams, bind, Except.bind] at h
      split at h
      · cases h
      · rename_i s1 h1
        rw [ih h, State.flushBits_frame h1]

/-- `RX.FINISH` fills up each listed stream with zeros to a whole byte (R174). -/
theorem State.placed_flushStreams {is : List Nat} {s t : State}
    (h : State.flushStreams is s = .ok t) (his : ∀ i ∈ is, i < bankSize)
    (hnd : is.Nodup) (i : Nat) :
    t.placed i = if i ∈ is then
        s.placed i ++ List.replicate ((8 - (s.accOf i).cnt.toNat) % 8) false
      else s.placed i := by
  induction is generalizing s with
  | nil => cases h; simp
  | cons k is ih =>
      simp only [State.flushStreams, bind, Except.bind] at h
      split at h
      · cases h
      · rename_i s1 h1
        rw [List.nodup_cons] at hnd
        rw [ih h (fun j hj => his j (List.mem_cons_of_mem _ hj)) hnd.2,
          State.placed_flushBits h1 (his k List.mem_cons_self)]
        have hacc (j : Nat) (hj : j ≠ k) : s1.accOf j = s.accOf j := by
          rcases State.flushBits_cases h1 with ⟨-, rfl⟩ | ⟨-, -, rfl⟩
          · rfl
          · rw [State.accOf_appended _ _ (his k List.mem_cons_self), if_neg hj]
        by_cases hik : i = k
        · subst hik; simp [hnd.1]
        · simp [hik, hacc i hik]

/-- The flushes complete where the bits of every listed stream fit (R174, R161). -/
theorem State.flushStreams_completes (is : List Nat) (s : State)
    (his : ∀ i ∈ is, i < bankSize) (hnd : is.Nodup) (h : ∀ i ∈ is, s.hasRoom i 0) :
    ∃ t, State.flushStreams is s = .ok t := by
  induction is generalizing s with
  | nil => exact ⟨s, rfl⟩
  | cons k is ih =>
      rw [List.nodup_cons] at hnd
      obtain ⟨s1, h1⟩ := State.flushBits_completes (h k List.mem_cons_self)
      obtain ⟨t, ht⟩ := ih s1 (fun j hj => his j (List.mem_cons_of_mem _ hj)) hnd.2 fun j hj => by
        have := h j (List.mem_cons_of_mem _ hj)
        have hjk : j ≠ k := fun hh => hnd.1 (hh ▸ hj)
        rwa [State.hasRoom, State.placed_flushBits h1 (his k List.mem_cons_self), if_neg hjk,
          State.flushBits_cfg h1]
      exact ⟨t, by simp only [State.flushStreams, bind, Except.bind, h1]; exact ht⟩

/-! ### Streams only grow -/

/-- From s to t the streams have only been appended to: no length has fallen, and no byte outside those
appended has changed. -/
structure State.Appends (s t : State) : Prop where
  slen : ∀ st, s.slenOf st ≤ t.slenOf st
  bytes : ∀ st a, ¬ (s.slenOf st ≤ a ∧ a < t.slenOf st) → t.sbRead st a = s.sbRead st a

theorem State.Appends.refl (s : State) : s.Appends s := ⟨fun _ => le_rfl, fun _ _ _ => rfl⟩

theorem State.Appends.trans {s t u : State} (h : s.Appends t) (h' : t.Appends u) : s.Appends u := by
  refine ⟨fun st => (h.slen st).trans (h'.slen st), fun st a ha => ?_⟩
  have h1 := h.slen st
  have h2 := h'.slen st
  rw [h'.bytes st a (by omega), h.bytes st a (by omega)]

theorem State.appends_appended {s : State} {st : Nat} {b : Byte} (hl : s.slenOf st < s.cfg.strmCap) :
    s.Appends (s.appended st b) := by
  by_cases hst : st < bankSize
  · refine ⟨fun i => ?_, fun i a ha => ?_⟩
    · rw [State.slenOf_appended s b hst hl]; split
      · rename_i h; subst h; omega
      · exact le_rfl
    · rw [State.slenOf_appended s b hst hl] at ha
      rw [State.sbRead_appended s b hst, if_neg]
      rintro ⟨rfl, rfl⟩
      rw [if_pos rfl] at ha
      omega
  · refine ⟨fun i => ?_, fun i a _ => ?_⟩
    · rw [State.appended, State.slenOf_setAcc, State.slenOf_setSlen, if_neg fun h => hst h.2]
      exact le_rfl
    · rw [State.appended, State.sbRead_setAcc, State.sbRead_setSlen, State.sbRead_sbWrite,
        if_neg fun h => hst h.2.1]

theorem State.appends_putBit {s t : State} {st : Nat} {v : Bool} (h : s.putBit st v = .ok t) :
    s.Appends t := by
  rcases State.putBit_cases h with ⟨-, hl, rfl⟩ | ⟨-, rfl⟩
  · exact State.appends_appended hl
  · exact ⟨fun _ => le_rfl, fun _ _ _ => rfl⟩

theorem State.appends_flushBits {s t : State} {st : Nat} (h : s.flushBits st = .ok t) :
    s.Appends t := by
  rcases State.flushBits_cases h with ⟨-, rfl⟩ | ⟨-, hl, rfl⟩
  · exact State.Appends.refl t
  · exact State.appends_appended hl

theorem State.appends_decideCells {p : Nat} {cs : List (Nat × Nat)} {s t : State}
    (h : State.decideCells p cs s = .ok t) : s.Appends t := by
  induction cs generalizing s with
  | nil => cases h; exact State.Appends.refl _
  | cons c cs ih =>
      obtain ⟨i, j⟩ := c
      simp only [State.decideCells, bind, Except.bind] at h
      split at h
      · cases h
      · rename_i s1 h1; exact (State.appends_putBit h1).trans (ih h)

theorem State.appends_flushStreams {is : List Nat} {s t : State}
    (h : State.flushStreams is s = .ok t) : s.Appends t := by
  induction is generalizing s with
  | nil => cases h; exact State.Appends.refl _
  | cons i is ih =>
      simp only [State.flushStreams, bind, Except.bind] at h
      split at h
      · cases h
      · rename_i s1 h1; exact (State.appends_flushBits h1).trans (ih h)

end Sys2Proof.Machine
end

