-- ==== Sys2Proof/Laws/Exec.lean ====
section
/-! SUPPORT. Every command as `runCommand` of one body, and what each body may change. -/

namespace Sys2Proof.Machine

open Host (Outcome)

/-- The body of a command: what it does once the common checks have passed. `SRST` has none. -/
def bodyOf : Instr → State → Except ErrCode State
  | .nop => .ok
  | .srst => .ok
  | .geoResolve => geoResolveBody
  | .geoWcount => geoWcountBody
  | .txStart => txStartBody
  | .txWindow => fun s => .ok s.synthWindow
  | .txFinish => fun s => .ok s.finishTx
  | .txEncode => fun s => do
      let s1 ← txStartBody s
      .ok (s1.synthWindows s1.wc.toNat).finishTx
  | .rxStart => rxStartBody
  | .rxSpectrum => fun s => .ok s.takeSpectrum
  | .rxDetect => rxDetectBody
  | .rxFinish => rxFinishBody
  | .rxDecode => fun s => do
      let s1 ← rxStartBody s
      let s2 ← detectWindows (s1.takeSpectra s1.wc.toNat) s1.wc.toNat
      rxFinishBody s2
  | .bitGet st => bitGetBody st.toNat
  | .bitPut st v => fun s => s.putBit st.toNat v
  | .bitFlush st => fun s => s.flushBits st.toNat
  | .bitClr st => fun s => .ok ((s.setSlen st.toNat 0).setAcc st.toNat Acc.clear)

/-- Every command but `SRST` is `runCommand` of its body. -/
theorem exec_eq {i : Instr} (h : i ≠ .srst) (s : State) : exec i s = runCommand i (bodyOf i) s := by
  cases i <;> first | rfl | exact absurd rfl h

/-! ### What each body may change -/

theorem geoResolveBody_cases {s t : State} (h : geoResolveBody s = .ok t) :
    s.geoParams.check s.cfg = none ∧ t = (s.setGeometry s.geoParams).setGeov true := by
  simp only [geoResolveBody] at h
  split at h
  · cases h
  · rename_i hc; cases h; exact ⟨hc, rfl⟩

theorem geoWcountBody_cases {s t : State} (h : geoWcountBody s = .ok t) :
    s.lengthsFit = true ∧ t = { s with wc := BitVec.ofNat 32 s.payloadWindows } := by
  simp only [geoWcountBody] at h
  split at h
  · rename_i hl; cases h; exact ⟨hl, rfl⟩
  · cases h

/-- Everything the body of `TX.START` can do (41_tx_synth.md R131). -/
theorem txStartBody_eq (s : State) : txStartBody s =
    if s.lengthsFit ∧ s.payloadWindows * s.spf.toNat ≤ s.cfg.pcmCap then .ok s.txStarted
    else .error .cap := by
  simp only [txStartBody]
  by_cases h1 : s.lengthsFit = true
  · by_cases h2 : s.payloadWindows * s.spf.toNat ≤ s.cfg.pcmCap
    · rw [if_pos h1, if_pos h2, if_pos ⟨h1, h2⟩]; rfl
    · rw [if_pos h1, if_neg h2, if_neg fun h => h2 h.2]
  · rw [if_neg h1, if_neg fun h => h1 h.1]

theorem txStartBody_cases {s t : State} (h : txStartBody s = .ok t) :
    s.lengthsFit = true ∧ s.payloadWindows * s.spf.toNat ≤ s.cfg.pcmCap ∧ t = s.txStarted := by
  rw [txStartBody_eq] at h
  split at h
  · rename_i hc; cases h; exact ⟨hc.1, hc.2, rfl⟩
  · cases h

/-- Everything the body of `RX.START` can do (42_rx_spectro_detect.md R161). -/
theorem rxStartBody_eq (s : State) : rxStartBody s =
    if s.pcmlen.toNat ≤ s.cfg.pcmCap ∧
      cdiv (s.receivedWindows * s.bpb.toNat) 8 ≤ s.cfg.strmCap then .ok s.rxStarted
    else .error .cap := by
  simp only [rxStartBody]
  by_cases h1 : s.pcmlen.toNat ≤ s.cfg.pcmCap
  · by_cases h2 : cdiv (s.receivedWindows * s.bpb.toNat) 8 ≤ s.cfg.strmCap
    · rw [if_pos h1, if_pos h2, if_pos ⟨h1, h2⟩]; rfl
    · rw [if_pos h1, if_neg h2, if_neg fun h => h2 h.2]
  · rw [if_neg h1, if_neg fun h => h1 h.1]

theorem rxStartBody_cases {s t : State} (h : rxStartBody s = .ok t) :
    s.pcmlen.toNat ≤ s.cfg.pcmCap ∧ cdiv (s.receivedWindows * s.bpb.toNat) 8 ≤ s.cfg.strmCap ∧
      t = s.rxStarted := by
  rw [rxStartBody_eq] at h
  split at h
  · rename_i hc; cases h; exact ⟨hc.1, hc.2, rfl⟩
  · cases h

/-- What `TX.WINDOW` n times over may change. -/
theorem State.synthWindows_frame (s : State) (n : Nat) :
    s.synthWindows n = { s with
      phase := (s.synthWindows n).phase, wave := (s.synthWindows n).wave
      amax := (s.synthWindows n).amax, widx := (s.synthWindows n).widx } := by
  apply State.ext_fields <;> simp

@[simp] theorem State.synthWindows_widx (s : State) (n : Nat) :
    (s.synthWindows n).widx = s.widx + BitVec.ofNat 32 n := by
  induction n with
  | zero => simp [State.synthWindows]
  | succ n ih =>
      rw [State.synthWindows, State.synthWindow_widx, ih, BitVec.ofNat_add, ← BitVec.add_assoc]
      rfl

/-- What `RX.SPECTRUM` n times over may change. -/
theorem State.takeSpectra_frame (s : State) (n : Nat) :
    s.takeSpectra n = { s with
      mag := (s.takeSpectra n).mag, mmax := (s.takeSpectra n).mmax
      sidx := (s.takeSpectra n).sidx } := by
  apply State.ext_fields <;> simp

@[simp] theorem State.takeSpectra_sidx (s : State) (n : Nat) :
    (s.takeSpectra n).sidx = s.sidx + BitVec.ofNat 32 n := by
  induction n with
  | zero => simp [State.takeSpectra]
  | succ n ih =>
      rw [State.takeSpectra, State.takeSpectrum_sidx, ih, BitVec.ofNat_add, ← BitVec.add_assoc]
      rfl

/-- Everything `RX.DETECT` can do when it does not raise. -/
theorem rxDetectBody_cases {s t : State} (h : rxDetectBody s = .ok t) :
    ∃ u, State.decideCells s.widx.toNat s.cells s = .ok u ∧ t = { u with widx := s.widx + 1 } := by
  simp only [rxDetectBody, bind, Except.bind] at h
  split at h
  · cases h
  · rename_i u hu; cases h; exact ⟨u, hu, rfl⟩

theorem rxDetectBody_frame {s t : State} (h : rxDetectBody s = .ok t) :
    t = { s with sb := t.sb, slen := t.slen, acc := t.acc, widx := s.widx + 1 } := by
  obtain ⟨u, hu, rfl⟩ := rxDetectBody_cases h
  have hf := State.decideCells_frame hu
  apply State.ext_fields <;> dsimp only <;> rw [hf]

/-- Everything `RX.FINISH` can do when it does not raise. -/
theorem rxFinishBody_cases {s t : State} (h : rxFinishBody s = .ok t) :
    ∃ u, State.flushStreams (List.range s.nstr) s = .ok u ∧
      t = { u with mag := [], status := { u.status with
        rxsil := Num.sign s.mmax != 1, mode := .idle } } := by
  simp only [rxFinishBody, bind, Except.bind] at h
  split at h
  · cases h
  · rename_i u hu; cases h; exact ⟨u, hu, rfl⟩

theorem rxFinishBody_frame {s t : State} (h : rxFinishBody s = .ok t) :
    t = { s with
      sb := t.sb, slen := t.slen, acc := t.acc, mag := []
      status := { s.status with rxsil := Num.sign s.mmax != 1, mode := .idle } } := by
  obtain ⟨u, hu, rfl⟩ := rxFinishBody_cases h
  have hf := State.flushStreams_frame hu
  apply State.ext_fields <;> dsimp only <;> rw [hf]

/-- What `RX.DETECT` n times over may change. -/
theorem detectWindows_frame {s t : State} {n : Nat} (h : detectWindows s n = .ok t) :
    t = { s with sb := t.sb, slen := t.slen, acc := t.acc, widx := s.widx + BitVec.ofNat 32 n } := by
  induction n generalizing t with
  | zero => cases h; simp
  | succ n ih =>
      simp only [detectWindows, bind, Except.bind] at h
      split at h
      · cases h
      · rename_i u hu
        have hf := rxDetectBody_frame h
        have hu' := ih hu
        apply State.ext_fields <;> dsimp only <;> rw [hf] <;> dsimp only <;> rw [hu']
        rw [BitVec.ofNat_add, ← BitVec.add_assoc]
        rfl

/-- Everything `TX.ENCODE` can do when it does not raise. -/
theorem txEncodeBody_cases {s t : State} (h : bodyOf .txEncode s = .ok t) :
    ∃ u, txStartBody s = .ok u ∧ t = (u.synthWindows u.wc.toNat).finishTx := by
  simp only [bodyOf, bind, Except.bind] at h
  split at h
  · cases h
  · rename_i u hu; cases h; exact ⟨u, hu, rfl⟩

/-- Everything `RX.DECODE` can do when it does not raise. -/
theorem rxDecodeBody_cases {s t : State} (h : bodyOf .rxDecode s = .ok t) :
    ∃ u v, rxStartBody s = .ok u ∧
      detectWindows (u.takeSpectra u.wc.toNat) u.wc.toNat = .ok v ∧ rxFinishBody v = .ok t := by
  simp only [bodyOf, bind, Except.bind] at h
  split at h
  · cases h
  · rename_i u hu
    split at h
    · cases h
    · rename_i v hv; exact ⟨u, v, hu, hv, h⟩

/-- What `TX.ENCODE` may change. -/
theorem txEncodeBody_frame {s t : State} (h : bodyOf .txEncode s = .ok t) :
    t = { s with
      wc := t.wc, widx := t.wc, sidx := 0, phase := t.phase, wave := [], amax := t.amax
      pcm := t.pcm, pcmlen := t.pcmlen
      status := { s.status with txsil := t.status.txsil, mode := .idle } } := by
  obtain ⟨u, hu, rfl⟩ := txEncodeBody_cases h
  obtain ⟨-, -, rfl⟩ := txStartBody_cases hu
  apply State.ext_fields <;> simp [-BitVec.toNat_ofNat]

/-- What `RX.DECODE` may change. -/
theorem rxDecodeBody_frame {s t : State} (h : bodyOf .rxDecode s = .ok t) :
    t = { s with
      wc := t.wc, widx := t.wc, sidx := t.wc, slen := t.slen, acc := t.acc, sb := t.sb
      mag := [], mmax := t.mmax
      status := { s.status with rxsil := t.status.rxsil, mode := .idle } } := by
  obtain ⟨u, v, hu, hv, ht⟩ := rxDecodeBody_cases h
  obtain ⟨-, -, hu⟩ := rxStartBody_cases hu
  have hv' := detectWindows_frame hv
  have ht' := rxFinishBody_frame ht
  apply State.ext_fields <;> dsimp only <;> rw [ht'] <;> dsimp only <;> rw [hv'] <;>
    simp [hu, -BitVec.toNat_ofNat]

/-- What no body ever changes. -/
theorem bodyOf_keeps {i : Instr} {s t : State} (h : bodyOf i s = .ok t) :
    t.cfg = s.cfg ∧ t.params = s.params ∧ t.errcode = s.errcode ∧ t.errcmd = s.errcmd ∧ t.bitix = s.bitix ∧
      t.boots = s.boots ∧ t.host = s.host ∧ t.status.err = s.status.err ∧
      t.status.wdrop = s.status.wdrop := by
  cases i
  case geoResolve => obtain ⟨-, rfl⟩ := geoResolveBody_cases h; simp
  case geoWcount => obtain ⟨-, rfl⟩ := geoWcountBody_cases h; simp
  case txStart => obtain ⟨-, -, rfl⟩ := txStartBody_cases h; simp
  case txEncode => rw [txEncodeBody_frame h]; simp
  case rxStart => obtain ⟨-, -, rfl⟩ := rxStartBody_cases h; simp
  case rxDetect => rw [rxDetectBody_frame h]; simp
  case rxFinish => rw [rxFinishBody_frame h]; simp
  case rxDecode => rw [rxDecodeBody_frame h]; simp
  case bitGet => 
    simp only [bodyOf, bitGetBody] at h
    split at h <;> cases h
    simp
  case bitPut => rw [State.putBit_frame h]; simp
  case bitFlush => rw [State.flushBits_frame h]; simp
  all_goals cases h; simp

end Sys2Proof.Machine
end

