-- ==== Sys2Proof/Laws/Geometry.lean ====
section
/-! SUPPORT. The geometry on naturals, as the machine computes it, is the geometry over the rationals
(40_geometry.md R113 to R121). -/

namespace Sys2Proof.Machine

/-- `cdiv` is the ceiling of the quotient (00_scope.md R17). -/
theorem cdiv_eq_ceil (a : ℕ) {b : ℕ} (hb : 0 < b) : (cdiv a b : ℤ) = ⌈(a : ℚ) / b⌉ := by
  rw [eq_comm, Int.ceil_eq_iff]
  have hb' : (0 : ℚ) < b := by exact_mod_cast hb
  have h1 := Nat.div_add_mod (a + b - 1) b
  have h2 := Nat.mod_lt (a + b - 1) hb
  rw [cdiv]
  set q := (a + b - 1) / b
  have h4 : a ≤ b * q := by omega
  have h5 : b * q < a + b := by omega
  constructor
  · rw [lt_div_iff₀ hb']
    have : ((b * q : ℕ) : ℚ) < ((a + b : ℕ) : ℚ) := by exact_mod_cast h5
    push_cast at *; linarith
  · rw [div_le_iff₀ hb']
    have : (a : ℚ) ≤ ((b * q : ℕ) : ℚ) := by exact_mod_cast h4
    push_cast at *; linarith

theorem div_eq_floor (a b : ℕ) : ((a / b : ℕ) : ℤ) = ⌊(a : ℚ) / b⌋ := by
  rw [Int.natCast_div]
  exact (Rat.floor_intCast_div_natCast (a : ℤ) b).symm ▸ by simp

variable {c : Config} {p : Params}

theorem Params.Derivable.fs_pos (h : p.Derivable c) : 0 < p.fs := by
  have := h.window
  omega

/-- R114 on naturals. -/
theorem Params.width_eq (h : p.Derivable c) : p.width = p.bandw := by
  have h1 := h.streams.1
  have h2 := h.bounds
  rw [Params.width, Params.bandw, cdiv_eq_ceil _ (by omega), Params.span, Nat.cast_sub h2.le]

/-- R117 on naturals. -/
theorem Params.binsPerBand_eq (h : p.Derivable c) : p.binsPerBand = p.bpb := by
  have h1 := h.fs_pos
  have h2 := h.window.1
  have h3 := h.decim
  rw [Params.binsPerBand, Params.bpb, div_eq_floor, Params.width_eq h, Params.spacing, Params.df]
  congr 1
  have : (p.fs : ℚ) ≠ 0 := by positivity
  have : (p.nfft : ℚ) ≠ 0 := by positivity
  have : (p.k : ℚ) ≠ 0 := by positivity
  push_cast; field_simp

/-- R117 on naturals. -/
theorem Params.binsAvailable_eq (h : p.Derivable c) : p.binsAvailable = p.avail := by
  have h1 := h.fs_pos
  have h2 := h.window.1
  have h3 := h.decim
  rw [Params.binsAvailable, Params.avail, div_eq_floor, Params.spacing, Params.df]
  congr 1
  have : (p.fs : ℚ) ≠ 0 := by positivity
  have : (p.nfft : ℚ) ≠ 0 := by positivity
  have : (p.k : ℚ) ≠ 0 := by positivity
  rw [Params.span]; push_cast [Nat.cast_sub h.bounds.le]; field_simp

/-- R118 on naturals. -/
theorem Params.firstBin_eq (h : p.Derivable c) (i : ℕ) : p.firstBin i = p.nb i := by
  have h1 := h.fs_pos
  have h2 := h.window.1
  rw [Params.firstBin, Params.nb, cdiv_eq_ceil _ h1, Params.width_eq h, Params.df]
  congr 1
  have : (p.fs : ℚ) ≠ 0 := by positivity
  have : (p.nfft : ℚ) ≠ 0 := by positivity
  push_cast; field_simp

/-- `NMAX` of R113 on naturals. -/
theorem Params.lastBin_eq (h : p.Derivable c) (hb : 1 ≤ p.bpb) : p.lastBin = p.nmax := by
  rw [Params.lastBin, Params.nmax, Params.firstBin_eq h, Params.binsPerBand_eq h]
  push_cast [hb]
  ring

/-- Checks 6 to 8 of R112 on naturals. -/
theorem Params.Valid.nat (h : p.Valid c) : (1 ≤ p.bpb ∧ p.n ≤ p.avail ∧ p.bpb * p.n ≤ p.avail) ∧
    (1 ≤ p.nmin ∧ 2 * p.nmax < p.nfft) ∧ p.bpb * p.n ≤ c.phaseCap := by
  obtain ⟨hd, f, g, k⟩ := h
  rw [Params.EnoughBins, Params.binsPerBand_eq hd, Params.binsAvailable_eq hd] at f
  have f : 1 ≤ p.bpb ∧ p.n ≤ p.avail ∧ p.bpb * p.n ≤ p.avail := by exact_mod_cast f
  rw [Params.InRange, Params.lastBin_eq hd f.1, Params.firstBin_eq hd] at g
  rw [Params.FitsPhases, Params.binsPerBand_eq hd] at k
  exact ⟨f, by exact_mod_cast g, by exact_mod_cast k⟩

/-- The checks pass exactly where checks 1 to 8 of R112 hold over the rationals. -/
theorem Params.check_iff (c : Config) (p : Params) : p.check c = none ↔ p.Valid c := by
  constructor
  · intro h
    simp only [Params.check] at h
    split at h; cases h
    split at h; cases h
    split at h; cases h
    split at h; cases h
    split at h; cases h
    split at h; cases h
    split at h; cases h
    split at h; cases h
    rename_i a b w d e f g k
    simp only [not_not] at *
    have hd : p.Derivable c := ⟨a, b, w, d, e⟩
    refine ⟨hd, ?_, ?_, ?_⟩
    · rw [Params.EnoughBins, Params.binsPerBand_eq hd, Params.binsAvailable_eq hd]
      exact_mod_cast f
    · rw [Params.InRange, Params.lastBin_eq hd f.1, Params.firstBin_eq hd]; exact_mod_cast g
    · rw [Params.FitsPhases, Params.binsPerBand_eq hd]; exact_mod_cast k
  · intro h
    obtain ⟨f, g, k⟩ := h.nat
    simp [Params.check, h.bounds, h.fsym, h.window, h.decim, h.streams, f, g, k]

theorem Params.nb_mono (p : Params) {i j : ℕ} (h : i ≤ j) : p.nb i ≤ p.nb j := by
  unfold Params.nb cdiv
  apply Nat.div_le_div_right
  have h1 : i * p.bandw ≤ j * p.bandw := Nat.mul_le_mul_right _ h
  have h2 : (p.flo + i * p.bandw) * p.nfft ≤ (p.flo + j * p.bandw) * p.nfft :=
    Nat.mul_le_mul_right _ (by omega)
  omega

/-- The derived values fit their registers (R121, R124). -/
theorem Params.fits (h : p.Valid c) (a : p.fs < 2 ^ 32) (b : p.nfft < 2 ^ 32) (c : p.fhi < 2 ^ 32) :
    p.spf < 2 ^ 32 ∧ p.bandw < 2 ^ 32 ∧ p.bpb < 2 ^ 32 ∧ p.avail < 2 ^ 32 ∧
      p.nmin < 2 ^ 32 ∧ p.nmax < 2 ^ 32 ∧ ∀ i < p.n, p.nb i < 2 ^ 32 := by
  have hd := h.toDerivable
  have hfs := hd.fs_pos
  obtain ⟨-, hr, -⟩ := h.nat
  have hnb : ∀ i < p.n, p.nb i < 2 ^ 32 := by
    intro i hi
    have h1 := p.nb_mono (show i ≤ p.n - 1 by omega)
    have h2 : p.nb (p.n - 1) ≤ p.nmax := by simp [Params.nmax]
    omega
  have hw : p.bandw ≤ p.span := by
    have h1 := hd.streams.1
    rw [Params.bandw, cdiv]
    apply Nat.div_le_of_le_mul
    have h2 : 1 ≤ p.span := by have := hd.bounds; unfold Params.span; omega
    nlinarith [Nat.sub_le (p.span + p.n) 1, Nat.sub_add_cancel (show 1 ≤ p.span + p.n by omega)]
  have hsp : p.span < 2 ^ 32 := by unfold Params.span; omega
  have hnf : p.nfft ≤ p.fs := by
    have h1 := hd.window
    have h2 := hd.fsym
    nlinarith
  have hdv : ∀ x, x * p.nfft / (p.fs * p.k) ≤ x := by
    intro x
    apply Nat.div_le_of_le_mul
    have h1 := hd.decim
    have h2 : p.nfft ≤ p.fs * p.k := by nlinarith
    nlinarith
  refine ⟨?_, by omega, ?_, ?_, hnb 0 (by have := hd.streams; omega), by omega, hnb⟩
  · exact lt_of_le_of_lt (Nat.div_le_self _ _) a
  · exact lt_of_le_of_lt (hdv _) (by omega)
  · exact lt_of_le_of_lt (hdv _) (by omega)

/-- A slice holds at least one transform (R115). -/
theorem Params.nfft_le_spf (h : p.Derivable c) : p.nfft ≤ p.spf := by
  have h1 := h.window.2
  rw [Params.spf, Nat.le_div_iff_mul_le h.fsym]
  omega

theorem State.geoParams_lt (s : State) : s.geoParams.fs < 2 ^ 32 ∧ s.geoParams.nfft < 2 ^ 32 ∧
    s.geoParams.fhi < 2 ^ 32 := by
  simp only [State.geoParams]
  omega

/-- What a resolved geometry gives every rule that reads it (R112, R115, R119). -/
theorem State.Resolved.facts {s : State} (h : s.Resolved) :
    0 < s.nstr ∧ s.nstr ≤ s.cfg.maxStreams ∧ 0 < s.bpb.toNat ∧ 0 < s.nfft ∧
      s.nfft ≤ s.spf.toNat ∧ 0 < s.kdec := by
  have hv := (Params.check_iff _ _).mp h.check
  have hd := hv.toDerivable
  refine ⟨hd.streams.1, hd.streams.2, ?_, hd.window.1, ?_, hd.decim⟩
  · rw [h.bpb]; exact hv.nat.1.1
  · rw [h.spf]; exact Params.nfft_le_spf hd

end Sys2Proof.Machine
end

