-- ==== Sys2Proof/Tests/Slice0.lean ====
section
/-! SUPPORT. Tests: words written out from 30_encoding.md R91 and R92, one step per command with values
from 95_test_vectors.md (the vector is named at each test), and for every statement with hypotheses a
state that meets them. -/

namespace Sys2Proof.Tests

open Sys2Proof Sys2Proof.Machine
open Host (Outcome)

-- One theorem after another: each `decide` below takes a thread of its own otherwise.
set_option Elab.async false

/-! ## Well-formed commands -/

/-- The one check of `Instr.wf`, refused by a term of each command that has a stream operand. -/
theorem test_wf_stream_bound :
    (Instr.bitGet 15#8).wf .default = true ∧ (Instr.bitGet 16#8).wf .default = false ∧
    (Instr.bitPut 16#8 true).wf .default = false ∧ (Instr.bitFlush 255#8).wf .default = false ∧
    (Instr.bitClr 16#8).wf .default = false := by decide

/-! ## Words, bit by bit: op in 31:24, s in 23:16, v in bit 0 -/

theorem test_word_nop : decode .default 0b00000000000000000000000000000000#32 = .ok .nop := by decide
theorem test_word_srst : decode .default 0b00000001000000000000000000000000#32 = .ok .srst := by decide
theorem test_word_geoResolve :
    decode .default 0b00010000000000000000000000000000#32 = .ok .geoResolve := by decide
theorem test_word_geoWcount :
    decode .default 0b00010001000000000000000000000000#32 = .ok .geoWcount := by decide
theorem test_word_txStart : decode .default 0b00100000000000000000000000000000#32 = .ok .txStart := by decide
theorem test_word_txWindow : decode .default 0b00100001000000000000000000000000#32 = .ok .txWindow := by decide
theorem test_word_txFinish : decode .default 0b00100010000000000000000000000000#32 = .ok .txFinish := by decide
theorem test_word_txEncode : decode .default 0b00100011000000000000000000000000#32 = .ok .txEncode := by decide
theorem test_word_rxStart : decode .default 0b00110000000000000000000000000000#32 = .ok .rxStart := by decide
theorem test_word_rxSpectrum :
    decode .default 0b00110001000000000000000000000000#32 = .ok .rxSpectrum := by decide
theorem test_word_rxDetect : decode .default 0b00110010000000000000000000000000#32 = .ok .rxDetect := by decide
theorem test_word_rxFinish : decode .default 0b00110011000000000000000000000000#32 = .ok .rxFinish := by decide
theorem test_word_rxDecode : decode .default 0b00110100000000000000000000000000#32 = .ok .rxDecode := by decide
theorem test_word_bitGet :
    decode .default 0b01000000000010100000000000000000#32 = .ok (.bitGet 10#8) := by decide
theorem test_word_bitPut :
    decode .default 0b01000001000001010000000000000001#32 = .ok (.bitPut 5#8 true) ∧
    decode .default 0b01000001000001010000000000000000#32 = .ok (.bitPut 5#8 false) := by decide
theorem test_word_bitFlush :
    decode .default 0b01000010000000110000000000000000#32 = .ok (.bitFlush 3#8) := by decide
theorem test_word_bitClr :
    decode .default 0b01000011000011110000000000000000#32 = .ok (.bitClr 15#8) := by decide

/-- V62: illegal words, by the reason. -/
theorem test_illegal_words :
    [0x02000000#32, 0x12000000#32, 0x24000000#32, 0x35000000#32, 0x44000000#32, 0xFF000000#32].all
      (fun w => decode .default w == .error .unassignedOp) = true ∧
    [0x10000001#32, 0x00010000#32, 0x20800000#32, 0x40000001#32, 0x42008000#32, 0x41000100#32].all
      (fun w => decode .default w == .error .nonzeroReserved) = true ∧
    decode .default 0x40100000#32 = .error .noSuchStream := by decide

/-- The host's table word is the command word. -/
theorem test_table_word :
    decodeTableWord 32 0x41050001 = some (.bitPut 5#8 true) ∧
    decodeTableWord 32 0x34000000 = some .rxDecode ∧ decodeTableWord 32 0x40100000 = none := by
  decide

/-! ## One step -/

/-- The state after a command; the state itself if it stopped. -/
def after (i : Instr) (s : State) : State :=
  match exec i s with
  | .next t => t
  | .fault _ => s
  | .refused _ => s

theorem exec_after (i : Instr) (s : State) (h : ∃ t, exec i s = .next t) :
    exec i s = .next (after i s) := by
  obtain ⟨t, h⟩ := h; simp [after, h]

/-- A state with these parameters written. -/
def withParams (ps : Vector Word 8) : State := { State.reset with params := ps }

/-- The geometry V10: 8000, 64, 80, 200, 1000, 1, 2 and -20 dB. -/
def v10 : State := withParams #v[8000, 64, 80, 200, 1000, 1, 2, 0xFFFFEC00]

/-- The geometry V23 ("micro4") resolved: `SPF` 6, `BPB` 1, `NB` [1], one stream, -20 dB. -/
def micro : State :=
  { withParams #v[12, 2, 4, 3, 6, 1, 1, 0xFFFFEC00] with
    status := { Status.clear with geov := true }
    spf := 6, bandw := 3, bpb := 1, avail := 1, nmin := 1, nmax := 1
    nb := tabulate fun i => if i = 0 then 1 else 0 }

/-- micro with these bytes as stream 0. -/
def withStream (s : State) (bs : List Byte) : State :=
  { s with slen := s.slen.setIfInBounds 0 (BitVec.ofNat 32 bs.length)
           sb := s.sb.setIfInBounds 0 (Memory.load [] bs) }

/-- micro with these samples received. -/
def withSamples (s : State) (xs : List Sample) : State :=
  { s with pcm := Memory.load [] xs, pcmlen := BitVec.ofNat 32 xs.length }

/-- micro in a run. -/
def inMode (s : State) (m : Mode) (wc : Word) : State := { s.setMode m with wc := wc }

/-- V60: `NOP` with `STATUS` = 0x10A. -/
theorem test_nop :
    statusWord (after .nop ((inMode micro .tx 8).setDone true)).status = 0x10A := by decide +kernel

/-- V61: the error state is left by `SRST` and by no other command. -/
theorem test_srst :
    statusWord (after .srst (micro.raise .seq 0x21000000)).status = 0 ∧
    (after .srst (micro.raise .seq 0x21000000)).errcode = 0 ∧
    (after .geoResolve (micro.raise .seq 0x21000000)).errcode = 9 := by decide +kernel

/-- V10. -/
theorem test_geoResolve :
    let t := after .geoResolve v10
    [t.spf, t.bandw, t.bpb, t.avail, t.nmin, t.nmax] = [125, 400, 4, 8, 2, 9] ∧
    (List.range 3).map t.nbOf = [2, 6, 0] ∧ statusWord t.status = 0x00A := by decide +kernel

/-- V14, V16, V17, V21: the code of the check that fails. -/
theorem test_geoResolve_errors :
    ([#v[8000, 64, 80, 200, 1000, 1, 9, 0], #v[8000, 64, 80, 200, 999, 1, 2, 0],
      #v[8000, 64, 80, 200, 1000, 0, 2, 0], #v[8000, 64, 80, 200, 1000, 1, 17, 0],
      #v[8000, 64, 80, 3300, 4100, 1, 2, 0], #v[8000, 100, 80, 200, 1000, 1, 2, 0]].map fun ps =>
        (after .geoResolve (withParams ps)).errcode) = [6, 6, 4, 5, 7, 3] := by decide +kernel

/-- V28b: `BPB` = 3, lengths 2 and 1. -/
theorem test_geoWcount :
    (after .geoWcount { micro with
      bpb := 3, params := micro.params.setIfInBounds 6 2
      slen := (micro.slen.setIfInBounds 0 2).setIfInBounds 1 1 }).wc = 6 := by decide +kernel

/-- V28f. -/
theorem test_geoWcount_cap :
    (after .geoWcount { micro with slen := micro.slen.setIfInBounds 0 1048577 }).errcode = 8 := by
  decide +kernel

/-- V30: `TX.START`. -/
theorem test_txStart :
    let t := after .txStart (withStream micro [0xC0])
    t.wc = 8 ∧ t.widx = 0 ∧ statusWord t.status = 0x10A := by decide +kernel

/-- V30: window 0 is sinT(t mod 4, 4) = 0, 1, 0, -1, 0, 1, and the phase after it is 2. -/
theorem test_txWindow :
    let t := after .txWindow (inMode (withStream micro [0xC0]) .tx 8)
    (t.wave.map Num.sign) = [0, 1, 0, -1, 0, 1] ∧ t.phaseOf 0 0 = 2 ∧ t.widx = 1 ∧
    Num.sign (Num.sub t.amax (Num.ofInt 1)) = 0 := by decide +kernel

/-- R138: a waveform 0, 1, -1, … is emitted at full scale. -/
theorem test_txFinish :
    let t := after .txFinish { inMode micro .tx 1 with
      widx := 1, wave := [Num.zero, Num.ofInt 1, Num.ofInt (-1), Num.zero, Num.zero, Num.zero]
      amax := Num.ofInt 1 }
    (List.range 6).map (fun a => t.pcmRead a) = [0, 32767, -32767, 0, 0, 0] ∧
    t.pcmlen = 6 ∧ statusWord t.status = 0x00A := by decide +kernel

/-- V32: samples that are not integers, by the default rounding. -/
theorem test_quantise :
    ([1, 2, 3, 7, 13].map fun t => quantise .default (Num.ofInt 1) (Num.sinT (3 * t % 80) 80)) =
      [7649, 14876, 21280, 32666, 2571] := by decide +kernel

/-- V30b in a machine with 8-bit samples and two streams: full scale is 2^7 - 1, and `BIT.GET 2` is no
command. -/
theorem test_other_sizes :
    let c : Config := { sampleBits := 8, maxStreams := 2 }
    let t := after .txEncode { withStream micro [0xA0] with cfg := c }
    (List.range 6).map t.pcmRead = [0, 127, 0, -127, 0, 127] ∧ t.cfg = c ∧
    decode c 0x40020000#32 = .error .noSuchStream ∧ decode c 0x40010000#32 = .ok (.bitGet 1#8) := by
  decide +kernel

/-- V30b: the phase is held while a tone is off (stream [0xA0]). -/
theorem test_txEncode :
    let t := after .txEncode (withStream micro [0xA0])
    (List.range 18).map (fun a => t.pcmRead a) =
      [0, 32767, 0, -32767, 0, 32767, 0, 0, 0, 0, 0, 0, 0, -32767, 0, 32767, 0, -32767] ∧
    t.pcmlen = 48 ∧ t.widx = 8 ∧ statusWord t.status = 0x00A := by decide +kernel

/-- R161: `SPF` = 6, `PCMLEN` = 7 gives `WC` = 2. -/
theorem test_rxStart :
    let t := after .rxStart { micro with pcmlen := 7 }
    t.wc = 2 ∧ statusWord t.status = 0x20A := by decide +kernel

/-- V40: slice 0 of 8 is transformed from sample 1; its magnitudes are 0, 65534, 0, 65534. -/
theorem test_rxSpectrum :
    let t := after .rxSpectrum (inMode (withSamples micro [0, 32767, 0, -32767, 0, 32767]) .rx 8)
    (List.range 4).map (fun n => Num.sign (Num.sub (t.magOf 0 n)
      (Num.ofInt (if n % 2 = 1 then 65534 ^ 2 else 0)))) = [0, 0, 0, 0] ∧ t.sidx = 1 := by
  decide +kernel

/-- V45: a cell at exactly the threshold, -20 dB, is absent; 1/256 dB lower it is present. -/
theorem test_rxDetect_boundary :
    let s := { inMode micro .rx 1 with
      sidx := 1, mag := [[Num.zero, Num.ofInt 4]], mmax := Num.ofInt 400 }
    (after .rxDetect s).accOf 0 = ⟨0, 1⟩ ∧
    (after .rxDetect (s.setParam 7 0xFFFFEBFF)).accOf 0 = ⟨1, 1⟩ := by decide +kernel

/-- R174: the ninth bit is flushed as the top bit of its byte. -/
theorem test_rxFinish :
    let t := after .rxFinish { inMode micro .rx 0 with
      slen := micro.slen.setIfInBounds 0 1, acc := micro.acc.setIfInBounds 0 ⟨1, 1⟩ }
    t.sbRead 0 1 = 0x80 ∧ t.slenOf 0 = 2 ∧ statusWord t.status = 0x02A := by decide +kernel

/-- V45, P5: `PCM` = 0 10 0 -10 0 10 0 1 0 -1 0 1 decodes to 0x80 at -20 dB. -/
theorem test_rxDecode :
    let t := after .rxDecode (withSamples micro [0, 10, 0, -10, 0, 10, 0, 1, 0, -1, 0, 1])
    t.wc = 2 ∧ t.widx = 2 ∧ t.slenOf 0 = 1 ∧ t.sbRead 0 0 = 0x80 ∧
    statusWord t.status = 0x00A := by decide +kernel

/-- V46 (c): no sample at all. -/
theorem test_rxDecode_empty :
    let t := after .rxDecode micro
    t.wc = 0 ∧ t.slenOf 0 = 0 ∧ statusWord t.status = 0x02A := by decide +kernel

/-- V50: 0xA5, 0x0F: bits 0, 3, 12 and 16. -/
theorem test_bitGet :
    ([0, 3, 12, 16].map fun b =>
      (after (.bitGet 0) { withStream micro [0xA5, 0x0F] with bitix := b }).bitv) =
      [true, false, true, false] := by decide +kernel

/-- V51: the third bit, and the eighth. -/
theorem test_bitPut :
    (after (.bitPut 0 true) (micro.setAcc 0 ⟨2, 2⟩)).accOf 0 = ⟨5, 3⟩ ∧
    (after (.bitPut 0 true) (micro.setAcc 0 ⟨0x52, 7⟩)).sbRead 0 0 = 0xA5 ∧
    (after (.bitPut 0 true) (micro.setAcc 0 ⟨0x52, 7⟩)).slenOf 0 = 1 := by decide +kernel

/-- V55: a full buffer. -/
theorem test_bitPut_cap :
    let t := after (.bitPut 0 true) ((micro.setAcc 0 ⟨0x52, 7⟩).setSlen 0 1048576)
    t.errcode = 8 ∧ t.errcmd = 0x41000001 ∧ t.accOf 0 = ⟨0x52, 7⟩ := by decide +kernel

/-- V52. -/
theorem test_bitFlush :
    (after (.bitFlush 0) (micro.setAcc 0 ⟨5, 3⟩)).sbRead 0 0 = 0xA0 ∧
    (after (.bitFlush 0) micro).slenOf 0 = 0 := by decide +kernel

/-- V54. -/
theorem test_bitClr :
    let t := after (.bitClr 3) ((micro.setAcc 3 ⟨2, 2⟩).setSlen 3 7)
    t.slenOf 3 = 0 ∧ t.accOf 3 = ⟨0, 0⟩ := by decide +kernel

/-- A step takes the host's word (the host's fetch). -/
theorem test_step_fetches :
    (match step (State.reset.withFetchWord 32 0x10000000) with
      | .next t => t.errcode
      | _ => 0) = 1 := by decide +kernel

/-! ## States that meet the hypotheses of the statements -/

theorem next_after (i : Instr) (s : State) (h : (match exec i s with
    | .next _ => true
    | .fault _ => false
    | .refused _ => false) = true) : exec i s = .next (after i s) := by
  unfold after
  cases he : exec i s with
  | next t => rfl
  | fault r => rw [he] at h; simp at h
  | refused r => rw [he] at h; simp at h

theorem resolvedLike {s t : State} (h : s.Resolved) (hg : t.geoParams = s.geoParams)
    (h1 : t.spf = s.spf) (h2 : t.bandw = s.bandw) (h3 : t.bpb = s.bpb) (h4 : t.avail = s.avail)
    (h5 : t.nmin = s.nmin) (h6 : t.nmax = s.nmax) (h7 : t.nb = s.nb) (hc : t.cfg = s.cfg) :
    t.Resolved := by
  have hn : t.nstr = s.nstr := by simp only [State.nstr, hg]
  obtain ⟨c, a1, a2, a3, a4, a5, a6, a7⟩ := h
  refine ⟨by rw [hg, hc, c], ?_, ?_, ?_, ?_, ?_, ?_, fun i hi => ?_⟩
  · rw [h1, hg, a1]
  · rw [h2, hg, a2]
  · rw [h3, hg, a3]
  · rw [h4, hg, a4]
  · rw [h5, hg, a5]
  · rw [h6, hg, a6]
  · rw [hn, hg, ← a7 i (hc ▸ hi)]; simp only [State.nbOf, h7]

theorem micro_resolved : micro.Resolved where
  check := by decide +kernel
  spf := by decide +kernel
  bandw := by decide +kernel
  bpb := by decide +kernel
  avail := by decide +kernel
  nmin := by decide +kernel
  nmax := by decide +kernel
  nb := by decide +kernel

/-- In IDLE the invariants are those of the error registers, the geometry and the accumulators. -/
theorem inv_idle {s : State} (hm : s.status.mode = .idle)
    (he : s.status.err = false → s.errcode = 0 ∧ s.errcmd = 0)
    (hg : s.status.geov = true → s.Resolved)
    (ha : ∀ st < s.cfg.maxStreams, (s.accOf st).val.toNat < 2 ^ (s.accOf st).cnt.toNat) :
    s.Inv where
  noError := he
  geometry := hg
  windows h := absurd hm h
  txSlice h := by rw [hm] at h; cases h
  acc := ha
  phase h := by rw [hm] at h; cases h
  waveLength h := by rw [hm] at h; cases h
  wavePeak h := by rw [hm] at h; cases h
  magLength h := by rw [hm] at h; cases h
  magSlices h := by rw [hm] at h; cases h
  magPeak h := by rw [hm] at h; cases h

theorem micro_like_inv {s : State} (hm : s.status.mode = .idle)
    (he : s.errcode = 0 ∧ s.errcmd = 0) (hr : s.Resolved)
    (ha : ∀ st < s.cfg.maxStreams, (s.accOf st).val.toNat < 2 ^ (s.accOf st).cnt.toNat) : s.Inv :=
  inv_idle hm (fun _ => he) (fun _ => hr) ha

/-- micro with one byte in stream 0, and with seven samples, the last at the boundary of a slice. -/
def loaded : State := withSamples (withStream micro [0xC0]) [0, 1, 0, -1, 0, 1, 0]

theorem loaded_resolved : loaded.Resolved :=
  resolvedLike micro_resolved (by decide +kernel) rfl rfl rfl rfl rfl rfl rfl rfl

theorem loaded_inv : loaded.Inv :=
  micro_like_inv rfl ⟨rfl, rfl⟩ loaded_resolved (by decide +kernel)

/-- A transmit run before its first window. -/
def txBegun : State :=
  { inMode loaded .tx 8 with phase := [[0]], host := ⟨[.writeReg 0 0x21000000], []⟩ }

theorem txBegun_inv : txBegun.Inv where
  noError := fun _ => ⟨rfl, rfl⟩
  geometry := fun _ => resolvedLike micro_resolved (by decide +kernel) rfl rfl rfl rfl rfl rfl rfl rfl
  windows := by decide +kernel
  txSlice := fun _ => rfl
  acc := by decide +kernel
  phase := by decide +kernel
  waveLength := fun _ => rfl
  wavePeak := fun _ => by
    change Num.value Num.zero = greatestOf []
    simp
  magLength := by decide +kernel
  magSlices h := by cases h
  magPeak h := by cases h

theorem txBegun_fits : txBegun.RunFits where
  txStreams := by decide +kernel
  txWindows := by decide +kernel
  txSamples := by decide +kernel
  rxWindows := by decide +kernel
  rxBytes := by decide +kernel
  rxPlaced := by decide +kernel

theorem txBegun_closed : txBegun.PhasesClosed ∧ txBegun.WaveClosed :=
  ⟨by intro _ _; decide +kernel, fun _ _ p hp => absurd hp (by
    have : txBegun.widx.toNat = 0 := by decide +kernel
    omega)⟩

/-- A transmit run after its last window, with a waveform of full height. -/
def txDone : State :=
  { txBegun with widx := 8, wave := List.replicate 48 (Num.ofInt 1), amax := Num.ofInt 1 }

theorem greatestOf_replicate (n : Nat) (x : ℝ) (h : 0 ≤ x) :
    greatestOf (List.replicate (n + 1) x) = x := by
  induction n with
  | zero => exact max_eq_left h
  | succ n ih =>
      change max x (greatestOf (List.replicate (n + 1) x)) = x
      rw [ih, max_self]

theorem txDone_amax : Num.value txDone.amax = 1 := by
  change Num.value (Num.ofInt 1) = 1
  simp

theorem txDone_inv : txDone.Inv where
  noError := fun _ => ⟨rfl, rfl⟩
  geometry := fun _ => resolvedLike micro_resolved (by decide +kernel) rfl rfl rfl rfl rfl rfl rfl rfl
  windows := by decide +kernel
  txSlice := fun _ => rfl
  acc := by decide +kernel
  phase := by decide +kernel
  waveLength := fun _ => by
    change (List.replicate 48 (Num.ofInt 1)).length = _
    rw [List.length_replicate]; decide +kernel
  wavePeak := fun _ => by
    change Num.value (Num.ofInt 1) =
      greatestOf ((List.replicate 48 (Num.ofInt 1)).map fun x => |Num.value x|)
    rw [List.map_replicate, greatestOf_replicate _ _ (abs_nonneg _)]; simp
  magLength := by decide +kernel
  magSlices h := by cases h
  magPeak h := by cases h

theorem txDone_fits : txDone.RunFits where
  txStreams := by decide +kernel
  txWindows := by decide +kernel
  txSamples := by decide +kernel
  rxWindows := by decide +kernel
  rxBytes := by decide +kernel
  rxPlaced := by decide +kernel

/-- A transmit run of no window, before its end. -/
def txEmpty : State := inMode micro .tx 0

theorem txEmpty_inv : txEmpty.Inv where
  noError := fun _ => ⟨rfl, rfl⟩
  geometry := fun _ => resolvedLike micro_resolved (by decide +kernel) rfl rfl rfl rfl rfl rfl rfl rfl
  windows := by decide +kernel
  txSlice := fun _ => rfl
  acc := by decide +kernel
  phase := by decide +kernel
  waveLength := fun _ => rfl
  wavePeak := fun _ => by
    change Num.value Num.zero = greatestOf []
    simp
  magLength := by decide +kernel
  magSlices h := by cases h
  magPeak h := by cases h

theorem txEmpty_fits : txEmpty.RunFits where
  txStreams := by decide +kernel
  txWindows := by decide +kernel
  txSamples := by decide +kernel
  rxWindows := by decide +kernel
  rxBytes := by decide +kernel
  rxPlaced := by decide +kernel

/-- A receive run of no sample, before its end. -/
def rxEmpty : State := inMode micro .rx 0

/-- A receive run of two slices before its first spectrum, with a threshold of 0 dB. -/
def rxBegun : State :=
  { inMode loaded .rx 2 with slen := micro.slen, params := micro.params.setIfInBounds 7 0 }

/-- The same with both spectra taken. -/
def rxHeard : State := rxBegun.takeSpectra 2

/-- The same with both windows decided, as 1 and 0. -/
def rxDecided : State := { rxHeard.setAcc 0 ⟨2, 2⟩ with widx := 2 }

/-- In a receive run the invariants of a transmit run say nothing. -/
theorem inv_rx {s : State} (hm : s.status.mode = .rx) (he : s.errcode = 0 ∧ s.errcmd = 0)
    (hg : s.Resolved) (hw : s.widx ≤ s.wc ∧ s.sidx ≤ s.wc)
    (ha : ∀ st < s.cfg.maxStreams, (s.accOf st).val.toNat < 2 ^ (s.accOf st).cnt.toNat)
    (hl : s.mag.length = s.sidx.toNat)
    (hs : ∀ p < s.sidx.toNat, s.mag[p]? = some (s.spectrum p))
    (hp : s.maxMagnitude = greatestOf (s.mag.flatten.map fun m => √(Num.value m))) : s.Inv where
  noError := fun _ => he
  geometry := fun _ => hg
  windows := fun _ => hw
  txSlice h := by rw [hm] at h; cases h
  acc := ha
  phase h := by rw [hm] at h; cases h
  waveLength h := by rw [hm] at h; cases h
  wavePeak h := by rw [hm] at h; cases h
  magLength := fun _ => hl
  magSlices := fun _ _ => hs
  magPeak := fun _ => hp

theorem rxEmpty_inv : rxEmpty.Inv := by
  have h0 : rxEmpty.sidx.toNat = 0 := by decide +kernel
  refine inv_rx (by decide +kernel) ⟨rfl, rfl⟩ (resolvedLike micro_resolved (by decide +kernel) rfl rfl rfl rfl rfl rfl rfl rfl)
    (by decide +kernel) (by decide +kernel) (by decide +kernel) (by simp [h0]) ?_
  change √(Num.value Num.zero) = greatestOf []
  simp

theorem rxBegun_inv : rxBegun.Inv := by
  have h0 : rxBegun.sidx.toNat = 0 := by decide +kernel
  refine inv_rx (by decide +kernel) ⟨rfl, rfl⟩ (resolvedLike micro_resolved (by decide +kernel) rfl rfl rfl rfl rfl rfl rfl rfl)
    (by decide +kernel) (by decide +kernel) (by decide +kernel) (by simp [h0]) ?_
  change √(Num.value Num.zero) = greatestOf []
  simp

theorem rxHeard_eq : rxHeard = rxBegun.takeSpectrum.takeSpectrum := rfl

theorem rxHeard_peak : rxHeard.maxMagnitude =
    greatestOf (rxHeard.mag.flatten.map fun m => √(Num.value m)) := by
  have hm : rxBegun.mag = [] := rfl
  have hx : rxBegun.mmax = Num.zero := rfl
  rw [rxHeard_eq]
  simp only [State.maxMagnitude, State.takeSpectrum_mmax, State.takeSpectrum_mag, sqrt_greatest,
    hm, hx]
  simp [greatestOf_append, greatestOf_nonneg]

/-- Both slices are there. -/
theorem rxHeard_slices : ∀ p < rxHeard.sidx.toNat, rxHeard.mag[p]? = some (rxHeard.spectrum p) := by
  have hm : rxBegun.mag = [] := rfl
  have hs : rxHeard.sidx.toNat = 2 := by decide +kernel
  intro p hp
  rw [hs] at hp
  rw [rxHeard_eq]
  simp only [State.takeSpectrum_mag, hm]
  interval_cases p <;> rfl

theorem rxHeard_inv : rxHeard.Inv :=
  inv_rx (by decide +kernel) ⟨rfl, rfl⟩ (resolvedLike micro_resolved (by decide +kernel) rfl rfl rfl rfl rfl rfl rfl rfl)
    (by decide +kernel) (by decide +kernel) (by decide +kernel) rxHeard_slices rxHeard_peak

theorem rxDecided_slices :
    ∀ p < rxDecided.sidx.toNat, rxDecided.mag[p]? = some (rxDecided.spectrum p) := by
  intro p hp
  have h1 : rxDecided.sidx = rxHeard.sidx := rfl
  rw [h1] at hp
  exact rxHeard_slices p hp

theorem rxDecided_peak : rxDecided.maxMagnitude =
    greatestOf (rxDecided.mag.flatten.map fun m => √(Num.value m)) := by
  have h1 : rxDecided.mmax = rxHeard.mmax := by simp only [rxDecided, State.setAcc_mmax]
  have h2 : rxDecided.mag = rxHeard.mag := by simp only [rxDecided, State.setAcc_mag]
  have := rxHeard_peak
  rw [State.maxMagnitude] at this ⊢
  rw [h1, h2, this]

theorem rxDecided_inv : rxDecided.Inv :=
  inv_rx (by decide +kernel) ⟨rfl, rfl⟩ (resolvedLike micro_resolved (by decide +kernel) rfl rfl rfl rfl rfl rfl rfl rfl)
    (by decide +kernel) (by decide +kernel) (by decide +kernel) rxDecided_slices rxDecided_peak

theorem rx_fits {s : State} (hm : s.status.mode = .rx) (hw : s.wc.toNat = s.receivedWindows)
    (hb : cdiv (s.wc.toNat * s.bpb.toNat) 8 ≤ s.cfg.strmCap)
    (hp : ∀ i < s.nstr, (s.placed i).length = s.widx.toNat * s.bpb.toNat) : s.RunFits where
  txStreams h := by rw [hm] at h; cases h
  txWindows h := by rw [hm] at h; cases h
  txSamples h := by rw [hm] at h; cases h
  rxWindows := fun _ _ => hw
  rxBytes := fun _ _ => hb
  rxPlaced := fun _ _ => hp

theorem rxEmpty_fits : rxEmpty.RunFits :=
  rx_fits rfl (by decide +kernel) (by decide +kernel) (by simp only [State.placed_length]; decide +kernel)
theorem rxHeard_fits : rxHeard.RunFits :=
  rx_fits rfl (by decide +kernel) (by decide +kernel) (by simp only [State.placed_length]; decide +kernel)
theorem rxDecided_fits : rxDecided.RunFits :=
  rx_fits rfl (by decide +kernel) (by decide +kernel) (by simp only [State.placed_length]; decide +kernel)

/-! ## Witnesses

`witness_<Name>` shows a state and operands that meet the hypotheses of `Obligations.<Name>`, one set for
each clause that has hypotheses of its own. A statement without a theorem here has no hypotheses. -/

theorem witness_DecodeInvertsEncode : (Instr.bitPut 15#8 true).wf .default = true := by decide

theorem witness_EncodeInvertsDecode : decode .default 0x430F0000#32 = .ok (.bitClr 15#8) := by decide

theorem witness_IllegalWordsRefused :
    decode .default 0x40100000#32 = .error .noSuchStream ∧ micro.cfg = .default ∧ micro.status.err = false := by decide +kernel

/-- The host is about to write 0x21000000. -/
theorem witness_StepRunsDecodedCommand :
    txBegun.host.pending = .writeReg 0 0x21000000 :: [] ∧ decode txBegun.cfg 0x21000000#32 = .ok .txWindow := by
  decide +kernel

theorem witness_IdleWithoutHost : micro.host.pending = [] := by decide +kernel

/-- micro in the error state, as V61 reaches it. -/
def broken : State := micro.raise .seq 0x21000000

theorem witness_CommandAcceptance :
    (broken.status.err = true ∧ decode broken.cfg 0x10000000#32 ≠ .ok .srst) ∧
    decode micro.cfg 0x01000000#32 = .ok .srst ∧
    (micro.status.err = false ∧ decode micro.cfg 0x21000000#32 ≠ .ok .srst) := by decide +kernel

theorem witness_RaiseIsPrecise :
    (State.reset.status.err = false ∧
      exec .geoResolve State.reset = .next (after .geoResolve State.reset) ∧
      (after .geoResolve State.reset).status.err = true) ∧
    micro.status.err = false ∧ exec .nop micro = .next (after .nop micro) ∧
      (after .nop micro).status.err = false :=
  ⟨⟨rfl, next_after _ _ (by decide +kernel), by decide +kernel⟩, rfl,
    next_after _ _ (by decide +kernel), by decide +kernel⟩

theorem witness_ErrorStateSticks :
    broken.status.err = true ∧ HostAccess.writePcm 0 1 ≠ .hardReset ∧
    (∀ w, HostAccess.writePcm 0 1 = .writeReg 0 w → decode broken.cfg w ≠ .ok .srst) ∧
    hostAccess (.writePcm 0 1) broken = .next broken.dropWrite :=
  ⟨by decide +kernel, by decide, fun _ h => (by cases h), rfl⟩

/-- The clauses of `CommonChecksInOrder`, from the mode to the further condition. -/
theorem witness_CommonChecksInOrder :
    (txBegun.status.err = false ∧ txBegun.status.mode ≠ .idle) ∧
    (micro.status.err = false ∧ micro.status.mode ≠ .tx ∧ micro.status.mode ≠ .rx) ∧
    (∀ m, (inMode (micro.setGeov false) m 8).status = { Status.clear with mode := m }) ∧
    ((inMode micro .tx 8).status.geov = true ∧ (inMode micro .tx 8).status.mode = .tx ∧
      (inMode micro .tx 8).widx ≠ (inMode micro .tx 8).wc ∧
      ¬ (inMode micro .tx 0).widx < (inMode micro .tx 0).wc) ∧
    (rxBegun.status.geov = true ∧ rxBegun.status.mode = .rx ∧
      ¬ (rxBegun.sidx = rxBegun.wc ∧ rxBegun.widx < rxBegun.wc) ∧
      ¬ (rxBegun.sidx = rxBegun.wc ∧ rxBegun.widx = rxBegun.wc) ∧
      ¬ (inMode micro .rx 0).sidx < (inMode micro .rx 0).wc) :=
  ⟨by decide +kernel, by decide +kernel, fun m => by cases m <;> decide +kernel,
    by decide +kernel, by decide +kernel⟩

theorem witness_NopCompletes : micro.status.err = false ∧ broken.status.err = true := by decide +kernel

/-- V10 passes every check. -/
theorem v10_valid : v10.geoParams.Valid v10.cfg := by
  have h : v10.geoParams = ⟨8000, 64, 80, 200, 1000, 1, 2⟩ := by decide +kernel
  rw [h]
  exact ⟨⟨by decide, by decide, by decide, by decide, by decide⟩,
    ⟨by decide +kernel, by decide +kernel, by decide +kernel⟩,
    ⟨by decide +kernel, by decide +kernel⟩, by unfold Params.FitsPhases; decide +kernel⟩

/-- V10, and the parameters after reset. -/
theorem witness_GeoResolveDerives :
    (v10.status.err = false ∧ v10.status.mode = .idle ∧ v10.geoParams.Valid v10.cfg) ∧
    (State.reset.status.err = false ∧ State.reset.status.mode = .idle ∧
      ¬ State.reset.geoParams.Valid State.reset.cfg) :=
  ⟨⟨by decide +kernel, by decide +kernel, v10_valid⟩, rfl, rfl, fun h => absurd h.bounds (by decide +kernel)⟩

/-- V11, V12, V13, V17: each of checks 1 to 5 fails in a state in which those before it hold. -/
theorem witness_GeoResolveFirstFailure_underived :
    (∀ ps, (withParams ps).status.err = false ∧ (withParams ps).status.mode = .idle) ∧
    (let p := (withParams #v[8000, 64, 80, 1000, 1000, 1, 2, 0]).geoParams; ¬ p.flo < p.fhi) ∧
    (let p := (withParams #v[8000, 0, 80, 200, 1000, 1, 2, 0]).geoParams;
      p.flo < p.fhi ∧ p.fsym = 0) ∧
    (let p := (withParams #v[8000, 100, 80, 200, 1000, 1, 2, 0]).geoParams;
      p.flo < p.fhi ∧ 0 < p.fsym ∧ ¬ (1 ≤ p.nfft ∧ p.nfft * p.fsym < p.fs)) ∧
    (let p := (withParams #v[8000, 64, 80, 200, 1000, 0, 2, 0]).geoParams;
      p.flo < p.fhi ∧ 0 < p.fsym ∧ (1 ≤ p.nfft ∧ p.nfft * p.fsym < p.fs) ∧ p.k = 0) ∧
    (let p := (withParams #v[8000, 64, 80, 200, 1000, 1, 17, 0]).geoParams;
      p.flo < p.fhi ∧ 0 < p.fsym ∧ (1 ≤ p.nfft ∧ p.nfft * p.fsym < p.fs) ∧ 1 ≤ p.k ∧
        ¬ (1 ≤ p.n ∧ p.n ≤ State.reset.cfg.maxStreams)) :=
  ⟨fun _ => ⟨rfl, rfl⟩, by decide +kernel, by decide +kernel, by decide +kernel, by decide +kernel,
    by decide +kernel⟩

/-- V14, V21 and a geometry of 4097 cells: each of checks 6 to 8 fails where those before it hold. -/
theorem witness_GeoResolveFirstFailure :
    (let p := (withParams #v[8000, 64, 80, 200, 1000, 1, 9, 0]).geoParams;
      p.Derivable State.reset.cfg ∧ ¬ p.EnoughBins) ∧
    (let p := (withParams #v[8000, 64, 80, 3300, 4100, 1, 2, 0]).geoParams;
      p.Derivable State.reset.cfg ∧ p.EnoughBins ∧ ¬ p.InRange) ∧
    (let p := (withParams #v[20001, 1, 20000, 1, 4099, 1, 1, 0]).geoParams;
      p.Derivable State.reset.cfg ∧ p.EnoughBins ∧ p.InRange ∧ ¬ p.FitsPhases State.reset.cfg) := by
  refine ⟨⟨⟨?_, ?_, ?_, ?_, ?_⟩, ?_⟩, ⟨⟨?_, ?_, ?_, ?_, ?_⟩, ?_, ?_⟩,
    ⟨⟨?_, ?_, ?_, ?_, ?_⟩, ?_, ?_, ?_⟩⟩
  all_goals
    try unfold Params.EnoughBins
    try unfold Params.InRange
    try unfold Params.FitsPhases
    decide +kernel

theorem witness_BinMapProperties : v10.geoParams.Valid v10.cfg ∧ v10.geoParams.Derivable v10.cfg ∧
    1 ≤ v10.geoParams.binsPerBand ∧
    v10.geoParams.binsPerBand * v10.geoParams.n ≤ v10.geoParams.binsAvailable :=
  ⟨v10_valid, v10_valid.toDerivable, v10_valid.bins.1, v10_valid.bins.2.2⟩

/-- loaded with stream 0 said to have this length. -/
def longStream (n : Word) : State := loaded.setSlen 0 n

theorem longStream_inv (n : Word) : (longStream n).Inv :=
  micro_like_inv rfl ⟨rfl, rfl⟩
    (resolvedLike loaded_resolved (State.geoParams_setSlen _ _ _) rfl rfl rfl rfl rfl rfl rfl rfl)
    fun st hst => by rw [longStream, State.accOf_setSlen]; exact loaded_inv.acc st hst

/-- The longest stream that fits its buffer, and one byte more. -/
theorem witness_GeoWcountCounts :
    (∀ n, (longStream n).Inv ∧ (longStream n).status.err = false ∧
      (longStream n).status.mode = .idle ∧ (longStream n).status.geov = true) ∧
    ((∀ i < (longStream 0x100000).nstr, (longStream 0x100000).slenOf i ≤ 0x100000) ∧
      (∃ i < (longStream 0x100000).nstr, (longStream 0x100000).slenOf i = 0x100000) ∧
      0x100000 ≤ (longStream 0x100000).cfg.strmCap) ∧
    ∃ i < (longStream 0x100001).nstr, (longStream 0x100001).cfg.strmCap < (longStream 0x100001).slenOf i :=
  ⟨fun n => ⟨longStream_inv n, rfl, rfl, rfl⟩, by decide +kernel, by decide +kernel⟩

theorem witness_GeometryWrittenOnlyByResolve :
    Instr.txStart ≠ .srst ∧ exec .txStart loaded = .next (after .txStart loaded) :=
  ⟨by decide, next_after _ _ (by decide +kernel)⟩

/-- The longest waveform that fits its buffer, and the first that does not (V37 in this geometry). -/
theorem witness_TxStartBegins :
    (∀ n, (longStream n).Inv ∧ (longStream n).status.err = false ∧
      (longStream n).status.mode = .idle ∧ (longStream n).status.geov = true) ∧
    ((∀ i < (longStream 349525).nstr, (longStream 349525).slenOf i ≤ 349525) ∧
      (∃ i < (longStream 349525).nstr, (longStream 349525).slenOf i = 349525) ∧
      349525 ≤ (longStream 349525).cfg.strmCap ∧
      ⌈(8 * (349525 : ℕ) : ℚ) / (longStream 349525).bpb.toNat⌉ * (longStream 349525).spf.toNat
        ≤ (longStream 349525).cfg.pcmCap) ∧
    ((∀ i < (longStream 349526).nstr, (longStream 349526).slenOf i ≤ 349526) ∧
      (∃ i < (longStream 349526).nstr, (longStream 349526).slenOf i = 349526) ∧
      ¬ (349526 ≤ (longStream 349526).cfg.strmCap ∧
        ⌈(8 * (349526 : ℕ) : ℚ) / (longStream 349526).bpb.toNat⌉ * (longStream 349526).spf.toNat
          ≤ (longStream 349526).cfg.pcmCap)) :=
  ⟨fun n => ⟨longStream_inv n, rfl, rfl, rfl⟩, by decide +kernel, by decide +kernel⟩

theorem witness_TxWindowSynthesizes :
    txBegun.Inv ∧ txBegun.status.err = false ∧ txBegun.status.mode = .tx ∧
    txBegun.status.geov = true ∧ txBegun.widx < txBegun.wc :=
  ⟨txBegun_inv, by decide +kernel⟩

/-- A waveform at full height, and none at all. -/
theorem witness_TxFinishEmits :
    (txDone.Inv ∧ txDone.RunFits ∧ txDone.status.err = false ∧ txDone.status.mode = .tx ∧
      txDone.status.geov = true ∧ txDone.widx = txDone.wc ∧ 0 < Num.value txDone.amax) ∧
    (txEmpty.Inv ∧ txEmpty.RunFits ∧ txEmpty.status.err = false ∧ txEmpty.status.mode = .tx ∧
      txEmpty.status.geov = true ∧ txEmpty.widx = txEmpty.wc ∧ Num.value txEmpty.amax = 0) :=
  ⟨⟨txDone_inv, txDone_fits, rfl, rfl, rfl, by decide +kernel, by rw [txDone_amax]; exact one_pos⟩,
    ⟨txEmpty_inv, txEmpty_fits, rfl, rfl, rfl, by decide +kernel, Num.value_zero⟩⟩

theorem witness_EmittedSamplesFullScale :
    txDone.Inv ∧ txDone.RunFits ∧ txDone.status.err = false ∧ txDone.status.mode = .tx ∧
    txDone.status.geov = true ∧ txDone.widx = txDone.wc ∧ 0 < Num.value txDone.amax ∧
    exec .txFinish txDone = .next (after .txFinish txDone) :=
  ⟨txDone_inv, txDone_fits, rfl, rfl, rfl, by decide +kernel, by rw [txDone_amax]; exact one_pos,
    next_after _ _ (by decide +kernel)⟩

theorem witness_TxEncodeIsTheRun :
    (∀ n, (longStream n).status.err = false ∧ (longStream n).status.mode = .idle ∧
      (longStream n).status.geov = true) ∧
    ((∀ i < (longStream 349525).nstr, (longStream 349525).slenOf i ≤ (longStream 349525).cfg.strmCap) ∧
      (longStream 349525).payloadWindows * (longStream 349525).spf.toNat ≤ (longStream 349525).cfg.pcmCap) ∧
    ¬ ((∀ i < (longStream 349526).nstr, (longStream 349526).slenOf i ≤ (longStream 349526).cfg.strmCap) ∧
      (longStream 349526).payloadWindows * (longStream 349526).spf.toNat ≤ (longStream 349526).cfg.pcmCap) :=
  ⟨fun _ => ⟨rfl, rfl, rfl⟩, by decide +kernel, by decide +kernel⟩

/-- The state after the step that runs the host's `TX.WINDOW`. -/
def txBegunNext : State := after .txWindow { txBegun with host := ⟨[], []⟩ }

theorem txBegun_step : step txBegun = .next txBegunNext := by
  have h : step txBegun = exec .txWindow { txBegun with host := ⟨[], []⟩ } := rfl
  rw [h]
  exact next_after _ _ (by decide +kernel)

theorem witness_PhaseClosedFormKept :
    txBegun.Inv ∧ txBegun.PhasesClosed ∧ step txBegun = .next txBegunNext :=
  ⟨txBegun_inv, txBegun_closed.1, txBegun_step⟩

theorem witness_WaveClosedFormKept :
    txBegun.Inv ∧ txBegun.PhasesClosed ∧ txBegun.WaveClosed ∧ step txBegun = .next txBegunNext :=
  ⟨txBegun_inv, txBegun_closed.1, txBegun_closed.2, txBegun_step⟩

/-- The same run after its first window, whose one cell is active. -/
def txOne : State := txBegun.synthWindow

theorem txOne_wave : txOne.wave = txBegun.windowSamples 0 := by
  rw [txOne, State.synthWindow_wave, show txBegun.wave = [] from rfl]; rfl

theorem txOne_inv : txOne.Inv where
  noError := fun _ => ⟨rfl, rfl⟩
  geometry := fun _ =>
    resolvedLike micro_resolved (by decide +kernel) rfl rfl rfl rfl rfl rfl rfl rfl
  windows := by decide +kernel
  txSlice := fun _ => rfl
  acc := by decide +kernel
  phase := by decide +kernel
  waveLength := fun _ => by rw [txOne_wave, State.windowSamples_length]; decide +kernel
  wavePeak := fun _ => by
    have h0 : Num.value txBegun.amax = 0 := Num.value_zero
    rw [txOne_wave, txOne, State.synthWindow_amax, value_peak _ _ h0.ge, h0,
      max_eq_right (greatestOf_nonneg _)]
    rfl
  magLength := by decide +kernel
  magSlices h := by cases h
  magPeak h := by cases h

theorem txOne_closed : txOne.WaveClosed := by
  intro _ _ p hp t ht
  have h1 : txOne.widx.toNat = 1 := by decide +kernel
  have h2 : txOne.spf.toNat = txBegun.spf.toNat := rfl
  have h3 : txBegun.nfft = 4 := by decide +kernel
  obtain rfl : p = 0 := by omega
  rw [h2] at ht
  have hw : txOne.waveValue (0 * txOne.spf.toNat + t) = Num.value (txBegun.windowSample 0 t) := by
    rw [State.waveValue, txOne_wave, State.windowSamples]
    simp [ht]
  rw [hw, State.value_windowSample_sum _ (by omega), State.closedSample]
  have hph : ∀ i < txBegun.nstr, ∀ j < txBegun.bpb.toNat, txBegun.phaseOf i j = 0 := by
    decide +kernel
  refine Finset.sum_congr rfl fun i hi => Finset.sum_congr rfl fun j hj => ?_
  rw [hph i (Finset.mem_range.mp hi) j (Finset.mem_range.mp hj), State.activeBefore]
  simp only [List.range_zero, List.filter_nil, List.length_nil, Nat.mul_zero, Nat.zero_add]
  rfl

/-- Before the first window, and after a window that is not silent. -/
theorem witness_SilentExactlyWithoutActiveCell :
    (txBegun.Inv ∧ txBegun.WaveClosed ∧ txBegun.cfg.num = .reference ∧
      txBegun.status.mode = .tx ∧ txBegun.status.geov = true) ∧
    (txOne.Inv ∧ txOne.WaveClosed ∧ txOne.cfg.num = .reference ∧
      txOne.status.mode = .tx ∧ txOne.status.geov = true ∧ txOne.widx = 1 ∧
      txOne.streamBit 0 0 = true) :=
  ⟨⟨txBegun_inv, txBegun_closed.2, by decide +kernel⟩, txOne_inv, txOne_closed, by decide +kernel⟩

/-- loaded with the host saying that there are this many samples. -/
def manySamples (n : Word) : State := { loaded with pcmlen := n }

theorem manySamples_inv (n : Word) : (manySamples n).Inv :=
  micro_like_inv rfl ⟨rfl, rfl⟩ (resolvedLike loaded_resolved rfl rfl rfl rfl rfl rfl rfl rfl rfl)
    loaded_inv.acc

/-- A full sample buffer, and one sample more. -/
theorem witness_RxStartBegins :
    (∀ n, (manySamples n).Inv ∧ (manySamples n).status.err = false ∧
      (manySamples n).status.mode = .idle ∧ (manySamples n).status.geov = true) ∧
    (let s := manySamples 0x1000000;
      s.pcmlen.toNat ≤ s.cfg.pcmCap ∧
      ⌈(⌈(s.pcmlen.toNat : ℚ) / s.spf.toNat⌉ * s.bpb.toNat : ℚ) / 8⌉ ≤ s.cfg.strmCap) ∧
    (let s := manySamples 0x1000001;
      ¬ (s.pcmlen.toNat ≤ s.cfg.pcmCap ∧
        ⌈(⌈(s.pcmlen.toNat : ℚ) / s.spf.toNat⌉ * s.bpb.toNat : ℚ) / 8⌉ ≤ s.cfg.strmCap)) :=
  ⟨fun n => ⟨manySamples_inv n, rfl, rfl, rfl⟩, by decide +kernel, by decide +kernel⟩

theorem witness_RxSpectrumMeasures :
    rxBegun.Inv ∧ rxBegun.status.err = false ∧ rxBegun.status.mode = .rx ∧
    rxBegun.status.geov = true ∧ rxBegun.sidx < rxBegun.wc :=
  ⟨rxBegun_inv, by decide +kernel⟩

/-- Two slices, and none. -/
theorem witness_GlobalMaximum :
    (rxHeard.Inv ∧ rxHeard.status.mode = .rx ∧ rxHeard.status.geov = true ∧
      rxHeard.sidx = rxHeard.wc ∧ rxHeard.wc ≠ 0) ∧
    (rxEmpty.Inv ∧ rxEmpty.status.mode = .rx ∧ rxEmpty.status.geov = true ∧
      rxEmpty.sidx = rxEmpty.wc ∧ rxEmpty.wc = 0) :=
  ⟨⟨rxHeard_inv, by decide +kernel⟩, ⟨rxEmpty_inv, by decide +kernel⟩⟩

theorem witness_RxDetectDecides :
    rxHeard.Inv ∧ rxHeard.RunFits ∧ rxHeard.status.err = false ∧ rxHeard.status.mode = .rx ∧
    rxHeard.status.geov = true ∧ rxHeard.sidx = rxHeard.wc ∧ rxHeard.widx < rxHeard.wc :=
  ⟨rxHeard_inv, rxHeard_fits, by decide +kernel⟩

theorem witness_NonNegativeThresholdDecodesZero :
    rxHeard.Inv ∧ rxHeard.RunFits ∧ rxHeard.cfg.num = .reference ∧ rxHeard.status.err = false ∧
    rxHeard.status.mode = .rx ∧ rxHeard.status.geov = true ∧ rxHeard.sidx = rxHeard.wc ∧
    rxHeard.widx < rxHeard.wc ∧ 0 ≤ rxHeard.threshold ∧ exec .rxDetect rxHeard = .next (after .rxDetect rxHeard) := by
  have ht : rxHeard.thr = 0 := by decide +kernel
  refine ⟨rxHeard_inv, rxHeard_fits, by decide +kernel, by decide +kernel, by decide +kernel,
    by decide +kernel, by decide +kernel, by decide +kernel, ?_, next_after _ _ (by decide +kernel)⟩
  rw [State.threshold, ht]; simp

/-- Two bits in the accumulator, and no run of bits at all. -/
theorem witness_RxFinishFlushes :
    (rxDecided.Inv ∧ rxDecided.RunFits ∧ rxDecided.status.err = false ∧
      rxDecided.status.mode = .rx ∧ rxDecided.status.geov = true ∧
      rxDecided.sidx = rxDecided.wc ∧ rxDecided.widx = rxDecided.wc) ∧
    (rxEmpty.Inv ∧ rxEmpty.RunFits ∧ rxEmpty.status.err = false ∧ rxEmpty.status.mode = .rx ∧
      rxEmpty.status.geov = true ∧ rxEmpty.sidx = rxEmpty.wc ∧ rxEmpty.widx = rxEmpty.wc) :=
  ⟨⟨rxDecided_inv, rxDecided_fits, by decide +kernel⟩, ⟨rxEmpty_inv, rxEmpty_fits, by decide +kernel⟩⟩

theorem witness_RxDecodeIsTheRun :
    (∀ n, (manySamples n).Inv ∧ (manySamples n).status.err = false ∧
      (manySamples n).status.mode = .idle ∧ (manySamples n).status.geov = true) ∧
    (let s := manySamples 0x1000000;
      s.pcmlen.toNat ≤ s.cfg.pcmCap ∧
      cdiv (s.receivedWindows * s.bpb.toNat) 8 ≤ s.cfg.strmCap) ∧
    (let s := manySamples 0x1000001;
      ¬ (s.pcmlen.toNat ≤ s.cfg.pcmCap ∧
        cdiv (s.receivedWindows * s.bpb.toNat) 8 ≤ s.cfg.strmCap)) :=
  ⟨fun n => ⟨manySamples_inv n, rfl, rfl, rfl⟩, by decide +kernel, by decide +kernel⟩

theorem witness_DecodedStreams :
    loaded.Inv ∧ loaded.status.err = false ∧ loaded.status.mode = .idle ∧
    loaded.status.geov = true ∧ exec .rxDecode loaded = .next (after .rxDecode loaded) ∧
    (after .rxDecode loaded).status.err = false ∧ 0 < loaded.nstr :=
  ⟨loaded_inv, rfl, rfl, rfl, next_after _ _ (by decide +kernel), by decide +kernel⟩

/-- The samples of loaded, doubled, and negated. -/
theorem witness_DecodingIgnoresScale :
    let d := withSamples loaded [0, 2, 0, -2, 0, 2, 0]
    let n := withSamples loaded [0, -1, 0, 1, 0, -1, 0]
    loaded.Inv ∧ exec .rxDecode loaded = .next (after .rxDecode loaded) ∧
    ((0 : ℝ) < 2 ∧ d = { loaded with pcm := d.pcm } ∧
      (∀ a < loaded.pcmlen.toNat, (d.pcmRead a : ℝ) = 2 * loaded.pcmRead a) ∧
      exec .rxDecode d = .next (after .rxDecode d)) ∧
    ((-1 : ℝ) < 0 ∧ loaded.cfg.num = .reference ∧ n = { loaded with pcm := n.pcm } ∧
      (∀ a < loaded.pcmlen.toNat, (n.pcmRead a : ℝ) = -1 * loaded.pcmRead a) ∧
      exec .rxDecode n = .next (after .rxDecode n)) := by
  have hd : ∀ a < loaded.pcmlen.toNat,
      (withSamples loaded [0, 2, 0, -2, 0, 2, 0]).pcmRead a = 2 * loaded.pcmRead a := by
    decide +kernel
  have hn : ∀ a < loaded.pcmlen.toNat,
      (withSamples loaded [0, -1, 0, 1, 0, -1, 0]).pcmRead a = -1 * loaded.pcmRead a := by
    decide +kernel
  refine ⟨loaded_inv, next_after _ _ (by decide +kernel),
    ⟨two_pos, rfl, fun a ha => ?_, next_after _ _ (by decide +kernel)⟩,
    neg_one_lt_zero, rfl, rfl, fun a ha => ?_, next_after _ _ (by decide +kernel)⟩
  · rw [hd a ha]; push_cast; ring
  · rw [hn a ha]; push_cast; ring

/-- loaded after it has transmitted, and after it has received that again. -/
def sent : State := after .txEncode loaded
def received : State := after .rxDecode sent

theorem sent_amax : Num.value sent.amax = 1 := by
  have h : Num.sign (Num.sub sent.amax (Num.ofInt 1)) = 0 := by decide +kernel
  rw [Num.sign_eq_zero] at h
  simp only [Num.value_sub, Num.value_ofInt] at h
  push_cast at h
  linarith

/-- The gain is 32767, and -20 dB lies between the two bounds. -/
theorem witness_RoundTrip :
    loaded.Inv ∧ loaded.cfg.num = .reference ∧ loaded.status.err = false ∧ loaded.status.mode = .idle ∧
    loaded.status.geov = true ∧ exec .txEncode loaded = .next sent ∧ sent.status.err = false ∧
    exec .rxDecode sent = .next received ∧ received.status.err = false ∧ 0 < loaded.nstr ∧
    ∃ g : ℝ, g * Num.value sent.amax = loaded.cfg.fsmax ∧ 2 < g ∧
      20 * Real.logb 10 (2 / (g - 2)) ≤ loaded.threshold ∧
      loaded.threshold ≤ 20 * Real.logb 10 ((g - 2) / (g + 2)) := by
  have ht : loaded.thr = -5120 := by decide +kernel
  have hT : loaded.threshold = 20 * Real.logb 10 (10 ^ (-1 : ℤ)) := by
    rw [State.threshold, ht, Config.thrFrac, zpow_neg_one, Real.logb_inv, Real.logb_self_eq_one (by norm_num)]
    norm_num
  refine ⟨loaded_inv, rfl, rfl, rfl, rfl, next_after _ _ (by decide +kernel), by decide +kernel,
    next_after _ _ (by decide +kernel), by decide +kernel, by decide +kernel, 32767, ?_, ?_, ?_, ?_⟩
  · have h : loaded.cfg.fsmax = 32767 := rfl
    rw [sent_amax, h]; norm_num
  · norm_num
  · rw [hT]
    exact mul_le_mul_of_nonneg_left
      (Real.logb_le_logb_of_le (by norm_num) (by norm_num) (by norm_num)) (by norm_num)
  · rw [hT]
    exact mul_le_mul_of_nonneg_left
      (Real.logb_le_logb_of_le (by norm_num) (by norm_num) (by norm_num)) (by norm_num)

/-- A silent waveform: nothing to send. -/
theorem witness_RoundTrip_silent :
    micro.Inv ∧ micro.cfg.num = .reference ∧ micro.status.err = false ∧ micro.status.mode = .idle ∧ micro.status.geov = true ∧
    exec .txEncode micro = .next (after .txEncode micro) ∧
    (after .txEncode micro).status.err = false ∧
    exec .rxDecode (after .txEncode micro) = .next (after .rxDecode (after .txEncode micro)) ∧
    (after .rxDecode (after .txEncode micro)).status.err = false ∧
    Num.value (after .txEncode micro).amax = 0 := by
  refine ⟨micro_like_inv rfl ⟨rfl, rfl⟩ micro_resolved (by decide +kernel), rfl, rfl, rfl, rfl,
    next_after _ _ (by decide +kernel), by decide +kernel, next_after _ _ (by decide +kernel),
    by decide +kernel, ?_⟩
  rw [← Num.sign_eq_zero]; decide +kernel

/-- The last stream, full, and one byte more; the bit index at its greatest. -/
theorem witness_BitGetReads :
    (15#8).toNat < micro.cfg.maxStreams ∧
    (let s := { micro.setSlen 15 0x100000 with bitix := 0xFFFFFFFF };
      s.status.err = false ∧ s.status.mode = .idle ∧ s.slenOf (15#8).toNat ≤ s.cfg.strmCap) ∧
    (let s := micro.setSlen 15 0x100001;
      s.status.err = false ∧ s.status.mode = .idle ∧
        s.cfg.strmCap < s.slenOf (15#8).toNat) := by decide +kernel

/-- micro with this accumulator and this length in stream 0. -/
def filling (a : Acc) (n : Word) : State := (micro.setAcc 0 a).setSlen 0 n

theorem filling_inv (a : Acc) (n : Word) (h : a.val.toNat < 2 ^ a.cnt.toNat) : (filling a n).Inv := by
  refine micro_like_inv rfl ⟨rfl, rfl⟩
    (resolvedLike micro_resolved
      ((State.geoParams_setSlen _ _ _).trans (State.geoParams_setAcc _ _ _)) rfl rfl rfl rfl rfl rfl rfl rfl)
    fun st hst => ?_
  rw [filling, State.accOf_setSlen, State.accOf_setAcc]
  split
  · exact h
  · have : ∀ st < micro.cfg.maxStreams, (micro.accOf st).val.toNat < 2 ^ (micro.accOf st).cnt.toNat := by
      decide +kernel
    exact this st hst

/-- Six bits, seven bits and room for one byte, seven bits and no room. -/
theorem witness_BitPutAppends :
    (0#8).toNat < micro.cfg.maxStreams ∧
    ((filling ⟨63, 6⟩ 0).Inv ∧ (filling ⟨127, 7⟩ 0xFFFFF).Inv ∧ (filling ⟨127, 7⟩ 0x100000).Inv) ∧
    (∀ a n, (filling a n).status.err = false ∧ (filling a n).status.mode = .idle) ∧
    ((filling ⟨63, 6⟩ 0).accOf (0#8).toNat).cnt ≠ 7 ∧
    (((filling ⟨127, 7⟩ 0xFFFFF).accOf (0#8).toNat).cnt = 7 ∧
      (filling ⟨127, 7⟩ 0xFFFFF).slenOf (0#8).toNat < (filling ⟨127, 7⟩ 0xFFFFF).cfg.strmCap) ∧
    (((filling ⟨127, 7⟩ 0x100000).accOf (0#8).toNat).cnt = 7 ∧
      (filling ⟨127, 7⟩ 0x100000).cfg.strmCap ≤ (filling ⟨127, 7⟩ 0x100000).slenOf (0#8).toNat) :=
  ⟨by decide, ⟨filling_inv _ _ (by decide), filling_inv _ _ (by decide), filling_inv _ _ (by decide)⟩,
    fun _ _ => ⟨rfl, rfl⟩, by decide +kernel, by decide +kernel, by decide +kernel⟩

/-- No bit, one bit and room for one byte, one bit and no room. -/
theorem witness_BitFlushEnds :
    (0#8).toNat < micro.cfg.maxStreams ∧
    ((filling ⟨0, 0⟩ 0x100000).Inv ∧ (filling ⟨1, 1⟩ 0xFFFFF).Inv ∧ (filling ⟨1, 1⟩ 0x100000).Inv) ∧
    (∀ a n, (filling a n).status.err = false ∧ (filling a n).status.mode = .idle) ∧
    ((filling ⟨0, 0⟩ 0x100000).accOf (0#8).toNat).cnt = 0 ∧
    (((filling ⟨1, 1⟩ 0xFFFFF).accOf (0#8).toNat).cnt ≠ 0 ∧
      (filling ⟨1, 1⟩ 0xFFFFF).slenOf (0#8).toNat < (filling ⟨1, 1⟩ 0xFFFFF).cfg.strmCap) ∧
    (((filling ⟨1, 1⟩ 0x100000).accOf (0#8).toNat).cnt ≠ 0 ∧
      (filling ⟨1, 1⟩ 0x100000).cfg.strmCap ≤ (filling ⟨1, 1⟩ 0x100000).slenOf (0#8).toNat) :=
  ⟨by decide, ⟨filling_inv _ _ (by decide), filling_inv _ _ (by decide), filling_inv _ _ (by decide)⟩,
    fun _ _ => ⟨rfl, rfl⟩, by decide +kernel, by decide +kernel, by decide +kernel⟩

theorem witness_BitClrEmpties :
    (15#8).toNat < micro.cfg.maxStreams ∧ micro.status.err = false ∧ micro.status.mode = .idle := by
  decide +kernel

/-- The bits of stream 0 of loaded, packed into stream 3. -/
theorem witness_PackThenUnpack :
    (3#8).toNat < loaded.cfg.maxStreams ∧ loaded.status.err = false ∧ loaded.status.mode = .idle ∧
    loaded.accOf (3#8).toNat = ⟨0, 0⟩ ∧ loaded.slenOf (3#8).toNat = 0 ∧
    cdiv [true, true, false, false, false, false, false, false].length 8 ≤ loaded.cfg.strmCap ∧
    [true, true, false, false, false, false, false, false] =
      (List.range (8 * loaded.slenOf 0)).map (loaded.streamBit 0) := by decide +kernel

theorem witness_ParameterWrites :
    7 < 8 ∧ micro.status.err = false ∧ broken.status.err = true := by decide +kernel

theorem witness_LengthAndIndexWrites :
    (micro.status.err = false ∧ micro.status.mode = .idle ∧ 15 < micro.cfg.maxStreams) ∧
    broken.status.err = true ∧ txBegun.status.mode ≠ .idle := by decide +kernel

theorem witness_RegisterMap : 7 < 8 ∧ 15 < micro.cfg.maxStreams ∧
    (0x100 + micro.cfg.maxStreams ≤ 0x1FF ∧ 0x1FF < 0x200) ∧ 0x1B ≤ 0xFF := by decide

/-- The last element of each buffer, and the first that is not there. -/
theorem witness_BufferWrites :
    (micro.status.err = false ∧ micro.status.mode = .idle ∧ 15 < micro.cfg.maxStreams ∧
      0xFFFFF < micro.cfg.strmCap ∧ 0xFFFFFF < micro.cfg.pcmCap) ∧
    (micro.cfg.strmCap ≤ 0x100000 ∧ micro.cfg.pcmCap ≤ 0x1000000) := by decide +kernel

theorem witness_InvariantsKept : txBegun.Inv ∧ step txBegun = .next txBegunNext :=
  ⟨txBegun_inv, txBegun_step⟩

theorem witness_RunCapacityKept :
    txBegun.Inv ∧ txBegun.RunFits ∧ step txBegun = .next txBegunNext :=
  ⟨txBegun_inv, txBegun_fits, txBegun_step⟩

theorem witness_BuffersCanonicalKept : txBegun.buffersWf ∧ step txBegun = .next txBegunNext := by
  refine ⟨⟨fun st => ?_, by decide +kernel⟩, txBegun_step⟩
  by_cases h : st < bankSize
  · have : ∀ st < bankSize, Memory.wf (txBegun.sbOf st) := by decide +kernel
    exact this st h
  · have : txBegun.sbOf st = [] := by
      rw [State.sbOf, Vector.getElem?_eq_none (by omega)]; rfl
    rw [this]; exact Memory.wf_nil

theorem witness_WindowsInOrder : exec .rxDecode loaded = .next (after .rxDecode loaded) :=
  next_after _ _ (by decide +kernel)

theorem witness_ModeTransitions :
    hostAccess (.writeReg 0 0x20000000) loaded = .next (after .txStart loaded) := by
  have h : decode loaded.cfg 0x20000000 = .ok .txStart := by decide
  rw [hostAccess, if_pos rfl, writeCmd, h]
  exact next_after .txStart loaded (by decide +kernel)

theorem witness_BufferAccessTable :
    rxHeard.Inv ∧ rxHeard.RunFits ∧ exec .rxDetect rxHeard = .next (after .rxDetect rxHeard) ∧
    loaded.Inv ∧ exec .txEncode loaded = .next sent ∧ 0 < loaded.slenOf 0 :=
  ⟨rxHeard_inv, rxHeard_fits, next_after _ _ (by decide +kernel), loaded_inv,
    next_after _ _ (by decide +kernel), by decide +kernel⟩

/-- loaded in a machine that has been reset seven more times and holds other bytes beyond the valid
lengths. -/
def rebooted : State :=
  { (loaded.sbWrite 0 1 0x55).pcmWrite 7 0x7FFF with boots := 7 }

theorem witness_UnspecifiedContentsNeverMatter :
    rebooted = { loaded with sb := rebooted.sb, pcm := rebooted.pcm, boots := rebooted.boots } ∧
    (∀ st a, a < loaded.slenOf st → rebooted.sbRead st a = loaded.sbRead st a) ∧
    (∀ a < loaded.pcmlen.toNat, rebooted.pcmRead a = loaded.pcmRead a) ∧
    exec .rxDecode loaded = .next (after .rxDecode loaded) ∧
    exec .rxDecode rebooted = .next (after .rxDecode rebooted) := by
  refine ⟨rfl, fun st a h => ?_, by decide +kernel, next_after _ _ (by decide +kernel),
    next_after _ _ (by decide +kernel)⟩
  by_cases h0 : st < bankSize
  · have : ∀ st < bankSize, ∀ a < loaded.slenOf st,
        rebooted.sbRead st a = loaded.sbRead st a := by decide +kernel
    exact this st h0 a h
  · have : loaded.slenOf st = 0 := by
      rw [State.slenOf, Vector.getElem?_eq_none (by omega)]; rfl
    omega

/-- The greatest sizes of R12. -/
theorem witness_ConfigurationRanges : ∃ c : Config, c.maxStreams = 256 ∧ c.strmCap = 2 ^ 28 ∧
    c.pcmCap = 2 ^ 32 - 1 ∧ c.sampleBits = 1 ∧ c.num = .other 3 :=
  ⟨{ sampleBits := 1, maxStreams := 256, strmCap := 2 ^ 28, pcmCap := 2 ^ 32 - 1, num := .other 3 },
    rfl, rfl, rfl, rfl, rfl⟩

theorem witness_ConfigurationFixed :
    exec .txStart loaded = .next (after .txStart loaded) ∧
    hostAccess .hardReset loaded = .next loaded.hardReset ∧ step txBegun = .next txBegunNext :=
  ⟨next_after _ _ (by decide +kernel), rfl, txBegun_step⟩

theorem witness_SineTable : 1 < 8 ∧ 2 ∣ 8 ∧ 4 ∣ 8 ∧ 0 < 1 := by decide

end Sys2Proof.Tests
end

section
/-! PROOFS. 00_scope.md: the rounding (R14), the sine table (R13) and the configuration (R12). -/

/-! ### `NUM.RND` (R14) -/

namespace Sys2Proof.Num

/-- Whether `RND` takes x to the integer above it: x is no integer and lies beyond the cut between its
two neighbours, or at the cut where the tie goes up. -/
def RoundsUp (r : NumInstance) (x : ℝ) : Prop :=
  x ≠ ⌊x⌋ ∧ ((roundCut r ⌊x⌋ : ℝ) < x ∨ x = roundCut r ⌊x⌋ ∧ roundTie r ⌊x⌋ = true)

theorem RND_of_roundsUp {r : NumInstance} {x : ℝ} (h : RoundsUp r x) : RND r x = ⌊x⌋ + 1 := by
  obtain ⟨hne, hcut⟩ := h
  rw [RND, if_neg hne, if_pos hcut]

theorem RND_of_not_roundsUp {r : NumInstance} {x : ℝ} (h : ¬ RoundsUp r x) : RND r x = ⌊x⌋ := by
  rw [RND]
  split
  · rfl
  · next hne => rw [if_neg fun hcut => h ⟨hne, hcut⟩]

theorem RND_intCast (r : NumInstance) (z : ℤ) : RND r z = z := by
  rw [RND_of_not_roundsUp fun h => h.1 (by rw [Int.floor_intCast]), Int.floor_intCast]

theorem floor_le_RND (r : NumInstance) (x : ℝ) : ⌊x⌋ ≤ RND r x := by
  by_cases h : RoundsUp r x
  · rw [RND_of_roundsUp h]; omega
  · rw [RND_of_not_roundsUp h]

theorem RND_le_ceil (r : NumInstance) (x : ℝ) : RND r x ≤ ⌈x⌉ := by
  by_cases h : RoundsUp r x
  · rw [RND_of_roundsUp h, Int.add_one_le_iff, Int.lt_ceil]
    exact lt_of_le_of_ne (Int.floor_le x) h.1.symm
  · rw [RND_of_not_roundsUp h]
    exact Int.floor_le_ceil x

/-- Between two integers the rounding goes up from some point on. -/
theorem RoundsUp.mono {r : NumInstance} {x y : ℝ} (h : RoundsUp r x) (hxy : x ≤ y)
    (hfloor : ⌊x⌋ = ⌊y⌋) : RoundsUp r y := by
  obtain ⟨hne, hcut⟩ := h
  have hlt : (⌊x⌋ : ℝ) < x := lt_of_le_of_ne (Int.floor_le x) hne.symm
  rw [RoundsUp, ← hfloor]
  refine ⟨(hlt.trans_le hxy).ne', ?_⟩
  obtain heq | hxy := hxy.eq_or_lt
  · rwa [← heq]
  · obtain hcut | ⟨hcut, -⟩ := hcut
    · exact .inl (hcut.trans hxy)
    · exact .inl (hcut ▸ hxy)

theorem RND_mono (r : NumInstance) {x y : ℝ} (hxy : x ≤ y) : RND r x ≤ RND r y := by
  obtain hfloor | hfloor := (Int.floor_mono hxy).eq_or_lt
  · by_cases h : RoundsUp r x
    · rw [RND_of_roundsUp h, RND_of_roundsUp (h.mono hxy hfloor), hfloor]
    · rw [RND_of_not_roundsUp h, hfloor]
      exact floor_le_RND r y
  · calc RND r x ≤ ⌈x⌉ := RND_le_ceil r x
      _ ≤ ⌊x⌋ + 1 := Int.ceil_le_floor_add_one x
      _ ≤ ⌊y⌋ := hfloor
      _ ≤ RND r y := floor_le_RND r y

theorem abs_RND_sub_lt_one (r : NumInstance) (x : ℝ) : |(RND r x : ℝ) - x| < 1 := by
  have hlow : (⌊x⌋ : ℝ) ≤ RND r x := by exact_mod_cast floor_le_RND r x
  have hhigh : (RND r x : ℝ) ≤ ⌈x⌉ := by exact_mod_cast RND_le_ceil r x
  rw [abs_lt]
  constructor <;> linarith [Int.lt_floor_add_one x, Int.ceil_lt_add_one x]

/-- The reference instance goes up beyond half-way, and at half-way above zero; an integer lies below
half-way to the next. -/
theorem roundsUp_reference_iff (x : ℝ) :
    RoundsUp .reference x ↔ ⌊x⌋ + 1 / 2 < x ∨ x = ⌊x⌋ + 1 / 2 ∧ 0 ≤ ⌊x⌋ := by
  have hcut : ((roundCut .reference ⌊x⌋ : ℚ) : ℝ) = ⌊x⌋ + 1 / 2 := by
    rw [roundCut]; push_cast; rfl
  rw [RoundsUp, hcut, roundTie, decide_eq_true_iff, and_iff_right_iff_imp]
  rintro (h | ⟨h, -⟩) <;> linarith

theorem RND_reference_of_nonneg {x : ℝ} (hx : 0 ≤ x) : RND .reference x = ⌊x + 1 / 2⌋ := by
  have h0 : 0 ≤ ⌊x⌋ := Int.floor_nonneg.mpr hx
  have hlow := Int.floor_le x
  have hhigh := Int.lt_floor_add_one x
  symm
  by_cases h : RoundsUp .reference x
  · rw [RND_of_roundsUp h, Int.floor_eq_iff]
    rw [roundsUp_reference_iff] at h
    push_cast
    constructor <;> obtain h | ⟨h, -⟩ := h <;> linarith
  · rw [RND_of_not_roundsUp h, Int.floor_eq_iff]
    rw [roundsUp_reference_iff, not_or, not_lt] at h
    have hlt : x < ⌊x⌋ + 1 / 2 := lt_of_le_of_ne h.1 fun heq => h.2 ⟨heq, h0⟩
    constructor <;> linarith

theorem RND_reference_of_neg {x : ℝ} (hx : x < 0) : RND .reference x = -⌊-x + 1 / 2⌋ := by
  have h0 : ⌊x⌋ < 0 := Int.floor_lt.mpr (by exact_mod_cast hx)
  have hlow := Int.floor_le x
  have hhigh := Int.lt_floor_add_one x
  rw [eq_comm, neg_eq_iff_eq_neg]
  by_cases h : RoundsUp .reference x
  · rw [RND_of_roundsUp h, Int.floor_eq_iff]
    rw [roundsUp_reference_iff] at h
    have hlt : ⌊x⌋ + 1 / 2 < x := h.resolve_right fun htie => absurd htie.2 h0.not_ge
    push_cast
    constructor <;> linarith
  · rw [RND_of_not_roundsUp h, Int.floor_eq_iff]
    rw [roundsUp_reference_iff, not_or, not_lt] at h
    push_cast
    constructor <;> linarith

/-- Settles O25: a rounding lies between floor and ceiling, and goes up from some point on between them. -/
theorem roundingLaws : Obligations.RoundingLaws := by
  refine ⟨fun r => ⟨RND_intCast r, fun _ _ => RND_mono r, abs_RND_sub_lt_one r⟩, fun x => ?_⟩
  obtain hneg | rfl | hpos := lt_trichotomy x 0
  · simp [RND_reference_of_neg hneg, sign_neg hneg, abs_of_neg hneg]
  · simpa using RND_intCast .reference 0
  · simp [RND_reference_of_nonneg hpos.le, sign_pos hpos, abs_of_pos hpos]

/-! ### `NUM.sinT` (R13) -/

open Real

theorem value_sinT_zero {n : ℕ} (hn : 0 < n) : value (sinT 0 n) = 0 := by
  simp [value_sinT hn]

theorem value_sinT_half {n : ℕ} (hn : 0 < n) (h : 2 ∣ n) : value (sinT (n / 2) n) = 0 := by
  have hn' : (n : ℝ) ≠ 0 := by exact_mod_cast hn.ne'
  have angle : 2 * π * ((n / 2 : ℕ) : ℝ) / n = π := by
    rw [Nat.cast_div h (by norm_num)]
    push_cast; field_simp
  rw [value_sinT hn, angle, sin_pi]

theorem value_sinT_quarter {n : ℕ} (hn : 0 < n) (h : 4 ∣ n) : value (sinT (n / 4) n) = 1 := by
  have hn' : (n : ℝ) ≠ 0 := by exact_mod_cast hn.ne'
  have angle : 2 * π * ((n / 4 : ℕ) : ℝ) / n = π / 2 := by
    rw [Nat.cast_div h (by norm_num)]
    push_cast; field_simp; norm_num
  rw [value_sinT hn, angle, sin_pi_div_two]

theorem value_sinT_odd {a n : ℕ} (hn : 0 < n) (ha : a ≤ n) :
    value (sinT (n - a) n) = -value (sinT a n) := by
  have hn' : (n : ℝ) ≠ 0 := by exact_mod_cast hn.ne'
  have angle : 2 * π * ((n - a : ℕ) : ℝ) / n = 2 * π - 2 * π * a / n := by
    rw [Nat.cast_sub ha]; field_simp
  rw [value_sinT hn, value_sinT hn, angle, sin_two_pi_sub]

/-- Three quarters of a turn are a quarter less than a whole one. -/
theorem value_sinT_three_quarters {n : ℕ} (hn : 0 < n) (h : 4 ∣ n) :
    value (sinT (3 * n / 4) n) = -1 := by
  have hindex : 3 * n / 4 = n - n / 4 := by omega
  rw [hindex, value_sinT_odd hn (Nat.div_le_self n 4), value_sinT_quarter hn h]

theorem value_sinT_scale {c n : ℕ} (hc : 0 < c) (hn : 0 < n) (a : ℕ) :
    value (sinT (c * a) (c * n)) = value (sinT a n) := by
  have hc' : (c : ℝ) ≠ 0 := by exact_mod_cast hc.ne'
  have angle : 2 * π * ((c * a : ℕ) : ℝ) / ((c * n : ℕ) : ℝ) = 2 * π * a / n := by
    push_cast
    rw [mul_left_comm, mul_div_mul_left _ _ hc']
  rw [value_sinT (Nat.mul_pos hc hn), value_sinT hn, angle]

theorem value_sinT_bound {n : ℕ} (hn : 0 < n) (a : ℕ) :
    -1 ≤ value (sinT a n) ∧ value (sinT a n) ≤ 1 := by
  rw [value_sinT hn]
  exact ⟨neg_one_le_sin _, sin_le_one _⟩

/-- Settles O60: every property is one of the sine, read off at the angle of the table entry. -/
theorem sineTable : Obligations.SineTable := fun a n ha =>
  have hn : 0 < n := Nat.zero_lt_of_lt ha
  ⟨value_sinT hn a, value_sinT_zero hn, value_sinT_half hn,
    fun h => ⟨value_sinT_quarter hn h, value_sinT_three_quarters hn h⟩,
    fun _ => value_sinT_odd hn ha.le, value_sinT_bound hn a,
    fun _ hc => value_sinT_scale hc hn a⟩

end Sys2Proof.Num

/-! ### `CFG` (R12) -/

namespace Sys2Proof

theorem Config.fsmax_cast (c : Config) : (c.fsmax : ℤ) = 2 ^ (c.sampleBits - 1) - 1 := by
  rw [Config.fsmax, Nat.cast_sub Nat.one_le_two_pow]
  push_cast; rfl

/-- The proof fields of `Config` ask for exactly the ranges of R12. -/
theorem Config.exists_iff_sizes_in_range (b n sb pcm ph : ℕ) (num rnd : NumInstance) :
    (1 ≤ b ∧ 1 ≤ n ∧ n ≤ 256 ∧ sb ≤ 2 ^ 28 ∧ pcm < 2 ^ 32 ↔
      ∃ c : Config, c.sampleBits = b ∧ c.maxStreams = n ∧ c.strmCap = sb ∧ c.pcmCap = pcm ∧
        c.phaseCap = ph ∧ c.num = num ∧ c.rnd = rnd) := by
  constructor
  · rintro ⟨hb, hn, hn', hsb, hpcm⟩
    exact ⟨⟨b, n, sb, pcm, ph, num, rnd, hb, ⟨hn, hn'⟩, hsb, hpcm⟩,
      rfl, rfl, rfl, rfl, rfl, rfl, rfl⟩
  · rintro ⟨c, rfl, rfl, rfl, rfl, rfl, rfl, rfl⟩
    exact ⟨c.sampleBits_pos, c.maxStreams_range.1, c.maxStreams_range.2, c.strmCap_le, c.pcmCap_lt⟩

/-- Settles O58: a configuration carries the proofs of its ranges. -/
theorem configurationRanges : Obligations.ConfigurationRanges :=
  ⟨Config.exists_iff_sizes_in_range, Config.fsmax_cast, rfl, rfl, rfl, rfl, rfl, rfl, rfl, rfl⟩

end Sys2Proof
end

section
/-! PROOFS. 10_state.md: what a step can do (R22, R30), what the commands leave alone (R23, R24, R27, R28,
R32), the host's registers (R25, R34 to R36), reset (R42), and the state invariants (R43). -/

namespace Sys2Proof.Machine

/-! ### What a command can do -/

/-- Everything a command can do to a state (60_exceptions.md R244, R245). -/
inductive ExecEffect (i : Instr) (s : State) : State → Prop
  /-- soft reset (44_system.md R221) -/
  | reset : i = .srst → ExecEffect i s s.softReset
  /-- refused in the error state (R245) -/
  | refused : s.status.err = true → ExecEffect i s s
  /-- ended by an error, in a check or in the command's own rule (R244) -/
  | raised (e : ErrCode) : ExecEffect i s ((s.setDone false).raise e (encode i))
  /-- carried out to its end -/
  | completed {u : State} : i ≠ .srst → s.status.err = false → legality i s = none →
      bodyOf i (s.setDone false) = .ok u → ExecEffect i s (u.setDone true)

theorem exec_effect {i : Instr} {s t : State} (h : exec i s = .next t) : ExecEffect i s t := by
  by_cases hi : i = .srst
  · subst hi
    cases h
    exact .reset rfl
  · rw [exec_eq hi] at h
    obtain ⟨herr, rfl⟩ | ⟨-, e, rfl, -⟩ | ⟨herr, hl, u, hu, rfl⟩ := runCommand_next h
    · exact .refused herr
    · exact .raised e
    · exact .completed hi herr hl hu

/-- What the common checks establish for the body of a command (R97). -/
theorem of_legality_none {i : Instr} {s : State} (h : legality i s = none) :
    (∀ m, modeNeeded i = some m → s.status.mode = m) ∧
      (geoNeeded i = true → s.status.geov = true) ∧ furtherCondition s i = true := by
  obtain ⟨h', -⟩ | ⟨hm, ⟨h', -⟩ | ⟨hg, ⟨h', -⟩ | ⟨-, hf⟩⟩⟩ := legality_cases i s
  · rw [h] at h'; cases h'
  · rw [h] at h'; cases h'
  · rw [h] at h'; cases h'
  · exact ⟨hm, hg, hf⟩

/-- What the body of each command may change, where it does not raise: all other fields of the state
stay. -/
def BodyFrame (s t : State) : Instr → Prop
  | .nop | .srst => t = s
  | .geoResolve => t = { s with
      spf := t.spf, bandw := t.bandw, bpb := t.bpb, avail := t.avail, nmin := t.nmin
      nmax := t.nmax, nb := t.nb, status := { s.status with geov := true } }
  | .geoWcount => t = { s with wc := t.wc }
  | .txStart => t = { s with
      wc := t.wc, widx := 0, sidx := 0, phase := t.phase, wave := [], amax := t.amax
      status := { s.status with txsil := false, mode := .tx } }
  | .txWindow => t = { s with
      phase := t.phase, wave := t.wave, amax := t.amax, widx := s.widx + 1 }
  | .txFinish => t = { s with
      pcm := t.pcm, pcmlen := t.pcmlen, wave := []
      status := { s.status with txsil := t.status.txsil, mode := .idle } }
  | .txEncode => t = { s with
      wc := t.wc, widx := t.wc, sidx := 0, phase := t.phase, wave := [], amax := t.amax
      pcm := t.pcm, pcmlen := t.pcmlen
      status := { s.status with txsil := t.status.txsil, mode := .idle } }
  | .rxStart => t = { s with
      wc := t.wc, widx := 0, sidx := 0, slen := t.slen, acc := t.acc, mag := [], mmax := t.mmax
      status := { s.status with rxsil := false, mode := .rx } }
  | .rxSpectrum => t = { s with mag := t.mag, mmax := t.mmax, sidx := s.sidx + 1 }
  | .rxDetect => t = { s with sb := t.sb, slen := t.slen, acc := t.acc, widx := s.widx + 1 }
  | .rxFinish => t = { s with
      sb := t.sb, slen := t.slen, acc := t.acc, mag := []
      status := { s.status with rxsil := t.status.rxsil, mode := .idle } }
  | .rxDecode => t = { s with
      wc := t.wc, widx := t.wc, sidx := t.wc, slen := t.slen, acc := t.acc, sb := t.sb
      mag := [], mmax := t.mmax
      status := { s.status with rxsil := t.status.rxsil, mode := .idle } }
  | .bitGet _ => t = { s with bitv := t.bitv }
  | .bitPut _ _ | .bitFlush _ => t = { s with sb := t.sb, slen := t.slen, acc := t.acc }
  | .bitClr _ => t = { s with slen := t.slen, acc := t.acc }

theorem bodyOf_frame {i : Instr} {s t : State} (h : bodyOf i s = .ok t) : BodyFrame s t i := by
  cases i
  case geoResolve => obtain ⟨-, rfl⟩ := geoResolveBody_cases h; rfl
  case geoWcount => obtain ⟨-, rfl⟩ := geoWcountBody_cases h; rfl
  case txStart => obtain ⟨-, -, rfl⟩ := txStartBody_cases h; rfl
  case txEncode => exact txEncodeBody_frame h
  case rxStart => obtain ⟨-, -, rfl⟩ := rxStartBody_cases h; rfl
  case rxDetect => exact rxDetectBody_frame h
  case rxFinish =>
    obtain ⟨u, hu, rfl⟩ := rxFinishBody_cases h
    rw [State.flushStreams_frame hu]; rfl
  case rxDecode => exact rxDecodeBody_frame h
  case bitGet =>
    simp only [bodyOf, bitGetBody] at h
    split at h <;> cases h
    rfl
  case bitPut => exact State.putBit_frame h
  case bitFlush => exact State.flushBits_frame h
  all_goals cases h; rfl

/-- The mode in which the body of a command leaves the machine (R28). -/
def modeAfter (i : Instr) (m : Mode) : Mode :=
  match i with
  | .txStart => .tx
  | .rxStart => .rx
  | .txFinish | .txEncode | .rxFinish | .rxDecode => .idle
  | .nop | .srst | .geoResolve | .geoWcount | .txWindow | .rxSpectrum | .rxDetect
  | .bitGet _ | .bitPut _ _ | .bitFlush _ | .bitClr _ => m

theorem bodyOf_mode {i : Instr} {s t : State} (h : bodyOf i s = .ok t) :
    t.status.mode = modeAfter i s.status.mode := by
  have hf := bodyOf_frame h
  cases i <;> (rw [BodyFrame] at hf; rw [hf]; rfl)

/-- What R43 (b) says of a state, with what it is derived from: the sizes, P0 to P6, and the geometry
registers. -/
abbrev State.geometryData (s : State) :
    Config × Params × Word × Word × Word × Word × Word × Word × Vector Word bankSize :=
  (s.cfg, s.geoParams, s.spf, s.bandw, s.bpb, s.avail, s.nmin, s.nmax, s.nb)

/-- No body but that of `GEO.RESOLVE` touches the geometry (R32, R33). -/
theorem bodyOf_geometryData {i : Instr} {s t : State} (hi : i ≠ .geoResolve)
    (h : bodyOf i s = .ok t) :
    t.geometryData = s.geometryData ∧ t.status.geov = s.status.geov := by
  have hf := bodyOf_frame h
  cases i
  case geoResolve => exact absurd rfl hi
  all_goals rw [BodyFrame] at hf; rw [hf]; exact ⟨rfl, rfl⟩

/-- Settles O20: a command that does not complete changes no register but those of errors, and a body only
what its frame lists. -/
theorem geometryWrittenOnlyByResolve : Obligations.GeometryWrittenOnlyByResolve := by
  intro i s t hi h
  cases exec_effect h with
  | reset h' => exact absurd h' hi
  | refused => exact ⟨rfl, fun _ => ⟨rfl, rfl, rfl, rfl, rfl, rfl, rfl⟩⟩
  | raised e => exact ⟨rfl, fun _ => ⟨rfl, rfl, rfl, rfl, rfl, rfl, rfl⟩⟩
  | @completed u _ _ _ hu =>
      obtain ⟨-, hparams, -⟩ := bodyOf_keeps hu
      refine ⟨hparams, fun hne => ?_⟩
      have hgeo := (bodyOf_geometryData hne hu).1
      simp only [State.geometryData, Prod.mk.injEq] at hgeo
      obtain ⟨-, -, hregs⟩ := hgeo
      exact hregs

/-- Settles O54: only a body that completes moves a window counter, as its frame says. -/
theorem windowsInOrder : Obligations.WindowsInOrder := by
  intro i s t h
  cases exec_effect h with
  | reset hi => exact .inr (.inl ⟨by simp [hi], rfl, rfl⟩)
  | refused => exact .inl ⟨rfl, rfl⟩
  | raised e => exact .inl ⟨rfl, rfl⟩
  | @completed u _ _ _ hu =>
      have hf := bodyOf_frame hu
      cases i <;> rw [BodyFrame] at hf <;> rw [hf]
      case txStart | rxStart | txWindow | rxDetect | rxSpectrum | txEncode | rxDecode => simp
      all_goals exact .inl ⟨rfl, rfl⟩

/-! ### What a host access can do -/

section

variable (s : State)

theorem State.hostMayLoad_iff :
    s.hostMayLoad = true ↔ s.status.err = false ∧ s.status.mode = .idle := by
  simp [State.hostMayLoad]

theorem writeReg_param {i : Nat} (hi : i < 8) (v : Word) :
    writeReg s (0x08 + i) v = writeParam s i v := by
  rw [writeReg, if_pos (by omega), Nat.add_sub_cancel_left]

theorem writeReg_pcmlen (v : Word) :
    writeReg s 0x19 v = if s.hostMayLoad then { s with pcmlen := v } else s.dropWrite := rfl

theorem writeReg_bitix (v : Word) :
    writeReg s 0x1A v = if s.status.err then s.dropWrite else { s with bitix := v } := rfl

theorem writeReg_slen {st : Nat} (hst : st < s.cfg.maxStreams) (v : Word) :
    writeReg s (0x100 + st) v = if s.hostMayLoad then s.setSlen st v else s.dropWrite := by
  rw [writeReg, if_neg (by omega), if_neg (by omega), if_neg (by omega), if_pos (by omega),
    Nat.add_sub_cancel_left]

/-- The indices with a register the host may write, besides `CMD` (R36). -/
def State.writable (a : Nat) : Prop :=
  (∃ i < 8, a = 0x08 + i) ∨ a = 0x19 ∨ a = 0x1A ∨ ∃ st < s.cfg.maxStreams, a = 0x100 + st

theorem writeReg_readOnly {a : Nat} (ha : ¬ s.writable a) (v : Word) :
    writeReg s a v = s.dropWrite := by
  rw [State.writable, not_or, not_or, not_or] at ha
  obtain ⟨hparam, hpcmlen, hbitix, hslen⟩ := ha
  rw [writeReg, if_neg fun h => hparam ⟨a - 0x08, by omega, by omega⟩, if_neg hpcmlen,
    if_neg hbitix, if_neg fun h => hslen ⟨a - 0x100, by omega, by omega⟩]

/-- Everything a host access can do to a state (R22, R25, R34 to R36; 20_memory.md R64). -/
inductive HostEffect (s : State) : HostAccess → State → Prop
  /-- a command written to `CMD` (R30) -/
  | command {w : Word} {i : Instr} {t : State} : decode s.cfg w = .ok i → exec i s = .next t →
      HostEffect s (.writeReg 0 w) t
  /-- an illegal word in the error state (60_exceptions.md R245) -/
  | refusedWord {w : Word} : s.status.err = true → HostEffect s (.writeReg 0 w) s
  /-- an illegal word outside it (60_exceptions.md R246) -/
  | illegalWord (w : Word) :
      HostEffect s (.writeReg 0 w) ((s.setDone false).raise .illcmd w)
  /-- a write that is not permitted (R25, R34 to R36) -/
  | dropped {a : HostAccess} : HostEffect s a s.dropWrite
  /-- a write of P0 to P6 (R25) -/
  | parameter {a : HostAccess} (i : Nat) (v : Word) :
      HostEffect s a ((s.setParam i v).setGeov false)
  /-- a write of P7 (R25, R26) -/
  | threshold {a : HostAccess} (v : Word) : HostEffect s a (s.setParam 7 v)
  /-- a write of `BITIX` (R35) -/
  | bitIndex {a : HostAccess} (v : Word) : HostEffect s a { s with bitix := v }
  /-- a write of a length or of a buffer element (R34, 20_memory.md R64) -/
  | loaded {a : HostAccess} {t : State} : s.status.mode = .idle →
      t = { s with pcmlen := t.pcmlen, slen := t.slen, sb := t.sb, pcm := t.pcm } →
      HostEffect s a t
  /-- a read -/
  | answered {a : HostAccess} (r : HostAnswer) : HostEffect s a (s.answer r)
  /-- hard reset (R42) -/
  | reset : HostEffect s .hardReset s.hardReset

theorem writeCmd_effect {w : Word} {t : State} (h : writeCmd s w = .next t) :
    HostEffect s (.writeReg 0 w) t := by
  rw [writeCmd] at h
  split at h
  · next i hi => exact .command hi h
  · rw [illegalCommand] at h
    split at h <;> cases h
    · next herr => exact .refusedWord herr
    · exact .illegalWord w

/-- A write under the permission of R34 and R64: done in IDLE, or dropped. -/
theorem hostEffect_load {a : HostAccess} {t : State}
    (ht : t = { s with pcmlen := t.pcmlen, slen := t.slen, sb := t.sb, pcm := t.pcm }) :
    HostEffect s a (if s.hostMayLoad then t else s.dropWrite) := by
  split
  · next hload => exact .loaded (s.hostMayLoad_iff.mp hload).2 ht
  · exact .dropped

theorem writeReg_effect (a : Nat) (v : Word) : HostEffect s (.writeReg a v) (writeReg s a v) := by
  by_cases ha : s.writable a
  · obtain ⟨i, hi, rfl⟩ | rfl | rfl | ⟨st, hst, rfl⟩ := ha
    · rw [writeReg_param s hi, writeParam]
      split
      · exact .dropped
      · split
        · exact .parameter i v
        · obtain rfl : i = 7 := by omega
          exact .threshold v
    · exact hostEffect_load s rfl
    · rw [writeReg_bitix]
      split
      · exact .dropped
      · exact .bitIndex v
    · rw [writeReg_slen s hst]
      exact hostEffect_load s rfl
  · rw [writeReg_readOnly s ha]
    exact .dropped

end

section

variable {s : State}

theorem hostAccess_effect {a : HostAccess} {t : State} (h : hostAccess a s = .next t) :
    HostEffect s a t := by
  cases a with
  | writeReg a v =>
      rw [hostAccess] at h
      split at h
      · next ha => subst ha; exact writeCmd_effect s h
      · cases h; exact writeReg_effect s a v
  | readReg a => cases h; exact .answered _
  | writeSb st a v =>
      rw [hostAccess] at h
      split at h <;> cases h
      · next hc => exact .loaded (s.hostMayLoad_iff.mp hc.1).2 rfl
      · exact .dropped
  | readSb st a =>
      rw [hostAccess] at h
      split at h <;> cases h <;> exact .answered _
  | writePcm a v =>
      rw [hostAccess] at h
      split at h <;> cases h
      · next hc => exact .loaded (s.hostMayLoad_iff.mp hc.1).2 rfl
      · exact .dropped
  | readPcm a =>
      rw [hostAccess] at h
      split at h <;> cases h <;> exact .answered _
  | hardReset => cases h; exact .reset

theorem step_of_pending {a : HostAccess} {rest : List HostAccess}
    (hp : s.host.pending = a :: rest) :
    step s = hostAccess a { s with host := { s.host with pending := rest } } := by
  rw [step, nextAccess, hp]

/-- A step is idle, or it is one host access, taken off the host's queue (R22, R272). -/
theorem step_access {t : State} (h : step s = .next t) :
    t = s ∨ ∃ a p, hostAccess a { s with host := p } = .next t := by
  cases hp : s.host.pending with
  | nil =>
      rw [step, nextAccess, hp] at h
      cases h
      exact .inl rfl
  | cons a rest =>
      rw [step_of_pending hp] at h
      exact .inr ⟨a, _, h⟩

theorem hostAccess_command {w : Word} {i : Instr} (hd : decode s.cfg w = .ok i) :
    hostAccess (.writeReg 0 w) s = exec i s := by
  rw [hostAccess, if_pos rfl, writeCmd, hd]

theorem exec_cfg {i : Instr} {t : State} (h : exec i s = .next t) : t.cfg = s.cfg := by
  cases exec_effect h with
  | completed _ _ _ hu => exact (bodyOf_keeps hu).1
  | _ => rfl

theorem hostAccess_cfg {a : HostAccess} {t : State} (h : hostAccess a s = .next t) :
    t.cfg = s.cfg := by
  cases hostAccess_effect h with
  | command _ he => exact exec_cfg he
  | loaded _ ht => rw [ht]
  | _ => rfl

end

/-- Settles O5: decoding reads only the configuration, which the queue is no part of. -/
theorem stepRunsDecodedCommand : Obligations.StepRunsDecodedCommand := by
  intro s w rest i hp hd
  rw [step_of_pending hp]
  exact hostAccess_command hd

/-- Settles O59: no effect of a command or of a host access reaches `CFG`. -/
theorem configurationFixed : Obligations.ConfigurationFixed := by
  refine ⟨fun _ _ _ => exec_cfg, fun _ _ _ => hostAccess_cfg, fun s t h => ?_⟩
  obtain rfl | ⟨a, p, ha⟩ := step_access h
  · rfl
  · have hcfg := hostAccess_cfg ha
    exact hcfg

/-- Settles O55: a host access other than a command or a reset leaves `MODE`, and a command leaves the
mode `modeAfter` gives, from the one it needs. -/
theorem modeTransitions : Obligations.ModeTransitions := by
  intro a s t h
  cases hostAccess_effect h with
  | @command w i _ hd he =>
      cases exec_effect he with
      | reset hi => exact .inr (.inl ⟨w, i, rfl, hd, .inl ⟨hi, rfl⟩⟩)
      | refused => exact .inl rfl
      | raised => exact .inl rfl
      | @completed u _ _ hl hu =>
          have hmode := bodyOf_mode hu
          have hneeded := (of_legality_none hl).1
          cases i
          case txStart | txFinish | rxStart | rxFinish =>
            refine .inr (.inl ⟨w, _, rfl, hd, ?_⟩)
            simp [hneeded _ rfl, hmode, modeAfter]
          case txEncode | rxDecode => exact .inl (hmode.trans (hneeded _ rfl).symm)
          all_goals exact .inl hmode
  | loaded _ ht => exact .inl (by rw [ht])
  | reset => exact .inr (.inr ⟨rfl, rfl⟩)
  | _ => exact .inl rfl

/-! ### The registers as the host reads and writes them -/

theorem hostAccess_writeReg {a : Nat} (ha : a ≠ 0) (v : Word) (s : State) :
    hostAccess (.writeReg a v) s = .next (writeReg s a v) := by
  rw [hostAccess, if_neg ha]

/-- Settles O45: a permitted write is `setParam`, and one of P0 to P6 also clears `GEOV`. -/
theorem parameterWrites : Obligations.ParameterWrites := by
  intro s i v hi
  rw [hostAccess_writeReg (by omega), writeReg_param s hi, writeParam]
  refine ⟨fun herr => ⟨_, rfl, ?_⟩, fun herr => by rw [if_pos herr]; rfl⟩
  rw [if_neg (by simp [herr])]
  have hparam : ∀ j, (s.setParam i v).param j = if j = i then v else s.param j := by
    simp [State.param_setParam, hi]
  by_cases hi7 : i < 7 <;> simp only [hi7, ↓reduceIte] <;>
    exact ⟨hparam, ⟨fun _ _ => rfl, fun _ => rfl⟩, rfl⟩

/-- Settles O46: `hostMayLoad` is the permission, and the two cases of the statement are its two values. -/
theorem lengthAndIndexWrites : Obligations.LengthAndIndexWrites := by
  intro s v
  refine ⟨fun herr hmode => ?_, fun hno => ?_, fun herr => ?_, fun herr => ?_⟩
  · have hload : s.hostMayLoad = true := s.hostMayLoad_iff.mpr ⟨herr, hmode⟩
    refine ⟨?_, fun st hst => ⟨s.setSlen st v, ?_, fun i => ?_, rfl⟩⟩
    · rw [hostAccess_writeReg (by omega), writeReg_pcmlen, if_pos hload]
    · rw [hostAccess_writeReg (by omega), writeReg_slen s hst, if_pos hload]
    · simp [State.slenOf_setSlen, lt_bankSize _ hst]
  · have hload : ¬ s.hostMayLoad = true := by
      rw [s.hostMayLoad_iff]
      simpa [imp_iff_not_or] using hno
    refine ⟨?_, fun st hst => ?_⟩
    · rw [hostAccess_writeReg (by omega), writeReg_pcmlen, if_neg hload]; rfl
    · rw [hostAccess_writeReg (by omega), writeReg_slen s hst, if_neg hload]; rfl
  · rw [hostAccess_writeReg (by omega), writeReg_bitix, if_neg (by simp [herr])]
  · rw [hostAccess_writeReg (by omega), writeReg_bitix, if_pos herr]; rfl

/-- The flags of `STATUS` by the weights of their bits (R29). -/
theorem statusWord_toNat (f : Status) :
    (statusWord f).toNat = 2 * f.done.toNat + 4 * f.err.toNat + 8 * f.geov.toNat +
      16 * f.txsil.toNat + 32 * f.rxsil.toNat + 64 * f.wdrop.toNat + 256 * f.mode.code.toNat := by
  obtain ⟨done, err, geov, txsil, rxsil, wdrop, mode⟩ := f
  revert done err geov txsil rxsil wdrop
  cases mode <;> decide

/-- An accumulator as the host reads it (R39). -/
theorem accWord_toNat (a : Acc) : (accWord a).toNat = a.val.toNat + 2 ^ 8 * a.cnt.toNat := by
  have hor := Nat.shiftLeft_add_eq_or_of_lt a.val.isLt a.cnt.toNat
  have hcat : (accWord a).toNat = a.cnt.toNat <<< 8 ||| a.val.toNat := by
    rw [accWord, BitVec.toNat_append, BitVec.toNat_append]
    simp
  rw [hcat, ← hor, Nat.shiftLeft_eq]
  ring

theorem readReg_slen {s : State} {st : Nat} (hst : st < s.cfg.maxStreams) :
    readReg s (0x100 + st) = s.slen[st]?.getD 0 := by
  have := lt_bankSize _ hst
  rw [bankSize] at this
  unfold readReg
  rw [if_neg (by omega), if_pos (by omega), Nat.add_sub_cancel_left, if_pos hst]

theorem readReg_acc {s : State} {st : Nat} (hst : st < s.cfg.maxStreams) :
    readReg s (0x200 + st) = accWord (s.accOf st) := by
  have := lt_bankSize _ hst
  rw [bankSize] at this
  unfold readReg
  rw [if_neg (by omega), if_neg (by omega), if_pos (by omega), Nat.add_sub_cancel_left,
    if_pos hst]

theorem readReg_nb {s : State} {st : Nat} (hst : st < s.cfg.maxStreams) :
    readReg s (0x300 + st) = s.nb[st]?.getD 0 := by
  unfold readReg
  rw [if_neg (by omega), if_neg (by omega), if_neg (by omega), Nat.add_sub_cancel_left,
    if_pos hst]

theorem readReg_param (s : State) {i : Nat} (hi : i < 8) : readReg s (0x08 + i) = s.param i := by
  interval_cases i <;> rfl

/-- The reserved indices, and `CMD`, read 0 (R36). -/
theorem readReg_reserved {s : State} {a : Nat}
    (ha : a = 0 ∨ 0x04 ≤ a ∧ a < 0x08 ∨ 0x1C ≤ a ∧ a < 0x100 ∨
      0x100 + s.cfg.maxStreams ≤ a ∧ a < 0x200 ∨ 0x200 + s.cfg.maxStreams ≤ a ∧ a < 0x300 ∨
      0x300 + s.cfg.maxStreams ≤ a) : readReg s a = 0 := by
  unfold readReg
  split
  · split
    any_goals omega
    rfl
  · split
    · rw [if_neg (by omega)]
    · split
      · rw [if_neg (by omega)]
      · rw [if_neg (by omega)]

/-- Settles O47: the words by value, the register files entry by entry, and the indices left over. -/
theorem registerMap : Obligations.RegisterMap := by
  intro s
  refine ⟨?_, rfl, rfl, fun _ => readReg_param s, rfl, ?_, fun st hst => ⟨?_, ?_, ?_⟩,
    fun _ => readReg_reserved, fun a v ha => ?_⟩
  · have hword : readReg s 0x01 = statusWord s.status := rfl
    rw [hword, statusWord_toNat]
    cases s.status.mode <;> rfl
  · have hword : readReg s 0x1B = (BitVec.ofBool s.bitv).zeroExtend 32 := rfl
    rw [hword]
    cases s.bitv <;> rfl
  · rw [readReg_slen hst, State.slenOf]
  · rw [readReg_acc hst, accWord_toNat]
  · rw [readReg_nb hst, State.nbOf]
  · rw [hostAccess_writeReg (by omega), writeReg_readOnly s]
    · rfl
    · rintro (⟨i, hi, rfl⟩ | rfl | rfl | ⟨st, hst, rfl⟩) <;> omega

/-- Settles O49: the bound of the buffer decides the answer, never the change. -/
theorem hostReads : Obligations.HostReads := by
  intro s st a
  refine ⟨rfl, ?_, ?_, fun _ => rfl⟩
  · rw [hostAccess]; split <;> rfl
  · rw [hostAccess]; split <;> rfl

/-! ### Reset -/

/-- The reset state, with any contents of the buffers and any host. -/
theorem resetOf_cleared (c : Config) (sb : Vector (Memory Byte) bankSize) (pcm : Memory Sample)
    (boots : Nat) (host : HostPort) :
    State.Cleared { State.resetOf c with sb := sb, pcm := pcm, boots := boots, host := host } where
  params i hi := by simp [State.param, State.resetOf, hi]
  status := by change statusWord Status.clear = 0; decide
  error := ⟨rfl, rfl⟩
  geometry := ⟨rfl, rfl, rfl, rfl, rfl, rfl, rfl⟩
  nb i hi := by simp [State.nbOf, State.resetOf, lt_bankSize _ hi]
  sequence := ⟨rfl, rfl⟩
  lengths := ⟨rfl, fun i hi => by simp [State.slenOf, State.resetOf, lt_bankSize _ hi]⟩
  port := ⟨rfl, rfl⟩
  phase _ _ := rfl
  acc i hi := by simp [State.accOf, State.resetOf, lt_bankSize _ hi, Acc.clear]
  hidden := ⟨rfl, rfl, Num.value_zero, Num.value_zero⟩

@[simp] theorem sbOf_resetOf (c : Config) (st : Nat) : (State.resetOf c).sbOf st = [] := by
  rw [State.sbOf, State.resetOf, Vector.getElem?_replicate]
  split <;> rfl

/-- Settles O15. -/
theorem resetStateCleared : Obligations.ResetStateCleared :=
  fun c => ⟨resetOf_cleared c _ _ _ _, rfl⟩

/-- Settles O14: the reset state with the next count of resets, whose buffers list no element. -/
theorem hardResetClears : Obligations.HardResetClears := by
  refine fun s => ⟨s.hardReset, rfl, resetOf_cleared _ _ _ _ _, rfl, rfl, rfl, fun st a => ?_,
    fun _ => rfl⟩
  have hsb : s.hardReset.sbOf st = [] := sbOf_resetOf s.cfg st
  rw [State.sbRead, hsb]
  rfl

/-! ### The invariants of R43, mode by mode -/

/-- R43 (d). -/
def State.AccInv (s : State) : Prop :=
  ∀ st < s.cfg.maxStreams, (s.accOf st).val.toNat < 2 ^ (s.accOf st).cnt.toNat

/-- What R43 says in every mode: (a), (b), (d). -/
structure State.BaseInv (s : State) : Prop where
  noError : s.status.err = false → s.errcode = 0 ∧ s.errcmd = 0
  geometry : s.status.geov = true → s.Resolved
  acc : s.AccInv

/-- What R43 says of a transmit run: (c), (e), (f). -/
structure State.TxInv (s : State) : Prop where
  window : s.widx ≤ s.wc
  slice : s.sidx = 0
  phase : s.status.geov = true → ∀ i < s.nstr, ∀ j < s.bpb.toNat, s.phaseOf i j < s.nfft
  waveLength : s.wave.length = s.widx.toNat * s.spf.toNat
  wavePeak : Num.value s.amax = greatestOf (s.wave.map fun x => |Num.value x|)

/-- What R43 says of a receive run: (c), (g). -/
structure State.RxInv (s : State) : Prop where
  window : s.widx ≤ s.wc
  slice : s.sidx ≤ s.wc
  magLength : s.mag.length = s.sidx.toNat
  magSlices : s.status.geov = true → ∀ p < s.sidx.toNat, s.mag[p]? = some (s.spectrum p)
  magPeak : s.maxMagnitude = greatestOf (s.mag.flatten.map fun m => √(Num.value m))

theorem inv_iff {s : State} : s.Inv ↔
    s.BaseInv ∧ (s.status.mode = .tx → s.TxInv) ∧ (s.status.mode = .rx → s.RxInv) := by
  constructor
  · intro h
    refine ⟨⟨h.noError, h.geometry, h.acc⟩, fun hm => ?_, fun hm => ?_⟩
    · have hidle : s.status.mode ≠ .idle := by simp [hm]
      exact ⟨(h.windows hidle).1, h.txSlice hm, h.phase hm, h.waveLength hm, h.wavePeak hm⟩
    · have hidle : s.status.mode ≠ .idle := by simp [hm]
      exact ⟨(h.windows hidle).1, (h.windows hidle).2, h.magLength hm, h.magSlices hm, h.magPeak hm⟩
  · rintro ⟨hbase, htx, hrx⟩
    exact {
      noError := hbase.noError
      geometry := hbase.geometry
      windows := fun hidle => by
        cases hm : s.status.mode with
        | idle => exact absurd hm hidle
        | tx => exact ⟨(htx hm).window, (htx hm).slice ▸ BitVec.le_def.mpr (Nat.zero_le _)⟩
        | rx => exact ⟨(hrx hm).window, (hrx hm).slice⟩
      txSlice := fun hm => (htx hm).slice
      acc := hbase.acc
      phase := fun hm => (htx hm).phase
      waveLength := fun hm => (htx hm).waveLength
      wavePeak := fun hm => (htx hm).wavePeak
      magLength := fun hm => (hrx hm).magLength
      magSlices := fun hm => (hrx hm).magSlices
      magPeak := fun hm => (hrx hm).magPeak }

theorem State.BaseInv.inv_of_idle {s : State} (h : s.BaseInv) (hm : s.status.mode = .idle) :
    s.Inv :=
  inv_iff.mpr ⟨h, by simp [hm], by simp [hm]⟩

theorem State.BaseInv.inv_of_tx {s : State} (h : s.BaseInv) (hm : s.status.mode = .tx)
    (htx : s.TxInv) : s.Inv :=
  inv_iff.mpr ⟨h, fun _ => htx, by simp [hm]⟩

theorem State.BaseInv.inv_of_rx {s : State} (h : s.BaseInv) (hm : s.status.mode = .rx)
    (hrx : s.RxInv) : s.Inv :=
  inv_iff.mpr ⟨h, by simp [hm], fun _ => hrx⟩

/-! ### Reset -/

/-- The reset state, with any contents of the buffers and any host: both resets leave such a state. -/
theorem resetOf_inv (c : Config) (sb : Vector (Memory Byte) bankSize) (pcm : Memory Sample)
    (boots : Nat) (host : HostPort) :
    State.Inv { State.resetOf c with sb := sb, pcm := pcm, boots := boots, host := host } := by
  have hbase : State.BaseInv
      { State.resetOf c with sb := sb, pcm := pcm, boots := boots, host := host } := {
    noError := fun _ => ⟨rfl, rfl⟩
    geometry := fun h => by cases h
    acc := fun st hst => by
      rw [(resetOf_cleared c sb pcm boots host).acc st hst]
      decide }
  exact hbase.inv_of_idle rfl

/-- Settles O50: no run is under way after reset, and nothing is listed in a buffer. -/
theorem resetSatisfiesInvariants : Obligations.ResetSatisfiesInvariants := by
  intro c
  have hmode : (State.resetOf c).status.mode = .idle := rfl
  refine ⟨resetOf_inv c _ _ _ _, ?_, ?_, ?_, ?_⟩
  · constructor <;> simp [hmode]
  · intro htx; cases htx
  · intro htx; cases htx
  · exact ⟨fun st => by rw [sbOf_resetOf]; exact Memory.wf_nil, Memory.wf_nil,
      fun x hx => by cases hx⟩

/-! ### Updates that R43 does not speak of -/

theorem State.Resolved.congr {s t : State} (h : s.Resolved)
    (hgeo : t.geometryData = s.geometryData) : t.Resolved := by
  simp only [State.geometryData, Prod.mk.injEq] at hgeo
  obtain ⟨hcfg, hparams, hspf, hbandw, hbpb, havail, hnmin, hnmax, hnb⟩ := hgeo
  constructor
  · rw [hparams, hcfg]; exact h.check
  · rw [hparams, hspf]; exact h.spf
  · rw [hparams, hbandw]; exact h.bandw
  · rw [hparams, hbpb]; exact h.bpb
  · rw [hparams, havail]; exact h.avail
  · rw [hparams, hnmin]; exact h.nmin
  · rw [hparams, hnmax]; exact h.nmax
  · intro i hi
    rw [State.nstr, State.nbOf, hparams, hnb]
    exact h.nb i (hcfg ▸ hi)

/-- The window counters and the hidden stores of a run (R27, R38, R40, R41), and `SPF`, by which their
lengths go. -/
abbrev State.runData (s : State) :
    Word × Word × Word × Word × List (List Nat) × List Num.TrigSum × Num.TrigSum ×
      List (List Num.TrigSum) × Num.TrigSum :=
  (s.spf, s.wc, s.widx, s.sidx, s.phase, s.wave, s.amax, s.mag, s.mmax)

/-- t differs from s in nothing R43 speaks of, but that its geometry may have become invalid and an error
may have been raised. -/
structure State.SameRun (s t : State) : Prop where
  error : t.status.err = false → s.status.err = false ∧ t.errcode = s.errcode ∧ t.errcmd = s.errcmd
  mode : t.status.mode = s.status.mode
  geometry : t.status.geov = true → s.status.geov = true ∧ t.geometryData = s.geometryData
  acc : t.cfg = s.cfg ∧ t.acc = s.acc
  run : t.runData = s.runData
  samples : s.status.mode = .rx → t.pcmlen = s.pcmlen ∧ t.pcm = s.pcm ∧ t.boots = s.boots

theorem State.AccInv.congr {s t : State} (h : s.AccInv) (hacc : t.cfg = s.cfg ∧ t.acc = s.acc) :
    t.AccInv := by
  intro st hst
  rw [State.accOf, hacc.2]
  exact h st (hacc.1 ▸ hst)

theorem State.BaseInv.of_sameRun {s t : State} (h : s.BaseInv) (hr : s.SameRun t) : t.BaseInv where
  noError herr := by
    obtain ⟨herr, hcode, hcmd⟩ := hr.error herr
    rw [hcode, hcmd]
    exact h.noError herr
  geometry hgeov := by
    obtain ⟨hgeov, hgeo⟩ := hr.geometry hgeov
    exact (h.geometry hgeov).congr hgeo
  acc := h.acc.congr hr.acc

/-- The phases are those of the run while its geometry is valid. -/
theorem State.TxInv.of_sameRun {s t : State} (h : s.TxInv) (hr : s.SameRun t) : t.TxInv := by
  have hrun := hr.run
  simp only [State.runData, Prod.mk.injEq] at hrun
  obtain ⟨hspf, hwc, hwidx, hsidx, hphase, hwave, hamax, -, -⟩ := hrun
  refine ⟨?_, ?_, fun hgeov => ?_, ?_, ?_⟩
  · rw [hwidx, hwc]; exact h.window
  · rw [hsidx]; exact h.slice
  · obtain ⟨hgeov, hgeo⟩ := hr.geometry hgeov
    simp only [State.geometryData, Prod.mk.injEq] at hgeo
    obtain ⟨-, hparams, -, -, hbpb, -⟩ := hgeo
    simp only [State.nstr, State.nfft, State.phaseOf, hparams, hbpb, hphase]
    exact h.phase hgeov
  · rw [hwave, hwidx, hspf]; exact h.waveLength
  · rw [hamax, hwave]; exact h.wavePeak

/-- A spectrum depends on the samples, on the numerics, and on the transform size and slice length. -/
theorem State.spectrum_congr {s t : State} (hcfg : t.cfg = s.cfg)
    (hnfft : t.nfft = s.nfft) (hspf : t.spf = s.spf) (hwc : t.wc = s.wc)
    (hsamples : t.pcmlen = s.pcmlen ∧ t.pcm = s.pcm ∧ t.boots = s.boots) (p : Nat) :
    t.spectrum p = s.spectrum p := by
  obtain ⟨hpcmlen, hpcm, hboots⟩ := hsamples
  have hpad (a : Nat) : t.xpad a = s.xpad a := by
    rw [State.xpad, State.xpad, State.pcmRead, State.pcmRead, hpcmlen, hpcm, hboots, hcfg]
  have hoffset : t.subOffset p = s.subOffset p := by
    rw [State.subOffset, State.subOffset, hwc, hspf, hnfft]
  simp only [State.spectrum, State.subWindow, hpad, hoffset, hcfg, hnfft, hspf]

theorem State.RxInv.of_sameRun {s t : State} (h : s.RxInv) (hm : s.status.mode = .rx)
    (hr : s.SameRun t) : t.RxInv := by
  have hrun := hr.run
  simp only [State.runData, Prod.mk.injEq] at hrun
  obtain ⟨hspf, hwc, hwidx, hsidx, -, -, -, hmag, hmmax⟩ := hrun
  refine ⟨?_, ?_, ?_, fun hgeov => ?_, ?_⟩
  · rw [hwidx, hwc]; exact h.window
  · rw [hsidx, hwc]; exact h.slice
  · rw [hmag, hsidx]; exact h.magLength
  · obtain ⟨hgeov, hgeo⟩ := hr.geometry hgeov
    simp only [State.geometryData, Prod.mk.injEq] at hgeo
    obtain ⟨hcfg, hparams, -⟩ := hgeo
    have hnfft : t.nfft = s.nfft := by rw [State.nfft, State.nfft, hparams]
    rw [hmag, hsidx]
    intro p hp
    rw [State.spectrum_congr hcfg hnfft hspf hwc (hr.samples hm)]
    exact h.magSlices hgeov p hp
  · rw [State.maxMagnitude, hmmax, hmag]; exact h.magPeak

theorem State.Inv.of_sameRun {s t : State} (h : s.Inv) (hr : s.SameRun t) : t.Inv := by
  obtain ⟨hbase, htx, hrx⟩ := inv_iff.mp h
  rw [inv_iff, hr.mode]
  exact ⟨hbase.of_sameRun hr, fun hm => (htx hm).of_sameRun hr,
    fun hm => (hrx hm).of_sameRun hm hr⟩

/-- `DONE`, `WDROP`, `BITIX` and the host's side are nothing R43 speaks of. -/
theorem sameRun_of_frame {s t : State} (ht : t = { s with
      status := { s.status with done := t.status.done, wdrop := t.status.wdrop }
      bitix := t.bitix, host := t.host }) : s.SameRun t := by
  rw [ht]
  exact ⟨fun h => ⟨h, rfl, rfl⟩, rfl, fun h => ⟨h, rfl⟩, ⟨rfl, rfl⟩, rfl, fun _ => ⟨rfl, rfl, rfl⟩⟩

theorem sameRun_setDone (s : State) (v : Bool) : s.SameRun (s.setDone v) := sameRun_of_frame rfl

theorem sameRun_raise (s : State) (e : ErrCode) (w : Word) : s.SameRun (s.raise e w) :=
  ⟨fun h => (by cases h), rfl, fun h => ⟨h, rfl⟩, ⟨rfl, rfl⟩, rfl, fun _ => ⟨rfl, rfl, rfl⟩⟩

/-- A write of P0 to P6 makes the geometry invalid (R25). -/
theorem sameRun_parameter (s : State) (i : Nat) (v : Word) :
    s.SameRun ((s.setParam i v).setGeov false) :=
  ⟨fun h => ⟨h, rfl, rfl⟩, rfl, fun h => (by cases h), ⟨rfl, rfl⟩, rfl, fun _ => ⟨rfl, rfl, rfl⟩⟩

/-- The geometry does not depend on P7 (R26). -/
theorem geoParams_setParam_threshold (s : State) (v : Word) :
    (s.setParam 7 v).geoParams = s.geoParams := by
  simp [State.geoParams, State.param_setParam]

theorem sameRun_threshold (s : State) (v : Word) : s.SameRun (s.setParam 7 v) :=
  ⟨fun h => ⟨h, rfl, rfl⟩, rfl,
    fun h => ⟨h, by rw [State.geometryData, geoParams_setParam_threshold]; rfl⟩,
    ⟨rfl, rfl⟩, rfl, fun _ => ⟨rfl, rfl, rfl⟩⟩

/-- In IDLE the host may load the buffers and their lengths (R34). -/
theorem sameRun_loaded {s t : State} (hm : s.status.mode = .idle)
    (ht : t = { s with pcmlen := t.pcmlen, slen := t.slen, sb := t.sb, pcm := t.pcm }) :
    s.SameRun t := by
  rw [ht]
  exact ⟨fun h => ⟨h, rfl, rfl⟩, rfl, fun h => ⟨h, rfl⟩, ⟨rfl, rfl⟩, rfl,
    fun hrx => by rw [hm] at hrx; cases hrx⟩

/-! ### The accumulators (R43 (d)) -/

theorem State.AccInv.setAcc {s : State} (h : s.AccInv) {st : Nat} {a : Acc}
    (ha : st < s.cfg.maxStreams → a.val.toNat < 2 ^ a.cnt.toNat) : (s.setAcc st a).AccInv := by
  intro i hi
  rw [State.accOf_setAcc]
  split
  · next hist => exact ha (hist.1 ▸ hi)
  · exact h i hi

theorem accClear_lt : Acc.clear.val.toNat < 2 ^ Acc.clear.cnt.toNat := by decide

/-- A bit shifted into an accumulator that is not full (43_bitpack.md R202). -/
theorem shifted_toNat {val : BitVec 8} (v : Bool) (h : val.toNat < 2 ^ 7) :
    ((val <<< 1) ||| (BitVec.ofBool v).zeroExtend 8).toNat = 2 * val.toNat + v.toNat := by
  have hv : v.toNat < 2 ^ 1 := by cases v <;> decide
  have hor := Nat.two_pow_add_eq_or_of_lt hv val.toNat
  rw [pow_one] at hor
  rw [hor, BitVec.toNat_or, BitVec.toNat_shiftLeft, Nat.shiftLeft_eq, Nat.mod_eq_of_lt (by omega),
    Nat.mul_comm val.toNat]
  cases v <;> rfl

theorem State.AccInv.appended {s : State} (h : s.AccInv) (st : Nat) (b : Byte) :
    (s.appended st b).AccInv :=
  State.AccInv.setAcc (s := (s.sbWrite st (s.slenOf st) b).setSlen st _) h fun _ => accClear_lt

theorem State.AccInv.putBit {s t : State} {st : Nat} {v : Bool} (h : s.AccInv)
    (hp : s.putBit st v = .ok t) : t.AccInv := by
  obtain ⟨-, -, rfl⟩ | ⟨h7, rfl⟩ := State.putBit_cases hp
  · exact h.appended st _
  · have hcnt : (s.accOf st).cnt.toNat < 7 := by
      have hne : (s.accOf st).cnt.toNat ≠ 7 := fun hc => h7 (BitVec.eq_of_toNat_eq hc)
      omega
    have hsucc : ((s.accOf st).cnt + 1).toNat = (s.accOf st).cnt.toNat + 1 := by
      rw [BitVec.toNat_add]
      exact Nat.mod_eq_of_lt (by change _ + 1 < 8; omega)
    refine h.setAcc fun hst => ?_
    have hval := h st hst
    rw [shifted_toNat v (hval.trans_le (Nat.pow_le_pow_right (by decide) hcnt.le)), hsucc, pow_succ]
    have := v.toNat_lt
    omega

theorem State.AccInv.flushBits {s t : State} {st : Nat} (h : s.AccInv)
    (hp : s.flushBits st = .ok t) : t.AccInv := by
  obtain ⟨-, rfl⟩ | ⟨-, -, rfl⟩ := State.flushBits_cases hp
  · exact h
  · exact h.appended st _

theorem State.AccInv.decideCells {p : Nat} {cs : List (Nat × Nat)} {s t : State} (h : s.AccInv)
    (hd : State.decideCells p cs s = .ok t) : t.AccInv := by
  induction cs generalizing s with
  | nil => cases hd; exact h
  | cons c cs ih =>
      simp only [State.decideCells, bind, Except.bind] at hd
      split at hd
      · cases hd
      · next s1 h1 => exact ih (h.putBit h1) hd

theorem State.AccInv.flushStreams {is : List Nat} {s t : State} (h : s.AccInv)
    (hd : State.flushStreams is s = .ok t) : t.AccInv := by
  induction is generalizing s with
  | nil => cases hd; exact h
  | cons i is ih =>
      simp only [State.flushStreams, bind, Except.bind] at hd
      split at hd
      · cases hd
      · next s1 h1 => exact ih (h.flushBits h1) hd

theorem State.AccInv.rxStarted {s : State} (h : s.AccInv) : s.rxStarted.AccInv := by
  intro i hi
  rw [State.accOf_rxStarted]
  split
  · exact accClear_lt
  · exact h i hi

theorem State.AccInv.rxDetectBody {s t : State} (h : s.AccInv) (hd : rxDetectBody s = .ok t) :
    t.AccInv := by
  obtain ⟨u, hu, rfl⟩ := rxDetectBody_cases hd
  exact (h.decideCells hu).congr ⟨rfl, rfl⟩

theorem State.AccInv.detectWindows {s t : State} {n : Nat} (h : s.AccInv)
    (hd : detectWindows s n = .ok t) : t.AccInv := by
  induction n generalizing t with
  | zero => cases hd; exact h
  | succ n ih =>
      simp only [Machine.detectWindows, bind, Except.bind] at hd
      split at hd
      · cases hd
      · next u hu => exact (ih hu).rxDetectBody hd

theorem State.AccInv.rxFinishBody {s t : State} (h : s.AccInv) (hd : rxFinishBody s = .ok t) :
    t.AccInv := by
  obtain ⟨u, hu, rfl⟩ := rxFinishBody_cases hd
  exact (h.flushStreams hu).congr ⟨rfl, rfl⟩

/-- No command leaves an accumulator with a bit beyond its count. -/
theorem State.AccInv.bodyOf {i : Instr} {s t : State} (h : s.AccInv) (hb : bodyOf i s = .ok t) :
    t.AccInv := by
  have hf := bodyOf_frame hb
  cases i
  case rxStart => obtain ⟨-, -, rfl⟩ := rxStartBody_cases hb; exact h.rxStarted
  case rxDetect => exact h.rxDetectBody hb
  case rxFinish => exact h.rxFinishBody hb
  case rxDecode =>
    obtain ⟨u, v, hu, hv, ht⟩ := rxDecodeBody_cases hb
    obtain ⟨-, -, rfl⟩ := rxStartBody_cases hu
    have hspectra : (s.rxStarted.takeSpectra s.rxStarted.wc.toNat).AccInv :=
      h.rxStarted.congr ⟨by simp, by simp⟩
    exact (hspectra.detectWindows hv).rxFinishBody ht
  case bitPut => exact h.putBit hb
  case bitFlush => exact h.flushBits hb
  case bitClr st => cases hb; exact State.AccInv.setAcc (s := s.setSlen _ _) h fun _ => accClear_lt
  all_goals rw [BodyFrame] at hf; rw [hf]; exact h

/-! ### The geometry (R43 (b)) -/

/-- `GEO.RESOLVE` writes what R43 (b) asks for: the derived values fit their registers (R121). -/
theorem resolved_geoResolve {s : State} (hc : s.geoParams.check s.cfg = none) :
    ((s.setGeometry s.geoParams).setGeov true).Resolved := by
  obtain ⟨hfs, hnfft, hfhi⟩ := s.geoParams_lt
  have hv := (Params.check_iff _ _).mp hc
  obtain ⟨hspf, hbandw, hbpb, havail, hnmin, hnmax, hnb⟩ := Params.fits hv hfs hnfft hfhi
  refine ⟨hc, Nat.mod_eq_of_lt hspf, Nat.mod_eq_of_lt hbandw,
    Nat.mod_eq_of_lt hbpb, Nat.mod_eq_of_lt havail, Nat.mod_eq_of_lt hnmin,
    Nat.mod_eq_of_lt hnmax, fun i hi => ?_⟩
  have hbank : i < bankSize := lt_bankSize _ hi
  have hreg : ((s.setGeometry s.geoParams).setGeov true).nbOf i =
      (if i < s.nstr then BitVec.ofNat 32 (s.geoParams.nb i) else 0).toNat := by
    rw [State.nbOf, State.setGeov_nb, State.setGeometry_nb, tabulate_getElem?, if_pos hbank]
    rfl
  have hstr : ((s.setGeometry s.geoParams).setGeov true).nstr = s.nstr := rfl
  rw [hreg, hstr]
  split
  · next hn => exact Nat.mod_eq_of_lt (hnb i hn)
  · rfl

theorem State.BaseInv.bodyOf {i : Instr} {s t : State} (h : s.BaseInv) (hb : bodyOf i s = .ok t) :
    t.BaseInv := by
  obtain ⟨-, -, hcode, hcmd, -, -, -, herr, -⟩ := bodyOf_keeps hb
  refine ⟨?_, ?_, h.acc.bodyOf hb⟩
  · rw [herr, hcode, hcmd]
    exact h.noError
  · by_cases hi : i = .geoResolve
    · subst hi
      obtain ⟨hc, rfl⟩ := geoResolveBody_cases hb
      exact fun _ => resolved_geoResolve hc
    · obtain ⟨hgeo, hgeov⟩ := bodyOf_geometryData hi hb
      rw [hgeov]
      exact fun hv => (h.geometry hv).congr hgeo

/-! ### The runs (R43 (c), (e), (f), (g)) -/

theorem State.BaseInv.of_inv {s : State} (h : s.Inv) : s.BaseInv := (inv_iff.mp h).1

theorem State.Inv.txInv {s : State} (h : s.Inv) (hm : s.status.mode = .tx) : s.TxInv :=
  (inv_iff.mp h).2.1 hm

theorem State.Inv.rxInv {s : State} (h : s.Inv) (hm : s.status.mode = .rx) : s.RxInv :=
  (inv_iff.mp h).2.2 hm

/-- A window counter below `WC` counts on without wrapping. -/
theorem succ_toNat_of_lt {x y : Word} (h : x < y) : (x + 1).toNat = x.toNat + 1 := by
  bv_omega

theorem succ_le_of_lt {x y : Word} (h : x < y) : x + 1 ≤ y := by
  bv_omega

/-- A run begins with no window done (41_tx_synth.md R131). -/
theorem txInv_txStarted {s : State} (h : s.status.geov = true → s.Resolved) :
    s.txStarted.TxInv where
  window := BitVec.le_def.mpr (Nat.zero_le _)
  slice := rfl
  phase hgeov i _ j _ := by
    rw [State.phaseOf_txStarted]
    obtain ⟨-, -, -, hnfft, -, -⟩ := (h hgeov).facts
    exact hnfft
  waveLength := by simp
  wavePeak := by simp

/-- The phase of a cell stays below the transform size (R137). -/
theorem State.nextPhase_lt {s : State} {p i j : Nat} (h : s.phaseOf i j < s.nfft) :
    s.nextPhase p i j < s.nfft := by
  rw [State.nextPhase]
  split
  · exact Nat.mod_lt _ (Nat.zero_lt_of_lt h)
  · exact h

/-- `TX.WINDOW` appends one window and carries phases and peak on (R133). -/
theorem State.TxInv.synthWindow {s : State} (h : s.TxInv) (hw : s.widx < s.wc) :
    s.synthWindow.TxInv where
  window := succ_le_of_lt hw
  slice := h.slice
  phase hgeov i hi j hj := by
    rw [State.phaseOf_synthWindow s hi hj]
    exact State.nextPhase_lt (h.phase hgeov i hi j hj)
  waveLength := by
    rw [State.synthWindow_wave, State.synthWindow_widx, State.synthWindow_spf, List.length_append,
      h.waveLength, State.windowSamples_length, succ_toNat_of_lt hw, Nat.succ_mul]
  wavePeak := by
    have hpos : 0 ≤ Num.value s.amax := h.wavePeak ▸ greatestOf_nonneg _
    rw [State.synthWindow_amax, State.synthWindow_wave, value_peak _ _ hpos, List.map_append,
      greatestOf_append, h.wavePeak]

/-- A run begins with no slice analysed (42_rx_spectro_detect.md R161). -/
theorem rxInv_rxStarted (s : State) : s.rxStarted.RxInv where
  window := BitVec.le_def.mpr (Nat.zero_le _)
  slice := BitVec.le_def.mpr (Nat.zero_le _)
  magLength := rfl
  magSlices _ p hp := absurd hp (Nat.not_lt_zero p)
  magPeak := by simp [State.maxMagnitude]

/-- `RX.SPECTRUM` appends one slice and carries the maximum on (R163, R168). -/
theorem State.RxInv.takeSpectrum {s : State} (h : s.RxInv) (hs : s.sidx < s.wc) :
    s.takeSpectrum.RxInv where
  window := h.window
  slice := succ_le_of_lt hs
  magLength := by
    rw [State.takeSpectrum_mag, State.takeSpectrum_sidx, List.length_append, h.magLength,
      succ_toNat_of_lt hs, List.length_singleton]
  magSlices hgeov p hp := by
    have hsame : s.takeSpectrum.spectrum p = s.spectrum p := rfl
    rw [State.takeSpectrum_sidx, succ_toNat_of_lt hs] at hp
    rw [State.takeSpectrum_mag, hsame]
    obtain hlt | rfl := Nat.lt_succ_iff_lt_or_eq.mp hp
    · rw [List.getElem?_append_left (h.magLength ▸ hlt)]
      exact h.magSlices hgeov p hlt
    · rw [← h.magLength, List.getElem?_concat_length]
  magPeak := by
    have hpeak := h.magPeak
    rw [State.maxMagnitude] at hpeak ⊢
    rw [State.takeSpectrum_mmax, State.takeSpectrum_mag, sqrt_greatest, List.flatten_append,
      List.map_append, greatestOf_append, hpeak]
    simp

/-- `RX.DETECT` writes streams and moves on by one window (R169); what the detector reads stays. -/
theorem State.RxInv.detect {s t : State} (h : s.RxInv) (hw : s.widx < s.wc)
    (ht : t = { s with sb := t.sb, slen := t.slen, acc := t.acc, widx := s.widx + 1 }) :
    t.RxInv := by
  rw [ht]
  exact ⟨succ_le_of_lt hw, h.slice, h.magLength, h.magSlices, h.magPeak⟩

/-! ### Every command and every access keeps the invariants -/

theorem State.Inv.bodyOf {i : Instr} {s t : State} (h : s.Inv) (hl : legality i s = none)
    (hb : bodyOf i s = .ok t) : t.Inv := by
  obtain ⟨hneeded, -, hfurther⟩ := of_legality_none hl
  have hbase : t.BaseInv := (State.BaseInv.of_inv h).bodyOf hb
  have hmode := bodyOf_mode hb
  cases i
  case nop | srst => cases hb; exact h
  case txStart =>
    obtain ⟨-, -, rfl⟩ := txStartBody_cases hb
    exact hbase.inv_of_tx hmode (txInv_txStarted h.geometry)
  case txWindow =>
    cases hb
    have htx := hneeded _ rfl
    exact hbase.inv_of_tx htx ((h.txInv htx).synthWindow (of_decide_eq_true hfurther))
  case rxStart =>
    obtain ⟨-, -, rfl⟩ := rxStartBody_cases hb
    exact hbase.inv_of_rx hmode (rxInv_rxStarted s)
  case rxSpectrum =>
    cases hb
    have hrx := hneeded _ rfl
    exact hbase.inv_of_rx hrx ((h.rxInv hrx).takeSpectrum (of_decide_eq_true hfurther))
  case rxDetect =>
    have hrx := hneeded _ rfl
    have hw : s.widx < s.wc := of_decide_eq_true (Bool.and_eq_true_iff.mp hfurther).2
    exact hbase.inv_of_rx (hmode.trans hrx) ((h.rxInv hrx).detect hw (rxDetectBody_frame hb))
  case txFinish | txEncode | rxFinish | rxDecode => exact hbase.inv_of_idle hmode
  all_goals exact hbase.inv_of_idle (hmode.trans (hneeded _ rfl))

theorem State.Inv.exec {i : Instr} {s t : State} (h : s.Inv) (he : exec i s = .next t) : t.Inv := by
  have hcleared : (s.setDone false).Inv := h.of_sameRun (sameRun_setDone s false)
  cases exec_effect he with
  | reset => exact resetOf_inv s.cfg s.sb s.pcm s.boots s.host
  | refused => exact h
  | raised e => exact hcleared.of_sameRun (sameRun_raise _ _ _)
  | completed _ _ hl hu =>
      exact (hcleared.bodyOf (by rwa [legality_setDone]) hu).of_sameRun (sameRun_setDone _ _)

theorem State.Inv.hostAccess {a : HostAccess} {s t : State} (h : s.Inv)
    (ha : hostAccess a s = .next t) : t.Inv := by
  cases hostAccess_effect ha with
  | command _ he => exact h.exec he
  | refusedWord => exact h
  | illegalWord => exact (h.of_sameRun (sameRun_setDone s false)).of_sameRun (sameRun_raise _ _ _)
  | dropped => exact h.of_sameRun (sameRun_of_frame rfl)
  | parameter i v => exact h.of_sameRun (sameRun_parameter s i v)
  | threshold v => exact h.of_sameRun (sameRun_threshold s v)
  | bitIndex v => exact h.of_sameRun (sameRun_of_frame rfl)
  | loaded hm ht => exact h.of_sameRun (sameRun_loaded hm ht)
  | answered r => exact h.of_sameRun (sameRun_of_frame rfl)
  | reset => exact resetOf_inv s.cfg _ _ _ s.host

/-- Settles O51: a step is one host access, made with the queue one shorter. -/
theorem invariantsKept : Obligations.InvariantsKept := by
  intro s t h hstep
  obtain rfl | ⟨a, p, ha⟩ := step_access hstep
  · exact h
  · have hqueue : State.Inv { s with host := p } := h.of_sameRun (sameRun_of_frame rfl)
    exact hqueue.hostAccess ha

end Sys2Proof.Machine
end

section
/-! PROOFS. 20_memory.md: host writes of buffer elements (R64), the form of the buffers (R60, R62), what
the commands change in them (R77), and that nothing they hold beyond the valid lengths matters (R70). -/

namespace Sys2Proof.Machine

/-! ### Samples (R62) -/

/-- The integers the B bits of a sample can stand for. -/
def IsSample (c : Config) (v : Sample) : Prop :=
  -2 ^ (c.sampleBits - 1) ≤ v ∧ v < 2 ^ (c.sampleBits - 1)

theorem isSample_zero (c : Config) : IsSample c 0 := by
  have hpos : (0 : ℤ) < 2 ^ (c.sampleBits - 1) := by positivity
  exact ⟨(neg_lt_zero.mpr hpos).le, hpos⟩

theorem isSample_wrapSample (c : Config) (v : Int) : IsSample c (c.wrapSample v) :=
  ⟨BitVec.le_toInt _, BitVec.toInt_lt⟩

theorem wrapSample_sub_dvd (c : Config) (v : Int) :
    (2 ^ c.sampleBits : ℤ) ∣ c.wrapSample v - v := by
  rw [Config.wrapSample, BitVec.toInt_ofInt]
  exact_mod_cast Int.dvd_bmod_sub_self

theorem isSample_quantise (c : Config) (amax x : Num.TrigSum) : IsSample c (quantise c amax x) := by
  rw [quantise]
  split
  · exact isSample_wrapSample c _
  · exact isSample_zero c

/-! ### Host writes of buffer elements (R64) -/

theorem hostAccess_writeSb {s : State} {st a : Nat} (v : Byte) (hload : s.hostMayLoad = true)
    (hst : st < s.cfg.maxStreams) (ha : a < s.cfg.strmCap) :
    hostAccess (.writeSb st a v) s = .next (s.sbWrite st a v) := by
  rw [hostAccess, if_pos ⟨hload, hst, ha⟩]

theorem hostAccess_writePcm {s : State} {a : Nat} (x : Sample) (hload : s.hostMayLoad = true)
    (ha : a < s.cfg.pcmCap) : hostAccess (.writePcm a x) s = .next (s.pcmWrite a x) := by
  rw [hostAccess, if_pos ⟨hload, ha⟩]

/-- Settles O48: inside a buffer the permission is `hostMayLoad`, and a write is `sbWrite` or `pcmWrite`. -/
theorem bufferWrites : Obligations.BufferWrites := by
  intro s st a v x
  refine ⟨fun herr hmode hst ha => ?_, fun herr hmode ha => ?_, fun hno => ?_, fun hno => ?_⟩
  · have hload := s.hostMayLoad_iff.mpr ⟨herr, hmode⟩
    refine ⟨_, hostAccess_writeSb v hload hst ha, fun i b => ?_, rfl⟩
    simp only [State.sbRead_sbWrite, lt_bankSize _ hst, true_and]
  · have hread := s.pcmRead_pcmWrite a x
    obtain ⟨hlow, hhigh⟩ := isSample_wrapSample s.cfg x
    refine ⟨_, hostAccess_writePcm x (s.hostMayLoad_iff.mpr ⟨herr, hmode⟩) ha, fun b hb => ?_, ?_⟩
    · rw [hread, if_neg hb]
    · rw [hread, if_pos rfl]
      exact ⟨wrapSample_sub_dvd s.cfg x, hlow, hhigh, rfl⟩
  · rw [hostAccess, if_neg]
    · rfl
    · rintro ⟨hload, hst, ha⟩
      obtain ⟨herr, hmode⟩ := s.hostMayLoad_iff.mp hload
      simp [herr, hmode, not_le.mpr hst, not_le.mpr ha] at hno
  · rw [hostAccess, if_neg]
    · rfl
    · rintro ⟨hload, ha⟩
      obtain ⟨herr, hmode⟩ := s.hostMayLoad_iff.mp hload
      simp [herr, hmode, not_le.mpr ha] at hno

/-! ### What the commands change in the buffers (R77) -/

/-- What the reads of the buffers depend on. -/
abbrev State.bufferData (s : State) :
    Config × Vector (Memory Byte) bankSize × Memory Sample × Nat :=
  (s.cfg, s.sb, s.pcm, s.boots)

/-- The commands that may write a stream buffer. -/
def writesStreams : Instr → Bool
  | .rxDetect | .rxFinish | .rxDecode | .bitPut _ _ | .bitFlush _ => true
  | .nop | .srst | .geoResolve | .geoWcount | .txStart | .txWindow | .txFinish | .txEncode
  | .rxStart | .rxSpectrum | .bitGet _ | .bitClr _ => false

/-- The commands that may write the sample buffer. -/
def writesSamples : Instr → Bool
  | .txFinish | .txEncode => true
  | .nop | .srst | .geoResolve | .geoWcount | .txStart | .txWindow | .rxStart | .rxSpectrum
  | .rxDetect | .rxFinish | .rxDecode | .bitGet _ | .bitPut _ _ | .bitFlush _ | .bitClr _ => false

theorem writesStreams_eq_true {i : Instr} : writesStreams i = true ↔
    (∃ st v, i = .bitPut st v ∨ i = .bitFlush st) ∨ i ∈ [Instr.rxDetect, .rxFinish, .rxDecode] := by
  cases i <;> simp [writesStreams]

theorem writesSamples_eq_true {i : Instr} :
    writesSamples i = true ↔ i ∈ [Instr.txFinish, .txEncode] := by
  cases i <;> simp [writesSamples]

theorem bodyOf_sb {i : Instr} {s t : State} (hi : writesStreams i = false)
    (h : bodyOf i s = .ok t) : t.sb = s.sb := by
  have hf := bodyOf_frame h
  cases i
  case rxDetect | rxFinish | rxDecode | bitPut | bitFlush => cases hi
  all_goals rw [BodyFrame] at hf; rw [hf]

theorem bodyOf_pcm {i : Instr} {s t : State} (hi : writesSamples i = false)
    (h : bodyOf i s = .ok t) : t.pcm = s.pcm := by
  have hf := bodyOf_frame h
  cases i
  case txFinish | txEncode => cases hi
  all_goals rw [BodyFrame] at hf; rw [hf]

theorem bodyOf_bufferData {i : Instr} {s t : State} (hst : writesStreams i = false)
    (hsm : writesSamples i = false) (h : bodyOf i s = .ok t) : t.bufferData = s.bufferData := by
  obtain ⟨hcfg, -, -, -, -, hboots, -⟩ := bodyOf_keeps h
  rw [State.bufferData, hcfg, bodyOf_sb hst h, bodyOf_pcm hsm h, hboots]

theorem bodyOf_sbRead {i : Instr} {s t : State} (hi : writesStreams i = false)
    (h : bodyOf i s = .ok t) (st a : Nat) : t.sbRead st a = s.sbRead st a := by
  obtain ⟨-, -, -, -, -, hboots, -⟩ := bodyOf_keeps h
  rw [State.sbRead, State.sbOf, bodyOf_sb hi h, hboots, State.sbRead, State.sbOf]

theorem bodyOf_pcmRead {i : Instr} {s t : State} (hi : writesSamples i = false)
    (h : bodyOf i s = .ok t) (a : Nat) : t.pcmRead a = s.pcmRead a := by
  obtain ⟨hcfg, -, -, -, -, hboots, -⟩ := bodyOf_keeps h
  rw [State.pcmRead, bodyOf_pcm hi h, hboots, hcfg, State.pcmRead]

/-- But for `RX.DECODE`, which starts the streams again, the commands that write streams append to
them. -/
theorem bodyOf_appends {i : Instr} {s t : State} (hi : writesStreams i = true) (hd : i ≠ .rxDecode)
    (h : bodyOf i s = .ok t) : s.Appends t := by
  cases i
  case rxDetect =>
    obtain ⟨u, hu, rfl⟩ := rxDetectBody_cases h
    obtain ⟨hslen, hbytes⟩ := State.appends_decideCells hu
    exact ⟨hslen, hbytes⟩
  case rxFinish =>
    obtain ⟨u, hu, rfl⟩ := rxFinishBody_cases h
    obtain ⟨hslen, hbytes⟩ := State.appends_flushStreams hu
    exact ⟨hslen, hbytes⟩
  case rxDecode => exact absurd rfl hd
  case bitPut => exact State.appends_putBit h
  case bitFlush => exact State.appends_flushBits h
  all_goals cases hi

theorem bodyOf_validBytes {i : Instr} {s t : State} (hi : i ≠ .rxDecode) (h : bodyOf i s = .ok t)
    {st a : Nat} (ha : a < s.slenOf st) : t.sbRead st a = s.sbRead st a := by
  cases hw : writesStreams i with
  | false => exact bodyOf_sbRead hw h st a
  | true => exact (bodyOf_appends hw hi h).bytes st a fun hnew => absurd hnew.1 (not_le.mpr ha)

/-- Settles O56: only a body that completes reaches the buffers. -/
theorem bufferAccessTable : Obligations.BufferAccessTable := by
  intro i s t _ _ h
  cases exec_effect h with
  | reset | refused | raised => exact ⟨fun _ _ => rfl, fun _ _ _ _ => rfl, fun _ _ _ _ => rfl⟩
  | @completed u _ _ _ hu =>
      refine ⟨fun hi => ?_, fun hbit hi => ?_, fun hi st a ha => bodyOf_validBytes hi hu ha⟩
      · have hsm : writesSamples i = false := by
          rwa [← Bool.not_eq_true, writesSamples_eq_true]
        exact (bodyOf_pcmRead hsm hu :)
      · have hst : writesStreams i = false := by
          rw [← Bool.not_eq_true, writesStreams_eq_true]
          rintro (⟨st, v, rfl | rfl⟩ | hw)
          · exact (hbit st v).1 rfl
          · exact (hbit st false).2 rfl
          · exact hi hw
        exact (bodyOf_sbRead hst hu :)

/-! ### The form of the buffers (R60, R62) -/

theorem Memory.mem_load {α : Type} {m : Memory α} {vs : List α} {x : Nat × α}
    (h : x ∈ Memory.load m vs) : x.2 ∈ vs ∨ x ∈ m := by
  rw [Memory.load, List.mem_append] at h
  obtain hnew | hold := h
  · obtain ⟨y, hy, rfl⟩ := List.mem_map.mp hnew
    exact .inl (List.fst_mem_of_mem_zipIdx hy)
  · exact .inr (List.mem_filter.mp hold).1

section

variable {s t : State}

theorem State.buffersWf.congr (h : s.buffersWf) (hb : t.bufferData = s.bufferData) :
    t.buffersWf := by
  simp only [State.bufferData, Prod.mk.injEq] at hb
  obtain ⟨hcfg, hsb, hpcm, -⟩ := hb
  rw [State.buffersWf, hcfg, hpcm]
  refine ⟨fun st => ?_, h.2⟩
  rw [State.sbOf, hsb]
  exact h.1 st

theorem State.buffersWf.sbWrite (h : s.buffersWf) (st a : Nat) (v : Byte) :
    (s.sbWrite st a v).buffersWf := by
  refine ⟨fun i => ?_, h.2⟩
  rw [State.sbOf_sbWrite]
  split
  · exact Memory.wf_write (h.1 st) a v
  · exact h.1 i

theorem State.buffersWf.pcmWrite (h : s.buffersWf) (a : Nat) (v : Sample) :
    (s.pcmWrite a v).buffersWf := by
  obtain ⟨hsb, hpcm, hsamples⟩ := h
  refine ⟨hsb, Memory.wf_write hpcm a _, fun x hx => ?_⟩
  obtain rfl | hx := Memory.mem_write hx
  · exact isSample_wrapSample s.cfg v
  · exact hsamples x hx

theorem State.buffersWf.appended (h : s.buffersWf) (st : Nat) (b : Byte) :
    (s.appended st b).buffersWf :=
  (h.sbWrite st (s.slenOf st) b).congr rfl

theorem State.buffersWf.putBit {st : Nat} {v : Bool} (h : s.buffersWf)
    (hp : s.putBit st v = .ok t) : t.buffersWf := by
  obtain ⟨-, -, rfl⟩ | ⟨-, rfl⟩ := State.putBit_cases hp
  · exact h.appended st _
  · exact h.congr rfl

theorem State.buffersWf.flushBits {st : Nat} (h : s.buffersWf) (hp : s.flushBits st = .ok t) :
    t.buffersWf := by
  obtain ⟨-, rfl⟩ | ⟨-, -, rfl⟩ := State.flushBits_cases hp
  · exact h
  · exact h.appended st _

theorem State.buffersWf.decideCells {p : Nat} {cs : List (Nat × Nat)} (h : s.buffersWf)
    (hd : State.decideCells p cs s = .ok t) : t.buffersWf := by
  induction cs generalizing s with
  | nil => cases hd; exact h
  | cons c cs ih =>
      simp only [State.decideCells, bind, Except.bind] at hd
      split at hd
      · cases hd
      · next s1 h1 => exact ih (h.putBit h1) hd

theorem State.buffersWf.flushStreams {is : List Nat} (h : s.buffersWf)
    (hd : State.flushStreams is s = .ok t) : t.buffersWf := by
  induction is generalizing s with
  | nil => cases hd; exact h
  | cons i is ih =>
      simp only [State.flushStreams, bind, Except.bind] at hd
      split at hd
      · cases hd
      · next s1 h1 => exact ih (h.flushBits h1) hd

theorem State.buffersWf.rxDetectBody (h : s.buffersWf) (hd : rxDetectBody s = .ok t) :
    t.buffersWf := by
  obtain ⟨u, hu, rfl⟩ := rxDetectBody_cases hd
  exact (h.decideCells hu).congr rfl

theorem State.buffersWf.detectWindows {n : Nat} (h : s.buffersWf)
    (hd : detectWindows s n = .ok t) : t.buffersWf := by
  induction n generalizing t with
  | zero => cases hd; exact h
  | succ n ih =>
      simp only [Machine.detectWindows, bind, Except.bind] at hd
      split at hd
      · cases hd
      · next u hu => exact (ih hu).rxDetectBody hd

theorem State.buffersWf.rxFinishBody (h : s.buffersWf) (hd : rxFinishBody s = .ok t) :
    t.buffersWf := by
  obtain ⟨u, hu, rfl⟩ := rxFinishBody_cases hd
  exact (h.flushStreams hu).congr rfl

theorem State.buffersWf.finishTx (h : s.buffersWf) : s.finishTx.buffersWf := by
  obtain ⟨hsb, hpcm, hsamples⟩ := h
  refine ⟨hsb, Memory.wf_load hpcm _, fun x hx => ?_⟩
  obtain hx | hx := Memory.mem_load hx
  · obtain ⟨a, -, ha⟩ := List.mem_map.mp hx
    rw [← ha]
    exact isSample_quantise s.cfg _ _
  · exact hsamples x hx

theorem State.buffersWf.bodyOf {i : Instr} (h : s.buffersWf) (hb : bodyOf i s = .ok t) :
    t.buffersWf := by
  cases i
  case txFinish => cases hb; exact h.finishTx
  case txEncode =>
    obtain ⟨u, hu, rfl⟩ := txEncodeBody_cases hb
    obtain ⟨-, -, rfl⟩ := txStartBody_cases hu
    have hwindows : (s.txStarted.synthWindows s.txStarted.wc.toNat).buffersWf := h.congr (by simp)
    exact hwindows.finishTx
  case rxDetect => exact h.rxDetectBody hb
  case rxFinish => exact h.rxFinishBody hb
  case rxDecode =>
    obtain ⟨u, v, hu, hv, ht⟩ := rxDecodeBody_cases hb
    obtain ⟨-, -, rfl⟩ := rxStartBody_cases hu
    have hspectra : (s.rxStarted.takeSpectra s.rxStarted.wc.toNat).buffersWf := h.congr (by simp)
    exact (hspectra.detectWindows hv).rxFinishBody ht
  case bitPut => exact h.putBit hb
  case bitFlush => exact h.flushBits hb
  all_goals exact h.congr (bodyOf_bufferData rfl rfl hb)

theorem State.buffersWf.exec {i : Instr} (h : s.buffersWf) (he : exec i s = .next t) :
    t.buffersWf := by
  cases exec_effect he with
  | @completed u _ _ _ hu =>
      have hcleared : (s.setDone false).buffersWf := h.congr rfl
      exact (hcleared.bodyOf hu).congr rfl
  | _ => exact h.congr rfl

theorem writeReg_bufferData (s : State) (a : Nat) (v : Word) :
    (writeReg s a v).bufferData = s.bufferData := by
  by_cases ha : s.writable a
  · obtain ⟨i, hi, rfl⟩ | rfl | rfl | ⟨st, hst, rfl⟩ := ha
    · rw [writeReg_param s hi, writeParam]
      split
      · rfl
      · split <;> rfl
    · rw [writeReg_pcmlen]; split <;> rfl
    · rw [writeReg_bitix]; split <;> rfl
    · rw [writeReg_slen s hst]; split <;> rfl
  · rw [writeReg_readOnly s ha]; rfl

theorem State.buffersWf.writeCmd {w : Word} (h : s.buffersWf) (hw : writeCmd s w = .next t) :
    t.buffersWf := by
  rw [Machine.writeCmd] at hw
  split at hw
  · exact h.exec hw
  · rw [illegalCommand] at hw
    split at hw <;> cases hw <;> exact h.congr rfl

theorem State.buffersWf.hostAccess {a : HostAccess} (h : s.buffersWf)
    (ha : hostAccess a s = .next t) : t.buffersWf := by
  cases a <;> rw [Machine.hostAccess] at ha
  case writeReg a v =>
    split at ha
    · exact h.writeCmd ha
    · cases ha; exact h.congr (writeReg_bufferData s a v)
  case writeSb st a v =>
    split at ha <;> cases ha
    · exact h.sbWrite st a v
    · exact h.congr rfl
  case writePcm a v =>
    split at ha <;> cases ha
    · exact h.pcmWrite a v
    · exact h.congr rfl
  case readReg => cases ha; exact h.congr rfl
  case readSb | readPcm => split at ha <;> cases ha <;> exact h.congr rfl
  case hardReset =>
    cases ha
    obtain ⟨-, -, -, -, hwf⟩ := resetSatisfiesInvariants s.cfg
    exact hwf

end

/-- Settles O53: every write of a buffer is `sbWrite`, `pcmWrite` or the load of the emitted samples. -/
theorem buffersCanonicalKept : Obligations.BuffersCanonicalKept := by
  intro s t h hstep
  obtain rfl | ⟨a, p, ha⟩ := step_access hstep
  · exact h
  · have hqueue : State.buffersWf { s with host := p } := h.congr rfl
    exact hqueue.hostAccess ha

/-! ### What the buffers hold beyond the valid lengths (R70) -/

/-- t differs from s at most in what the buffers hold at and beyond the valid lengths, and in the count of
resets, which names the free contents. -/
structure State.SameValid (s t : State) : Prop where
  frame : t = { s with sb := t.sb, pcm := t.pcm, boots := t.boots }
  bytes : ∀ st a, a < s.slenOf st → t.sbRead st a = s.sbRead st a
  samples : ∀ a < s.pcmlen.toNat, t.pcmRead a = s.pcmRead a

/-- Two runs of a body raise the same error, or end in states that differ only beyond the valid lengths. -/
inductive SameOutcome : Except ErrCode State → Except ErrCode State → Prop
  | raised (e : ErrCode) : SameOutcome (.error e) (.error e)
  | done {t t' : State} : t.SameValid t' → SameOutcome (.ok t) (.ok t')

theorem SameOutcome.bind {x x' : Except ErrCode State} {f f' : State → Except ErrCode State}
    (h : SameOutcome x x') (hf : ∀ t t', t.SameValid t' → SameOutcome (f t) (f' t')) :
    SameOutcome (x >>= f) (x' >>= f') := by
  cases h with
  | raised e => exact .raised e
  | done ht => exact hf _ _ ht

theorem SameOutcome.ite {c : Prop} [Decidable c] {x x' y y' : Except ErrCode State}
    (hthen : SameOutcome x x') (helse : SameOutcome y y') :
    SameOutcome (if c then x else y) (if c then x' else y') := by
  split
  · exact hthen
  · exact helse

section

variable {s s' : State}

theorem State.SameValid.exists_buffers (h : s.SameValid s') :
    ∃ sb pcm boots, s' = { s with sb := sb, pcm := pcm, boots := boots } :=
  ⟨_, _, _, h.frame⟩

/-- An update that leaves the buffers alone and raises no length does to s' what it does to s. -/
theorem State.SameValid.congr {t t' : State} (h : s.SameValid s')
    (hframe : t' = { t with sb := s'.sb, pcm := s'.pcm, boots := s'.boots })
    (hbuffers : t.bufferData = s.bufferData) (hslen : ∀ st, t.slenOf st ≤ s.slenOf st)
    (hpcmlen : t.pcmlen.toNat ≤ s.pcmlen.toNat) : t.SameValid t' := by
  simp only [State.bufferData, Prod.mk.injEq] at hbuffers
  obtain ⟨hcfg, hsb, hpcm, hboots⟩ := hbuffers
  have hcfg' : s'.cfg = s.cfg := by rw [h.frame]
  subst hframe
  refine ⟨rfl, fun st a ha => ?_, fun a ha => ?_⟩
  · have hold := h.bytes st a (ha.trans_le (hslen st))
    simpa only [State.sbRead, State.sbOf, hsb, hboots] using hold
  · have hold := h.samples a (ha.trans_le hpcmlen)
    simpa only [State.pcmRead, hcfg, hcfg', hpcm, hboots] using hold

/-- `congr` for an update that leaves the lengths alone too. -/
theorem State.SameValid.congr_lengths {t t' : State} (h : s.SameValid s')
    (hframe : t' = { t with sb := s'.sb, pcm := s'.pcm, boots := s'.boots })
    (hbuffers : t.bufferData = s.bufferData) (hslen : t.slen = s.slen)
    (hpcmlen : t.pcmlen = s.pcmlen) : t.SameValid t' :=
  h.congr hframe hbuffers (fun st => by rw [State.slenOf, hslen, State.slenOf]) (by rw [hpcmlen])

/-! #### Reads -/

theorem State.SameValid.slenOf (h : s.SameValid s') (st : Nat) : s'.slenOf st = s.slenOf st := by
  rw [h.frame]; rfl

/-- A bit of a stream comes from a valid byte, or is 0 (43_bitpack.md R200). -/
theorem State.SameValid.streamBit (h : s.SameValid s') (st b : Nat) :
    s'.streamBit st b = s.streamBit st b := by
  rw [State.streamBit, h.slenOf, State.streamBit]
  split
  · rw [h.bytes st _ (by omega)]
  · rfl

/-- A received sample is valid, or is 0 (42_rx_spectro_detect.md R162). -/
theorem State.SameValid.xpad (h : s.SameValid s') (a : Nat) : s'.xpad a = s.xpad a := by
  have hpcmlen : s'.pcmlen = s.pcmlen := by rw [h.frame]
  rw [State.xpad, hpcmlen, State.xpad]
  split
  · next ha => exact h.samples a ha
  · rfl

theorem State.SameValid.windowSamples (h : s.SameValid s') (p : Nat) :
    s'.windowSamples p = s.windowSamples p := by
  have hactive : s'.activeCells p = s.activeCells p := by
    simp only [State.activeCells, State.isActive, h.streamBit]
    rw [h.frame]; rfl
  have hsample (t : Nat) : s'.windowSample p t = s.windowSample p t := by
    rw [State.windowSample, hactive, h.frame]; rfl
  simp only [State.windowSamples, funext hsample]
  rw [h.frame]

theorem State.SameValid.nextPhase (h : s.SameValid s') (p i j : Nat) :
    s'.nextPhase p i j = s.nextPhase p i j := by
  simp only [State.nextPhase, State.isActive, h.streamBit]
  rw [h.frame]; rfl

theorem State.SameValid.spectrum (h : s.SameValid s') (p : Nat) :
    s'.spectrum p = s.spectrum p := by
  simp only [State.spectrum, State.subWindow, h.xpad]
  rw [h.frame]; rfl

/-! #### Updates -/

theorem State.SameValid.setDone (h : s.SameValid s') (v : Bool) :
    (s.setDone v).SameValid (s'.setDone v) := by
  obtain ⟨sb, pcm, boots, rfl⟩ := h.exists_buffers
  exact h.congr_lengths rfl rfl rfl rfl

theorem State.SameValid.raise (h : s.SameValid s') (e : ErrCode) (w : Word) :
    (s.raise e w).SameValid (s'.raise e w) := by
  obtain ⟨sb, pcm, boots, rfl⟩ := h.exists_buffers
  exact h.congr_lengths rfl rfl rfl rfl

theorem State.SameValid.softReset (h : s.SameValid s') : s.softReset.SameValid s'.softReset := by
  obtain ⟨sb, pcm, boots, rfl⟩ := h.exists_buffers
  have hslen (st : Nat) : s.softReset.slenOf st = 0 := by
    rw [State.slenOf, State.softReset_slen, State.resetOf, Vector.getElem?_replicate]
    split <;> rfl
  exact h.congr rfl rfl (fun st => by rw [hslen]; exact Nat.zero_le _) (Nat.zero_le _)

theorem State.SameValid.setAcc (h : s.SameValid s') (st : Nat) (a : Acc) :
    (s.setAcc st a).SameValid (s'.setAcc st a) := by
  obtain ⟨sb, pcm, boots, rfl⟩ := h.exists_buffers
  exact h.congr_lengths rfl rfl rfl rfl

theorem State.SameValid.clearSlen (h : s.SameValid s') (st : Nat) :
    (s.setSlen st 0).SameValid (s'.setSlen st 0) := by
  obtain ⟨sb, pcm, boots, rfl⟩ := h.exists_buffers
  refine h.congr rfl rfl (fun i => ?_) le_rfl
  rw [State.slenOf_setSlen]
  split
  · exact Nat.zero_le _
  · exact le_rfl

theorem State.SameValid.txStarted (h : s.SameValid s') : s.txStarted.SameValid s'.txStarted := by
  obtain ⟨sb, pcm, boots, rfl⟩ := h.exists_buffers
  exact h.congr_lengths rfl rfl rfl rfl

/-- `TX.WINDOW` reads only valid bytes (41_tx_synth.md R132). -/
theorem State.SameValid.synthWindow (h : s.SameValid s') :
    s.synthWindow.SameValid s'.synthWindow := by
  refine h.congr_lengths ?_ rfl rfl rfl
  simp only [State.synthWindow, h.nextPhase, h.windowSamples]
  rw [h.frame]; rfl

theorem State.SameValid.synthWindows (h : s.SameValid s') (n : Nat) :
    (s.synthWindows n).SameValid (s'.synthWindows n) := by
  induction n with
  | zero => exact h
  | succ n ih => exact ih.synthWindow

/-- Every sample below the new `PCMLEN` is one `TX.FINISH` emits (41_tx_synth.md R138). -/
theorem State.SameValid.finishTx (h : s.SameValid s') : s.finishTx.SameValid s'.finishTx := by
  obtain ⟨sb, pcm, boots, rfl⟩ := h.exists_buffers
  refine ⟨rfl, h.bytes, fun a ha => ?_⟩
  have hlen : a < s.wc.toNat * s.spf.toNat := by
    rw [State.finishTx_pcmlen, BitVec.toNat_ofNat] at ha
    exact ha.trans_le (Nat.mod_le _ _)
  rw [State.pcmRead_finishTx, State.pcmRead_finishTx, if_pos hlen, if_pos hlen]

theorem State.SameValid.rxStarted (h : s.SameValid s') : s.rxStarted.SameValid s'.rxStarted := by
  obtain ⟨sb, pcm, boots, rfl⟩ := h.exists_buffers
  refine h.congr rfl rfl (fun st => ?_) le_rfl
  rw [State.slenOf_rxStarted]
  split
  · exact Nat.zero_le _
  · exact le_rfl

/-- `RX.SPECTRUM` reads only valid samples (42_rx_spectro_detect.md R162). -/
theorem State.SameValid.takeSpectrum (h : s.SameValid s') :
    s.takeSpectrum.SameValid s'.takeSpectrum := by
  refine h.congr_lengths ?_ rfl rfl rfl
  simp only [State.takeSpectrum, h.spectrum]
  rw [h.frame]

theorem State.SameValid.takeSpectra (h : s.SameValid s') (n : Nat) :
    (s.takeSpectra n).SameValid (s'.takeSpectra n) := by
  induction n with
  | zero => exact h
  | succ n ih => exact ih.takeSpectrum

@[simp] theorem State.appended_pcmlen (st : Nat) (b : Byte) :
    (s.appended st b).pcmlen = s.pcmlen := by
  rw [State.appended, State.setAcc_pcmlen, State.setSlen_pcmlen, State.sbWrite_pcmlen]

@[simp] theorem State.pcmRead_appended (st : Nat) (b : Byte) (a : Nat) :
    (s.appended st b).pcmRead a = s.pcmRead a := by
  rw [State.appended, State.pcmRead_setAcc, State.pcmRead_setSlen, State.pcmRead_sbWrite]

/-- `sbRead_appended` for a stream that need not exist. -/
theorem State.sbRead_appended_eq (st : Nat) (b : Byte) (i a : Nat) :
    (s.appended st b).sbRead i a =
      if i = st ∧ st < bankSize ∧ a = s.slenOf st then b else s.sbRead i a := by
  rw [State.appended, State.sbRead_setAcc, State.sbRead_setSlen, State.sbRead_sbWrite]

/-- The one byte that may become valid is the byte appended, the same on both sides (43_bitpack.md R202). -/
theorem State.SameValid.appended (h : s.SameValid s') (st : Nat) (b : Byte) :
    (s.appended st b).SameValid (s'.appended st b) := by
  refine ⟨?_, fun i a ha => ?_, fun a ha => ?_⟩
  · obtain ⟨sb, pcm, boots, rfl⟩ := h.exists_buffers
    rfl
  · rw [State.sbRead_appended_eq, State.sbRead_appended_eq, h.slenOf]
    split
    · rfl
    · next hold =>
        refine h.bytes i a ?_
        rw [State.appended, State.slenOf_setAcc, State.slenOf_setSlen, State.slenOf_sbWrite] at ha
        split at ha
        · next hst =>
            obtain ⟨rfl, hbank⟩ := hst
            have hle : a < s.slenOf i + 1 := ha.trans_le (Nat.mod_le _ _)
            have hne : a ≠ s.slenOf i := fun hc => hold ⟨rfl, hbank, hc⟩
            omega
        · exact ha
  · rw [State.appended_pcmlen] at ha
    rw [State.pcmRead_appended, State.pcmRead_appended]
    exact h.samples a ha

/-! #### The serializer -/

theorem State.SameValid.emitByte (h : s.SameValid s') (st : Nat) (b : Byte) :
    SameOutcome (s.emitByte st b) (s'.emitByte st b) := by
  have happended := h.appended st b
  obtain ⟨sb, pcm, boots, rfl⟩ := h.exists_buffers
  exact .ite (.done happended) (.raised .cap)

theorem State.SameValid.putBit (h : s.SameValid s') (st : Nat) (v : Bool) :
    SameOutcome (s.putBit st v) (s'.putBit st v) := by
  obtain ⟨sb, pcm, boots, rfl⟩ := h.exists_buffers
  exact .ite (h.emitByte st _) (.done (h.setAcc st _))

theorem State.SameValid.flushBits (h : s.SameValid s') (st : Nat) :
    SameOutcome (s.flushBits st) (s'.flushBits st) := by
  obtain ⟨sb, pcm, boots, rfl⟩ := h.exists_buffers
  exact .ite (.done h) (h.emitByte st _)

theorem State.SameValid.decideCells (h : s.SameValid s') (p : Nat) (cs : List (Nat × Nat)) :
    SameOutcome (State.decideCells p cs s) (State.decideCells p cs s') := by
  induction cs generalizing s s' with
  | nil => exact .done h
  | cons c cs ih =>
      have hdecision : s'.decision p c.1 c.2 = s.decision p c.1 c.2 := by rw [h.frame]; rfl
      rw [State.decideCells, State.decideCells, hdecision]
      exact (h.putBit c.1 _).bind fun _ _ ht => ih ht

theorem State.SameValid.flushStreams (h : s.SameValid s') (is : List Nat) :
    SameOutcome (State.flushStreams is s) (State.flushStreams is s') := by
  induction is generalizing s s' with
  | nil => exact .done h
  | cons i is ih => exact (h.flushBits i).bind fun _ _ ht => ih ht

/-! #### Commands -/

theorem State.SameValid.txStartBody (h : s.SameValid s') :
    SameOutcome (txStartBody s) (txStartBody s') := by
  have hstarted := h.txStarted
  rw [txStartBody_eq, txStartBody_eq]
  obtain ⟨sb, pcm, boots, rfl⟩ := h.exists_buffers
  exact .ite (.done hstarted) (.raised .cap)

theorem State.SameValid.rxStartBody (h : s.SameValid s') :
    SameOutcome (rxStartBody s) (rxStartBody s') := by
  have hstarted := h.rxStarted
  rw [rxStartBody_eq, rxStartBody_eq]
  obtain ⟨sb, pcm, boots, rfl⟩ := h.exists_buffers
  exact .ite (.done hstarted) (.raised .cap)

theorem State.SameValid.rxDetectBody (h : s.SameValid s') :
    SameOutcome (rxDetectBody s) (rxDetectBody s') := by
  have hwidx : s'.widx = s.widx := by rw [h.frame]
  have hcells : s'.cells = s.cells := by rw [h.frame]; rfl
  rw [Machine.rxDetectBody, Machine.rxDetectBody, hwidx, hcells]
  refine (h.decideCells _ _).bind fun t t' ht => .done ?_
  obtain ⟨sb, pcm, boots, rfl⟩ := ht.exists_buffers
  exact ht.congr_lengths rfl rfl rfl rfl

theorem State.SameValid.detectWindows (h : s.SameValid s') (n : Nat) :
    SameOutcome (detectWindows s n) (detectWindows s' n) := by
  induction n with
  | zero => exact .done h
  | succ n ih => exact ih.bind fun _ _ ht => ht.rxDetectBody

theorem State.SameValid.rxFinishBody (h : s.SameValid s') :
    SameOutcome (rxFinishBody s) (rxFinishBody s') := by
  have hnstr : s'.nstr = s.nstr := by rw [h.frame]; rfl
  have hmmax : s'.mmax = s.mmax := by rw [h.frame]
  rw [Machine.rxFinishBody, Machine.rxFinishBody, hnstr, hmmax]
  refine (h.flushStreams _).bind fun t t' ht => .done ?_
  obtain ⟨sb, pcm, boots, rfl⟩ := ht.exists_buffers
  exact ht.congr_lengths rfl rfl rfl rfl

theorem geoResolveBody_error {e : ErrCode} (hc : s.geoParams.check s.cfg = some e) :
    geoResolveBody s = .error e := by
  rw [geoResolveBody, hc]

theorem geoResolveBody_ok (hc : s.geoParams.check s.cfg = none) :
    geoResolveBody s = .ok ((s.setGeometry s.geoParams).setGeov true) := by
  rw [geoResolveBody, hc]

theorem State.SameValid.geoResolveBody (h : s.SameValid s') :
    SameOutcome (geoResolveBody s) (geoResolveBody s') := by
  have hcheck : s'.geoParams.check s'.cfg = s.geoParams.check s.cfg := by rw [h.frame]; rfl
  cases hc : s.geoParams.check s.cfg with
  | some e =>
      rw [geoResolveBody_error hc, geoResolveBody_error (hcheck.trans hc)]
      exact .raised e
  | none =>
      rw [geoResolveBody_ok hc, geoResolveBody_ok (hcheck.trans hc)]
      obtain ⟨sb, pcm, boots, rfl⟩ := h.exists_buffers
      exact .done (h.congr_lengths rfl rfl rfl rfl)

theorem State.SameValid.geoWcountBody (h : s.SameValid s') :
    SameOutcome (geoWcountBody s) (geoWcountBody s') := by
  obtain ⟨sb, pcm, boots, rfl⟩ := h.exists_buffers
  exact .ite (.done (h.congr_lengths rfl rfl rfl rfl)) (.raised .cap)

theorem State.SameValid.bitGetBody (h : s.SameValid s') (st : Nat) :
    SameOutcome (bitGetBody st s) (bitGetBody st s') := by
  have hbit := h.streamBit st s.bitix.toNat
  obtain ⟨sb, pcm, boots, rfl⟩ := h.exists_buffers
  refine .ite (.done (h.congr_lengths ?_ rfl rfl rfl)) (.raised .cap)
  exact congrArg (fun v => { s with bitv := v, sb := sb, pcm := pcm, boots := boots }) hbit

theorem State.SameValid.bodyOf (h : s.SameValid s') (i : Instr) :
    SameOutcome (bodyOf i s) (bodyOf i s') := by
  cases i
  case nop | srst => exact .done h
  case geoResolve => exact h.geoResolveBody
  case geoWcount => exact h.geoWcountBody
  case txStart => exact h.txStartBody
  case txWindow => exact .done h.synthWindow
  case txFinish => exact .done h.finishTx
  case txEncode =>
    refine h.txStartBody.bind fun t t' ht => .done ?_
    have hwc : t'.wc = t.wc := by rw [ht.frame]
    rw [hwc]
    exact (ht.synthWindows _).finishTx
  case rxStart => exact h.rxStartBody
  case rxSpectrum => exact .done h.takeSpectrum
  case rxDetect => exact h.rxDetectBody
  case rxFinish => exact h.rxFinishBody
  case rxDecode =>
    refine h.rxStartBody.bind fun t t' ht => ?_
    have hwc : t'.wc = t.wc := by rw [ht.frame]
    rw [hwc]
    exact ((ht.takeSpectra _).detectWindows _).bind fun _ _ hu => hu.rxFinishBody
  case bitGet st => exact h.bitGetBody st.toNat
  case bitPut st v => exact h.putBit st.toNat v
  case bitFlush st => exact h.flushBits st.toNat
  case bitClr st => exact .done ((h.clearSlen st.toNat).setAcc st.toNat Acc.clear)

/-- The common checks read no buffer (60_exceptions.md R246). -/
theorem State.SameValid.legality (h : s.SameValid s') (i : Instr) :
    legality i s' = legality i s := by
  rw [h.frame]
  cases i <;> rfl

theorem State.SameValid.runCommand {t t' : State} {i : Instr}
    {body : State → Except ErrCode State} (h : s.SameValid s')
    (hbody : SameOutcome (body (s.setDone false)) (body (s'.setDone false)))
    (ht : runCommand i body s = .next t) (ht' : runCommand i body s' = .next t') :
    t.SameValid t' := by
  have herr : s'.status.err = s.status.err := by rw [h.frame]
  have hcleared := h.setDone false
  cases he : s.status.err with
  | true =>
      rw [runCommand_refused i body he] at ht
      rw [runCommand_refused i body (herr.trans he)] at ht'
      cases ht; cases ht'
      exact h
  | false =>
      have he' := herr.trans he
      cases hl : Machine.legality i s with
      | some e =>
          rw [runCommand_illegal he hl] at ht
          rw [runCommand_illegal he' ((h.legality i).trans hl)] at ht'
          cases ht; cases ht'
          exact hcleared.raise e _
      | none =>
          have hl' := (h.legality i).trans hl
          generalize hx : body (s.setDone false) = x at hbody
          generalize hx' : body (s'.setDone false) = x' at hbody
          cases hbody with
          | raised e =>
              rw [runCommand_raise he hl hx] at ht
              rw [runCommand_raise he' hl' hx'] at ht'
              cases ht; cases ht'
              exact hcleared.raise e _
          | done hu =>
              rw [runCommand_done he hl hx] at ht
              rw [runCommand_done he' hl' hx'] at ht'
              cases ht; cases ht'
              exact hu.setDone true

theorem State.SameValid.exec {t t' : State} {i : Instr} (h : s.SameValid s')
    (ht : exec i s = .next t) (ht' : exec i s' = .next t') : t.SameValid t' := by
  by_cases hi : i = .srst
  · subst hi
    cases ht
    cases ht'
    exact h.softReset
  · rw [exec_eq hi] at ht ht'
    exact h.runCommand ((h.setDone false).bodyOf i) ht ht'

end

/-- Settles O57: every read of a command is of a valid element, and a command makes an element valid only by
writing it. -/
theorem unspecifiedContentsNeverMatter : Obligations.UnspecifiedContentsNeverMatter := by
  intro i s s' t t' hframe hbytes hsamples ht ht'
  obtain ⟨hframe', hbytes', hsamples'⟩ := State.SameValid.exec ⟨hframe, hbytes, hsamples⟩ ht ht'
  exact ⟨hframe', hbytes', hsamples'⟩

end Sys2Proof.Machine
end

section
/-! PROOFS. 30_encoding.md: the command word (R90 to R93) and the common checks of the commands (R97). -/

namespace Sys2Proof

/-! ### The fields of a word -/

theorem toNat_append_eq_mul_add {m n : ℕ} (x : BitVec m) (y : BitVec n) :
    (x ++ y).toNat = x.toNat * 2 ^ n + y.toNat := by
  rw [BitVec.toNat_append, ← Nat.shiftLeft_add_eq_or_of_lt y.isLt, Nat.shiftLeft_eq]

theorem toNat_opField (w : Word) : (opField w).toNat = w.toNat / 2 ^ 24 := by
  have := w.isLt
  rw [opField, BitVec.extractLsb'_toNat, Nat.shiftRight_eq_div_pow]
  omega

theorem toNat_streamField (w : Word) : (streamField w).toNat = w.toNat / 2 ^ 16 % 2 ^ 8 := by
  rw [streamField, BitVec.extractLsb'_toNat, Nat.shiftRight_eq_div_pow]

theorem toNat_valueField (w : Word) : (valueField w).toNat = w.toNat % 2 := by
  rw [valueField, BitVec.getLsbD, Nat.toNat_testBit, pow_zero, Nat.div_one]

/-- The word of a command as a number (R91). -/
theorem toNat_encode (i : Instr) : (encode i).toNat =
    (opcode i).toNat * 2 ^ 24 + (i.stream?.getD 0#8).toNat * 2 ^ 16 + (bitValue i).toNat := by
  rw [encode, toNat_append_eq_mul_add, toNat_append_eq_mul_add, toNat_append_eq_mul_add,
    BitVec.toNat_ofBool, BitVec.toNat_zero]
  ring

theorem opField_encode (i : Instr) : opField (encode i) = opcode i := by
  have hs := (i.stream?.getD 0#8).isLt
  have hv := (bitValue i).toNat_lt
  apply BitVec.eq_of_toNat_eq
  rw [toNat_opField, toNat_encode]
  omega

theorem streamField_encode (i : Instr) : streamField (encode i) = i.stream?.getD 0#8 := by
  have hs := (i.stream?.getD 0#8).isLt
  have hv := (bitValue i).toNat_lt
  apply BitVec.eq_of_toNat_eq
  rw [toNat_streamField, toNat_encode]
  omega

theorem valueField_encode (i : Instr) : valueField (encode i) = bitValue i := by
  have hv := (bitValue i).toNat_lt
  rw [Bool.eq_iff_iff, ← Bool.toNat_eq_one, ← Bool.toNat_eq_one, toNat_valueField, toNat_encode]
  omega

/-- The bits a format says are zero (R91), of a word as a number. -/
def Format.reserved : Format → ℕ → ℕ
  | .z, n => n % 2 ^ 24
  | .s, n => n % 2 ^ 16
  | .sv, n => n % 2 ^ 16 / 2

theorem and_mustBeZero_eq_zero_iff (f : Format) (w : Word) :
    w &&& f.mustBeZero = 0#32 ↔ f.reserved w.toNat = 0 := by
  rw [← BitVec.toNat_inj, BitVec.toNat_and, BitVec.toNat_zero]
  cases f with
  | z => exact (Nat.and_two_pow_sub_one_eq_mod w.toNat 24).congr_left
  | s => exact (Nat.and_two_pow_sub_one_eq_mod w.toNat 16).congr_left
  | sv =>
      have hmod : (w.toNat &&& 0xFFFE) % 2 = 0 := by simp [Nat.and_mod_two_pow (n := 1)]
      have hdiv : (w.toNat &&& 0xFFFE) / 2 = w.toNat / 2 % 2 ^ 15 := by
        rw [Nat.and_div_two, ← Nat.and_two_pow_sub_one_eq_mod]
      change w.toNat &&& 0xFFFE = 0 ↔ w.toNat % 2 ^ 16 / 2 = 0
      omega

/-! ### The opcode map -/

/-- Which operands of a row's word the command takes over, in all rows (R91, R92). -/
theorem OpRow.fields_make {r : OpRow} (hr : r ∈ opTable) (s : BitVec 8) (v : Bool) :
    opcode (r.make s v) = r.op ∧
      (r.make s v).stream? = (if r.format = .z then none else some s) ∧
      bitValue (r.make s v) = (if r.format = .sv then v else false) := by
  revert r
  simp [opTable, opcode, Instr.stream?, bitValue]

theorem OpRow.wf_make {r : OpRow} (hr : r ∈ opTable) (s : BitVec 8) (v : Bool) (c : Config) :
    (r.make s v).wf c = true ↔ r.format = .z ∨ s.toNat < c.maxStreams := by
  obtain ⟨-, hs, -⟩ := fields_make hr s v
  rw [Instr.wf, hs]
  by_cases hf : r.format = .z <;> simp [hf]

/-- The rows of each format, by their opcodes (R92). -/
theorem OpRow.format_iff {r : OpRow} (hr : r ∈ opTable) :
    (r.format = .z ↔ r.op.toNat < 0x40) ∧
      (r.format = .s ↔ r.op.toNat ∈ [0x40, 0x42, 0x43]) ∧
      (r.format = .sv ↔ r.op.toNat = 0x41) := by
  revert r
  simp [opTable]

/-- Every command has its row (R92). -/
theorem exists_row_of_opcode (i : Instr) :
    ∃ r, opTable.find? (fun r => r.op == opcode i) = some r ∧
      r.make (i.stream?.getD 0#8) (bitValue i) = i := by
  cases i <;> exact ⟨_, rfl, rfl⟩

/-- The word of a row's command, from the operands the row takes over. -/
theorem OpRow.toNat_encode_make {r : OpRow} (hr : r ∈ opTable) (s : BitVec 8) (v : Bool) :
    (encode (r.make s v)).toNat = r.op.toNat * 2 ^ 24 +
      (if r.format = .z then 0 else s.toNat * 2 ^ 16) + if r.format = .sv then v.toNat else 0 := by
  obtain ⟨hop, hs, hv⟩ := fields_make hr s v
  rw [toNat_encode, hop, hs, hv]
  cases r.format <;> simp

/-- No row's command sets a bit that its format says is zero. -/
theorem OpRow.reserved_encode_make {r : OpRow} (hr : r ∈ opTable) (s : BitVec 8) (v : Bool) :
    r.format.reserved (encode (r.make s v)).toNat = 0 := by
  have hv := v.toNat_lt
  rw [toNat_encode_make hr]
  cases r.format <;> simp [Format.reserved] <;> omega

/-- A word with a row's opcode and its zero bits at 0 is the word of the row's command. -/
theorem OpRow.encode_make_of_reserved {r : OpRow} (hr : r ∈ opTable) {w : Word}
    (hop : r.op = opField w) (hres : r.format.reserved w.toNat = 0) :
    encode (r.make (streamField w) (valueField w)) = w := by
  apply BitVec.eq_of_toNat_eq
  rw [toNat_encode_make hr, hop, toNat_opField, toNat_streamField, toNat_valueField]
  cases hf : r.format <;> rw [hf] at hres <;> simp [Format.reserved] at hres ⊢ <;> omega

/-! ### Decoding -/

theorem row_of_find {w : Word} {r : OpRow}
    (h : opTable.find? (fun r => r.op == opField w) = some r) : r ∈ opTable ∧ r.op = opField w :=
  ⟨List.mem_of_find?_eq_some h, by simpa using List.find?_some h⟩

/-- What decoding says of a word with an opcode of the map (R90). -/
theorem decode_of_find {w : Word} {r : OpRow} (c : Config)
    (h : opTable.find? (fun r => r.op == opField w) = some r) :
    decode c w =
      if r.format.reserved w.toNat ≠ 0 then .error .nonzeroReserved
      else if (r.make (streamField w) (valueField w)).wf c then
        .ok (r.make (streamField w) (valueField w))
      else .error .noSuchStream := by
  simp only [decode, h, ne_eq, and_mustBeZero_eq_zero_iff]

theorem decode_of_find_none {w : Word} (c : Config)
    (h : opTable.find? (fun r => r.op == opField w) = none) : decode c w = .error .unassignedOp := by
  simp only [decode, h]

/-- The words that decode: those with a row, with its zero bits at 0, and with an existing stream. -/
theorem decode_eq_ok_iff (c : Config) (w : Word) (i : Instr) :
    decode c w = .ok i ↔
      ∃ r, opTable.find? (fun r => r.op == opField w) = some r ∧ r.format.reserved w.toNat = 0 ∧
        i.wf c = true ∧ r.make (streamField w) (valueField w) = i := by
  cases h : opTable.find? (fun r => r.op == opField w) with
  | none => simp [decode_of_find_none c h]
  | some r =>
      rw [decode_of_find c h]
      constructor
      · intro hd
        split_ifs at hd with hres hwf
        cases hd
        exact ⟨r, rfl, not_not.mp hres, hwf, rfl⟩
      · rintro ⟨_, ⟨⟩, hres, hwf, rfl⟩
        rw [if_neg (not_not.mpr hres), if_pos hwf]

/-- A word with a row does not decode exactly when a zero bit is 1 or its stream does not exist (R93). -/
theorem decode_error_iff_of_find {w : Word} {r : OpRow} (c : Config)
    (h : opTable.find? (fun r => r.op == opField w) = some r) :
    (∃ e, decode c w = .error e) ↔
      r.format.reserved w.toNat ≠ 0 ∨ r.format ≠ .z ∧ c.maxStreams ≤ (streamField w).toNat := by
  have hwf := OpRow.wf_make (row_of_find h).1 (streamField w) (valueField w) c
  rw [← not_lt, ← not_or, ← hwf, decode_of_find c h]
  split_ifs <;> simp [*]

/-- The opcodes of the map as numbers (R92). -/
theorem exists_row_iff (n : ℕ) :
    (∃ r ∈ opTable, r.op.toNat = n) ↔
      n ∈ [0x00, 0x01, 0x10, 0x11, 0x20, 0x21, 0x22, 0x23, 0x30, 0x31, 0x32, 0x33, 0x34, 0x40, 0x41,
        0x42, 0x43] :=
  List.mem_map.symm

theorem not_exists_row_of_find_none {w : Word}
    (h : opTable.find? (fun r => r.op == opField w) = none) :
    ¬ ∃ r ∈ opTable, r.op.toNat = (opField w).toNat := by
  rintro ⟨r, hr, hop⟩
  exact List.find?_eq_none.mp h r hr (by simpa [BitVec.toNat_inj] using hop)

/-- Settles O1: the fields of the encoded word are the command's own, and its row has no other bits. -/
theorem decodeInvertsEncode : Obligations.DecodeInvertsEncode := by
  intro c i hwf
  obtain ⟨r, hfind, hmake⟩ := exists_row_of_opcode i
  rw [← opField_encode] at hfind
  have hres := OpRow.reserved_encode_make (row_of_find hfind).1 (i.stream?.getD 0#8) (bitValue i)
  rw [hmake] at hres
  refine (decode_eq_ok_iff c _ i).mpr ⟨r, hfind, hres, hwf, ?_⟩
  rw [streamField_encode, valueField_encode, hmake]

/-- Settles O4: the written words are those of the commands, and each other fails one step of R90. -/
theorem writtenWordsDecode : Obligations.WrittenWordsDecode :=
  ⟨decodeInvertsEncode _ .srst rfl, decodeInvertsEncode _ .geoResolve rfl,
    decodeInvertsEncode _ .txWindow rfl, decodeInvertsEncode _ .rxDetect rfl,
    decodeInvertsEncode _ (.bitPut 3#8 true) rfl, decodeInvertsEncode _ (.bitClr 15#8) rfl,
    rfl, rfl, rfl⟩

/-- Settles O2: the opcode, the operands and the zero bits are all the bits of a legal word. -/
theorem encodeInvertsDecode : Obligations.EncodeInvertsDecode := by
  intro c w i h
  obtain ⟨r, hfind, hres, hwf, rfl⟩ := (decode_eq_ok_iff c w i).mp h
  obtain ⟨hr, hop⟩ := row_of_find hfind
  exact ⟨hwf, OpRow.encode_make_of_reserved hr hop hres⟩

end Sys2Proof

namespace Sys2Proof.Machine

section

variable {s : State}

/-- An illegal word written to `CMD` outside the error state raises `E_ILLCMD` (R93, R246 (1)). -/
theorem hostAccess_illegalWord {w : Word} {e : DecodeReject} (hd : decode s.cfg w = .error e)
    (herr : s.status.err = false) :
    hostAccess (.writeReg 0 w) s = .next ((s.setDone false).raise .illcmd w) := by
  rw [hostAccess, if_pos rfl, writeCmd, hd, illegalCommand, herr]
  rfl

end

/-- Settles O3: a word without a row has no listed opcode, and the opcode of a row gives its format, so
R93's other clauses say when its zero bits or its stream are wrong. -/
theorem illegalWordsRefused : Obligations.IllegalWordsRefused := by
  refine fun c w => ⟨?_, ?_⟩
  · rw [← exists_row_iff, ← toNat_opField, ← toNat_streamField]
    cases h : opTable.find? (fun r => r.op == opField w) with
    | none => exact iff_of_true ⟨_, decode_of_find_none c h⟩ (.inl (not_exists_row_of_find_none h))
    | some r =>
        obtain ⟨hr, hop⟩ := row_of_find h
        obtain ⟨hz, hs, hsv⟩ := OpRow.format_iff hr
        have hlisted : ∃ r ∈ opTable, r.op.toNat = (opField w).toNat := ⟨r, hr, by rw [hop]⟩
        rw [decode_error_iff_of_find c h, ← hop, ← not_lt (b := 0x40), ← hz, ← hs, ← hsv]
        cases r.format <;> simp [Format.reserved, hlisted, hop]
  · rintro s rfl ⟨e, he⟩ herr
    exact hostAccess_illegalWord he herr

/-! ### The common checks (R97) -/

section

variable {s : State} {i : Instr} {m : Mode} {e : ErrCode}

/-- A failing common check of a command that needs a mode is a precise raise of its error. -/
theorem raises_of_legality (herr : s.status.err = false) (hm : modeNeeded i = some m)
    (hl : legality i s = some e) : Raises i s e := by
  have hi : i ≠ .srst := by rintro rfl; cases hm
  rw [Raises, exec_eq hi]
  exact runCommand_illegal herr hl

/-- Check (2) of R246. -/
theorem raises_seq_of_mode (herr : s.status.err = false) (hm : modeNeeded i = some m)
    (h : s.status.mode ≠ m) : Raises i s .seq :=
  raises_of_legality herr hm (by simp [legality, hm, h])

/-- Check (3) of R246. -/
theorem raises_nogeo_of_geov (herr : s.status.err = false)
    (hneeded : modeNeeded i = some m ∧ geoNeeded i = true) (h : s.status.mode = m)
    (hv : s.status.geov = false) : Raises i s .nogeo := by
  obtain ⟨hm, hg⟩ := hneeded
  exact raises_of_legality herr hm (by simp [legality, hm, h, hg, hv])

/-- Check (4) of R246. -/
theorem raises_seq_of_further (herr : s.status.err = false) (hm : modeNeeded i = some m)
    (h : s.status.mode = m) (hv : s.status.geov = true) (hf : ¬ furtherCondition s i = true) :
    Raises i s .seq :=
  raises_of_legality herr hm (by simp [legality, hm, h, hv, hf])

end

/-- Settles O11: the table of R97 names the mode and the geometry each command needs, and each clause is
one check, those before it having passed. -/
theorem commonChecksInOrder : Obligations.CommonChecksInOrder := by
  intro s herr
  have hidle : ∀ i ∈ [Instr.geoResolve, .geoWcount, .txStart, .txEncode, .rxStart, .rxDecode],
      modeNeeded i = some .idle := by decide
  have hbit (st v) : ∀ i ∈ [Instr.bitGet st, .bitPut st v, .bitFlush st, .bitClr st],
      modeNeeded i = some .idle := by simp [modeNeeded]
  have hidleGeo : ∀ i ∈ [Instr.geoWcount, .txStart, .txEncode, .rxStart, .rxDecode],
      modeNeeded i = some .idle ∧ geoNeeded i = true := by decide
  have htx : ∀ i ∈ [Instr.txWindow, .txFinish],
      modeNeeded i = some .tx ∧ geoNeeded i = true := by decide
  have hrx : ∀ i ∈ [Instr.rxSpectrum, .rxDetect, .rxFinish],
      modeNeeded i = some .rx ∧ geoNeeded i = true := by decide
  refine ⟨fun h => ⟨?_, ?_⟩, ?_, ?_, fun hv => ⟨?_, ?_, ?_⟩,
    fun hv => ⟨fun h => ⟨fun hf => ?_, fun hf => ?_⟩,
      fun h => ⟨fun hf => ?_, fun hf => ?_, fun hf => ?_⟩⟩⟩
  · exact fun i hi => raises_seq_of_mode herr (hidle i hi) h
  · exact fun st v i hi => raises_seq_of_mode herr (hbit st v i hi) h
  · exact fun h i hi => raises_seq_of_mode herr (htx i hi).1 h
  · exact fun h i hi => raises_seq_of_mode herr (hrx i hi).1 h
  · exact fun h i hi => raises_nogeo_of_geov herr (hidleGeo i hi) h hv
  · exact fun h i hi => raises_nogeo_of_geov herr (htx i hi) h hv
  · exact fun h i hi => raises_nogeo_of_geov herr (hrx i hi) h hv
  all_goals exact raises_seq_of_further herr rfl h hv (by simpa [furtherCondition] using hf)

end Sys2Proof.Machine
end

section
/-! PROOFS. 40_geometry.md: the checks of `GEO.RESOLVE` (R111, R112) and what it writes (R113), the bin map
(R120), and `GEO.WCOUNT` (R122). -/

namespace Sys2Proof.Machine

/-! ### A command that passes the common checks -/

section

variable {s t : State} {i : Instr} {m : Mode} {e : ErrCode}

theorem legality_eq_none (hm : modeNeeded i = some m) (h : s.status.mode = m)
    (hg : geoNeeded i = true → s.status.geov = true) (hf : furtherCondition s i = true) :
    legality i s = none := by
  cases hn : geoNeeded i with
  | false => simp [legality, hm, h, hn, hf]
  | true => simp [legality, hm, h, hg hn, hf]

/-- An error of a command's own rule is a precise raise of it (R244). -/
theorem raises_of_body (hi : i ≠ .srst) (herr : s.status.err = false) (hl : legality i s = none)
    (hb : bodyOf i (s.setDone false) = .error e) : Raises i s e := by
  rw [Raises, exec_eq hi]
  exact runCommand_raise herr hl hb

theorem exec_of_body (hi : i ≠ .srst) (herr : s.status.err = false) (hl : legality i s = none)
    (hb : bodyOf i (s.setDone false) = .ok t) : exec i s = .next (t.setDone true) := by
  rw [exec_eq hi]
  exact runCommand_done herr hl hb

/-- `GEO.RESOLVE` needs no geometry: in `MODE` = IDLE every common check passes (R97). -/
theorem legality_geoResolve (hmode : s.status.mode = .idle) : legality .geoResolve s = none :=
  legality_eq_none rfl hmode (fun h => nomatch h) rfl

theorem legality_geoWcount (hmode : s.status.mode = .idle) (hgeov : s.status.geov = true) :
    legality .geoWcount s = none :=
  legality_eq_none rfl hmode (fun _ => hgeov) rfl

end

/-! ### The checks (R112) -/

section

variable {c : Config} {p : Params}

/-- Check 6 on naturals. -/
theorem Params.enoughBins_iff (h : p.Derivable c) :
    p.EnoughBins ↔ 1 ≤ p.bpb ∧ p.n ≤ p.avail ∧ p.bpb * p.n ≤ p.avail := by
  rw [Params.EnoughBins, Params.binsPerBand_eq h, Params.binsAvailable_eq h]
  norm_cast

/-- Check 7 on naturals: it needs check 6, as `NMAX` subtracts 1 from `BPB`. -/
theorem Params.inRange_iff (h : p.Derivable c) (hb : p.EnoughBins) :
    p.InRange ↔ 1 ≤ p.nmin ∧ 2 * p.nmax < p.nfft := by
  rw [Params.InRange, Params.lastBin_eq h ((Params.enoughBins_iff h).mp hb).1, Params.firstBin_eq h,
    ← Params.nmin]
  norm_cast

/-- Check 8 on naturals. -/
theorem Params.fitsPhases_iff (h : p.Derivable c) : p.FitsPhases c ↔ p.bpb * p.n ≤ c.phaseCap := by
  rw [Params.FitsPhases, Params.binsPerBand_eq h]
  norm_cast

/-- Once the geometry can be derived, checks 6 to 8 decide. -/
theorem Params.check_of_derivable (h : p.Derivable c) : p.check c =
    if ¬ (1 ≤ p.bpb ∧ p.n ≤ p.avail ∧ p.bpb * p.n ≤ p.avail) then some .bins
    else if ¬ (1 ≤ p.nmin ∧ 2 * p.nmax < p.nfft) then some .range
    else if ¬ p.bpb * p.n ≤ c.phaseCap then some .cap
    else none := by
  rw [Params.check, if_neg (not_not.mpr h.bounds), if_neg (not_not.mpr h.fsym),
    if_neg (not_not.mpr h.window), if_neg (not_not.mpr h.decim), if_neg (not_not.mpr h.streams)]

theorem Params.check_eq_bins (h : p.Derivable c) (hb : ¬ p.EnoughBins) : p.check c = some .bins := by
  rw [Params.check_of_derivable h, if_pos (mt (Params.enoughBins_iff h).mpr hb)]

theorem Params.check_eq_range (h : p.Derivable c) (hb : p.EnoughBins) (hr : ¬ p.InRange) :
    p.check c = some .range := by
  rw [Params.check_of_derivable h, if_neg (not_not.mpr ((Params.enoughBins_iff h).mp hb)),
    if_pos (mt (Params.inRange_iff h hb).mpr hr)]

theorem Params.check_eq_cap (h : p.Derivable c) (hb : p.EnoughBins) (hr : p.InRange)
    (hc : ¬ p.FitsPhases c) : p.check c = some .cap := by
  rw [Params.check_of_derivable h, if_neg (not_not.mpr ((Params.enoughBins_iff h).mp hb)),
    if_neg (not_not.mpr ((Params.inRange_iff h hb).mp hr)),
    if_pos (mt (Params.fitsPhases_iff h).mpr hc)]

end

theorem raises_geoResolve {s : State} {e : ErrCode} (herr : s.status.err = false)
    (hmode : s.status.mode = .idle) (hc : s.geoParams.check s.cfg = some e) :
    Raises .geoResolve s e :=
  raises_of_body (by decide) herr (legality_geoResolve hmode) (geoResolveBody_error hc)

/-- Settles O17: the checks are tried in the order of R112, so the first that fails gives the error. -/
theorem geoResolveFirstFailure : Obligations.GeoResolveFirstFailure := by
  rintro s p herr hmode rfl
  refine ⟨fun hbounds => ?_, fun hbounds hfsym => ?_, fun hbounds hfsym hwindow => ?_,
    fun hbounds hfsym hwindow hk => ?_, fun hbounds hfsym hwindow hk hn => ?_,
    fun hd hb => ?_, fun hd hb hr => ?_, fun hd hb hr hcap => ?_⟩ <;>
    apply raises_geoResolve herr hmode
  · rw [Params.check, if_pos hbounds]
  · rw [Params.check, if_neg (not_not.mpr hbounds), if_pos (by omega)]
  · rw [Params.check, if_neg (not_not.mpr hbounds), if_neg (not_not.mpr hfsym), if_pos hwindow]
  · rw [Params.check, if_neg (not_not.mpr hbounds), if_neg (not_not.mpr hfsym),
      if_neg (not_not.mpr hwindow), if_pos (by omega)]
  · rw [Params.check, if_neg (not_not.mpr hbounds), if_neg (not_not.mpr hfsym),
      if_neg (not_not.mpr hwindow), if_neg (not_not.mpr hk), if_pos hn]
  · exact Params.check_eq_bins hd hb
  · exact Params.check_eq_range hd hb hr
  · exact Params.check_eq_cap hd hb hr hcap

/-! ### The derived registers (R113) -/

/-- The registers of a resolved geometry hold what the formulas of R113 give over the rationals. -/
theorem State.Resolved.rational {s : State} (h : s.Resolved) :
    (s.spf.toNat : ℤ) = ⌊(s.geoParams.fs : ℚ) / s.geoParams.fsym⌋ ∧
      (s.bandw.toNat : ℤ) = s.geoParams.width ∧
      (s.bpb.toNat : ℤ) = s.geoParams.binsPerBand ∧
      (s.avail.toNat : ℤ) = s.geoParams.binsAvailable ∧
      (s.nmin.toNat : ℤ) = s.geoParams.firstBin 0 ∧
      (s.nmax.toNat : ℤ) = s.geoParams.lastBin ∧
      ∀ i < s.nstr, (s.nbOf i : ℤ) = s.geoParams.firstBin i := by
  have hv := (Params.check_iff _ _).mp h.check
  have hd := hv.toDerivable
  have hnb : ∀ i < s.nstr, (s.nbOf i : ℤ) = s.geoParams.firstBin i := fun i hi => by
    rw [h.nb i (hi.trans_le hd.streams.2), if_pos hi, Params.firstBin_eq hd]
  refine ⟨?_, ?_, ?_, ?_, ?_, ?_, hnb⟩
  · rw [h.spf, Params.spf, div_eq_floor]
  · rw [h.bandw, Params.width_eq hd]
  · rw [h.bpb, Params.binsPerBand_eq hd]
  · rw [h.avail, Params.binsAvailable_eq hd]
  · rw [h.nmin, Params.nmin, Params.firstBin_eq hd]
  · rw [h.nmax, Params.lastBin_eq hd hv.nat.1.1]

/-- R33: the entries of `NB` from N on hold 0. -/
theorem State.nbOf_setGeometry_of_le (s : State) {p : Params} {i : ℕ} (hi : p.n ≤ i) :
    (s.setGeometry p).nbOf i = 0 := by
  rw [State.nbOf, State.setGeometry_nb, tabulate_getElem?, if_neg hi.not_gt]
  split <;> rfl

/-- Settles O16: the checks pass exactly where the parameters are valid (R112), and what the machine
computes on naturals fits the registers (R121) and is what the rational formulas give. -/
theorem geoResolveDerives : Obligations.GeoResolveDerives := by
  refine fun s herr hmode => ⟨fun hv => ?_, fun hv => ?_⟩
  · have hc := (Params.check_iff _ _).mpr hv
    have hres : (((s.setDone false).setGeometry s.geoParams).setGeov true).Resolved :=
      resolved_geoResolve (s := s.setDone false) hc
    obtain ⟨hspf, hbandw, hbpb, havail, hnmin, hnmax, hnb⟩ := hres.rational
    exact ⟨_, exec_of_body (by decide) herr (legality_geoResolve hmode) (geoResolveBody_ok hc),
      hspf, hbandw, hbpb, havail, hnmin, hnmax, hnb,
      fun _ hi => (s.setDone false).nbOf_setGeometry_of_le hi, ⟨fun _ _ => rfl, fun _ => rfl⟩, rfl⟩
  · obtain ⟨e, he⟩ := Option.ne_none_iff_exists'.mp (mt (Params.check_iff _ _).mp hv)
    exact ⟨e, raises_geoResolve herr hmode he⟩

/-! ### The bin map (R120) -/

section

variable {c : Config} {p : Params}

theorem Params.Derivable.df_pos (h : p.Derivable c) : 0 < p.df := by
  have hfs := h.fs_pos
  have hnfft := h.window.1
  rw [Params.df]
  positivity

theorem Params.Derivable.spacing_pos (h : p.Derivable c) : 0 < p.spacing := by
  have hk : (0 : ℚ) < p.k := by exact_mod_cast h.decim
  exact mul_pos hk h.df_pos

theorem Params.Derivable.width_nonneg (h : p.Derivable c) : 0 ≤ p.width := by
  rw [Params.width_eq h]
  positivity

/-- R120 (a). -/
theorem Params.binsPerBand_mul_spacing_le (h : p.Derivable c) :
    (p.binsPerBand : ℚ) * p.spacing ≤ p.width :=
  (le_div_iff₀ h.spacing_pos).mp (Int.floor_le _)

/-- The lower edge of nominal band i in native bins, x = (flo + i·W) / df of R120; `NB[i]` is its ceiling. -/
def Params.bandEdge (p : Params) (i : ℕ) : ℚ := ((p.flo : ℚ) + i * p.width) / p.df

theorem Params.firstBin_eq_ceil (p : Params) (i : ℕ) : p.firstBin i = ⌈p.bandEdge i⌉ := rfl

theorem Params.bandEdge_mul_df (h : p.Derivable c) (i : ℕ) :
    p.bandEdge i * p.df = (p.flo : ℚ) + i * p.width :=
  div_mul_cancel₀ _ h.df_pos.ne'

/-- A band is at least as wide as its `BPB`·k native bins: R120 (a) in native bins. -/
theorem Params.bandEdge_add_le (h : p.Derivable c) (i : ℕ) :
    p.bandEdge i + (p.binsPerBand * p.k : ℤ) ≤ p.bandEdge (i + 1) := by
  rw [Params.bandEdge, Params.bandEdge, ← sub_nonneg, ← mul_nonneg_iff_of_pos_right h.df_pos]
  have hdf := h.df_pos.ne'
  have hfit := Params.binsPerBand_mul_spacing_le h
  calc (0 : ℚ) ≤ p.width - p.binsPerBand * p.spacing := sub_nonneg.mpr hfit
    _ = _ := by rw [Params.spacing]; push_cast; field_simp; ring

/-- R120 (b). -/
theorem Params.firstBin_add_le_succ (h : p.Derivable c) (i : ℕ) :
    p.firstBin i + p.binsPerBand * p.k ≤ p.firstBin (i + 1) := by
  rw [Params.firstBin_eq_ceil, Params.firstBin_eq_ceil, ← Int.ceil_add_intCast]
  exact Int.ceil_mono (Params.bandEdge_add_le h i)

theorem Params.firstBin_mono (h : p.Derivable c) : Monotone p.firstBin := fun i j hij => by
  rw [Params.firstBin_eq h, Params.firstBin_eq h]
  exact_mod_cast p.nb_mono hij

/-- Bin j of a band lies k below the end of the band's bins. -/
theorem Params.bin_add_le {j : ℕ} (hj : (j : ℤ) < p.binsPerBand) :
    (j : ℤ) * p.k + p.k ≤ p.binsPerBand * p.k := by
  rw [← add_one_mul]
  exact mul_le_mul_of_nonneg_right hj (by positivity)

/-- R120 (c), (d): a later cell lies at least k native bins higher. -/
theorem Params.nativeBin_add_le (h : p.Derivable c) {i i' j j' : ℕ} (hj : (j : ℤ) < p.binsPerBand)
    (hlex : i < i' ∨ i = i' ∧ j < j') :
    p.firstBin i + j * p.k + p.k ≤ p.firstBin i' + j' * p.k := by
  obtain hi | ⟨rfl, hjj⟩ := hlex
  · calc p.firstBin i + j * p.k + p.k ≤ p.firstBin i + p.binsPerBand * p.k := by
          linarith [Params.bin_add_le hj]
      _ ≤ p.firstBin (i + 1) := Params.firstBin_add_le_succ h i
      _ ≤ p.firstBin i' := Params.firstBin_mono h hi
      _ ≤ p.firstBin i' + j' * p.k := le_add_of_nonneg_right (by positivity)
  · rw [add_assoc, ← add_one_mul]
    gcongr
    exact_mod_cast hjj

/-- R120 (e), the lower bound: the ceiling is not below. -/
theorem Params.bandEdge_le_nativeBin (h : p.Derivable c) (i j : ℕ) :
    (p.flo : ℚ) + i * p.width ≤ (p.firstBin i + j * p.k : ℤ) * p.df := by
  rw [← Params.bandEdge_mul_df h]
  have hdf := h.df_pos.le
  have hceil : p.bandEdge i ≤ p.firstBin i := Int.le_ceil _
  gcongr
  push_cast
  exact hceil.trans (le_add_of_nonneg_right (by positivity))

/-- R120 (e), the upper bound: the ceiling is less than 1 too high, and after the band's last bin there
are k ≥ 1 native bins left. -/
theorem Params.nativeBin_lt_bandEdge (h : p.Derivable c) {i j : ℕ} (hj : (j : ℤ) < p.binsPerBand) :
    (p.firstBin i + j * p.k : ℤ) * p.df < (p.flo : ℚ) + (i + 1) * p.width := by
  have hedge := Params.bandEdge_mul_df h (i + 1)
  push_cast at hedge
  rw [← hedge]
  have hdf := h.df_pos
  gcongr
  have hceil : (p.firstBin i : ℚ) < p.bandEdge i + 1 := Int.ceil_lt_add_one _
  have hk : (1 : ℚ) ≤ p.k := by exact_mod_cast h.decim
  have hlast : (j : ℚ) * p.k + p.k ≤ p.binsPerBand * p.k := by exact_mod_cast Params.bin_add_le hj
  have hband := Params.bandEdge_add_le h i
  push_cast at hband ⊢
  linarith

/-- R120 (f), the upper bound. -/
theorem Params.nativeBin_le_lastBin (h : p.Derivable c) {i j : ℕ} (hi : i < p.n)
    (hj : (j : ℤ) < p.binsPerBand) : p.firstBin i + j * p.k ≤ p.lastBin := by
  have hband : p.firstBin i ≤ p.firstBin (p.n - 1) := Params.firstBin_mono h (by omega)
  rw [Params.lastBin, sub_one_mul]
  linarith [Params.bin_add_le hj]

end

/-- Settles O18: (a) is the floor of R117, which makes room for the next band (b); the rest follows from
(b) and from `NB[i]` being the ceiling of the band's edge. -/
theorem binMapProperties : Obligations.BinMapProperties := by
  refine ⟨fun c p hv => ?_, fun c p hd hb havail => ?_⟩
  · have hd := hv.toDerivable
    refine ⟨Params.binsPerBand_mul_spacing_le hd, fun i _ => Params.firstBin_add_le_succ hd i,
      fun i i' j j' _ _ hj _ hlex => Params.nativeBin_add_le hd hj hlex, fun i j hi hj => ?_⟩
    have hfirst : p.firstBin 0 ≤ p.firstBin i := Params.firstBin_mono hd i.zero_le
    exact ⟨⟨Params.bandEdge_le_nativeBin hd i j, Params.nativeBin_lt_bandEdge hd hj⟩, hv.range.1,
      hfirst.trans (le_add_of_nonneg_right (by positivity)), Params.nativeBin_le_lastBin hd hi hj,
      hv.range.2⟩
  · exact (le_mul_of_one_le_left (by positivity) hb).trans havail

/-! ### The window count of the payload (R122) -/

section

variable {s : State}

theorem foldl_max_map_range (f : ℕ → ℕ) (n : ℕ) :
    ((List.range n).map f).foldl Nat.max 0 = (Finset.range n).sup f := by
  induction n with
  | zero => rfl
  | succ n ih =>
      rw [List.range_succ, List.map_append, List.foldl_append, ih, Finset.range_add_one,
        Finset.sup_insert, max_comm]
      rfl

/-- The machine's longest stream is the greatest `SLEN` below N. -/
theorem State.longest_eq_sup (s : State) : s.longest = (Finset.range s.nstr).sup s.slenOf :=
  foldl_max_map_range _ _

theorem State.longest_eq {l : ℕ} (hle : ∀ i < s.nstr, s.slenOf i ≤ l)
    (hex : ∃ i < s.nstr, s.slenOf i = l) : s.longest = l := by
  rw [State.longest_eq_sup]
  obtain ⟨i, hi, rfl⟩ := hex
  exact le_antisymm (Finset.sup_le fun j hj => hle j (Finset.mem_range.mp hj))
    (Finset.le_sup (Finset.mem_range.mpr hi))

theorem State.lengthsFit_iff : s.lengthsFit = true ↔ ∀ i < s.nstr, s.slenOf i ≤ s.cfg.strmCap := by
  simp [State.lengthsFit]

theorem geoWcountBody_ok (h : s.lengthsFit = true) :
    geoWcountBody s = .ok { s with wc := BitVec.ofNat 32 s.payloadWindows } := if_pos h

theorem geoWcountBody_error (h : ¬ s.lengthsFit = true) : geoWcountBody s = .error .cap := if_neg h

theorem cdiv_le_self (a : ℕ) {b : ℕ} (hb : 0 < b) : cdiv a b ≤ a := by
  rw [cdiv, Nat.div_le_iff_le_mul hb]
  have := Nat.le_mul_of_pos_right a hb
  omega

/-- The window count fits its register (R122): `STRM_CAP` is at most 2^28. -/
theorem State.payloadWindows_lt (hbpb : 0 < s.bpb.toNat) (hl : s.longest ≤ s.cfg.strmCap) :
    s.payloadWindows < 2 ^ 32 := by
  have hcap := s.cfg.strmCap_le
  have hle : s.payloadWindows ≤ 8 * s.longest := cdiv_le_self _ hbpb
  omega

end

/-- Settles O19: the greatest `SLEN` below N is the machine's longest stream, and its window count fits
`WC`. -/
theorem geoWcountCounts : Obligations.GeoWcountCounts := by
  intro s hinv herr hmode hgeov
  have hl := legality_geoWcount hmode hgeov
  refine ⟨fun l hle hex hcap => ?_, fun ⟨i, hi, hlong⟩ => ?_⟩
  · have hfit : s.lengthsFit = true := State.lengthsFit_iff.mpr fun i hi => (hle i hi).trans hcap
    obtain ⟨-, -, hbpb, -⟩ := (hinv.geometry hgeov).facts
    have hlongest := State.longest_eq hle hex
    have hlt := State.payloadWindows_lt hbpb (hlongest.trans_le hcap)
    refine ⟨_, exec_of_body (by decide) herr hl (geoWcountBody_ok hfit), ?_,
      ⟨fun _ _ => rfl, fun _ => rfl⟩, rfl⟩
    calc ((BitVec.ofNat 32 s.payloadWindows).toNat : ℤ) = s.payloadWindows := by
          rw [BitVec.toNat_ofNat, Nat.mod_eq_of_lt hlt]
      _ = ⌈((8 * l : ℕ) : ℚ) / s.bpb.toNat⌉ := by
          rw [State.payloadWindows, cdiv_eq_ceil _ hbpb, hlongest]
      _ = ⌈(8 * l : ℚ) / s.bpb.toNat⌉ := by push_cast; rfl
  · refine raises_of_body (by decide) herr hl (geoWcountBody_error fun hfit => ?_)
    exact absurd (State.lengthsFit_iff.mp hfit i hi) hlong.not_ge

end Sys2Proof.Machine
end

section
/-! PROOFS. What a step can do to a run under way (10_state.md R22, R34): nothing but the command of
a run takes it further. -/

namespace Sys2Proof.Machine

section

variable {s t : State} {m : Mode} {Q : State → Prop}

/-- Q holds while the machine is in mode m with its geometry. -/
def State.During (s : State) (m : Mode) (Q : State → Prop) : Prop :=
  s.status.mode = m → s.status.geov = true → Q s

/-- What a run reads of the streams, and the length of what it received. -/
abbrev State.streamData (s : State) :
    Word × Vector Word bankSize × Vector (Memory Byte) bankSize × Nat :=
  (s.pcmlen, s.slen, s.sb, s.boots)

/-- t has the geometry, the run, the streams and the accumulators of s. -/
structure State.SameProgress (s t : State) : Prop where
  geometry : t.geometryData = s.geometryData
  run : t.runData = s.runData
  streams : t.streamData = s.streamData
  acc : t.acc = s.acc

/-- t differs from s in nothing R43 speaks of (`State.SameRun`), nor in a stream a run has under
way. -/
structure State.SameStreams (s t : State) : Prop extends s.SameRun t where
  streams : s.status.mode ≠ .idle → t.streamData = s.streamData

/-- A run that has its geometry has got no further. -/
theorem State.SameStreams.progress (h : s.SameStreams t) (hm : t.status.mode ≠ .idle)
    (hv : t.status.geov = true) : s.SameProgress t where
  geometry := (h.geometry hv).2
  run := h.run
  streams := h.streams (h.mode ▸ hm)
  acc := h.acc.2

theorem sameStreams_setDone (s : State) (v : Bool) : s.SameStreams (s.setDone v) :=
  ⟨sameRun_setDone s v, fun _ => rfl⟩

/-- An error records itself and clears `DONE` (60_exceptions.md R244). -/
theorem sameStreams_raised (s : State) (e : ErrCode) (w : Word) :
    s.SameStreams ((s.setDone false).raise e w) :=
  ⟨{ sameRun_raise s e w with }, fun _ => rfl⟩

/-- A host access is a command or a reset, or leaves a run as it is. -/
theorem HostEffect.command_or_sameStreams {a : HostAccess} (h : HostEffect s a t) :
    (∃ i, exec i s = .next t) ∨ t.status.mode = .idle ∨ s.SameStreams t := by
  cases h with
  | command _ he => exact .inl ⟨_, he⟩
  | refusedWord => exact .inr (.inr ⟨sameRun_of_frame rfl, fun _ => rfl⟩)
  | illegalWord w => exact .inr (.inr (sameStreams_raised s .illcmd w))
  | dropped => exact .inr (.inr ⟨sameRun_of_frame rfl, fun _ => rfl⟩)
  | parameter i v => exact .inr (.inr ⟨sameRun_parameter s i v, fun _ => rfl⟩)
  | threshold v => exact .inr (.inr ⟨sameRun_threshold s v, fun _ => rfl⟩)
  | bitIndex v => exact .inr (.inr ⟨sameRun_of_frame rfl, fun _ => rfl⟩)
  | loaded hm ht => exact .inr (.inr ⟨sameRun_loaded hm ht, fun hrun => absurd hm hrun⟩)
  | answered r => exact .inr (.inr ⟨sameRun_of_frame rfl, fun _ => rfl⟩)
  | reset => exact .inr (.inl rfl)

/-- A property of a run in mode m: it speaks of what `State.SameProgress` keeps, and the command
bodies that leave the machine in mode m establish it or keep it. -/
structure RunProperty (m : Mode) (Q : State → Prop) : Prop where
  running : m ≠ .idle
  congr : ∀ {s t}, Q s → s.SameProgress t → Q t
  body : ∀ {i s t}, s.Inv → s.During m Q → legality i s = none → bodyOf i s = .ok t →
    t.During m Q

theorem RunProperty.of_sameStreams (hQ : RunProperty m Q) (h : s.During m Q)
    (hst : s.SameStreams t) : t.During m Q := fun hm hv =>
  hQ.congr (h (hst.mode ▸ hm) (hst.geometry hv).1) (hst.progress (hm ▸ hQ.running) hv)

theorem RunProperty.of_idle (hQ : RunProperty m Q) (h : s.status.mode = .idle) : s.During m Q :=
  fun hm => absurd (hm.symm.trans h) hQ.running

theorem RunProperty.exec {i : Instr} (hQ : RunProperty m Q) (hinv : s.Inv) (h : s.During m Q)
    (he : exec i s = .next t) : t.During m Q := by
  cases exec_effect he with
  | reset => exact hQ.of_idle rfl
  | refused => exact h
  | raised e => exact hQ.of_sameStreams h (sameStreams_raised s e _)
  | completed _ _ hl hu =>
      have hcleared := hQ.of_sameStreams h (sameStreams_setDone s false)
      have hdone := hQ.body (hinv.of_sameRun (sameRun_setDone s false)) hcleared
        (by rwa [legality_setDone]) hu
      exact hQ.of_sameStreams hdone (sameStreams_setDone _ true)

/-- Every step keeps a property of a run. -/
theorem RunProperty.step (hQ : RunProperty m Q) (hinv : s.Inv) (h : s.During m Q)
    (hstep : step s = .next t) : t.During m Q := by
  obtain rfl | ⟨a, p, ha⟩ := step_access hstep
  · exact h
  · have hqueue : s.SameStreams { s with host := p } := ⟨sameRun_of_frame rfl, fun _ => rfl⟩
    have hinv' := hinv.of_sameRun hqueue.toSameRun
    have h' := hQ.of_sameStreams h hqueue
    obtain ⟨i, he⟩ | hidle | hst := (hostAccess_effect ha).command_or_sameStreams
    · exact hQ.exec hinv' h' he
    · exact hQ.of_idle hidle
    · exact hQ.of_sameStreams h' hst

/-- The bodies that leave the machine in a transmit run: the start of one, its next window, and
`NOP`. -/
theorem bodyOf_tx_cases {i : Instr} (hl : legality i s = none) (hb : bodyOf i s = .ok t)
    (htx : t.status.mode = .tx) :
    t = s ∨
    (s.lengthsFit = true ∧ s.payloadWindows * s.spf.toNat ≤ s.cfg.pcmCap ∧ t = s.txStarted) ∨
    (s.status.mode = .tx ∧ s.widx < s.wc ∧ t = s.synthWindow) := by
  obtain ⟨hneeded, -, hfurther⟩ := of_legality_none hl
  have hmode := bodyOf_mode hb
  rw [htx] at hmode
  cases i
  case nop | srst => cases hb; exact .inl rfl
  case txStart => exact .inr (.inl (txStartBody_cases hb))
  case txWindow => cases hb; exact .inr (.inr ⟨hneeded _ rfl, of_decide_eq_true hfurther, rfl⟩)
  case rxStart | txFinish | txEncode | rxFinish | rxDecode => cases hmode
  all_goals cases hmode.trans (hneeded _ rfl)

/-- The bodies that leave the machine in a receive run. -/
theorem bodyOf_rx_cases {i : Instr} (hl : legality i s = none) (hb : bodyOf i s = .ok t)
    (hrx : t.status.mode = .rx) :
    t = s ∨
    (cdiv (s.receivedWindows * s.bpb.toNat) 8 ≤ s.cfg.strmCap ∧ t = s.rxStarted) ∨
    (s.status.mode = .rx ∧ t = s.takeSpectrum) ∨
    (s.status.mode = .rx ∧ s.widx < s.wc ∧ rxDetectBody s = .ok t) := by
  obtain ⟨hneeded, -, hfurther⟩ := of_legality_none hl
  have hmode := bodyOf_mode hb
  rw [hrx] at hmode
  cases i
  case nop | srst => cases hb; exact .inl rfl
  case rxStart => exact .inr (.inl (rxStartBody_cases hb).2)
  case rxSpectrum => cases hb; exact .inr (.inr (.inl ⟨hneeded _ rfl, rfl⟩))
  case rxDetect =>
    have hw := of_decide_eq_true (Bool.and_eq_true_iff.mp hfurther).2
    exact .inr (.inr (.inr ⟨hneeded _ rfl, hw, hb⟩))
  case txStart | txFinish | txEncode | rxFinish | rxDecode => cases hmode
  all_goals cases hmode.trans (hneeded _ rfl)

end

end Sys2Proof.Machine
end

section
/-! PROOFS. 41_tx_synth.md: `TX.START` (R131), `TX.WINDOW` (R133, R136, R137), and the closed forms
of the phases and of the waveform (R142). -/

namespace Sys2Proof.Machine

/-! ### `TX.START` (R131) -/

section

variable {s : State}

theorem legality_txStart (hmode : s.status.mode = .idle) (hgeov : s.status.geov = true) :
    legality .txStart s = none :=
  legality_eq_none rfl hmode (fun _ => hgeov) rfl

/-- The waveform of the loaded payload is the one the statements speak of. -/
theorem State.payloadWindows_eq_ceil {l : ℕ} (hbpb : 0 < s.bpb.toNat) (hl : s.longest = l) :
    (s.payloadWindows : ℤ) = ⌈(8 * l : ℚ) / s.bpb.toNat⌉ := by
  rw [State.payloadWindows, cdiv_eq_ceil _ hbpb, hl]
  push_cast
  rfl

/-- The streams fit when the longest does. -/
theorem State.lengthsFit_iff_longest_le : s.lengthsFit = true ↔ s.longest ≤ s.cfg.strmCap := by
  rw [State.lengthsFit_iff, State.longest_eq_sup, Finset.sup_le_iff]
  simp

theorem txStartBody_ok (hfit : s.lengthsFit = true)
    (hwave : s.payloadWindows * s.spf.toNat ≤ s.cfg.pcmCap) : txStartBody s = .ok s.txStarted := by
  rw [txStartBody_eq, if_pos ⟨hfit, hwave⟩]

theorem txStartBody_error (h : ¬ (s.lengthsFit = true ∧
    s.payloadWindows * s.spf.toNat ≤ s.cfg.pcmCap)) : txStartBody s = .error .cap := by
  rw [txStartBody_eq, if_neg h]

/-- `WC` holds the window count also where the geometry is none, and there is none to count. -/
theorem State.payloadWindows_lt_of_lengthsFit (hfit : s.lengthsFit = true) :
    s.payloadWindows < 2 ^ 32 := by
  obtain hbpb | hbpb := s.bpb.toNat.eq_zero_or_pos
  · simp [State.payloadWindows, cdiv, hbpb]
  · exact State.payloadWindows_lt hbpb (State.lengthsFit_iff_longest_le.mp hfit)

theorem State.txStarted_wc_toNat (hfit : s.lengthsFit = true) :
    s.txStarted.wc.toNat = s.payloadWindows :=
  Nat.mod_eq_of_lt (State.payloadWindows_lt_of_lengthsFit hfit)

end

/-- Settles O21: the machine's count of the windows is the ceiling of the statement, and fits `WC`.
-/
theorem txStartBegins : Obligations.TxStartBegins := by
  intro s hinv herr hmode hgeov l hle hex
  have hl := legality_txStart hmode hgeov
  obtain ⟨-, -, hbpb, -⟩ := (hinv.geometry hgeov).facts
  have hlongest := State.longest_eq hle hex
  have hcount := State.payloadWindows_eq_ceil hbpb hlongest
  have hfits : l ≤ s.cfg.strmCap ↔ s.lengthsFit = true := by
    rw [State.lengthsFit_iff_longest_le, hlongest]
  have hroom : ⌈(8 * l : ℚ) / s.bpb.toNat⌉ * s.spf.toNat ≤ s.cfg.pcmCap ↔
      s.payloadWindows * s.spf.toNat ≤ s.cfg.pcmCap := by
    rw [← hcount]
    norm_cast
  rw [hfits, hroom]
  refine ⟨fun hfit hwave => ?_, fun h => ?_⟩
  · refine ⟨_, exec_of_body (by decide) herr hl (txStartBody_ok hfit hwave), ?_,
      (s.setDone false).phaseOf_txStarted, Num.value_zero, ⟨fun _ _ => rfl, fun _ => rfl⟩, rfl⟩
    rw [← hcount]
    exact_mod_cast State.txStarted_wc_toNat hfit
  · exact raises_of_body (by decide) herr hl (txStartBody_error h)

/-! ### `TX.WINDOW` (R133, R136, R137) -/

section

variable {s : State}

theorem legality_txWindow (hmode : s.status.mode = .tx) (hgeov : s.status.geov = true)
    (hw : s.widx < s.wc) : legality .txWindow s = none :=
  legality_eq_none rfl hmode (fun _ => hgeov) (decide_eq_true hw)

/-- The samples of the windows before stay. -/
theorem State.waveValue_synthWindow_of_lt {a : ℕ} (ha : a < s.wave.length) :
    s.synthWindow.waveValue a = s.waveValue a := by
  rw [State.waveValue, State.synthWindow_wave, List.getD_append _ _ _ _ ha, State.waveValue]

/-- The samples appended are those of the window. -/
theorem State.waveValue_synthWindow_new {u : ℕ} (h : s.wave.length = s.widx.toNat * s.spf.toNat)
    (hu : u < s.spf.toNat) :
    s.synthWindow.waveValue (s.widx.toNat * s.spf.toNat + u) =
      Num.value (s.windowSample s.widx.toNat u) := by
  rw [State.waveValue, State.synthWindow_wave, List.getD_append_right _ _ _ _ (by omega), h,
    Nat.add_sub_cancel_left]
  simp [State.windowSamples, hu]

end

/-- Settles O22: the step is `State.synthWindow`, and R43 (f) speaks of the waveform after it. -/
theorem txWindowSynthesizes : Obligations.TxWindowSynthesizes := by
  intro s hinv herr hmode hgeov hw
  have htx : (s.setDone false).TxInv := (hinv.of_sameRun (sameRun_setDone s false)).txInv hmode
  have hnew := htx.synthWindow hw
  obtain ⟨-, -, -, hnfft, -⟩ := (hinv.geometry hgeov).facts
  refine ⟨_, exec_of_body (by decide) herr (legality_txWindow hmode hgeov hw) rfl,
    succ_toNat_of_lt hw, hnew.waveLength, fun a ha => ?_, fun u hu => ?_, fun i hi j hj => ?_,
    hnew.wavePeak, ⟨fun _ _ => rfl, fun _ => rfl⟩, rfl⟩
  · exact List.getElem?_append_left (htx.waveLength ▸ ha)
  · exact (State.waveValue_synthWindow_new htx.waveLength hu).trans
      ((s.setDone false).value_windowSample_sum hnfft _ u)
  · exact (s.setDone false).phaseOf_synthWindow hi hj

/-! ### The closed forms (R142) -/

section

variable {s t : State}

/-- The phases in closed form: `State.PhasesClosed` says this of a transmit run. -/
def State.phasesInForm (s : State) : Prop :=
  ∀ i < s.nstr, ∀ j < s.bpb.toNat,
    s.phaseOf i j = s.nativeBin i j * s.spf.toNat * s.activeBefore i j s.widx.toNat % s.nfft

/-- The waveform in closed form: `State.WaveClosed` says this of a transmit run. -/
def State.waveInForm (s : State) : Prop :=
  ∀ p < s.widx.toNat, ∀ u < s.spf.toNat,
    s.waveValue (p * s.spf.toNat + u) = s.closedSample p u

theorem State.phasesClosed_iff : s.PhasesClosed ↔ s.During .tx State.phasesInForm := Iff.rfl

theorem State.waveClosed_iff : s.WaveClosed ↔ s.During .tx State.waveInForm := Iff.rfl

theorem State.activeBefore_succ (s : State) (i j p : ℕ) :
    s.activeBefore i j (p + 1) = s.activeBefore i j p + if s.isActive p i j then 1 else 0 := by
  rw [State.activeBefore, List.range_succ, List.filter_append, List.length_append,
    ← State.activeBefore]
  split <;> simp [*]

theorem State.streamBit_congr (h : t.streamData = s.streamData) (i b : ℕ) :
    t.streamBit i b = s.streamBit i b := by
  simp only [State.streamData, Prod.mk.injEq] at h
  obtain ⟨-, hslen, hsb, hboots⟩ := h
  have hlen : t.slenOf i = s.slenOf i := by rw [State.slenOf, State.slenOf, hslen]
  have hread : t.sbRead i (b / 8) = s.sbRead i (b / 8) := by
    rw [State.sbRead, State.sbRead, State.sbOf, State.sbOf, hsb, hboots]
  rw [State.streamBit, State.streamBit, hlen, hread]

/-- What the closed forms read besides the streams. -/
theorem State.SameProgress.tones (h : s.SameProgress t) :
    (t.cfg = s.cfg ∧ t.geoParams = s.geoParams ∧ t.bpb = s.bpb ∧ t.nb = s.nb) ∧
      t.spf = s.spf ∧ t.widx = s.widx ∧ t.phase = s.phase ∧ t.wave = s.wave := by
  have hgeo := h.geometry
  have hrun := h.run
  simp only [State.geometryData, State.runData, Prod.mk.injEq] at hgeo hrun
  obtain ⟨hcfg, hparams, -, -, hbpb, -, -, -, hnb⟩ := hgeo
  obtain ⟨hspf, -, hwidx, -, hphase, hwave, -⟩ := hrun
  exact ⟨⟨hcfg, hparams, hbpb, hnb⟩, hspf, hwidx, hphase, hwave⟩

theorem State.SameProgress.activeBefore (h : s.SameProgress t) (i j p : ℕ) :
    t.activeBefore i j p = s.activeBefore i j p := by
  obtain ⟨⟨-, -, hbpb, -⟩, -⟩ := h.tones
  simp only [State.activeBefore, State.isActive, State.streamBit_congr h.streams, hbpb]

theorem State.SameProgress.nativeBin (h : s.SameProgress t) (i j : ℕ) :
    t.nativeBin i j = s.nativeBin i j := by
  obtain ⟨⟨-, hparams, -, hnb⟩, -⟩ := h.tones
  simp only [State.nativeBin, State.nbOf, State.kdec, hparams, hnb]

theorem State.phasesInForm.congr (h : s.phasesInForm) (hp : s.SameProgress t) :
    t.phasesInForm := by
  obtain ⟨⟨-, hparams, hbpb, -⟩, hspf, hwidx, hphase, -⟩ := hp.tones
  simp only [State.phasesInForm, State.nstr, State.nfft, State.phaseOf, hp.nativeBin,
    hp.activeBefore, hparams, hbpb, hspf, hwidx, hphase]
  exact h

theorem State.waveInForm.congr (h : s.waveInForm) (hp : s.SameProgress t) : t.waveInForm := by
  obtain ⟨⟨hcfg, hparams, hbpb, -⟩, hspf, hwidx, -, hwave⟩ := hp.tones
  simp only [State.waveInForm, State.closedSample, State.waveValue, State.nstr, State.nfft,
    State.streamBit_congr hp.streams, hp.nativeBin, hp.activeBefore, hcfg, hparams, hbpb, hspf,
    hwidx, hwave]
  exact h

/-- The phase of an active cell moves on by n·`SPF`, as its count of windows does by one (R142 (b)).
-/
theorem State.phasesInForm.synthWindow (h : s.phasesInForm) (hw : s.widx < s.wc) :
    s.synthWindow.phasesInForm := by
  intro i hi j hj
  have hstep : s.synthWindow.activeBefore i j s.synthWindow.widx.toNat =
      s.activeBefore i j s.widx.toNat + if s.isActive s.widx.toNat i j then 1 else 0 := by
    rw [State.synthWindow_widx, succ_toNat_of_lt hw]
    exact s.activeBefore_succ i j _
  rw [State.phaseOf_synthWindow s hi hj, State.nextPhase, hstep, h i hi j hj]
  change _ = s.nativeBin i j * s.spf.toNat * _ % s.nfft
  split
  · rw [Nat.mod_add_mod, mul_add_one]
  · rfl

/-- With the phases in closed form the samples of the next window are (R133, R142). -/
theorem State.phasesInForm.value_windowSample (h : s.phasesInForm) (hnfft : 0 < s.nfft) (u : ℕ) :
    Num.value (s.windowSample s.widx.toNat u) = s.closedSample s.widx.toNat u := by
  rw [s.value_windowSample_sum hnfft]
  refine Finset.sum_congr rfl fun i hi => Finset.sum_congr rfl fun j hj => ?_
  rw [h i (Finset.mem_range.mp hi) j (Finset.mem_range.mp hj), Nat.mod_add_mod, mul_add, mul_assoc]

theorem State.waveInForm.synthWindow (h : s.waveInForm) (hphase : s.phasesInForm)
    (hinv : s.TxInv) (hnfft : 0 < s.nfft) (hw : s.widx < s.wc) : s.synthWindow.waveInForm := by
  intro p hp u hu
  change s.synthWindow.waveValue (p * s.spf.toNat + u) = s.closedSample p u
  rw [State.synthWindow_widx, succ_toNat_of_lt hw] at hp
  obtain hlt | rfl := Nat.lt_succ_iff_lt_or_eq.mp hp
  · have hold : p * s.spf.toNat + u < s.wave.length := by
      calc p * s.spf.toNat + u < (p + 1) * s.spf.toNat := by
            rw [add_one_mul]
            exact Nat.add_lt_add_left hu _
        _ ≤ s.widx.toNat * s.spf.toNat := Nat.mul_le_mul_right _ hlt
        _ = s.wave.length := hinv.waveLength.symm
    rw [State.waveValue_synthWindow_of_lt hold]
    exact h p hlt u hu
  · rw [State.waveValue_synthWindow_new hinv.waveLength hu]
    exact hphase.value_windowSample hnfft u

theorem phasesInForm_runProperty : RunProperty .tx State.phasesInForm where
  running := by decide
  congr := State.phasesInForm.congr
  body hinv h hl hb hm hv := by
    obtain rfl | ⟨-, -, rfl⟩ | ⟨htx, hw, rfl⟩ := bodyOf_tx_cases hl hb hm
    · exact h hm hv
    · intro i _ j _
      simp [State.activeBefore]
    · exact (h htx hv).synthWindow hw

/-- The two closed forms together: the waveform needs the phases. -/
theorem closedForms_runProperty :
    RunProperty .tx fun s => s.phasesInForm ∧ s.waveInForm where
  running := by decide
  congr h hp := ⟨h.1.congr hp, h.2.congr hp⟩
  body {i s t} hinv h hl hb hm hv := by
    have hphases := phasesInForm_runProperty.body hinv (fun hm hv => (h hm hv).1) hl hb hm hv
    refine ⟨hphases, ?_⟩
    obtain rfl | ⟨-, -, rfl⟩ | ⟨htx, hw, rfl⟩ := bodyOf_tx_cases hl hb hm
    · exact (h hm hv).2
    · exact fun p hp => absurd hp (Nat.not_lt_zero p)
    · obtain ⟨-, -, -, hnfft, -⟩ := (hinv.geometry hv).facts
      obtain ⟨hphase, hwave⟩ := h htx hv
      exact hwave.synthWindow hphase (hinv.txInv htx) hnfft hw

end

/-- Settles O27: `TX.WINDOW` moves phase and count on together, and nothing else in a run touches
them. -/
theorem phaseClosedFormKept : Obligations.PhaseClosedFormKept := by
  intro s t hinv h hstep
  rw [State.phasesClosed_iff] at h ⊢
  exact phasesInForm_runProperty.step hinv h hstep

/-- Settles O28: the samples of a new window are in closed form because the phases are. -/
theorem waveClosedFormKept : Obligations.WaveClosedFormKept := by
  intro s t hinv hphase hwave hstep
  rw [State.phasesClosed_iff] at hphase
  rw [State.waveClosed_iff] at hwave ⊢
  have hboth := closedForms_runProperty.step hinv
    (fun hm hv => ⟨hphase hm hv, hwave hm hv⟩) hstep
  exact fun hm hv => (hboth hm hv).2

end Sys2Proof.Machine
end

section
/-! PROOFS. 41_tx_synth.md: `TX.FINISH` (R138), the samples it emits (R139), and `TX.ENCODE` (R143).
-/

namespace Sys2Proof.Num

/-- Between two integers a rounding stays between them (R14). -/
theorem abs_RND_le {r : NumInstance} {x : ℝ} {n : ℕ} (h : |x| ≤ n) : |RND r x| ≤ n := by
  obtain ⟨hlow, hhigh⟩ := abs_le.mp h
  refine abs_le.mpr ⟨?_, ?_⟩
  · calc (-n : ℤ) = RND r ((-n : ℤ) : ℝ) := (RND_intCast r _).symm
      _ ≤ RND r x := RND_mono r (by push_cast; exact hlow)
  · calc RND r x ≤ RND r ((n : ℤ) : ℝ) := RND_mono r (by push_cast; exact hhigh)
      _ = n := RND_intCast r _

end Sys2Proof.Num

namespace Sys2Proof.Machine

/-! ### `TX.FINISH` (R138) -/

section

variable {s : State}

theorem legality_txFinish (hmode : s.status.mode = .tx) (hgeov : s.status.geov = true)
    (hw : s.widx = s.wc) : legality .txFinish s = none :=
  legality_eq_none rfl hmode (fun _ => hgeov) (decide_eq_true hw)

/-- A sample keeps an integer that B bits can hold (20_memory.md R62). -/
theorem wrapSample_of_isSample {c : Config} {v : Int} (h : IsSample c v) : c.wrapSample v = v := by
  obtain ⟨hlow, hhigh⟩ :
      -(2 : ℤ) ^ (c.sampleBits - 1) ≤ v ∧ v < (2 : ℤ) ^ (c.sampleBits - 1) := h
  have hbits : ((2 ^ c.sampleBits : ℕ) : ℤ) = 2 * 2 ^ (c.sampleBits - 1) := by
    rw [Nat.cast_pow, Nat.cast_ofNat, ← pow_succ', Nat.sub_add_cancel c.sampleBits_pos]
  rw [Config.wrapSample, BitVec.toInt_ofInt]
  refine Int.bmod_eq_of_le ?_ ?_ <;> rw [hbits] <;> omega

/-- `FSMAX` and what is smaller are samples. -/
theorem isSample_of_abs_le_fsmax {c : Config} {v : Int} (h : |v| ≤ c.fsmax) : IsSample c v := by
  rw [c.fsmax_cast, abs_le] at h
  exact ⟨by linarith [h.1], by linarith [h.2]⟩

/-- Where there is a peak, scaling by it and `FSMAX` gives at most `FSMAX` (R139). -/
theorem abs_scaled_le {x amax : ℝ} (n : ℕ) (hpos : 0 < amax) (hx : |x| ≤ amax) :
    |x * n / amax| ≤ n := by
  rw [abs_div, abs_of_pos hpos, div_le_iff₀ hpos, abs_mul, Nat.abs_cast, mul_comm]
  gcongr

/-- An emitted sample is the rounded quotient, and its width holds it (R138). -/
theorem quantise_eq_RND {c : Config} {amax x : Num.TrigSum} (hpos : 0 < Num.value amax)
    (hx : |Num.value x| ≤ Num.value amax) :
    quantise c amax x = Num.RND c.rnd (Num.value x * c.fsmax / Num.value amax) := by
  have hbound := abs_scaled_le c.fsmax hpos hx
  have hvalue : Num.value (Num.smul (c.fsmax : ℤ) x) = Num.value x * c.fsmax := by
    rw [Num.value_smul, mul_comm]
    push_cast
    rfl
  rw [quantise, if_pos ((Num.sign_eq_one _).mpr hpos),
    Num.rnd_eq c.rnd hpos (by rwa [hvalue]), hvalue]
  exact wrapSample_of_isSample (isSample_of_abs_le_fsmax (Num.abs_RND_le hbound))

theorem quantise_of_silent {c : Config} {amax x : Num.TrigSum} (h : Num.value amax = 0) :
    quantise c amax x = 0 :=
  if_neg fun hsign => ((Num.sign_eq_one _).mp hsign).ne' h

/-- No sample of the waveform is above its peak (R43 (f)). -/
theorem State.TxInv.abs_waveValue_le (h : s.TxInv) (a : ℕ) :
    |s.waveValue a| ≤ Num.value s.amax := by
  rw [h.wavePeak, State.waveValue, List.getD_eq_getElem?_getD]
  obtain hnone | ⟨x, hx⟩ := Option.eq_none_or_eq_some s.wave[a]?
  · simp [hnone, greatestOf_nonneg]
  · rw [hx]
    exact le_greatestOf (List.mem_map_of_mem (List.mem_of_getElem? hx))

/-- A peak above 0 is the absolute value of a sample (R43 (f)). -/
theorem State.TxInv.exists_peak (h : s.TxInv) (hpos : 0 < Num.value s.amax) :
    ∃ a < s.widx.toNat * s.spf.toNat, |s.waveValue a| = Num.value s.amax := by
  obtain hzero | hmem := greatestOf_mem (s.wave.map fun x => |Num.value x|)
  · exact absurd (h.wavePeak.trans hzero) hpos.ne'
  · obtain ⟨x, hx, hpeak⟩ := List.mem_map.mp hmem
    obtain ⟨a, ha, rfl⟩ := List.mem_iff_getElem.mp hx
    refine ⟨a, h.waveLength ▸ ha, ?_⟩
    rw [h.wavePeak, ← hpeak, State.waveValue, List.getD_eq_getElem _ _ ha]

theorem State.TxInv.amax_nonneg (h : s.TxInv) : 0 ≤ Num.value s.amax :=
  h.wavePeak ▸ greatestOf_nonneg _

theorem State.TxInv.txsil_finishTx (h : s.TxInv) :
    s.finishTx.status.txsil = true ↔ Num.value s.amax = 0 := by
  rw [State.finishTx_status, bne_iff_ne, ne_eq, Num.sign_eq_one, not_lt]
  exact ⟨fun hle => le_antisymm hle h.amax_nonneg, fun heq => heq.le⟩

/-- `PCMLEN` holds the number of samples of a waveform that fits (R131). -/
theorem State.finishTx_pcmlen_toNat (h : s.wc.toNat * s.spf.toNat ≤ s.cfg.pcmCap) :
    s.finishTx.pcmlen.toNat = s.wc.toNat * s.spf.toNat :=
  Nat.mod_eq_of_lt (h.trans_lt s.cfg.pcmCap_lt)

theorem exec_txFinish (herr : s.status.err = false) (hmode : s.status.mode = .tx)
    (hgeov : s.status.geov = true) (hw : s.widx = s.wc) :
    exec .txFinish s = .next ((s.setDone false).finishTx.setDone true) :=
  exec_of_body (by decide) herr (legality_txFinish hmode hgeov hw) rfl

end

/-- Settles O23: `Num.RND` of the statement is the machine's rounding, as no sample of the waveform
is above its peak. -/
theorem txFinishEmits : Obligations.TxFinishEmits := by
  intro s hinv hfits herr hmode hgeov hw
  have htx : (s.setDone false).TxInv := (hinv.of_sameRun (sameRun_setDone s false)).txInv hmode
  have hsamples := hfits.txSamples hmode hgeov
  have hread (a : ℕ) := (s.setDone false).pcmRead_finishTx a
  refine ⟨_, exec_txFinish herr hmode hgeov hw, State.finishTx_pcmlen_toNat hsamples,
    fun a ha => ⟨fun hpos => ?_, fun hzero => ?_⟩, fun a ha => ?_, fun _ _ => rfl,
    htx.txsil_finishTx, rfl⟩
  · exact ((hread a).trans (if_pos ha)).trans (quantise_eq_RND hpos (htx.abs_waveValue_le a))
  · exact ((hread a).trans (if_pos ha)).trans (quantise_of_silent hzero)
  · exact (hread a).trans (if_neg ha.not_gt)

/-- Settles O24: the scaled samples lie within `FSMAX`, the one at the peak is `FSMAX` or -`FSMAX`,
and the rounding keeps these integers and 0. -/
theorem emittedSamplesFullScale : Obligations.EmittedSamplesFullScale := by
  intro s t hinv hfits herr hmode hgeov hw hpos ht
  obtain ⟨t', ht', hlen, hvalid, -⟩ := txFinishEmits s hinv hfits herr hmode hgeov hw
  obtain rfl : t = t' := by rw [ht] at ht'; injection ht'
  have htx := hinv.txInv hmode
  rw [hlen]
  have hsample (a : ℕ) (ha : a < s.wc.toNat * s.spf.toNat) := (hvalid a ha).1 hpos
  refine ⟨fun a ha => ?_, ?_, fun a ha hzero => ?_⟩
  · rw [hsample a ha, ← abs_le]
    exact Num.abs_RND_le (abs_scaled_le _ hpos (htx.abs_waveValue_le a))
  · obtain ⟨a, ha, hpeak⟩ := htx.exists_peak hpos
    rw [hw] at ha
    refine ⟨a, ha, ?_⟩
    rw [hsample a ha]
    obtain h | h := (abs_eq hpos.le).mp hpeak
    · rw [h, mul_div_cancel_left₀ _ hpos.ne', ← Int.cast_natCast, Num.RND_intCast, Nat.abs_cast]
    · rw [h, neg_mul, neg_div, mul_div_cancel_left₀ _ hpos.ne', ← Int.cast_natCast, ← Int.cast_neg,
        Num.RND_intCast, abs_neg, Nat.abs_cast]
  · rw [hsample a ha, hzero, zero_mul, zero_div, ← Int.cast_zero, Num.RND_intCast]

/-! ### `TX.ENCODE` (R143) -/

section

variable (s : State) (v : Bool)

theorem State.synthWindow_setDone : (s.setDone v).synthWindow = s.synthWindow.setDone v := rfl

theorem State.finishTx_setDone : (s.setDone v).finishTx = s.finishTx.setDone v := rfl

theorem State.synthWindows_setDone (n : ℕ) :
    (s.setDone v).synthWindows n = (s.synthWindows n).setDone v := by
  induction n with
  | zero => rfl
  | succ n ih =>
      rw [State.synthWindows_succ, ih, State.synthWindow_setDone, State.synthWindows_succ]

/-- The windows of a run, from its first on. -/
theorem State.synthWindows_succ_first (n : ℕ) :
    s.synthWindows (n + 1) = s.synthWindow.synthWindows n := by
  induction n with
  | zero => rfl
  | succ n ih => rw [State.synthWindows_succ, ih, State.synthWindows_succ]

end

section

variable {s : State}

/-- A state in which a transmit run can go on, its last command done. -/
structure State.Transmitting (s : State) : Prop where
  err : s.status.err = false
  mode : s.status.mode = .tx
  geov : s.status.geov = true
  done : s.status.done = true

/-- A command that leaves `DONE` as it found it, and finds it 1. -/
theorem State.setDone_setDone_of_done (h : s.status.done = true) :
    (s.setDone false).setDone true = s := by
  have hstatus : { s.status with done := true } = s.status := by rw [← h]
  change { s with status := { s.status with done := true } } = s
  rw [hstatus]

theorem exec_txWindow (h : s.Transmitting) (hw : s.widx < s.wc) :
    exec .txWindow s = .next s.synthWindow := by
  have hlegal := legality_txWindow h.mode h.geov hw
  rw [exec_of_body (by decide) h.err hlegal rfl, State.synthWindow_setDone,
    State.setDone_setDone_of_done (s := s.synthWindow) h.done]

/-- `TX.WINDOW` n times over, within the window count, then the commands is. -/
theorem execAll_txWindows (is : List Instr) (n : ℕ) (h : s.Transmitting)
    (hw : s.widx.toNat + n ≤ s.wc.toNat) :
    execAll (List.replicate n .txWindow ++ is) s = execAll is (s.synthWindows n) := by
  induction n generalizing s with
  | zero => rfl
  | succ n ih =>
      have hlt : s.widx < s.wc := BitVec.lt_def.mpr (by omega)
      have hnext : s.synthWindow.widx.toNat + n ≤ s.synthWindow.wc.toNat := by
        rw [State.synthWindow_widx, State.synthWindow_wc, succ_toNat_of_lt hlt]
        omega
      rw [List.replicate_succ, List.cons_append, execAll, exec_txWindow h hlt,
        State.synthWindows_succ_first]
      exact ih ⟨h.err, h.mode, h.geov, h.done⟩ hnext

/-- The commands of a run that has begun, to its end. -/
theorem execAll_txRun {n : ℕ} (h : s.Transmitting) (hw : s.widx = 0) (hn : s.wc.toNat = n) :
    execAll (List.replicate n .txWindow ++ [.txFinish]) s =
      .next ((s.synthWindows n).finishTx.setDone true) := by
  have hlast : (s.synthWindows n).widx = (s.synthWindows n).wc := by
    rw [State.synthWindows_widx, State.synthWindows_wc, hw, ← hn, BitVec.ofNat_toNat,
      BitVec.setWidth_eq]
    exact BitVec.zero_add _
  have hstatus := s.synthWindows_status n
  rw [execAll_txWindows _ n h (by simp [hw, hn]), execAll,
    exec_txFinish (by rw [hstatus, h.err]) (by rw [hstatus, h.mode]) (by rw [hstatus, h.geov])
      hlast]
  rfl

/-! #### `TX.ENCODE` as one step -/

theorem legality_txEncode (hmode : s.status.mode = .idle) (hgeov : s.status.geov = true) :
    legality .txEncode s = none :=
  legality_eq_none rfl hmode (fun _ => hgeov) rfl

/-- The state in which `TX.ENCODE` leaves the machine, before `DONE` (R143). -/
def State.txEncoded (s : State) : State :=
  (s.txStarted.synthWindows s.txStarted.wc.toNat).finishTx

theorem txEncodeBody_ok (h : txStartBody s = .ok s.txStarted) :
    bodyOf .txEncode s = .ok s.txEncoded := by
  simp only [bodyOf, h, bind, Except.bind, State.txEncoded]

theorem txEncodeBody_error {e : ErrCode} (h : txStartBody s = .error e) :
    bodyOf .txEncode s = .error e := by
  simp only [bodyOf, h, bind, Except.bind]

theorem State.txEncoded_wc (s : State) : s.txEncoded.wc = s.txStarted.wc := by
  simp [State.txEncoded]

theorem State.txEncoded_err (s : State) : s.txEncoded.status.err = s.status.err := by
  simp [State.txEncoded]

theorem State.txEncoded_spf (s : State) : s.txEncoded.spf = s.spf := by
  simp [State.txEncoded]

theorem State.txEncoded_pcmlen_toNat
    (h : s.txStarted.wc.toNat * s.spf.toNat ≤ s.cfg.pcmCap) :
    s.txEncoded.pcmlen.toNat = s.txStarted.wc.toNat * s.spf.toNat := by
  rw [State.txEncoded, State.finishTx_pcmlen_toNat] <;>
    simp only [State.synthWindows_wc, State.synthWindows_spf, State.synthWindows_cfg,
      State.txStarted_spf, State.txStarted_cfg]
  exact h

/-- Beyond the waveform the samples stay. -/
theorem State.pcmRead_txEncoded_of_le {a : ℕ} (ha : s.txStarted.wc.toNat * s.spf.toNat ≤ a) :
    s.txEncoded.pcmRead a = s.pcmRead a := by
  rw [State.txEncoded, State.pcmRead_finishTx, if_neg]
  · simp only [State.pcmRead, State.synthWindows_pcm, State.synthWindows_boots,
      State.synthWindows_cfg]
    rfl
  · rw [State.synthWindows_wc, State.synthWindows_spf]
    exact ha.not_gt

end

/-- Settles O26: both ways end in `State.txEncoded`, `DONE` being 1 after every command of the run.
-/
theorem txEncodeIsTheRun : Obligations.TxEncodeIsTheRun := by
  intro s herr hmode hgeov
  have hstart := legality_txStart hmode hgeov
  have hencode := legality_txEncode hmode hgeov
  rw [← State.lengthsFit_iff]
  refine ⟨fun hfit hwave => ?_, fun h => ?_⟩
  · have hbody : txStartBody (s.setDone false) = .ok (s.setDone false).txStarted :=
      txStartBody_ok hfit hwave
    have hmacro := txEncodeBody_ok hbody
    have hwc : (s.setDone false).txStarted.wc.toNat = s.payloadWindows :=
      State.txStarted_wc_toNat hfit
    have hlen := State.txEncoded_pcmlen_toNat (s := s.setDone false) (hwc ▸ hwave)
    have hframe := txEncodeBody_frame hmacro
    have hwidx : (s.setDone false).txEncoded.widx = (s.setDone false).txEncoded.wc :=
      congrArg State.widx hframe
    have hrun : ((s.setDone false).txStarted.setDone true).Transmitting := ⟨herr, rfl, hgeov, rfl⟩
    refine ⟨_, (s.setDone false).txEncoded.setDone true,
      exec_of_body (by decide) herr hstart hbody, ?_, exec_of_body (by decide) herr hencode hmacro,
      rfl, rfl, (State.txEncoded_err _).trans herr, hwidx, ?_, ?_,
      fun st a => bodyOf_sbRead rfl hmacro st a,
      fun a ha => State.pcmRead_txEncoded_of_le (hlen.symm.trans_le ha), ?_⟩
    · rw [execAll_txRun hrun rfl rfl, State.synthWindows_setDone,
        State.finishTx_setDone]
      rfl
    · exact (congrArg BitVec.toNat (State.txEncoded_wc _)).trans hwc
    · change (s.setDone false).txEncoded.pcmlen.toNat =
        (s.setDone false).txEncoded.wc.toNat * (s.setDone false).txEncoded.spf.toNat
      rw [hlen, State.txEncoded_wc, State.txEncoded_spf]
    · rw [← hmode] at hframe
      rw [State.setDone_widx, hwidx]
      exact congrArg (State.setDone · true) hframe
  · exact ⟨raises_of_body (by decide) herr hstart (txStartBody_error h),
      raises_of_body (by decide) herr hencode (txEncodeBody_error (txStartBody_error h))⟩

end Sys2Proof.Machine
end

section
/-! PROOFS. What the start of a run has checked holds to its end (41_tx_synth.md R131,
42_rx_spectro_detect.md R161): the transmit half and the receive half of `State.RunFits`. -/

namespace Sys2Proof.Machine

section

variable {s t : State}

/-- What `TX.START` has checked and counted (R131). -/
structure State.TxFits (s : State) : Prop where
  streams : ∀ i < s.nstr, s.slenOf i ≤ s.cfg.strmCap
  windows : s.wc.toNat = s.payloadWindows
  samples : s.wc.toNat * s.spf.toNat ≤ s.cfg.pcmCap

/-- What `RX.START` has checked and counted (R161), and the bits `RX.DETECT` has placed since. -/
structure State.RxFits (s : State) : Prop where
  windows : s.wc.toNat = s.receivedWindows
  bytes : cdiv (s.wc.toNat * s.bpb.toNat) 8 ≤ s.cfg.strmCap
  placed : ∀ i < s.nstr, (s.placed i).length = s.widx.toNat * s.bpb.toNat

theorem runFits_iff : s.RunFits ↔ s.During .tx State.TxFits ∧ s.During .rx State.RxFits := by
  constructor
  · intro h
    exact ⟨fun hm hv => ⟨h.txStreams hm hv, h.txWindows hm hv, h.txSamples hm hv⟩,
      fun hm hv => ⟨h.rxWindows hm hv, h.rxBytes hm hv, h.rxPlaced hm hv⟩⟩
  · rintro ⟨htx, hrx⟩
    exact {
      txStreams := fun hm hv => (htx hm hv).streams
      txWindows := fun hm hv => (htx hm hv).windows
      txSamples := fun hm hv => (htx hm hv).samples
      rxWindows := fun hm hv => (hrx hm hv).windows
      rxBytes := fun hm hv => (hrx hm hv).bytes
      rxPlaced := fun hm hv => (hrx hm hv).placed }

/-- What the checks of the starts read. -/
theorem State.SameProgress.sizes (h : s.SameProgress t) :
    (t.cfg = s.cfg ∧ t.geoParams = s.geoParams ∧ t.bpb = s.bpb) ∧
      (t.spf = s.spf ∧ t.wc = s.wc ∧ t.widx = s.widx) ∧
      t.pcmlen = s.pcmlen ∧ t.slen = s.slen := by
  have hgeo := h.geometry
  have hrun := h.run
  have hstreams := h.streams
  simp only [State.geometryData, State.runData, State.streamData, Prod.mk.injEq]
    at hgeo hrun hstreams
  obtain ⟨hcfg, hparams, -, -, hbpb, -⟩ := hgeo
  obtain ⟨hspf, hwc, hwidx, -⟩ := hrun
  obtain ⟨hpcmlen, hslen, -⟩ := hstreams
  exact ⟨⟨hcfg, hparams, hbpb⟩, ⟨hspf, hwc, hwidx⟩, hpcmlen, hslen⟩

theorem State.TxFits.congr (h : s.TxFits) (hp : s.SameProgress t) : t.TxFits := by
  obtain ⟨⟨hcfg, hparams, hbpb⟩, ⟨hspf, hwc, -⟩, -, hslen⟩ := hp.sizes
  have hnstr : t.nstr = s.nstr := by rw [State.nstr, State.nstr, hparams]
  have hslenOf (i : ℕ) : t.slenOf i = s.slenOf i := by rw [State.slenOf, State.slenOf, hslen]
  have hlongest : t.longest = s.longest := by
    simp only [State.longest_eq_sup, hnstr, Finset.sup_congr rfl fun i _ => hslenOf i]
  refine ⟨?_, ?_, ?_⟩
  · simp only [hnstr, hslenOf, hcfg]
    exact h.streams
  · rw [State.payloadWindows, hwc, hlongest, hbpb]
    exact h.windows
  · rw [hwc, hspf, hcfg]
    exact h.samples

theorem State.RxFits.congr (h : s.RxFits) (hp : s.SameProgress t) : t.RxFits := by
  obtain ⟨⟨hcfg, hparams, hbpb⟩, ⟨hspf, hwc, hwidx⟩, hpcmlen, hslen⟩ := hp.sizes
  refine ⟨?_, ?_, ?_⟩
  · rw [State.receivedWindows, hwc, hpcmlen, hspf]
    exact h.windows
  · rw [hwc, hbpb, hcfg]
    exact h.bytes
  · simp only [State.placed_length, State.nstr, State.slenOf, State.accOf, hparams, hslen, hp.acc,
      hwidx, hbpb]
    simpa only [State.placed_length, State.nstr, State.slenOf, State.accOf] using h.placed

theorem txFits_txStarted (hfit : s.lengthsFit = true)
    (hwave : s.payloadWindows * s.spf.toNat ≤ s.cfg.pcmCap) : s.txStarted.TxFits where
  streams := State.lengthsFit_iff.mp hfit
  windows := State.txStarted_wc_toNat hfit
  samples := (congrArg (· * s.spf.toNat) (State.txStarted_wc_toNat hfit)).trans_le hwave

/-- The streams and the counts of a run are no business of `TX.WINDOW`. -/
theorem State.TxFits.synthWindow (h : s.TxFits) : s.synthWindow.TxFits :=
  ⟨h.streams, h.windows, h.samples⟩

theorem txFits_runProperty : RunProperty .tx State.TxFits where
  running := by decide
  congr := State.TxFits.congr
  body _ h hl hb hm hv := by
    obtain rfl | ⟨hfit, hwave, rfl⟩ | ⟨htx, -, rfl⟩ := bodyOf_tx_cases hl hb hm
    · exact h hm hv
    · exact txFits_txStarted hfit hwave
    · exact (h htx hv).synthWindow

theorem State.rxStarted_wc_toNat (hspf : 0 < s.spf.toNat) :
    s.rxStarted.wc.toNat = s.receivedWindows :=
  Nat.mod_eq_of_lt ((cdiv_le_self _ hspf).trans_lt s.pcmlen.isLt)

theorem rxFits_rxStarted (hspf : 0 < s.spf.toNat)
    (hbytes : cdiv (s.receivedWindows * s.bpb.toNat) 8 ≤ s.cfg.strmCap) : s.rxStarted.RxFits where
  windows := State.rxStarted_wc_toNat hspf
  bytes := by rw [State.rxStarted_wc_toNat hspf]; exact hbytes
  placed i hi := by
    have hi : i < s.nstr := hi
    simp [hi, Acc.clear]

theorem State.RxFits.takeSpectrum (h : s.RxFits) : s.takeSpectrum.RxFits :=
  ⟨h.windows, h.bytes, h.placed⟩

/-- `RX.DETECT` gives every stream one bit for each of its cells (R169). -/
theorem placed_length_rxDetectBody (hd : rxDetectBody s = .ok t)
    (hstr : s.nstr ≤ s.cfg.maxStreams) {i : ℕ} (hi : i < s.nstr) :
    (t.placed i).length = (s.placed i).length + s.bpb.toNat := by
  obtain ⟨u, hu, rfl⟩ := rxDetectBody_cases hd
  have hbank : ∀ c ∈ s.cells, c.1 < bankSize := fun c hc =>
    lt_bankSize s.cfg (((s.mem_cells c).mp hc).1.trans_le hstr)
  have hplaced := congrArg List.length (State.placed_decideCells hu hbank i)
  rw [List.length_append, List.length_map, s.cells_band hi, List.length_map,
    List.length_range] at hplaced
  exact hplaced

theorem State.RxFits.rxDetectBody (h : s.RxFits) (hstr : s.nstr ≤ s.cfg.maxStreams)
    (hw : s.widx < s.wc) (hd : rxDetectBody s = .ok t) : t.RxFits := by
  have hframe := rxDetectBody_frame hd
  have hnstr : t.nstr = s.nstr := by rw [hframe]; rfl
  have hcount : t.widx.toNat * t.bpb.toNat = s.widx.toNat * s.bpb.toNat + s.bpb.toNat := by
    rw [hframe, succ_toNat_of_lt hw, add_one_mul]
  refine ⟨?_, ?_, fun i hi => ?_⟩
  · rw [hframe]; exact h.windows
  · rw [hframe]; exact h.bytes
  · have hi : i < s.nstr := hnstr ▸ hi
    rw [placed_length_rxDetectBody hd hstr hi, h.placed i hi, hcount]

theorem rxFits_runProperty : RunProperty .rx State.RxFits where
  running := by decide
  congr := State.RxFits.congr
  body {i s t} hinv h hl hb hm hv := by
    have hgeov (hbody : t.status.geov = s.status.geov) := (hinv.geometry (hbody ▸ hv)).facts
    obtain rfl | ⟨hbytes, rfl⟩ | ⟨hrx, rfl⟩ | ⟨hrx, hw, hd⟩ := bodyOf_rx_cases hl hb hm
    · exact h hm hv
    · obtain ⟨-, -, -, hnfft, hspf, -⟩ := hgeov rfl
      exact rxFits_rxStarted (hnfft.trans_le hspf) hbytes
    · exact (h hrx hv).takeSpectrum
    · have hsame : t.status.geov = s.status.geov := by rw [rxDetectBody_frame hd]
      obtain ⟨-, hstr, -⟩ := hgeov hsame
      exact (h hrx (hsame ▸ hv)).rxDetectBody hstr hw hd

end

/-- Settles O52: the checks are made when a run starts, and from then on only `RX.DETECT` writes
what they are about, one bit per cell and window. -/
theorem runCapacityKept : Obligations.RunCapacityKept := by
  intro s t hinv h hstep
  obtain ⟨htx, hrx⟩ := runFits_iff.mp h
  exact runFits_iff.mpr
    ⟨txFits_runProperty.step hinv htx hstep, rxFits_runProperty.step hinv hrx hstep⟩

end Sys2Proof.Machine
end

section
/-! PROOFS. 41_tx_synth.md R140: the tones of a window never cancel. Over one transform length the
sines at distinct bins strictly between DC and half the sample rate are orthogonal, whatever their
phases. -/

namespace Sys2Proof.Num

open Real Finset

/-! ### Orthogonality of the tones -/

section

variable {N : ℕ}

/-- The sine at bin d half a sample before sample t: a cosine at that bin is a step of it. -/
noncomputable def halfSampleSin (N d : ℕ) (φ : ℝ) (t : ℕ) : ℝ :=
  sin (2 * π * d * t / N + φ - π * d / N)

theorem halfSampleSin_succ_sub (d : ℕ) (φ : ℝ) (t : ℕ) :
    halfSampleSin N d φ (t + 1) - halfSampleSin N d φ t =
      2 * sin (π * d / N) * cos (2 * π * d * t / N + φ) := by
  have hnext : 2 * π * d * ((t + 1 : ℕ) : ℝ) / N + φ - π * d / N =
      2 * π * d * t / N + φ + π * d / N := by
    push_cast
    ring
  rw [halfSampleSin, halfSampleSin, hnext, sin_add _ (π * d / N), sin_sub _ (π * d / N)]
  ring

theorem halfSampleSin_period (hN : 0 < N) (d : ℕ) (φ : ℝ) :
    halfSampleSin N d φ N = halfSampleSin N d φ 0 := by
  have hangle : 2 * π * d * (N : ℝ) / N + φ - π * d / N =
      2 * π * d * ((0 : ℕ) : ℝ) / N + φ - π * d / N + d * (2 * π) := by
    field_simp
    push_cast
    ring
  rw [halfSampleSin, hangle, sin_add_nat_mul_two_pi, halfSampleSin]

/-- Over N samples a cosine at bin d, 0 < d < N, sums to 0. -/
theorem sum_cos_bin {d : ℕ} (hd : 0 < d) (hN : d < N) (φ : ℝ) :
    ∑ t ∈ range N, cos (2 * π * d * t / N + φ) = 0 := by
  have hN' : (0 : ℝ) < N := by exact_mod_cast hd.trans hN
  have hsin : 0 < sin (π * d / N) := by
    refine sin_pos_of_pos_of_lt_pi (by positivity) ?_
    rw [div_lt_iff₀ hN']
    gcongr
  have hsum : 2 * sin (π * d / N) * ∑ t ∈ range N, cos (2 * π * d * t / N + φ) = 0 := by
    simp only [mul_sum, ← halfSampleSin_succ_sub]
    rw [sum_range_sub, halfSampleSin_period (hd.trans hN), sub_self]
  exact (mul_eq_zero.mp hsum).resolve_left (by positivity)

/-- A tone: sample t of the sine at bin n, with phase φ. -/
noncomputable def tone (N n : ℕ) (φ : ℝ) (t : ℕ) : ℝ := sin (2 * π * n * t / N + φ)

/-- The product of two tones is half the difference of two cosines. -/
theorem two_mul_tone_mul_tone {m n : ℕ} (h : m ≤ n) (φ ψ : ℝ) (t : ℕ) :
    2 * (tone N m φ t * tone N n ψ t) =
      cos (2 * π * (n - m : ℕ) * t / N + (ψ - φ)) -
        cos (2 * π * (m + n : ℕ) * t / N + (φ + ψ)) := by
  have hdiff : 2 * π * ((n - m : ℕ) : ℝ) * t / N + (ψ - φ) =
      (2 * π * n * t / N + ψ) - (2 * π * m * t / N + φ) := by
    rw [Nat.cast_sub h]
    ring
  have hsum : 2 * π * ((m + n : ℕ) : ℝ) * t / N + (φ + ψ) =
      (2 * π * m * t / N + φ) + (2 * π * n * t / N + ψ) := by
    push_cast
    ring
  rw [tone, tone, hdiff, hsum, cos_sub, cos_add (2 * π * m * t / N + φ)]
  ring

/-- Tones at distinct bins below half the sample rate are orthogonal. -/
theorem sum_tone_mul_tone_of_ne {m n : ℕ} (hne : m ≠ n) (hm : 2 * m < N) (hn : 2 * n < N)
    (φ ψ : ℝ) : ∑ t ∈ range N, tone N m φ t * tone N n ψ t = 0 := by
  wlog hlt : m < n generalizing m n φ ψ
  · simp only [mul_comm (tone N m φ _)]
    exact this hne.symm hn hm ψ φ (by omega)
  have htwice : 2 * ∑ t ∈ range N, tone N m φ t * tone N n ψ t = 0 := by
    simp only [mul_sum, two_mul_tone_mul_tone hlt.le, sum_sub_distrib]
    rw [sum_cos_bin (by omega) (by omega), sum_cos_bin (by omega) (by omega), sub_self]
  linarith

/-- The energy of a tone strictly between DC and half the sample rate. -/
theorem sum_tone_mul_self {n : ℕ} (hpos : 0 < n) (hn : 2 * n < N) (φ : ℝ) :
    ∑ t ∈ range N, tone N n φ t * tone N n φ t = N / 2 := by
  have htwice : 2 * ∑ t ∈ range N, tone N n φ t * tone N n φ t = N := by
    simp only [mul_sum, two_mul_tone_mul_tone le_rfl, sum_sub_distrib]
    rw [sum_cos_bin (d := n + n) (by omega) (by omega)]
    simp
  linarith

/-- Tones at distinct bins strictly between DC and half the sample rate that sum to silence over one
transform length are none (R140). -/
theorem eq_empty_of_tones_silent {ι : Type*} {A : Finset ι} {n : ι → ℕ} {φ : ι → ℝ}
    (hdistinct : Set.InjOn n A) (hrange : ∀ c ∈ A, 0 < n c ∧ 2 * n c < N)
    (hsilent : ∀ t < N, ∑ c ∈ A, tone N (n c) (φ c) t = 0) : A = ∅ := by
  by_contra hne
  obtain ⟨c, hc⟩ := nonempty_iff_ne_empty.mpr hne
  obtain ⟨hpos, hlt⟩ := hrange c hc
  have hother (d : ι) (hd : d ∈ A) (hdc : d ≠ c) :
      ∑ t ∈ range N, tone N (n d) (φ d) t * tone N (n c) (φ c) t = 0 :=
    sum_tone_mul_tone_of_ne (fun h => hdc (hdistinct hd hc h)) (hrange d hd).2 hlt _ _
  have henergy : (N : ℝ) / 2 = 0 :=
    calc (N : ℝ) / 2 = ∑ t ∈ range N, tone N (n c) (φ c) t * tone N (n c) (φ c) t :=
          (sum_tone_mul_self hpos hlt _).symm
      _ = ∑ d ∈ A, ∑ t ∈ range N, tone N (n d) (φ d) t * tone N (n c) (φ c) t :=
          (sum_eq_single_of_mem c hc hother).symm
      _ = ∑ t ∈ range N, (∑ d ∈ A, tone N (n d) (φ d) t) * tone N (n c) (φ c) t := by
          rw [sum_comm]
          simp only [sum_mul]
      _ = 0 := sum_eq_zero fun t ht => by rw [hsilent t (mem_range.mp ht), zero_mul]
  have hN : (0 : ℝ) < N := by exact_mod_cast hpos.trans_le (by omega)
  linarith

end

end Sys2Proof.Num

namespace Sys2Proof.Machine

/-! ### The tones of a window -/

section

variable {s : State}

/-- The native bins of the cells, over the integers of the bin map (40_geometry.md R118). -/
theorem State.Resolved.nativeBin_eq (h : s.Resolved) {i : ℕ} (hi : i < s.nstr) (j : ℕ) :
    (s.nativeBin i j : ℤ) = s.geoParams.firstBin i + j * s.geoParams.k := by
  obtain ⟨-, hstr, -⟩ := h.facts
  have hd := ((Params.check_iff _ _).mp h.check).toDerivable
  rw [State.nativeBin, h.nb i (hi.trans_le hstr), if_pos hi, Params.firstBin_eq hd]
  push_cast
  rfl

theorem State.Resolved.lt_binsPerBand (h : s.Resolved) {j : ℕ} (hj : j < s.bpb.toNat) :
    (j : ℤ) < s.geoParams.binsPerBand := by
  rw [Params.binsPerBand_eq ((Params.check_iff _ _).mp h.check).toDerivable, ← h.bpb]
  exact_mod_cast hj

/-- R120 (f): the bins in use lie strictly between DC and half the sample rate. -/
theorem State.Resolved.nativeBin_range (h : s.Resolved) {i j : ℕ} (hi : i < s.nstr)
    (hj : j < s.bpb.toNat) : 0 < s.nativeBin i j ∧ 2 * s.nativeBin i j < s.nfft := by
  have hv := (Params.check_iff _ _).mp h.check
  have hd := hv.toDerivable
  obtain ⟨hlow, hhigh⟩ := hv.range
  have hfirst : s.geoParams.firstBin 0 ≤ s.geoParams.firstBin i := Params.firstBin_mono hd i.zero_le
  have hlast := Params.nativeBin_le_lastBin hd hi (h.lt_binsPerBand hj)
  have hbin := h.nativeBin_eq hi j
  have hpos : (0 : ℤ) ≤ j * s.geoParams.k := by positivity
  rw [State.nfft]
  omega

/-- R120 (c), (d): distinct cells have distinct bins. -/
theorem State.Resolved.nativeBin_inj (h : s.Resolved) {i j i' j' : ℕ} (hi : i < s.nstr)
    (hj : j < s.bpb.toNat) (hi' : i' < s.nstr) (hj' : j' < s.bpb.toNat)
    (heq : s.nativeBin i j = s.nativeBin i' j') : i = i' ∧ j = j' := by
  have hd := ((Params.check_iff _ _).mp h.check).toDerivable
  have hk : (1 : ℤ) ≤ s.geoParams.k := by exact_mod_cast hd.decim
  have hapart {i j i' j' : ℕ} (hi : i < s.nstr) (hj : j < s.bpb.toNat) (hi' : i' < s.nstr)
      (heq : s.nativeBin i j = s.nativeBin i' j') : ¬ (i < i' ∨ i = i' ∧ j < j') := fun hlex => by
    have hadd := Params.nativeBin_add_le hd (h.lt_binsPerBand hj) hlex
    rw [← h.nativeBin_eq hi, ← h.nativeBin_eq hi', heq] at hadd
    omega
  have hforth := hapart hi hj hi' heq
  have hback := hapart hi' hj' hi heq.symm
  omega

/-- The cells of window p whose bit is 1 (41_tx_synth.md R132). -/
def State.activeSet (s : State) (p : ℕ) : Finset (ℕ × ℕ) :=
  (Finset.range s.nstr ×ˢ Finset.range s.bpb.toNat).filter fun c =>
    s.streamBit c.1 (p * s.bpb.toNat + c.2) = true

theorem State.mem_activeSet {p : ℕ} {c : ℕ × ℕ} : c ∈ s.activeSet p ↔
    (c.1 < s.nstr ∧ c.2 < s.bpb.toNat) ∧ s.streamBit c.1 (p * s.bpb.toNat + c.2) = true := by
  simp [State.activeSet]

theorem State.activeSet_eq_empty_iff {p : ℕ} : s.activeSet p = ∅ ↔
    ∀ i < s.nstr, ∀ j < s.bpb.toNat, s.streamBit i (p * s.bpb.toNat + j) = false := by
  simp only [Finset.eq_empty_iff_forall_notMem, State.mem_activeSet, Prod.forall, not_and,
    Bool.not_eq_true, and_imp]
  exact forall_congr' fun i => forall_comm

/-- The phase with which a cell enters window p, as an angle. -/
noncomputable def State.entryAngle (s : State) (p : ℕ) (c : ℕ × ℕ) : ℝ :=
  2 * Real.pi * (s.nativeBin c.1 c.2 * (s.spf.toNat * s.activeBefore c.1 c.2 p) : ℕ) / s.nfft

/-- With the exact sine, a sample in closed form is the sum of the tones of the active cells. -/
theorem State.closedSample_eq_tones (hnum : s.cfg.num = .reference) (hnfft : 0 < s.nfft) (p t : ℕ) :
    s.closedSample p t =
      ∑ c ∈ s.activeSet p, Num.tone s.nfft (s.nativeBin c.1 c.2) (s.entryAngle p c) t := by
  rw [State.closedSample, State.activeSet, Finset.sum_filter, Finset.sum_product]
  refine Finset.sum_congr rfl fun i _ => Finset.sum_congr rfl fun j _ => ?_
  have hsin : Num.SIN s.cfg.num
      (s.nativeBin i j * (s.spf.toNat * s.activeBefore i j p + t) % s.nfft) s.nfft =
        Num.tone s.nfft (s.nativeBin i j) (s.entryAngle p (i, j)) t := by
    rw [hnum, Num.SIN, sin_mod hnfft, Num.tone, State.entryAngle]
    congr 1
    push_cast
    ring
  rw [hsin]

/-- A window in closed form is silent only without an active cell: it is at least one transform
length long. -/
theorem State.Resolved.window_silent_iff (h : s.Resolved) (hnum : s.cfg.num = .reference) (p : ℕ) :
    (∀ t < s.spf.toNat, s.closedSample p t = 0) ↔ s.activeSet p = ∅ := by
  obtain ⟨-, -, -, hnfft, hspf, -⟩ := h.facts
  simp only [State.closedSample_eq_tones hnum hnfft]
  refine ⟨fun hsilent => ?_, fun hempty t _ => by rw [hempty, Finset.sum_empty]⟩
  refine Num.eq_empty_of_tones_silent (fun c hc d hd heq => ?_) (fun c hc => ?_)
    fun t ht => hsilent t (ht.trans_le hspf)
  · obtain ⟨⟨hi, hj⟩, -⟩ := State.mem_activeSet.mp hc
    obtain ⟨⟨hi', hj'⟩, -⟩ := State.mem_activeSet.mp hd
    obtain ⟨hband, hbin⟩ := h.nativeBin_inj hi hj hi' hj' heq
    exact Prod.ext hband hbin
  · obtain ⟨⟨hi, hj⟩, -⟩ := State.mem_activeSet.mp hc
    exact h.nativeBin_range hi hj

/-- The peak is 0 exactly where every sample is (R43 (f)). -/
theorem State.TxInv.amax_eq_zero_iff (h : s.TxInv) : Num.value s.amax = 0 ↔
    ∀ p < s.widx.toNat, ∀ t < s.spf.toNat, s.waveValue (p * s.spf.toNat + t) = 0 := by
  refine ⟨fun hzero p _ t _ => ?_, fun hsilent => ?_⟩
  · exact abs_nonpos_iff.mp (hzero ▸ h.abs_waveValue_le _)
  · by_contra hne
    obtain ⟨a, ha, hpeak⟩ := h.exists_peak (lt_of_le_of_ne h.amax_nonneg (Ne.symm hne))
    have hspf : 0 < s.spf.toNat := Nat.pos_of_ne_zero fun h0 => by simp [h0] at ha
    have hsample := hsilent (a / s.spf.toNat) (Nat.div_lt_of_lt_mul (by rwa [mul_comm]))
      (a % s.spf.toNat) (Nat.mod_lt a hspf)
    rw [Nat.div_add_mod'] at hsample
    rw [hsample, abs_zero] at hpeak
    exact hne hpeak.symm

end

/-- Settles O29: the samples are those of the closed form, and the tones of a window are orthogonal.
-/
theorem silentExactlyWithoutActiveCell : Obligations.SilentExactlyWithoutActiveCell := by
  intro s hinv hclosed hnum hmode hgeov
  have hwave := hclosed hmode hgeov
  have hres := hinv.geometry hgeov
  calc Num.value s.amax = 0
    _ ↔ ∀ p < s.widx.toNat, ∀ t < s.spf.toNat, s.waveValue (p * s.spf.toNat + t) = 0 :=
        (hinv.txInv hmode).amax_eq_zero_iff
    _ ↔ ∀ p < s.widx.toNat, ∀ t < s.spf.toNat, s.closedSample p t = 0 :=
        forall₂_congr fun p hp => forall₂_congr fun t ht => by rw [hwave p hp t ht]
    _ ↔ ∀ p < s.widx.toNat, s.activeSet p = ∅ :=
        forall₂_congr fun p _ => hres.window_silent_iff hnum p
    _ ↔ _ := forall₂_congr fun p _ => State.activeSet_eq_empty_iff

end Sys2Proof.Machine
end

section
/-! PROOFS. 42_rx_spectro_detect.md, the measurement: `RX.START` (R161), `RX.SPECTRUM` (R163 to R166) and the
global maximum (R168). -/

namespace Sys2Proof.Machine

/-! ### `RX.START` (R161) -/

section

variable {s : State}

theorem legality_rxStart (hmode : s.status.mode = .idle) (hgeov : s.status.geov = true) :
    legality .rxStart s = none :=
  legality_eq_none rfl hmode (fun _ => hgeov) rfl

theorem rxStartBody_ok (hpcm : s.pcmlen.toNat ≤ s.cfg.pcmCap)
    (hroom : cdiv (s.receivedWindows * s.bpb.toNat) 8 ≤ s.cfg.strmCap) :
    rxStartBody s = .ok s.rxStarted := by
  rw [rxStartBody_eq, if_pos ⟨hpcm, hroom⟩]

theorem rxStartBody_error (h : ¬ (s.pcmlen.toNat ≤ s.cfg.pcmCap ∧
    cdiv (s.receivedWindows * s.bpb.toNat) 8 ≤ s.cfg.strmCap)) : rxStartBody s = .error .cap := by
  rw [rxStartBody_eq, if_neg h]

/-- The machine's window count is the ceiling of R160. -/
theorem State.receivedWindows_eq_ceil (hspf : 0 < s.spf.toNat) :
    (s.receivedWindows : ℤ) = ⌈(s.pcmlen.toNat : ℚ) / s.spf.toNat⌉ :=
  cdiv_eq_ceil _ hspf

/-- The machine's count of the bytes of a decoded stream is the ceiling of R161. -/
theorem State.receivedBytes_eq_ceil (hspf : 0 < s.spf.toNat) :
    (cdiv (s.receivedWindows * s.bpb.toNat) 8 : ℤ) =
      ⌈(⌈(s.pcmlen.toNat : ℚ) / s.spf.toNat⌉ * s.bpb.toNat : ℚ) / 8⌉ := by
  rw [cdiv_eq_ceil _ (by decide), ← State.receivedWindows_eq_ceil hspf]
  push_cast
  rfl

end

/-- Settles O30: the machine's counts are the ceilings of the statement, and the window count fits `WC`.
-/
theorem rxStartBegins : Obligations.RxStartBegins := by
  intro s hinv herr hmode hgeov
  have hl := legality_rxStart hmode hgeov
  obtain ⟨-, -, -, hnfft, hle, -⟩ := (hinv.geometry hgeov).facts
  have hspf : 0 < s.spf.toNat := hnfft.trans_le hle
  rw [← State.receivedBytes_eq_ceil hspf, ← State.receivedWindows_eq_ceil hspf, Int.ofNat_le]
  refine ⟨fun hpcm hroom => ?_, fun h => ?_⟩
  · refine ⟨_, exec_of_body (by decide) herr hl (rxStartBody_ok hpcm hroom),
      congrArg Nat.cast (State.rxStarted_wc_toNat hspf), fun i hi => ?_, fun i hi => ?_, ?_,
      ⟨fun _ _ => rfl, fun _ => rfl⟩, rfl⟩
    · simp [hi, Acc.clear]
    · simp [hi.not_gt]
    · exact (congrArg Real.sqrt Num.value_zero).trans Real.sqrt_zero
  · exact raises_of_body (by decide) herr hl (rxStartBody_error h)

/-! ### `RX.SPECTRUM` (R163 to R166) -/

section

variable {s : State}

theorem legality_rxSpectrum (hmode : s.status.mode = .rx) (hgeov : s.status.geov = true)
    (hs : s.sidx < s.wc) : legality .rxSpectrum s = none :=
  legality_eq_none rfl hmode (fun _ => hgeov) (decide_eq_true hs)

/-- The sub-window the machine takes is the slice of R163 to R165. -/
theorem State.subWindow_eq_receivedSlice {p : ℕ} (hp : p < s.wc.toNat) :
    s.subWindow p = s.receivedSlice s.wc.toNat p := by
  have hlast : p = s.wc.toNat - 1 ↔ p + 1 = s.wc.toNat := by omega
  simp only [State.subWindow, State.receivedSlice, State.xpad, State.subOffset, hlast]

/-- A magnitude of slice p, once that slice is stored (R163). -/
theorem State.magnitude_of_slice {p n : ℕ} (hmag : s.mag[p]? = some (s.spectrum p))
    (hp : p < s.wc.toNat) (hn : n < s.nfft) :
    s.magnitude p n = Num.MAG s.cfg.num (s.receivedSlice s.wc.toNat p) n := by
  have hget : s.mag.getD p [] = s.spectrum p := by
    rw [List.getD_eq_getElem?_getD, hmag, Option.getD_some]
  rw [State.magnitude, State.magOf, hget, State.sqrt_spectrum s p hn,
    State.subWindow_eq_receivedSlice hp]

/-- The magnitudes of slice p, all native bins in order. -/
theorem State.spectrum_map_sqrt {p : ℕ} (hp : p < s.wc.toNat) :
    (s.spectrum p).map (fun m => √(Num.value m)) =
      (List.range s.nfft).map (Num.MAG s.cfg.num (s.receivedSlice s.wc.toNat p)) := by
  refine List.ext_getElem (by simp) fun n hn _ => ?_
  have hn : n < s.nfft := by simpa using hn
  have hmag := State.sqrt_spectrum s p hn
  rw [List.getD_eq_getElem _ _ (by simpa using hn), State.subWindow_eq_receivedSlice hp] at hmag
  simpa using hmag

/-- The magnitudes of the slices before stay. -/
theorem State.magnitude_takeSpectrum_of_lt {p : ℕ} (hp : p < s.mag.length) (n : ℕ) :
    s.takeSpectrum.magnitude p n = s.magnitude p n := by
  rw [State.magnitude, State.magOf, State.takeSpectrum_mag, List.getD_append _ _ _ _ hp,
    State.magnitude, State.magOf]

end

/-- Settles O31: the slice stored is the one of the statement, and R43 (g) speaks of the spectra after it.
-/
theorem rxSpectrumMeasures : Obligations.RxSpectrumMeasures := by
  intro s hinv herr hmode hgeov hs
  have hrx : (s.setDone false).RxInv := (hinv.of_sameRun (sameRun_setDone s false)).rxInv hmode
  have hnew := hrx.takeSpectrum hs
  have hnext : (s.setDone false).takeSpectrum.sidx.toNat = s.sidx.toNat + 1 := succ_toNat_of_lt hs
  refine ⟨_, exec_of_body (by decide) herr (legality_rxSpectrum hmode hgeov hs) rfl, hnext,
    hnew.magLength, fun p hp n => State.magnitude_takeSpectrum_of_lt (hrx.magLength ▸ hp) n,
    fun n hn => ?_, ?_, ⟨fun _ _ => rfl, fun _ => rfl⟩, rfl⟩
  · exact State.magnitude_of_slice (s := (s.setDone false).takeSpectrum)
      (hnew.magSlices hgeov _ (by rw [hnext]; exact Nat.lt_succ_self _)) hs hn
  · exact (sqrt_greatest _ _).trans (congrArg (fun xs => max s.maxMagnitude (greatestOf xs))
      (State.spectrum_map_sqrt (s := s.setDone false) hs))

/-! ### The global maximum (R168) -/

section

variable {s : State}

theorem State.RxInv.magnitude_eq (h : s.RxInv) (hgeov : s.status.geov = true) {p n : ℕ}
    (hp : p < s.sidx.toNat) (hn : n < s.nfft) :
    s.magnitude p n = Num.MAG s.cfg.num (s.receivedSlice s.wc.toNat p) n :=
  State.magnitude_of_slice (h.magSlices hgeov p hp)
    (hp.trans_le (BitVec.le_def.mp h.slice)) hn

/-- Once every slice is stored, `MAG` is the list of their spectra. -/
theorem State.RxInv.mag_eq (h : s.RxInv) (hgeov : s.status.geov = true) (hs : s.sidx = s.wc) :
    s.mag = (List.range s.wc.toNat).map s.spectrum := by
  refine List.ext_getElem? fun p => ?_
  by_cases hp : p < s.wc.toNat
  · rw [h.magSlices hgeov p (hs ▸ hp)]
    simp [hp]
  · rw [List.getElem?_eq_none (by rw [h.magLength, hs]; omega),
      List.getElem?_eq_none (by simpa using hp)]

/-- Once every slice is stored, `MMAX` is the greatest magnitude of the received samples (R168). -/
theorem State.RxInv.maxMagnitude_eq (h : s.RxInv) (hgeov : s.status.geov = true)
    (hs : s.sidx = s.wc) : s.maxMagnitude = s.receivedMaximum s.wc.toNat := by
  rw [h.magPeak, h.mag_eq hgeov hs, State.receivedMaximum, ← List.flatMap_def, List.map_flatMap]
  congr 1
  exact List.flatMap_congr fun p hp => State.spectrum_map_sqrt (List.mem_range.mp hp)

theorem State.mem_receivedMagnitudes {wc : ℕ} {x : ℝ} :
    x ∈ ((List.range wc).flatMap fun p =>
      (List.range s.nfft).map fun n => Num.MAG s.cfg.num (s.receivedSlice wc p) n) ↔
    ∃ p < wc, ∃ n < s.nfft, Num.MAG s.cfg.num (s.receivedSlice wc p) n = x := by
  simp

theorem State.le_receivedMaximum {wc p n : ℕ} (hp : p < wc) (hn : n < s.nfft) :
    Num.MAG s.cfg.num (s.receivedSlice wc p) n ≤ s.receivedMaximum wc :=
  le_greatestOf (State.mem_receivedMagnitudes.mpr ⟨p, hp, n, hn, rfl⟩)

theorem State.receivedMaximum_zero : s.receivedMaximum 0 = 0 := rfl

/-- The global maximum is attained: magnitudes are not negative, and there is one. -/
theorem State.exists_eq_receivedMaximum {wc : ℕ} (hwc : 0 < wc) (hnfft : 0 < s.nfft) :
    ∃ p < wc, ∃ n < s.nfft,
      Num.MAG s.cfg.num (s.receivedSlice wc p) n = s.receivedMaximum wc := by
  obtain hzero | hmem := greatestOf_mem ((List.range wc).flatMap fun p =>
    (List.range s.nfft).map fun n => Num.MAG s.cfg.num (s.receivedSlice wc p) n)
  · refine ⟨0, hwc, 0, hnfft, le_antisymm (State.le_receivedMaximum hwc hnfft) ?_⟩
    exact hzero.trans_le (Num.MAG_nonneg _ _ _)
  · exact State.mem_receivedMagnitudes.mp hmem

end

/-- Settles O32: the stored magnitudes and `MMAX` are those of the received samples (R43 (g)). -/
theorem globalMaximum : Obligations.GlobalMaximum := by
  intro s hinv hmode hgeov hs
  have hrx := hinv.rxInv hmode
  obtain ⟨-, -, -, hnfft, -⟩ := (hinv.geometry hgeov).facts
  have hmag {p n : ℕ} (hp : p < s.wc.toNat) (hn : n < s.nfft) :=
    hrx.magnitude_eq hgeov (hs ▸ hp) hn
  rw [hrx.maxMagnitude_eq hgeov hs]
  refine ⟨fun hwc => ?_, fun p hp n hn => ?_, fun hwc => ?_⟩
  · rw [hwc]
    exact State.receivedMaximum_zero
  · rw [hmag hp hn]
    exact State.le_receivedMaximum hp hn
  · have hpos : 0 < s.wc.toNat := Nat.pos_of_ne_zero fun h => hwc (BitVec.eq_of_toNat_eq h)
    obtain ⟨p, hp, n, hn, heq⟩ := State.exists_eq_receivedMaximum hpos hnfft
    exact ⟨p, hp, n, hn, (hmag hp hn).trans heq⟩

end Sys2Proof.Machine
end

section
/-! PROOFS. 42_rx_spectro_detect.md, the decisions: `RX.DETECT` (R169 to R173) and `RX.FINISH` (R174). -/

namespace Sys2Proof.Machine

/-! ### The registers of one stream -/

section

variable {s t : State}

/-- The registers of stream i: its length and its accumulator. -/
abbrev State.streamRegs (s : State) (i : ℕ) : ℕ × Acc := (s.slenOf i, s.accOf i)

theorem State.streamRegs_eq_iff {i : ℕ} :
    t.streamRegs i = s.streamRegs i ↔ t.slenOf i = s.slenOf i ∧ t.accOf i = s.accOf i :=
  Prod.mk.injEq _ _ _ _ ▸ Iff.rfl

/-- A byte appended to stream st is counted and empties its accumulator (R202); the other streams stay. -/
theorem State.streamRegs_appended {st : ℕ} (b : Byte) (hst : st < bankSize)
    (hc : s.slenOf st < s.cfg.strmCap) (i : ℕ) :
    (s.appended st b).streamRegs i =
      if i = st then (s.slenOf st + 1, Acc.clear) else s.streamRegs i := by
  rw [State.streamRegs, State.slenOf_appended s b hst hc, State.accOf_appended s b hst]
  split <;> rfl

theorem State.streamRegs_putBit_of_ne {st i : ℕ} {v : Bool} (h : s.putBit st v = .ok t)
    (hst : st < bankSize) (hi : i ≠ st) : t.streamRegs i = s.streamRegs i := by
  obtain ⟨-, hc, rfl⟩ | ⟨-, rfl⟩ := State.putBit_cases h
  · rw [State.streamRegs_appended _ hst hc, if_neg hi]
  · rw [State.streamRegs, State.slenOf_setAcc, State.accOf_setAcc, if_neg fun h => hi h.1]

theorem State.streamRegs_flushBits {st : ℕ} (h : s.flushBits st = .ok t) (hst : st < bankSize)
    (i : ℕ) : t.streamRegs i =
      if i = st ∧ (s.accOf st).cnt ≠ 0 then (s.slenOf st + 1, Acc.clear) else s.streamRegs i := by
  obtain ⟨hcnt, rfl⟩ | ⟨hcnt, hc, rfl⟩ := State.flushBits_cases h
  · rw [if_neg fun h => h.2 hcnt]
  · exact (State.streamRegs_appended _ hst hc i).trans (if_congr (and_iff_left hcnt).symm rfl rfl)

/-- The cells of the other bands are no business of stream i (R169). -/
theorem State.streamRegs_decideCells {p : ℕ} {cs : List (ℕ × ℕ)}
    (h : State.decideCells p cs s = .ok t) (hcs : ∀ c ∈ cs, c.1 < bankSize) {i : ℕ}
    (hi : ∀ c ∈ cs, i ≠ c.1) : t.streamRegs i = s.streamRegs i := by
  induction cs generalizing s with
  | nil => cases h; rfl
  | cons c cs ih =>
      simp only [State.decideCells, bind, Except.bind] at h
      split at h
      · cases h
      · rename_i s1 h1
        rw [List.forall_mem_cons] at hcs hi
        rw [ih h hcs.2 hi.2, State.streamRegs_putBit_of_ne h1 hcs.1 hi.1]

/-- Each listed stream with a byte in progress gets that byte counted, and no other stream (R174). -/
theorem State.streamRegs_flushStreams {is : List ℕ} (h : State.flushStreams is s = .ok t)
    (his : ∀ i ∈ is, i < bankSize) (hnd : is.Nodup) (i : ℕ) : t.streamRegs i =
      if i ∈ is ∧ (s.accOf i).cnt ≠ 0 then (s.slenOf i + 1, Acc.clear) else s.streamRegs i := by
  induction is generalizing s with
  | nil => cases h; simp
  | cons k is ih =>
      simp only [State.flushStreams, bind, Except.bind] at h
      split at h
      · cases h
      · rename_i s1 h1
        rw [List.forall_mem_cons] at his
        rw [List.nodup_cons] at hnd
        have hone := State.streamRegs_flushBits h1 his.1 i
        rw [ih h his.2 hnd.2]
        by_cases hik : i = k
        · subst hik
          simpa [hnd.1] using hone
        · rw [if_neg fun h => hik h.1] at hone
          obtain ⟨hslen, hacc⟩ := State.streamRegs_eq_iff.mp hone
          rw [hacc, hslen, hone]
          simp [hik]

/-- An accumulator without bits holds none (R43 (d)). -/
theorem State.AccInv.accOf_eq_clear (h : s.AccInv) {i : ℕ} (hi : i < s.cfg.maxStreams)
    (hcnt : (s.accOf i).cnt = 0) : s.accOf i = Acc.clear := by
  have hval := h i hi
  rw [hcnt] at hval
  have hzero : (s.accOf i).val = 0 := BitVec.eq_of_toNat_eq (Nat.lt_one_iff.mp hval)
  calc s.accOf i = ⟨(s.accOf i).val, (s.accOf i).cnt⟩ := rfl
    _ = Acc.clear := by rw [hzero, hcnt, Acc.clear]

theorem cdiv_mono {a b : ℕ} (h : a ≤ b) (c : ℕ) : cdiv a c ≤ cdiv b c :=
  Nat.div_le_div_right (by omega)

/-- A receive run has room for what its streams will hold in the end (R161). -/
theorem State.RxFits.hasRoom (h : s.RxFits) {i m : ℕ} (hi : i < s.nstr)
    (hm : s.widx.toNat * s.bpb.toNat + m ≤ s.wc.toNat * s.bpb.toNat) : s.hasRoom i m := by
  rw [State.hasRoom, h.placed i hi]
  exact (cdiv_mono hm 8).trans h.bytes

end

/-! ### `RX.DETECT` (R169, R171, R172) -/

section

variable {s t : State}

theorem legality_rxDetect (hmode : s.status.mode = .rx) (hgeov : s.status.geov = true)
    (hs : s.sidx = s.wc) (hw : s.widx < s.wc) : legality .rxDetect s = none :=
  legality_eq_none rfl hmode (fun _ => hgeov)
    (Bool.and_eq_true_iff.mpr ⟨decide_eq_true hs, decide_eq_true hw⟩)

theorem State.cells_lt_bankSize (hstr : s.nstr ≤ s.cfg.maxStreams) :
    ∀ c ∈ s.cells, c.1 < bankSize := fun c hc =>
  lt_bankSize s.cfg (((s.mem_cells c).mp hc).1.trans_le hstr)

/-- Nothing raises inside `RX.DETECT`: the start of the run has checked the room (R161). -/
theorem State.RxFits.rxDetectBody_completes (h : s.RxFits) (hstr : s.nstr ≤ s.cfg.maxStreams)
    (hw : s.widx < s.wc) : ∃ t, Machine.rxDetectBody s = .ok t := by
  have hlt : s.widx.toNat < s.wc.toNat := BitVec.lt_def.mp hw
  obtain ⟨t, ht⟩ := State.decideCells_completes s.widx.toNat s.cells s
    (State.cells_lt_bankSize hstr) fun c hc => by
      have hband := ((s.mem_cells c).mp hc).1
      rw [s.cells_band hband, List.length_map, List.length_range]
      refine h.hasRoom hband ?_
      rw [← add_one_mul]
      exact Nat.mul_le_mul_right _ hlt
  exact ⟨_, by rw [Machine.rxDetectBody, ht]; rfl⟩

/-- The bits `RX.DETECT` gives stream i, low bin first (R169). -/
def State.decisions (s : State) (p i : ℕ) : List Bool :=
  (List.range s.bpb.toNat).map fun j => s.decision p i j

@[simp] theorem State.decisions_length (s : State) (p i : ℕ) :
    (s.decisions p i).length = s.bpb.toNat := by simp [State.decisions]

theorem State.decisions_getElem?_iff {p i j : ℕ} (hj : j < s.bpb.toNat) :
    (s.decisions p i)[j]? = some true ↔
      Num.DBGT s.cfg.num (s.magnitude p (s.nbOf i + j * s.kdec)) s.maxMagnitude s.thr := by
  rw [State.decisions, List.getElem?_map, List.getElem?_range hj, Option.map_some, Option.some_inj]
  exact s.decision_iff p i j

theorem placed_rxDetectBody (hd : rxDetectBody s = .ok t) (hstr : s.nstr ≤ s.cfg.maxStreams) {i : ℕ}
    (hi : i < s.nstr) : t.placed i = s.placed i ++ s.decisions s.widx.toNat i := by
  obtain ⟨u, hu, rfl⟩ := rxDetectBody_cases hd
  have hplaced := State.placed_decideCells hu (State.cells_lt_bankSize hstr) i
  rw [s.cells_band hi, List.map_map] at hplaced
  exact hplaced

theorem streamRegs_rxDetectBody (hd : rxDetectBody s = .ok t) (hstr : s.nstr ≤ s.cfg.maxStreams)
    {i : ℕ} (hi : s.nstr ≤ i) : t.streamRegs i = s.streamRegs i := by
  obtain ⟨u, hu, rfl⟩ := rxDetectBody_cases hd
  exact State.streamRegs_decideCells hu (State.cells_lt_bankSize hstr) fun c hc hic =>
    hi.not_gt (hic ▸ ((s.mem_cells c).mp hc).1)

/-- Bytes appended to the streams below N are all that changes in the buffers. -/
theorem State.Appends.sbRead_eq (h : s.Appends t)
    (hother : ∀ i, s.nstr ≤ i → t.streamRegs i = s.streamRegs i) {st a : ℕ}
    (ha : ¬ (st < s.nstr ∧ s.slenOf st ≤ a ∧ a < t.slenOf st)) : t.sbRead st a = s.sbRead st a := by
  refine h.bytes st a fun happ => ?_
  by_cases hst : st < s.nstr
  · exact ha ⟨hst, happ⟩
  · obtain ⟨hslen, -⟩ := State.streamRegs_eq_iff.mp (hother st (not_lt.mp hst))
    omega

end

/-- Settles O33: the start of the run has left room for the bits, and the decision of a cell is the
comparison of the statement. -/
theorem rxDetectDecides : Obligations.RxDetectDecides := by
  intro s hinv hfits herr hmode hgeov hs hw
  obtain ⟨-, hstr, -⟩ := (hinv.geometry hgeov).facts
  have hrx : s.RxFits := (runFits_iff.mp hfits).2 hmode hgeov
  have hrx0 : (s.setDone false).RxFits := ⟨hrx.windows, hrx.bytes, hrx.placed⟩
  obtain ⟨t, ht⟩ := hrx0.rxDetectBody_completes hstr hw
  have hframe := rxDetectBody_frame ht
  have hwidx : t.widx = s.widx + 1 := congrArg State.widx hframe
  have hother (i : ℕ) (hi : s.nstr ≤ i) : t.streamRegs i = s.streamRegs i :=
    streamRegs_rxDetectBody ht hstr hi
  refine ⟨_, exec_of_body (by decide) herr (legality_rxDetect hmode hgeov hs hw) ht,
    (congrArg BitVec.toNat hwidx).trans (succ_toNat_of_lt hw),
    fun i hi => ⟨_, placed_rxDetectBody ht hstr hi, State.decisions_length _ _ _,
      fun j hj => State.decisions_getElem?_iff hj⟩,
    fun i hi => State.streamRegs_eq_iff.mp (hother i hi),
    fun st a ha => State.Appends.sbRead_eq (s := s.setDone false)
      (bodyOf_appends (i := .rxDetect) rfl (by decide) ht) hother ha,
    fun a => bodyOf_pcmRead (i := .rxDetect) rfl ht a, ?_⟩
  rw [State.setDone_widx, hwidx]
  exact congrArg (State.setDone · true) hframe

/-! ### A threshold of 0 dB or more (R173) -/

/-- No magnitude above 0 is more than 0 dB above one that is at least as great. -/
theorem not_refDBGT_of_le {m M T : ℝ} (hle : m ≤ M) (hT : 0 ≤ T) : ¬ Num.refDBGT m M T := by
  rintro ⟨hM, hm, hgt⟩
  have hquotient : m / M ≤ 1 := (div_le_one hM).mpr hle
  have hdb : Real.logb 10 (m / M) ≤ 0 :=
    Real.logb_nonpos (by norm_num) (div_nonneg hm.le hM.le) hquotient
  linarith

/-- Settles O34: no magnitude is above the global maximum. -/
theorem nonNegativeThresholdDecodesZero : Obligations.NonNegativeThresholdDecodesZero := by
  intro s t hinv hfits hnum herr hmode hgeov hs hw hthr ht i hi
  obtain ⟨t', ht', -, hplaced, -⟩ := rxDetectDecides s hinv hfits herr hmode hgeov hs hw
  cases ht.symm.trans ht'
  obtain ⟨bits, happ, hlen, hbits⟩ := hplaced i hi
  have hzero : ∀ v ∈ bits, v = false := by
    intro v hv
    obtain ⟨j, hj, rfl⟩ := List.mem_iff_getElem.mp hv
    have hj' : j < s.bpb.toNat := hlen ▸ hj
    rw [← Bool.not_eq_true]
    intro htrue
    have hgt := (hbits j hj').mp (by rw [List.getElem?_eq_getElem hj, htrue])
    rw [hnum] at hgt
    obtain ⟨-, hbin⟩ := (hinv.geometry hgeov).nativeBin_range hi hj'
    obtain ⟨-, hmax, -⟩ := globalMaximum s hinv hmode hgeov hs
    exact not_refDBGT_of_le (hmax _ (BitVec.lt_def.mp hw) (s.nativeBin i j) (by omega)) hthr hgt
  rw [happ, ← hlen, ← List.eq_replicate_of_mem hzero]

/-! ### `RX.FINISH` (R174) -/

section

variable {s t : State}

theorem legality_rxFinish (hmode : s.status.mode = .rx) (hgeov : s.status.geov = true)
    (hs : s.sidx = s.wc) (hw : s.widx = s.wc) : legality .rxFinish s = none :=
  legality_eq_none rfl hmode (fun _ => hgeov)
    (Bool.and_eq_true_iff.mpr ⟨decide_eq_true hs, decide_eq_true hw⟩)

theorem State.bands_lt_bankSize (hstr : s.nstr ≤ s.cfg.maxStreams) :
    ∀ i ∈ List.range s.nstr, i < bankSize := fun _ hi =>
  lt_bankSize s.cfg ((List.mem_range.mp hi).trans_le hstr)

/-- Nothing raises inside `RX.FINISH`: the start of the run has checked the room (R161). -/
theorem State.RxFits.rxFinishBody_completes (h : s.RxFits) (hstr : s.nstr ≤ s.cfg.maxStreams)
    (hw : s.widx = s.wc) : ∃ t, Machine.rxFinishBody s = .ok t := by
  obtain ⟨t, ht⟩ := State.flushStreams_completes (List.range s.nstr) s (State.bands_lt_bankSize hstr)
    List.nodup_range fun i hi => h.hasRoom (List.mem_range.mp hi) (by rw [hw]; exact le_rfl)
  exact ⟨_, by rw [Machine.rxFinishBody, ht]; rfl⟩

theorem placed_rxFinishBody (hd : rxFinishBody s = .ok t) (hstr : s.nstr ≤ s.cfg.maxStreams) {i : ℕ}
    (hi : i < s.nstr) : t.placed i =
      s.placed i ++ List.replicate ((8 - (s.accOf i).cnt.toNat) % 8) false := by
  obtain ⟨u, hu, rfl⟩ := rxFinishBody_cases hd
  have hplaced := State.placed_flushStreams hu (State.bands_lt_bankSize hstr) List.nodup_range i
  rw [if_pos (List.mem_range.mpr hi)] at hplaced
  exact hplaced

theorem streamRegs_rxFinishBody (hd : rxFinishBody s = .ok t) (hstr : s.nstr ≤ s.cfg.maxStreams)
    (i : ℕ) : t.streamRegs i =
      if i < s.nstr ∧ (s.accOf i).cnt ≠ 0 then (s.slenOf i + 1, Acc.clear) else s.streamRegs i := by
  obtain ⟨u, hu, rfl⟩ := rxFinishBody_cases hd
  have hregs := State.streamRegs_flushStreams hu (State.bands_lt_bankSize hstr) List.nodup_range i
  simp only [List.mem_range] at hregs
  exact hregs

theorem streamRegs_rxFinishBody_of_le (hd : rxFinishBody s = .ok t)
    (hstr : s.nstr ≤ s.cfg.maxStreams) {i : ℕ} (hi : s.nstr ≤ i) :
    t.streamRegs i = s.streamRegs i := by
  rw [streamRegs_rxFinishBody hd hstr, if_neg fun h => hi.not_gt h.1]

/-- Every stream below N ends with an empty accumulator (R174). -/
theorem accOf_rxFinishBody (hd : rxFinishBody s = .ok t) (hstr : s.nstr ≤ s.cfg.maxStreams)
    (hacc : s.AccInv) {i : ℕ} (hi : i < s.nstr) : t.accOf i = Acc.clear := by
  have hregs := congrArg Prod.snd (streamRegs_rxFinishBody hd hstr i)
  by_cases hcnt : (s.accOf i).cnt = 0
  · rw [if_neg fun h => h.2 hcnt] at hregs
    exact hregs.trans (hacc.accOf_eq_clear (hi.trans_le hstr) hcnt)
  · rw [if_pos ⟨hi, hcnt⟩] at hregs
    exact hregs

/-- The one byte appended to a stream is the one in progress. -/
theorem sbRead_rxFinishBody (hd : rxFinishBody s = .ok t) (hstr : s.nstr ≤ s.cfg.maxStreams)
    {st a : ℕ} (ha : ¬ (st < s.nstr ∧ (s.accOf st).cnt ≠ 0 ∧ a = s.slenOf st)) :
    t.sbRead st a = s.sbRead st a := by
  refine (bodyOf_appends (i := .rxFinish) rfl (by decide) hd).bytes st a fun happ => ?_
  have hregs := streamRegs_rxFinishBody hd hstr st
  by_cases h : st < s.nstr ∧ (s.accOf st).cnt ≠ 0
  · have hslen : t.slenOf st = s.slenOf st + 1 := congrArg Prod.fst (hregs.trans (if_pos h))
    exact ha ⟨h.1, h.2, by omega⟩
  · have hslen : t.slenOf st = s.slenOf st := congrArg Prod.fst (hregs.trans (if_neg h))
    omega

theorem rxsil_rxFinishBody (hd : rxFinishBody s = .ok t) :
    t.status.rxsil = true ↔ s.maxMagnitude = 0 := by
  obtain ⟨u, -, rfl⟩ := rxFinishBody_cases hd
  change (Num.sign s.mmax != 1) = true ↔ _
  rw [bne_iff_ne, ne_eq, Num.sign_eq_one, not_lt, State.maxMagnitude, Real.sqrt_eq_zero']

end

/-- Settles O35: a byte in progress is filled up and counted, and the room for it was checked when the run
began. -/
theorem rxFinishFlushes : Obligations.RxFinishFlushes := by
  intro s hinv hfits herr hmode hgeov hs hw
  obtain ⟨-, hstr, -⟩ := (hinv.geometry hgeov).facts
  have hrx : s.RxFits := (runFits_iff.mp hfits).2 hmode hgeov
  have hrx0 : (s.setDone false).RxFits := ⟨hrx.windows, hrx.bytes, hrx.placed⟩
  obtain ⟨t, ht⟩ := hrx0.rxFinishBody_completes hstr hw
  exact ⟨_, exec_of_body (by decide) herr (legality_rxFinish hmode hgeov hs hw) ht,
    fun i hi => ⟨accOf_rxFinishBody ht hstr hinv.acc hi, placed_rxFinishBody ht hstr hi⟩,
    fun i hi => State.streamRegs_eq_iff.mp (streamRegs_rxFinishBody_of_le ht hstr hi),
    fun st a ha => sbRead_rxFinishBody ht hstr ha,
    fun a => bodyOf_pcmRead (i := .rxFinish) rfl ht a, (rxsil_rxFinishBody ht :),
    congrArg (State.setDone · true) (bodyOf_frame (i := .rxFinish) ht)⟩

end Sys2Proof.Machine
end

section
/-! PROOFS. 42_rx_spectro_detect.md, the whole receive run: `RX.DECODE` as one step and as its commands
(R177), and what it leaves in the streams (R176, R208). -/

namespace Sys2Proof.Machine

/-! ### The commands of a receive run, many times over -/

section

variable {s t u : State}

theorem toNat_add_ofNat {x y : Word} {n : ℕ} (h : x.toNat + n ≤ y.toNat) :
    (x + BitVec.ofNat 32 n).toNat = x.toNat + n := by
  have hy := y.isLt
  rw [BitVec.toNat_add, BitVec.toNat_ofNat]
  omega

theorem State.RxInv.takeSpectra (h : s.RxInv) (n : ℕ) (hn : s.sidx.toNat + n ≤ s.wc.toNat) :
    (s.takeSpectra n).RxInv := by
  induction n with
  | zero => exact h
  | succ n ih =>
      refine (ih (by omega)).takeSpectrum (BitVec.lt_def.mpr ?_)
      rw [State.takeSpectra_sidx, State.takeSpectra_wc, toNat_add_ofNat (y := s.wc) (by omega)]
      omega

theorem State.RxFits.takeSpectra (h : s.RxFits) (n : ℕ) : (s.takeSpectra n).RxFits := by
  induction n with
  | zero => exact h
  | succ n ih => exact ih.takeSpectrum

theorem detectWindows_succ_cases {n : ℕ} (h : detectWindows s (n + 1) = .ok t) :
    ∃ u, detectWindows s n = .ok u ∧ rxDetectBody u = .ok t := by
  simp only [detectWindows, bind, Except.bind] at h
  split at h
  · cases h
  · exact ⟨_, ‹_›, h⟩

theorem detectWindows_succ_ok {n : ℕ} (hu : detectWindows s n = .ok u) (ht : rxDetectBody u = .ok t) :
    detectWindows s (n + 1) = .ok t := by
  simp only [detectWindows, bind, Except.bind, hu, ht]

/-- The windows still to decide after n of them. -/
theorem detectWindows_widx_lt {n : ℕ} (h : detectWindows s n = .ok t)
    (hn : s.widx.toNat + (n + 1) ≤ s.wc.toNat) : t.widx < t.wc := by
  have hwidx : (s.widx + BitVec.ofNat 32 n).toNat = s.widx.toNat + n :=
    toNat_add_ofNat (y := s.wc) (by omega)
  have hlt : (s.widx + BitVec.ofNat 32 n).toNat < s.wc.toNat := by omega
  rw [detectWindows_frame h]
  exact BitVec.lt_def.mpr hlt

theorem detectWindows_streams {n : ℕ} (h : detectWindows s n = .ok t)
    (hstr : s.nstr ≤ s.cfg.maxStreams) : t.nstr ≤ t.cfg.maxStreams := by
  rw [detectWindows_frame h]
  exact hstr

theorem State.RxFits.detectWindows (h : s.RxFits) (hstr : s.nstr ≤ s.cfg.maxStreams) {n : ℕ}
    (hn : s.widx.toNat + n ≤ s.wc.toNat) (hd : detectWindows s n = .ok t) : t.RxFits := by
  induction n generalizing t with
  | zero => cases hd; exact h
  | succ n ih =>
      obtain ⟨u, hu, ht⟩ := detectWindows_succ_cases hd
      exact (ih (by omega) hu).rxDetectBody (detectWindows_streams hu hstr)
        (detectWindows_widx_lt hu hn) ht

theorem State.RxFits.detectWindows_completes (h : s.RxFits) (hstr : s.nstr ≤ s.cfg.maxStreams) {n : ℕ}
    (hn : s.widx.toNat + n ≤ s.wc.toNat) : ∃ t, Machine.detectWindows s n = .ok t := by
  induction n with
  | zero => exact ⟨s, rfl⟩
  | succ n ih =>
      obtain ⟨u, hu⟩ := ih (by omega)
      obtain ⟨t, ht⟩ := (h.detectWindows hstr (by omega) hu).rxDetectBody_completes
        (detectWindows_streams hu hstr) (detectWindows_widx_lt hu hn)
      exact ⟨t, detectWindows_succ_ok hu ht⟩

theorem appends_detectWindows {n : ℕ} (h : detectWindows s n = .ok t) : s.Appends t := by
  induction n generalizing t with
  | zero => cases h; exact State.Appends.refl s
  | succ n ih =>
      obtain ⟨u, hu, ht⟩ := detectWindows_succ_cases h
      exact (ih hu).trans (bodyOf_appends (i := .rxDetect) rfl (by decide) ht)

theorem streamRegs_detectWindows {n : ℕ} (h : detectWindows s n = .ok t)
    (hstr : s.nstr ≤ s.cfg.maxStreams) {i : ℕ} (hi : s.nstr ≤ i) :
    t.streamRegs i = s.streamRegs i := by
  induction n generalizing t with
  | zero => cases h; rfl
  | succ n ih =>
      obtain ⟨u, hu, ht⟩ := detectWindows_succ_cases h
      have hnstr : u.nstr = s.nstr := by rw [detectWindows_frame hu]; rfl
      rw [streamRegs_rxDetectBody ht (detectWindows_streams hu hstr) (hnstr ▸ hi), ih hu]

/-- The bits n windows give stream i, from window p on (R169, R176). -/
def State.decodedBits (s : State) (p n i : ℕ) : List Bool :=
  (List.range (n * s.bpb.toNat)).map fun b =>
    s.decision (p + b / s.bpb.toNat) i (b % s.bpb.toNat)

@[simp] theorem State.decodedBits_length (s : State) (p n i : ℕ) :
    (s.decodedBits p n i).length = n * s.bpb.toNat := by simp [State.decodedBits]

theorem State.decodedBits_succ (hbpb : 0 < s.bpb.toNat) (p n i : ℕ) :
    s.decodedBits p (n + 1) i = s.decodedBits p n i ++ s.decisions (p + n) i := by
  rw [State.decodedBits, add_one_mul, List.range_add, List.map_append, List.map_map]
  refine congrArg _ (List.map_congr_left fun j hj => ?_)
  have hj : j < s.bpb.toNat := List.mem_range.mp hj
  simp [mul_comm n, Nat.mul_add_div hbpb, Nat.div_eq_of_lt hj, Nat.mod_eq_of_lt hj]

/-- What the detector decides does not change while it appends bits. -/
theorem State.decisions_detectWindows {n : ℕ} (h : detectWindows s n = .ok t) (p i : ℕ) :
    t.decisions p i = s.decisions p i := by
  rw [detectWindows_frame h]
  rfl

theorem placed_detectWindows {n : ℕ} (h : detectWindows s n = .ok t)
    (hstr : s.nstr ≤ s.cfg.maxStreams) (hbpb : 0 < s.bpb.toNat)
    (hn : s.widx.toNat + n ≤ s.wc.toNat) {i : ℕ} (hi : i < s.nstr) :
    t.placed i = s.placed i ++ s.decodedBits s.widx.toNat n i := by
  induction n generalizing t with
  | zero => cases h; simp [State.decodedBits]
  | succ n ih =>
      obtain ⟨u, hu, ht⟩ := detectWindows_succ_cases h
      have hnstr : u.nstr = s.nstr := by rw [detectWindows_frame hu]; rfl
      have hwidx : u.widx.toNat = s.widx.toNat + n := by
        rw [detectWindows_frame hu]
        exact toNat_add_ofNat (y := s.wc) (by omega)
      rw [placed_rxDetectBody ht (detectWindows_streams hu hstr) (hnstr ▸ hi), hwidx,
        State.decisions_detectWindows hu, ih hu (by omega), List.append_assoc,
        State.decodedBits_succ hbpb]

end

/-! ### `RX.DECODE` as one step (R177) -/

section

variable {s t v : State}

theorem legality_rxDecode (hmode : s.status.mode = .idle) (hgeov : s.status.geov = true) :
    legality .rxDecode s = none :=
  legality_eq_none rfl hmode (fun _ => hgeov) rfl

/-- The state of a receive run when every spectrum is taken and no window decided. -/
def State.rxMeasured (s : State) : State := s.rxStarted.takeSpectra s.rxStarted.wc.toNat

theorem State.rxMeasured_frame (s : State) : s.rxMeasured = { s.rxStarted with
    mag := s.rxMeasured.mag, mmax := s.rxMeasured.mmax, sidx := s.rxStarted.wc } := by
  have hsidx : s.rxMeasured.sidx = s.rxStarted.wc := by
    rw [State.rxMeasured, State.takeSpectra_sidx, BitVec.ofNat_toNat, BitVec.setWidth_eq]
    exact BitVec.zero_add _
  rw [← hsidx]
  exact State.takeSpectra_frame _ _

theorem State.rxMeasured_rxInv (s : State) : s.rxMeasured.RxInv :=
  (rxInv_rxStarted s).takeSpectra _ (Nat.zero_add _).le

theorem State.rxMeasured_sidx (s : State) : s.rxMeasured.sidx = s.rxMeasured.wc := by
  rw [s.rxMeasured_frame]

theorem State.rxMeasured_streamRegs (s : State) (i : ℕ) :
    s.rxMeasured.streamRegs i = s.rxStarted.streamRegs i := by
  rw [s.rxMeasured_frame]
  rfl

theorem State.rxMeasured_placed {i : ℕ} (hi : i < s.nstr) : s.rxMeasured.placed i = [] := by
  obtain ⟨hslen, hacc⟩ := State.streamRegs_eq_iff.mp (s.rxMeasured_streamRegs i)
  have hlen : (s.rxMeasured.placed i).length = 0 := by
    rw [State.placed_length, hslen, hacc, State.slenOf_rxStarted, State.accOf_rxStarted, if_pos hi,
      if_pos hi]
    rfl
  exact List.length_eq_zero_iff.mp hlen

/-- What a completed `RX.DECODE` has gone through. -/
theorem rxDecodeBody_run (h : bodyOf .rxDecode s = .ok t) :
    (s.pcmlen.toNat ≤ s.cfg.pcmCap ∧ cdiv (s.receivedWindows * s.bpb.toNat) 8 ≤ s.cfg.strmCap) ∧
      ∃ v, detectWindows s.rxMeasured s.rxStarted.wc.toNat = .ok v ∧ rxFinishBody v = .ok t := by
  obtain ⟨u, v, hu, hv, ht⟩ := rxDecodeBody_cases h
  obtain ⟨hpcm, hroom, rfl⟩ := rxStartBody_cases hu
  exact ⟨⟨hpcm, hroom⟩, v, hv, ht⟩

theorem rxDecodeBody_ok (hu : rxStartBody s = .ok s.rxStarted)
    (hv : detectWindows s.rxMeasured s.rxStarted.wc.toNat = .ok v) (ht : rxFinishBody v = .ok t) :
    bodyOf .rxDecode s = .ok t := by
  rw [State.rxMeasured] at hv
  simp only [bodyOf, bind, Except.bind, hu, hv, ht]

theorem rxDecodeBody_error {e : ErrCode} (h : rxStartBody s = .error e) :
    bodyOf .rxDecode s = .error e := by
  simp only [bodyOf, h, bind, Except.bind]

/-- The state of a receive run when every window is decided. -/
theorem detected_frame (hv : detectWindows s.rxMeasured s.rxStarted.wc.toNat = .ok v) :
    v = { s.rxMeasured with sb := v.sb, slen := v.slen, acc := v.acc, widx := s.rxStarted.wc } := by
  have hwidx : s.rxMeasured.widx + BitVec.ofNat 32 s.rxStarted.wc.toNat = s.rxStarted.wc := by
    rw [s.rxMeasured_frame, BitVec.ofNat_toNat, BitVec.setWidth_eq]
    exact BitVec.zero_add _
  have hframe := detectWindows_frame hv
  rwa [hwidx] at hframe

theorem State.rxMeasured_windows (s : State) :
    s.rxMeasured.widx.toNat + s.rxStarted.wc.toNat ≤ s.rxMeasured.wc.toNat := by
  rw [s.rxMeasured_frame]
  exact (Nat.zero_add _).le

/-- The streams below N are as many in the run as before it, and all exist. -/
theorem State.Resolved.run_streams (h : s.Resolved)
    (hv : detectWindows s.rxMeasured s.rxStarted.wc.toNat = .ok v) :
    s.rxMeasured.nstr ≤ s.rxMeasured.cfg.maxStreams ∧ v.nstr ≤ v.cfg.maxStreams := by
  obtain ⟨-, hstr, -⟩ := h.facts
  have hm : s.rxMeasured.nstr ≤ s.rxMeasured.cfg.maxStreams := by
    rw [s.rxMeasured_frame]
    exact hstr
  exact ⟨hm, detectWindows_streams hv hm⟩

/-- Once the checks of `RX.START` have passed, nothing raises (R177). -/
theorem State.Resolved.rxRun_completes (h : s.Resolved)
    (hroom : cdiv (s.receivedWindows * s.bpb.toNat) 8 ≤ s.cfg.strmCap) :
    ∃ v t, detectWindows s.rxMeasured s.rxStarted.wc.toNat = .ok v ∧ rxFinishBody v = .ok t := by
  obtain ⟨-, hstr, -, hnfft, hle, -⟩ := h.facts
  have hfits : s.rxMeasured.RxFits := (rxFits_rxStarted (hnfft.trans_le hle) hroom).takeSpectra _
  have hm : s.rxMeasured.nstr ≤ s.rxMeasured.cfg.maxStreams := by
    rw [s.rxMeasured_frame]
    exact hstr
  obtain ⟨v, hv⟩ := hfits.detectWindows_completes hm s.rxMeasured_windows
  have hwidx : v.widx = v.wc := by
    rw [detected_frame hv, s.rxMeasured_frame]
  obtain ⟨t, ht⟩ := (hfits.detectWindows hm s.rxMeasured_windows hv).rxFinishBody_completes
    (detectWindows_streams hv hm) hwidx
  exact ⟨v, t, hv, ht⟩

/-- The window count is the one `RX.START` wrote. -/
theorem wc_rxDecodeBody (hd : bodyOf .rxDecode s = .ok t) : t.wc = s.rxStarted.wc := by
  obtain ⟨-, v, hv, ht⟩ := rxDecodeBody_run hd
  rw [rxFinishBody_frame ht, detected_frame hv, s.rxMeasured_frame]

/-- `RX.DECODE` leaves the streams from N on as they were. -/
theorem streamRegs_rxDecodeBody_of_le (h : s.Resolved) (hd : bodyOf .rxDecode s = .ok t) {i : ℕ}
    (hi : s.nstr ≤ i) : t.streamRegs i = s.streamRegs i := by
  obtain ⟨-, v, hv, ht⟩ := rxDecodeBody_run hd
  obtain ⟨hm, hvstr⟩ := h.run_streams hv
  have hnstr : v.nstr = s.nstr ∧ s.rxMeasured.nstr = s.nstr := by
    rw [detected_frame hv, s.rxMeasured_frame]
    exact ⟨rfl, rfl⟩
  rw [streamRegs_rxFinishBody_of_le ht hvstr (hnstr.1 ▸ hi),
    streamRegs_detectWindows hv hm (hnstr.2 ▸ hi), s.rxMeasured_streamRegs, State.streamRegs,
    State.slenOf_rxStarted, State.accOf_rxStarted, if_neg hi.not_gt, if_neg hi.not_gt]

/-- `RX.DECODE` writes only the bytes the streams below N end with. -/
theorem sbRead_rxDecodeBody (h : s.Resolved) (hd : bodyOf .rxDecode s = .ok t) {st a : ℕ}
    (ha : ¬ (st < s.nstr ∧ a < t.slenOf st)) : t.sbRead st a = s.sbRead st a := by
  obtain ⟨-, v, hv, ht⟩ := rxDecodeBody_run hd
  have happ : s.rxMeasured.Appends t :=
    (appends_detectWindows hv).trans (bodyOf_appends (i := .rxFinish) rfl (by decide) ht)
  have hread : s.rxMeasured.sbRead st a = s.sbRead st a := by
    rw [s.rxMeasured_frame]
    rfl
  rw [← hread]
  refine happ.bytes st a fun hbetween => ?_
  by_cases hst : st < s.nstr
  · exact ha ⟨hst, hbetween.2⟩
  · obtain ⟨hslen, -⟩ :=
      State.streamRegs_eq_iff.mp (streamRegs_rxDecodeBody_of_le h hd (not_lt.mp hst))
    obtain ⟨hslen', -⟩ := State.streamRegs_eq_iff.mp (s.rxMeasured_streamRegs st)
    rw [State.slenOf_rxStarted, if_neg hst] at hslen'
    omega

end

/-! ### The run of single commands (R177) -/

section

variable (s : State) (v : Bool)

theorem State.takeSpectra_setDone (n : ℕ) :
    (s.setDone v).takeSpectra n = (s.takeSpectra n).setDone v := by
  induction n with
  | zero => rfl
  | succ n ih =>
      rw [State.takeSpectra_succ, ih, State.takeSpectra_succ]
      rfl

/-- The serializer neither reads nor writes `DONE` (R202). -/
theorem State.emitByte_setDone (st : ℕ) (b : Byte) :
    (s.setDone v).emitByte st b = (s.emitByte st b).map (State.setDone · v) := by
  rw [State.emitByte_eq, State.emitByte_eq, apply_ite (Except.map _)]
  rfl

theorem State.putBit_setDone (st : ℕ) (b : Bool) :
    (s.setDone v).putBit st b = (s.putBit st b).map (State.setDone · v) := by
  simp only [State.putBit, State.accOf_setDone, State.emitByte_setDone]
  rw [apply_ite (Except.map _)]
  rfl

theorem State.flushBits_setDone (st : ℕ) :
    (s.setDone v).flushBits st = (s.flushBits st).map (State.setDone · v) := by
  simp only [State.flushBits, State.accOf_setDone, State.emitByte_setDone]
  rw [apply_ite (Except.map _)]
  rfl

theorem State.decideCells_setDone (p : ℕ) (cs : List (ℕ × ℕ)) :
    State.decideCells p cs (s.setDone v) = (State.decideCells p cs s).map (State.setDone · v) := by
  induction cs generalizing s with
  | nil => rfl
  | cons c cs ih =>
      have hdecision : (s.setDone v).decision p c.1 c.2 = s.decision p c.1 c.2 := rfl
      simp only [State.decideCells, hdecision, State.putBit_setDone]
      cases s.putBit c.1 (s.decision p c.1 c.2) with
      | error e => rfl
      | ok s1 => exact ih s1

theorem State.flushStreams_setDone (is : List ℕ) :
    State.flushStreams is (s.setDone v) = (State.flushStreams is s).map (State.setDone · v) := by
  induction is generalizing s with
  | nil => rfl
  | cons i is ih =>
      simp only [State.flushStreams, State.flushBits_setDone]
      cases s.flushBits i with
      | error e => rfl
      | ok s1 => exact ih s1

theorem rxDetectBody_setDone :
    rxDetectBody (s.setDone v) = (rxDetectBody s).map (State.setDone · v) := by
  have hcells : (s.setDone v).cells = s.cells := rfl
  simp only [rxDetectBody, hcells, State.setDone_widx, State.decideCells_setDone]
  cases State.decideCells s.widx.toNat s.cells s <;> rfl

theorem rxFinishBody_setDone :
    rxFinishBody (s.setDone v) = (rxFinishBody s).map (State.setDone · v) := by
  simp only [rxFinishBody, State.nstr_setDone, State.flushStreams_setDone]
  cases State.flushStreams (List.range s.nstr) s <;> rfl

theorem detectWindows_setDone (n : ℕ) :
    detectWindows (s.setDone v) n = (detectWindows s n).map (State.setDone · v) := by
  induction n with
  | zero => rfl
  | succ n ih =>
      simp only [detectWindows, ih]
      cases detectWindows s n with
      | error e => rfl
      | ok u => exact rxDetectBody_setDone u v

end

theorem execAll_append {is js : List Instr} {s t : State} (h : execAll is s = .next t) :
    execAll (is ++ js) s = execAll js t := by
  induction is generalizing s with
  | nil => cases h; rfl
  | cons i is ih =>
      simp only [List.cons_append, execAll] at h ⊢
      cases he : exec i s with
      | next u => exact ih (by simpa only [he] using h)
      | fault r => simp [he] at h
      | refused r => simp [he] at h

theorem execAll_singleton {i : Instr} {s t : State} (h : exec i s = .next t) :
    execAll [i] s = .next t := by
  simp only [execAll, h]

section

variable {s t : State}

/-- A state in which a receive run can go on, its last command done. -/
structure State.Receiving (s : State) : Prop where
  err : s.status.err = false
  mode : s.status.mode = .rx
  geov : s.status.geov = true
  done : s.status.done = true

theorem State.Receiving.congr (h : s.Receiving) (ht : t.status = s.status) : t.Receiving :=
  ⟨ht ▸ h.err, ht ▸ h.mode, ht ▸ h.geov, ht ▸ h.done⟩

theorem State.Receiving.exec_rxSpectrum (h : s.Receiving) (hs : s.sidx < s.wc) :
    exec .rxSpectrum s = .next s.takeSpectrum := by
  rw [exec_of_body (by decide) h.err (legality_rxSpectrum h.mode h.geov hs) rfl]
  exact congrArg _ (State.setDone_setDone_of_done (s := s.takeSpectrum) h.done)

theorem State.Receiving.exec_rxDetect (h : s.Receiving) (hs : s.sidx = s.wc) (hw : s.widx < s.wc)
    (hd : rxDetectBody s = .ok t) : exec .rxDetect s = .next t := by
  have hbody : rxDetectBody (s.setDone false) = .ok (t.setDone false) := by
    rw [rxDetectBody_setDone, hd]
    rfl
  have hdone : t.status.done = true := by
    rw [rxDetectBody_frame hd]
    exact h.done
  rw [exec_of_body (by decide) h.err (legality_rxDetect h.mode h.geov hs hw) hbody,
    State.setDone_setDone_of_done hdone]

/-- `RX.SPECTRUM` n times over, within the window count. -/
theorem State.Receiving.execAll_rxSpectra (h : s.Receiving) (n : ℕ)
    (hn : s.sidx.toNat + n ≤ s.wc.toNat) :
    execAll (List.replicate n .rxSpectrum) s = .next (s.takeSpectra n) := by
  induction n with
  | zero => rfl
  | succ n ih =>
      have hlt : (s.takeSpectra n).sidx < (s.takeSpectra n).wc := by
        rw [State.takeSpectra_sidx, State.takeSpectra_wc, BitVec.lt_def,
          toNat_add_ofNat (y := s.wc) (by omega)]
        omega
      rw [List.replicate_succ', execAll_append (ih (by omega))]
      exact execAll_singleton
        ((h.congr (s.takeSpectra_status n)).exec_rxSpectrum hlt)

/-- `RX.DETECT` n times over, within the window count. -/
theorem State.Receiving.execAll_rxDetects (h : s.Receiving) (hs : s.sidx = s.wc) {n : ℕ}
    (hn : s.widx.toNat + n ≤ s.wc.toNat) (hd : detectWindows s n = .ok t) :
    execAll (List.replicate n .rxDetect) s = .next t := by
  induction n generalizing t with
  | zero => cases hd; rfl
  | succ n ih =>
      obtain ⟨u, hu, ht⟩ := detectWindows_succ_cases hd
      have hframe := detectWindows_frame hu
      have hstatus : u.status = s.status := by rw [hframe]
      have hsidx : u.sidx = u.wc := by rw [hframe]; exact hs
      rw [List.replicate_succ', execAll_append (ih (by omega) hu)]
      exact execAll_singleton
        ((h.congr hstatus).exec_rxDetect hsidx (detectWindows_widx_lt hu hn) ht)

/-- The commands after `RX.START`, to the end of the run. -/
theorem execAll_rxRun {v : State} (herr : s.status.err = false) (hgeov : s.status.geov = true)
    (hv : detectWindows s.rxMeasured s.rxStarted.wc.toNat = .ok v) (ht : rxFinishBody v = .ok t) :
    execAll (List.replicate s.rxStarted.wc.toNat .rxSpectrum ++
        List.replicate s.rxStarted.wc.toNat .rxDetect ++ [.rxFinish]) (s.rxStarted.setDone true) =
      .next (t.setDone true) := by
  have hrun : (s.rxStarted.setDone true).Receiving := ⟨herr, rfl, hgeov, rfl⟩
  have hspectra := hrun.execAll_rxSpectra _ (Nat.zero_add s.rxStarted.wc.toNat).le
  rw [State.takeSpectra_setDone, ← State.rxMeasured] at hspectra
  have hrun' : (s.rxMeasured.setDone true).Receiving := by
    rw [s.rxMeasured_frame]
    exact ⟨herr, rfl, hgeov, rfl⟩
  have hdetect : detectWindows (s.rxMeasured.setDone true) s.rxStarted.wc.toNat =
      .ok (v.setDone true) := by
    rw [detectWindows_setDone, hv]
    rfl
  have hdetects := hrun'.execAll_rxDetects s.rxMeasured_sidx s.rxMeasured_windows hdetect
  have hlast : (v.setDone true).Receiving ∧ v.sidx = v.wc ∧ v.widx = v.wc := by
    rw [detected_frame hv, s.rxMeasured_frame]
    exact ⟨⟨herr, rfl, hgeov, rfl⟩, rfl, rfl⟩
  obtain ⟨hready, hsidx, hwidx⟩ := hlast
  have hfinish : rxFinishBody ((v.setDone true).setDone false) = .ok (t.setDone false) := by
    rw [show (v.setDone true).setDone false = v.setDone false from rfl, rxFinishBody_setDone, ht]
    rfl
  rw [List.append_assoc, execAll_append hspectra, execAll_append hdetects]
  exact execAll_singleton (exec_of_body (i := .rxFinish) (t := t.setDone false) (by decide)
    hready.err (legality_rxFinish hready.mode hready.geov hsidx hwidx) hfinish)

end

/-- Settles O36: both ways go through the same states, and the room checked by `RX.START` is enough for the
bits of every window. -/
theorem rxDecodeIsTheRun : Obligations.RxDecodeIsTheRun := by
  intro s hinv herr hmode hgeov
  have hstart := legality_rxStart hmode hgeov
  have hdecode := legality_rxDecode hmode hgeov
  have hres : (s.setDone false).Resolved := (hinv.geometry hgeov).congr rfl
  obtain ⟨-, -, -, hnfft, hle, -⟩ := hres.facts
  refine ⟨fun hpcm hroom => ?_, fun h => ?_⟩
  · have hbody : rxStartBody (s.setDone false) = .ok (s.setDone false).rxStarted :=
      rxStartBody_ok hpcm hroom
    obtain ⟨v, t, hv, ht⟩ := hres.rxRun_completes hroom
    have hmacro := rxDecodeBody_ok hbody hv ht
    have hframe := bodyOf_frame hmacro
    have hcount : t.widx = t.wc ∧ t.sidx = t.wc :=
      ⟨congrArg State.widx hframe, congrArg State.sidx hframe⟩
    have hwc : t.wc.toNat = s.receivedWindows :=
      (congrArg BitVec.toNat (wc_rxDecodeBody hmacro)).trans
        (State.rxStarted_wc_toNat (s := s.setDone false) (hnfft.trans_le hle))
    refine ⟨_, t.setDone true, exec_of_body (by decide) herr hstart hbody,
      execAll_rxRun herr hgeov hv ht, exec_of_body (by decide) herr hdecode hmacro,
      bodyOf_mode hmacro, rfl, (congrArg (·.status.err) hframe).trans herr, hcount.1, hcount.2, hwc,
      fun i hi => State.streamRegs_eq_iff.mp (streamRegs_rxDecodeBody_of_le hres hmacro hi),
      fun st a ha => sbRead_rxDecodeBody hres hmacro ha,
      fun a => bodyOf_pcmRead (i := .rxDecode) rfl hmacro a, ?_⟩
    rw [State.setDone_widx, State.setDone_sidx, hcount.1, hcount.2]
    rw [BodyFrame, ← hmode] at hframe
    exact congrArg (State.setDone · true) hframe
  · exact ⟨raises_of_body (by decide) herr hstart (rxStartBody_error h),
      raises_of_body (by decide) herr hdecode (rxDecodeBody_error (rxStartBody_error h))⟩

end Sys2Proof.Machine
end

section
/-! PROOFS. 42_rx_spectro_detect.md, what a receive run decodes: the streams from the received samples alone
(R176, R208), whatever the scale of these (R175, by the contract of R166). -/

namespace Sys2Proof.Num

/-! ### Magnitudes enter a decision by their quotient (R170) -/

theorem refDBGT_scale {r m M T : ℝ} (hr : 0 < r) : refDBGT (r * m) (r * M) T ↔ refDBGT m M T := by
  rw [refDBGT, mul_pos_iff_of_pos_left hr, mul_pos_iff_of_pos_left hr, mul_div_mul_left _ _ hr.ne',
    refDBGT]

/-- A number whose square is a whole number of the unit of the numerics (log 15), as every magnitude is that
numerics other than the reference measure. -/
def WholeSquare : NumInstance → ℝ → Prop
  | .reference, _ => True
  | .other _, x => ∃ a : ℕ, x ^ 2 = a

theorem wholeSquare_MAG (i : NumInstance) (x : List ℤ) (m : ℕ) : WholeSquare i (MAG i x m) := by
  cases i with
  | reference => trivial
  | other id =>
      refine ⟨content x ^ 2 * Config.otherMagSq id (primitive x) m, ?_⟩
      rw [MAG, mul_pow, Real.sq_sqrt (Nat.cast_nonneg _)]
      push_cast
      rfl

theorem wholeSquare_zero (i : NumInstance) : WholeSquare i 0 := by
  cases i with
  | reference => trivial
  | other id => exact ⟨0, by norm_num⟩

/-- Two magnitudes scaled alike are decided alike, whatever the numerics. -/
theorem DBGT_scale (i : NumInstance) {r m M : ℝ} (hr : 0 < r) (hm : WholeSquare i m)
    (hM : WholeSquare i M) (hm' : WholeSquare i (r * m)) (hM' : WholeSquare i (r * M)) (thr : ℤ) :
    DBGT i (r * m) (r * M) thr ↔ DBGT i m M thr := by
  cases i with
  | reference => exact refDBGT_scale hr
  | other id =>
      obtain ⟨a, ha⟩ := hm
      obtain ⟨b, hb⟩ := hM
      obtain ⟨a', ha'⟩ := hm'
      obtain ⟨b', hb'⟩ := hM'
      have hcross : (a' * b : ℝ) = a * b' := by
        rw [← ha, ← hb, ← ha', ← hb']
        ring
      rw [DBGT, DBGT, mul_pos_iff_of_pos_left hr, mul_pos_iff_of_pos_left hr, ha, hb, ha', hb',
        Nat.floor_natCast, Nat.floor_natCast, Nat.floor_natCast, Nat.floor_natCast]
      refine and_congr_right fun _ => and_congr_right fun hpos => ?_
      have hapos : 0 < a := by exact_mod_cast ha ▸ pow_pos hpos 2
      have hapos' : 0 < a' := by exact_mod_cast ha' ▸ pow_pos (mul_pos hr hpos) 2
      rw [otherDbgt_congr id hapos' hapos (by exact_mod_cast hcross)]

/-- R166: the factor of every magnitude when the samples are multiplied by r, a negative r with the
reference numerics only. -/
theorem MAG_scale_abs {i : NumInstance} {x y : List ℤ} {r : ℝ} (hr : 0 < r ∨ r < 0 ∧ i = .reference)
    (hl : y.length = x.length) (h : ∀ t < x.length, (y.getD t 0 : ℝ) = r * (x.getD t 0 : ℝ)) (m : ℕ) :
    MAG i y m = |r| * MAG i x m := by
  obtain hpos | ⟨-, rfl⟩ := hr
  · rw [abs_of_pos hpos]
    exact MAG_scale i hpos hl h m
  · exact refMAG_scale r hl h m

end Sys2Proof.Num

namespace Sys2Proof

theorem greatestOf_map_mul {r : ℝ} (hr : 0 ≤ r) (xs : List ℝ) :
    greatestOf (xs.map (r * ·)) = r * greatestOf xs := by
  induction xs with
  | nil => exact (mul_zero r).symm
  | cons x xs ih =>
      change max (r * x) (greatestOf (xs.map (r * ·))) = r * max x (greatestOf xs)
      rw [ih, mul_max_of_nonneg _ _ hr]

end Sys2Proof

namespace Sys2Proof.Machine

/-! ### The streams after the run (R176, R208) -/

section

variable {s t : State}

/-- The bits placed in a stream without a byte in progress are those of its bytes. -/
theorem State.placed_of_accClear {i : ℕ} (h : s.accOf i = Acc.clear) :
    s.placed i = (List.range (8 * s.slenOf i)).map (s.streamBit i) := by
  rw [State.placed, h]
  exact List.append_nil _

theorem State.streamBit_eq_placed {i : ℕ} (h : s.accOf i = Acc.clear) (b : ℕ) :
    s.streamBit i b = (s.placed i).getD b false := by
  rw [State.placed_of_accClear h, List.getD_eq_getElem?_getD]
  by_cases hb : b < 8 * s.slenOf i
  · simp [hb]
  · simp [hb, State.streamBit]

/-- A command other than `SRST` that ends without an error, from a state without one, has run its body. -/
theorem completed_of_exec {i : Instr} (hi : i ≠ .srst) (herr : s.status.err = false)
    (he : exec i s = .next t) (ht : t.status.err = false) :
    legality i s = none ∧ ∃ u, bodyOf i (s.setDone false) = .ok u ∧ t = u.setDone true := by
  cases exec_effect he with
  | reset h => exact absurd h hi
  | refused h => exact absurd (herr.symm.trans h) (by decide)
  | raised e => cases ht
  | completed _ _ hl hu => exact ⟨hl, _, hu, rfl⟩

theorem State.AccInv.rxMeasured (h : s.AccInv) : s.rxMeasured.AccInv :=
  h.rxStarted.congr (by rw [s.rxMeasured_frame]; exact ⟨rfl, rfl⟩)

/-- What a run without an error leaves in stream i: the decisions in order, filled up to whole bytes. -/
theorem State.Resolved.placed_rxDecodeBody (h : s.Resolved) (hd : bodyOf .rxDecode s = .ok t) {i : ℕ}
    (hi : i < s.nstr) : ∃ k < 8, t.placed i =
      s.rxMeasured.decodedBits 0 s.rxStarted.wc.toNat i ++ List.replicate k false := by
  obtain ⟨-, -, hbpb, -⟩ := h.facts
  obtain ⟨-, v, hv, ht⟩ := rxDecodeBody_run hd
  obtain ⟨hm, hvstr⟩ := h.run_streams hv
  have hsame : s.rxMeasured.nstr = s.nstr ∧ s.rxMeasured.bpb = s.bpb ∧
      s.rxMeasured.widx.toNat = 0 := by
    rw [s.rxMeasured_frame]
    exact ⟨rfl, rfl, rfl⟩
  obtain ⟨hnstr, hsbpb, hwidx⟩ := hsame
  have hvnstr : v.nstr = s.nstr := by
    rw [detected_frame hv]
    exact hnstr
  have hplaced := placed_detectWindows hv hm (hsbpb ▸ hbpb) s.rxMeasured_windows (hnstr ▸ hi)
  rw [State.rxMeasured_placed hi, List.nil_append, hwidx] at hplaced
  exact ⟨_, Nat.mod_lt _ (by decide), by
    rw [placed_rxFinishBody ht hvstr (hvnstr ▸ hi), hplaced]⟩

theorem State.Resolved.accOf_rxDecodeBody (h : s.Resolved) (hacc : s.AccInv)
    (hd : bodyOf .rxDecode s = .ok t) {i : ℕ} (hi : i < s.nstr) : t.accOf i = Acc.clear := by
  obtain ⟨-, v, hv, ht⟩ := rxDecodeBody_run hd
  have hvnstr : v.nstr = s.nstr := by
    rw [detected_frame hv, s.rxMeasured_frame]
    rfl
  exact accOf_rxFinishBody ht (h.run_streams hv).2 (hacc.rxMeasured.detectWindows hv) (hvnstr ▸ hi)

/-- The stream of a run, bit by bit: the decisions, and 0 from their end on. -/
theorem State.Resolved.streamBit_rxDecodeBody (h : s.Resolved) (hacc : s.AccInv)
    (hd : bodyOf .rxDecode s = .ok t) {i : ℕ} (hi : i < s.nstr) (b : ℕ) :
    t.streamBit i b = (s.rxMeasured.decodedBits 0 s.rxStarted.wc.toNat i).getD b false := by
  obtain ⟨k, -, hplaced⟩ := h.placed_rxDecodeBody hd hi
  rw [State.streamBit_eq_placed (h.accOf_rxDecodeBody hacc hd hi), hplaced]
  by_cases hb : b < (s.rxMeasured.decodedBits 0 s.rxStarted.wc.toNat i).length
  · rw [List.getD_append _ _ _ _ hb]
  · rw [List.getD_append_right _ _ _ _ (not_lt.mp hb), List.getD_eq_default _ _ (not_lt.mp hb),
      List.getD_eq_getElem?_getD, List.getElem?_getD_replicate_default_eq]

theorem State.rxMeasured_bpb (s : State) : s.rxMeasured.bpb = s.bpb := by
  rw [s.rxMeasured_frame]
  rfl

/-- The decisions filled up to whole bytes, and no byte more. -/
theorem State.Resolved.slenOf_rxDecodeBody (h : s.Resolved) (hacc : s.AccInv)
    (hd : bodyOf .rxDecode s = .ok t) {i : ℕ} (hi : i < s.nstr) :
    t.slenOf i = cdiv (s.rxStarted.wc.toNat * s.bpb.toNat) 8 := by
  obtain ⟨k, hk, hplaced⟩ := h.placed_rxDecodeBody hd hi
  have hlen := congrArg List.length hplaced
  rw [State.placed_of_accClear (h.accOf_rxDecodeBody hacc hd hi), List.length_map,
    List.length_range, List.length_append, State.decodedBits_length, s.rxMeasured_bpb,
    List.length_replicate] at hlen
  rw [cdiv]
  omega

theorem State.decodedBits_getD {n b : ℕ} (hb : b < n * s.bpb.toNat) (i : ℕ) :
    (s.decodedBits 0 n i).getD b false = s.decision (b / s.bpb.toNat) i (b % s.bpb.toNat) := by
  rw [State.decodedBits, List.getD_eq_getElem?_getD, List.getElem?_map, List.getElem?_range hb,
    Option.map_some, Option.getD_some, Nat.zero_add]

theorem State.rxMeasured_slice (wc p : ℕ) :
    s.rxMeasured.receivedSlice wc p = s.receivedSlice wc p := by
  rw [s.rxMeasured_frame]
  rfl

theorem State.rxMeasured_maximum (wc : ℕ) :
    s.rxMeasured.receivedMaximum wc = s.receivedMaximum wc := by
  rw [s.rxMeasured_frame]
  rfl

/-- The decision for cell (p, i, j) of a run, from the received samples (R171). -/
theorem State.Resolved.decision_rxMeasured (h : s.Resolved) (hgeov : s.status.geov = true) {p i j : ℕ}
    (hp : p < s.rxStarted.wc.toNat) (hi : i < s.nstr) (hj : j < s.bpb.toNat) :
    s.rxMeasured.decision p i j = true ↔
      Num.DBGT s.cfg.num
        (Num.MAG s.cfg.num (s.receivedSlice s.rxStarted.wc.toNat p) (s.nbOf i + j * s.kdec))
        (s.receivedMaximum s.rxStarted.wc.toNat) s.thr := by
  have hbin : s.nativeBin i j < s.nfft := by
    obtain ⟨-, hhigh⟩ := h.nativeBin_range hi hj
    omega
  have hframe := s.rxMeasured_frame
  have hsame : (s.rxMeasured.cfg = s.cfg ∧ s.rxMeasured.nativeBin i j = s.nativeBin i j) ∧
      (s.rxMeasured.thr = s.thr ∧ s.rxMeasured.nfft = s.nfft) ∧
      s.rxMeasured.status.geov = s.status.geov ∧ s.rxMeasured.wc = s.rxStarted.wc := by
    rw [hframe]
    exact ⟨⟨rfl, rfl⟩, ⟨rfl, rfl⟩, rfl, rfl⟩
  obtain ⟨⟨hcfg, hnative⟩, ⟨hthr, hnfft⟩, hmgeov, hwc⟩ := hsame
  have hrx := s.rxMeasured_rxInv
  have hmgeov := hmgeov.trans hgeov
  have hsidx := s.rxMeasured_sidx
  rw [State.decision_iff, hnative, hthr,
    hrx.magnitude_eq hmgeov (by rw [hsidx, hwc]; exact hp) (hnfft ▸ hbin),
    hrx.maxMagnitude_eq hmgeov hsidx, hcfg, hwc, State.rxMeasured_slice, State.rxMeasured_maximum]
  rfl

end

/-- Settles O37: the bits placed are the decisions of the windows in order, and the zeros of the flush. -/
theorem decodedStreams : Obligations.DecodedStreams := by
  intro s t hinv herr hmode hgeov he hterr i hi
  obtain ⟨-, u, hu, rfl⟩ := completed_of_exec (by decide) herr he hterr
  have hres : (s.setDone false).Resolved := (hinv.geometry hgeov).congr rfl
  obtain ⟨-, -, hbpb, -⟩ := hres.facts
  have hmbpb : (s.setDone false).rxMeasured.bpb = s.bpb := (s.setDone false).rxMeasured_bpb
  have hbits := hres.streamBit_rxDecodeBody hinv.acc hu hi
  rw [State.setDone_wc, wc_rxDecodeBody hu]
  refine ⟨hres.slenOf_rxDecodeBody hinv.acc hu hi, hres.accOf_rxDecodeBody hinv.acc hu hi,
    fun b hb => ?_, fun b hb => ?_⟩
  · have hp : b / s.bpb.toNat < (s.setDone false).rxStarted.wc.toNat :=
      Nat.div_lt_of_lt_mul (by rwa [mul_comm])
    rw [State.streamBit_setDone, hbits, State.decodedBits_getD (hmbpb ▸ hb), hmbpb]
    exact hres.decision_rxMeasured hgeov hp hi (Nat.mod_lt b hbpb)
  · rw [State.streamBit_setDone, hbits]
    exact List.getD_eq_default _ _ (by rwa [State.decodedBits_length, hmbpb])

/-! ### The scale of the samples (R175) -/

section

variable {s s' t : State}

/-- What `RX.DECODE` needs to complete (R97, R161, R177). -/
def State.decodes (s : State) : Prop :=
  s.status.err = false ∧ s.status.mode = .idle ∧ s.status.geov = true ∧
    s.pcmlen.toNat ≤ s.cfg.pcmCap ∧ cdiv (s.receivedWindows * s.bpb.toNat) 8 ≤ s.cfg.strmCap

/-- Where `RX.DECODE` does not complete it leaves the streams. -/
theorem placed_rxDecode_of_not_decodes (hno : ¬ s.decodes) (he : exec .rxDecode s = .next t) (i : ℕ) :
    t.placed i = s.placed i := by
  cases exec_effect he with
  | reset h => exact absurd h (by decide)
  | refused => rfl
  | raised e => exact State.placed_congr rfl rfl fun _ _ => rfl
  | completed _ herr hl hu =>
      obtain ⟨hneeded, hgeov, -⟩ := of_legality_none hl
      exact absurd ⟨herr, hneeded _ rfl, hgeov rfl, (rxDecodeBody_run hu).1⟩ hno

/-- Where the sub-window of slice p of wc slices starts in its slice (R164, R165). -/
def State.sliceOffset (s : State) (wc p : ℕ) : ℕ :=
  if p + 1 = wc then 0 else (s.spf.toNat - s.nfft) / 2

/-- A slice, sample by sample, is a piece of the padded sequence (R162, R163). -/
theorem State.receivedSlice_getD (s : State) (wc p t : ℕ) :
    (s.receivedSlice wc p).getD t 0 =
      if t < s.nfft then s.xpad (p * s.spf.toNat + s.sliceOffset wc p + t) else 0 := by
  rw [State.receivedSlice, List.getD_eq_getElem?_getD, List.getElem?_map]
  by_cases ht : t < s.nfft
  · rw [List.getElem?_range ht, if_pos ht]
    rfl
  · rw [List.getElem?_eq_none (by simpa using ht), if_neg ht]
    rfl

@[simp] theorem State.receivedSlice_length (s : State) (wc p : ℕ) :
    (s.receivedSlice wc p).length = s.nfft := by simp [State.receivedSlice]

/-- The scale of the valid samples is the scale of every slice, padding included. -/
theorem State.receivedSlice_scale {r : ℝ} (hs' : s' = { s with pcm := s'.pcm })
    (hpcm : ∀ a < s.pcmlen.toNat, (s'.pcmRead a : ℝ) = r * s.pcmRead a) (wc p t : ℕ) :
    ((s'.receivedSlice wc p).getD t 0 : ℝ) = r * ((s.receivedSlice wc p).getD t 0 : ℝ) := by
  have hsame : (s'.pcmlen = s.pcmlen ∧ s'.nfft = s.nfft) ∧ s'.spf = s.spf ∧
      s'.sliceOffset wc p = s.sliceOffset wc p := by
    rw [hs']
    exact ⟨⟨rfl, rfl⟩, rfl, rfl⟩
  obtain ⟨⟨hpcmlen, hnfft⟩, hspf, hoffset⟩ := hsame
  have hxpad (a : ℕ) : (s'.xpad a : ℝ) = r * s.xpad a := by
    rw [State.xpad, State.xpad, hpcmlen]
    split
    · exact hpcm a ‹_›
    · simp
  rw [State.receivedSlice_getD, State.receivedSlice_getD, hnfft, hspf, hoffset]
  split
  · exact hxpad _
  · simp

theorem State.receivedMaximum_wholeSquare (wc : ℕ) :
    Num.WholeSquare s.cfg.num (s.receivedMaximum wc) := by
  rw [State.receivedMaximum]
  obtain hzero | hmem := greatestOf_mem ((List.range wc).flatMap fun p =>
    (List.range s.nfft).map fun n => Num.MAG s.cfg.num (s.receivedSlice wc p) n)
  · rw [hzero]
    exact Num.wholeSquare_zero _
  · obtain ⟨p, -, n, -, heq⟩ := State.mem_receivedMagnitudes.mp hmem
    rw [← heq]
    exact Num.wholeSquare_MAG _ _ _

theorem State.receivedMaximum_scale {q : ℝ} (hq : 0 ≤ q) (hcfg : s'.cfg = s.cfg)
    (hnfft : s'.nfft = s.nfft) {wc : ℕ}
    (h : ∀ p n, Num.MAG s.cfg.num (s'.receivedSlice wc p) n =
      q * Num.MAG s.cfg.num (s.receivedSlice wc p) n) :
    s'.receivedMaximum wc = q * s.receivedMaximum wc := by
  simp only [State.receivedMaximum, hcfg, hnfft, h, ← greatestOf_map_mul hq, List.map_flatMap,
    List.map_map, Function.comp_def]

/-- Where `RX.DECODE` completes it counts the windows and leaves the streams from N on. -/
theorem rxDecode_completes (h : s.Inv) (hok : s.decodes) (he : exec .rxDecode s = .next t) :
    t.status.err = false ∧ t.wc.toNat = s.receivedWindows ∧
      ∀ i, s.nstr ≤ i → t.placed i = s.placed i := by
  obtain ⟨herr, hmode, hgeov, hlen, hroom⟩ := hok
  obtain ⟨_, u, -, -, hu, -, -, huerr, -, -, hwc, hother, hbytes, -⟩ :=
    (rxDecodeIsTheRun s h herr hmode hgeov).1 hlen hroom
  cases he.symm.trans hu
  refine ⟨huerr, hwc, fun i hi => ?_⟩
  obtain ⟨hslen, hacc⟩ := hother i hi
  exact State.placed_congr hslen hacc fun a _ => hbytes i a fun h => hi.not_gt h.1

/-- Samples multiplied by r are decided alike (R175): every magnitude, the maximum included, is multiplied by
|r|. -/
theorem DBGT_received_scale {r : ℝ} (hr : 0 < r ∨ r < 0 ∧ s.cfg.num = .reference)
    (hs' : s' = { s with pcm := s'.pcm })
    (hpcm : ∀ a < s.pcmlen.toNat, (s'.pcmRead a : ℝ) = r * s.pcmRead a) (wc p n : ℕ) (thr : ℤ) :
    Num.DBGT s'.cfg.num (Num.MAG s'.cfg.num (s'.receivedSlice wc p) n) (s'.receivedMaximum wc) thr ↔
      Num.DBGT s.cfg.num (Num.MAG s.cfg.num (s.receivedSlice wc p) n) (s.receivedMaximum wc) thr := by
  have hsame : s'.cfg = s.cfg ∧ s'.nfft = s.nfft := by
    rw [hs']
    exact ⟨rfl, rfl⟩
  obtain ⟨hcfg, hnfft⟩ := hsame
  have hpos : 0 < |r| := abs_pos.mpr (hr.elim ne_of_gt fun h => ne_of_lt h.1)
  have hmag (p n : ℕ) : Num.MAG s.cfg.num (s'.receivedSlice wc p) n =
      |r| * Num.MAG s.cfg.num (s.receivedSlice wc p) n :=
    Num.MAG_scale_abs hr (by simp [hnfft]) (fun a _ => State.receivedSlice_scale hs' hpcm wc p a) n
  have hmax := State.receivedMaximum_scale hpos.le hcfg hnfft hmag
  have hsquare := s'.receivedMaximum_wholeSquare wc
  rw [hcfg, hmax] at hsquare
  rw [hcfg, hmax, hmag]
  exact Num.DBGT_scale _ hpos (Num.wholeSquare_MAG _ _ _) (s.receivedMaximum_wholeSquare _)
    (hmag p n ▸ Num.wholeSquare_MAG _ _ _) hsquare thr

end

/-- Settles O38: every magnitude, the maximum included, is multiplied by the same factor, and a decision
depends on the quotient. -/
theorem decodingIgnoresScale : Obligations.DecodingIgnoresScale := by
  intro s s' t t' r hinv hr hs' hpcm he he' st hst
  have hplaced : s'.placed st = s.placed st := by
    rw [hs']
    rfl
  have hsame : (s'.decodes ↔ s.decodes) := by
    rw [hs']
    rfl
  by_cases hok : s.decodes
  swap
  · rw [placed_rxDecode_of_not_decodes hok he, placed_rxDecode_of_not_decodes (hsame.not.mpr hok) he',
      hplaced]
  have hok' := hsame.mpr hok
  have hinv' : s'.Inv := hinv.of_sameRun (sameRun_loaded hok.2.1 (by rw [hs']))
  obtain ⟨hterr, hwc, hother⟩ := rxDecode_completes hinv hok he
  obtain ⟨hterr', hwc', hother'⟩ := rxDecode_completes hinv' hok' he'
  have hsizes : (s'.nstr = s.nstr ∧ s'.bpb = s.bpb ∧ s'.receivedWindows = s.receivedWindows) ∧
      (∀ j, s'.nbOf st + j * s'.kdec = s.nbOf st + j * s.kdec) ∧ s'.thr = s.thr := by
    rw [hs']
    exact ⟨⟨rfl, rfl, rfl⟩, fun _ => rfl, rfl⟩
  obtain ⟨⟨hnstr, hbpb, hwindows⟩, hbin, hthr⟩ := hsizes
  by_cases hi : st < s.nstr
  · obtain ⟨herr, hmode, hgeov, -⟩ := hok
    obtain ⟨herr', hmode', hgeov', -⟩ := hok'
    obtain ⟨hslen, hacc, hbits, hbeyond⟩ :=
      decodedStreams s t hinv herr hmode hgeov he hterr st hi
    obtain ⟨hslen', hacc', hbits', hbeyond'⟩ :=
      decodedStreams s' t' hinv' herr' hmode' hgeov' he' hterr' st (hnstr ▸ hi)
    rw [hwc', hwindows, ← hwc, hbpb] at hslen' hbits' hbeyond'
    rw [State.placed_of_accClear hacc, State.placed_of_accClear hacc', hslen, hslen']
    refine List.map_congr_left fun b _ => ?_
    by_cases hb : b < t.wc.toNat * s.bpb.toNat
    · rw [Bool.eq_iff_iff, hbits b hb, hbits' b hb, DBGT_received_scale hr hs' hpcm, hbin, hthr]
    · rw [hbeyond b (not_lt.mp hb), hbeyond' b (not_lt.mp hb)]
  · rw [hother st (not_lt.mp hi), hother' st (hnstr ▸ not_lt.mp hi), hplaced]

end Sys2Proof.Machine
end

section
/-! PROOFS. The transform of a window of tones (00_scope.md R15, 41_tx_synth.md R136): a tone shows at its own
bin and at the mirrored one, and errors below 1 move no magnitude by as much as the transform length. -/

namespace Sys2Proof.Num

open Real Finset

/-! ### The transform -/

section

variable {N : ℕ} {m : ℕ}

/-- The transform of N real samples at bin m, whose absolute value R15 calls the magnitude. -/
noncomputable def dft (N : ℕ) (x : ℕ → ℝ) (m : ℕ) : ℂ :=
  ∑ t ∈ range N, (x t : ℂ) * Complex.exp (-(2 * π * m * t / N : ℝ) * Complex.I)

theorem refMAG_eq_norm_dft (x : List ℤ) (m : ℕ) :
    refMAG x m = ‖dft x.length (fun t => (x.getD t 0 : ℝ)) m‖ := by
  simp only [refMAG, dft, Complex.ofReal_intCast]

theorem dft_sum {ι : Type*} (A : Finset ι) (f : ι → ℕ → ℝ) :
    dft N (fun t => ∑ c ∈ A, f c t) m = ∑ c ∈ A, dft N (f c) m := by
  simp only [dft, Complex.ofReal_sum, sum_mul]
  exact sum_comm

theorem dft_mul (g : ℝ) (x : ℕ → ℝ) : dft N (fun t => g * x t) m = g * dft N x m := by
  simp only [dft, mul_sum, Complex.ofReal_mul, mul_assoc]

theorem dft_sub (x y : ℕ → ℝ) : dft N (fun t => x t - y t) m = dft N x m - dft N y m := by
  simp only [dft, ← sum_sub_distrib, Complex.ofReal_sub, sub_mul]

/-- Samples below 1 have magnitudes below N. -/
theorem norm_dft_lt (hN : 0 < N) {x : ℕ → ℝ} (h : ∀ t < N, |x t| < 1) : ‖dft N x m‖ < N := by
  have hterm (t : ℕ) : ‖(x t : ℂ) * Complex.exp (-(2 * π * m * t / N : ℝ) * Complex.I)‖ = |x t| := by
    rw [← Complex.ofReal_neg, norm_mul, Complex.norm_exp_ofReal_mul_I, mul_one, Complex.norm_real,
      Real.norm_eq_abs]
  calc ‖dft N x m‖ ≤ ∑ t ∈ range N, |x t| :=
        (norm_sum_le _ _).trans (sum_congr rfl fun t _ => hterm t).le
    _ < ∑ _t ∈ range N, (1 : ℝ) :=
        sum_lt_sum_of_nonempty (nonempty_range_iff.mpr hN.ne') fun t ht => h t (mem_range.mp ht)
    _ = N := by simp

/-! ### A tone -/

/-- The N-th roots of unity turned through k steps sum to 0, unless no step turns at all. -/
theorem sum_exp_turns (hN : 0 < N) (k : ℤ) :
    ∑ t ∈ range N, Complex.exp ((2 * π * k * t / N : ℝ) * Complex.I) =
      if (N : ℤ) ∣ k then (N : ℂ) else 0 := by
  have hroot := rootOf_primitive hN
  have hterm (t : ℕ) :
      Complex.exp ((2 * π * k * t / N : ℝ) * Complex.I) = (rootOf N ^ k) ^ t := by
    rw [rootOf, ← Complex.exp_int_mul, ← Complex.exp_nat_mul]
    congr 1
    push_cast
    ring
  simp only [hterm]
  split
  · rename_i hdvd
    simp [(hroot.zpow_eq_one_iff_dvd k).mpr hdvd]
  · rename_i hdvd
    have hne : rootOf N ^ k ≠ 1 := fun h => hdvd ((hroot.zpow_eq_one_iff_dvd k).mp h)
    have hone : (rootOf N ^ k) ^ N = 1 := by
      rw [← zpow_natCast, ← zpow_mul, mul_comm, zpow_mul, zpow_natCast, hroot.pow_eq_one, one_zpow]
    rw [geom_sum_eq hne, hone, sub_self, zero_div]

/-- A tone as two turning pointers: the one at its bin and the one at the mirrored bin. -/
theorem dft_tone (hN : 0 < N) (n : ℕ) (φ : ℝ) :
    dft N (tone N n φ) m = Complex.I / 2 *
      (Complex.exp (-(φ : ℂ) * Complex.I) * (if (N : ℤ) ∣ -(n + m : ℤ) then (N : ℂ) else 0) -
        Complex.exp ((φ : ℂ) * Complex.I) * (if (N : ℤ) ∣ (n - m : ℤ) then (N : ℂ) else 0)) := by
  rw [← sum_exp_turns hN, ← sum_exp_turns hN, mul_sum, mul_sum, ← sum_sub_distrib, mul_sum, dft]
  refine sum_congr rfl fun t _ => ?_
  rw [tone, Complex.ofReal_sin, Complex.sin, div_mul_eq_mul_div, mul_comm _ Complex.I, mul_assoc,
    sub_mul, ← Complex.exp_add, ← Complex.exp_add, ← Complex.exp_add, ← Complex.exp_add,
    div_mul_eq_mul_div]
  congr 4 <;> · push_cast; ring

theorem dvd_neg_add_iff {n : ℕ} (hn : 0 < n) (hlt : 2 * n < N) (hm : m < N) :
    (N : ℤ) ∣ -(n + m : ℤ) ↔ m + n = N := by
  rw [Int.dvd_neg]
  constructor
  · rintro ⟨k, hk⟩
    have hk1 : k = 1 := by nlinarith
    subst hk1
    omega
  · intro h
    exact ⟨1, by omega⟩

theorem dvd_sub_iff {n : ℕ} (hlt : 2 * n < N) (hm : m < N) : (N : ℤ) ∣ (n - m : ℤ) ↔ m = n := by
  constructor
  · rintro ⟨k, hk⟩
    have hk0 : k = 0 := by nlinarith
    subst hk0
    omega
  · rintro rfl
    simp

/-- The magnitude of a tone strictly between DC and half the sample rate: half the transform length at its own
bin and at the mirrored one, and 0 elsewhere. -/
theorem norm_dft_tone {n : ℕ} (hn : 0 < n) (hlt : 2 * n < N) (hm : m < N) (φ : ℝ) :
    ‖dft N (tone N n φ) m‖ = if m = n ∨ m + n = N then (N : ℝ) / 2 else 0 := by
  have hpointer (ψ : ℝ) : ‖Complex.exp ((ψ : ℂ) * Complex.I) * (N : ℂ)‖ = N := by
    rw [norm_mul, Complex.norm_exp_ofReal_mul_I, one_mul, Complex.norm_natCast]
  have hhalf : ‖Complex.I / 2‖ = 1 / 2 := by simp
  rw [dft_tone (by omega), norm_mul, hhalf]
  simp only [dvd_neg_add_iff hn hlt hm, dvd_sub_iff hlt hm]
  by_cases hown : m = n
  · have hmirror : ¬ m + n = N := by omega
    rw [if_neg hmirror, if_pos hown, if_pos (.inl hown), mul_zero, zero_sub, norm_neg, hpointer]
    ring
  · by_cases hmirror : m + n = N
    · rw [if_pos hmirror, if_neg hown, if_pos (.inr hmirror), mul_zero, sub_zero,
        ← Complex.ofReal_neg, hpointer]
      ring
    · rw [if_neg hmirror, if_neg hown, if_neg (not_or.mpr ⟨hown, hmirror⟩)]
      simp

/-! ### Tones together -/

variable {ι : Type*} {A : Finset ι} {n : ι → ℕ} {φ : ι → ℝ}

/-- Tones at distinct bins strictly between DC and half the sample rate do not meet: the magnitude of their
sum is that of the one tone at the bin, if there is one. -/
theorem norm_dft_tones (hdistinct : Set.InjOn n A) (hrange : ∀ c ∈ A, 0 < n c ∧ 2 * n c < N)
    (hm : m < N) {c : ι} (hc : c ∈ A) (hbin : m = n c ∨ m + n c = N) :
    ‖dft N (fun t => ∑ d ∈ A, tone N (n d) (φ d) t) m‖ = N / 2 := by
  have hother (d : ι) (hd : d ∈ A) (hdc : d ≠ c) : dft N (tone N (n d) (φ d)) m = 0 := by
    have hne : n d ≠ n c := fun h => hdc (hdistinct hd hc h)
    have hlt := (hrange c hc).2
    have hlt' := (hrange d hd).2
    rw [← norm_eq_zero, norm_dft_tone (hrange d hd).1 hlt' hm, if_neg (by omega)]
  rw [dft_sum, sum_eq_single_of_mem c hc hother,
    norm_dft_tone (hrange c hc).1 (hrange c hc).2 hm, if_pos hbin]

/-- Where no tone shows there is nothing. -/
theorem norm_dft_tones_eq_zero (hrange : ∀ c ∈ A, 0 < n c ∧ 2 * n c < N) (hm : m < N)
    (hbin : ∀ c ∈ A, ¬ (m = n c ∨ m + n c = N)) :
    ‖dft N (fun t => ∑ d ∈ A, tone N (n d) (φ d) t) m‖ = 0 := by
  rw [dft_sum, sum_eq_zero, norm_zero]
  intro d hd
  rw [← norm_eq_zero, norm_dft_tone (hrange d hd).1 (hrange d hd).2 hm, if_neg (hbin d hd)]

theorem norm_dft_tones_le (hdistinct : Set.InjOn n A) (hrange : ∀ c ∈ A, 0 < n c ∧ 2 * n c < N)
    (hm : m < N) : ‖dft N (fun t => ∑ d ∈ A, tone N (n d) (φ d) t) m‖ ≤ N / 2 := by
  by_cases hbin : ∃ c ∈ A, m = n c ∨ m + n c = N
  · obtain ⟨c, hc, hshow⟩ := hbin
    exact (norm_dft_tones hdistinct hrange hm hc hshow).le
  · push Not at hbin
    rw [norm_dft_tones_eq_zero hrange hm fun c hc => not_or.mpr (hbin c hc)]
    positivity

/-! ### Rounded samples -/

/-- Errors below 1 in the samples move a magnitude by less than N. -/
theorem abs_norm_dft_sub_lt (hN : 0 < N) {x y : ℕ → ℝ} {g : ℝ} (hg : 0 ≤ g)
    (h : ∀ t < N, |x t - g * y t| < 1) : |‖dft N x m‖ - g * ‖dft N y m‖| < N := by
  have hscaled : g * ‖dft N y m‖ = ‖dft N (fun t => g * y t) m‖ := by
    rw [dft_mul, norm_mul, Complex.norm_real, Real.norm_of_nonneg hg]
  rw [hscaled]
  refine (abs_norm_sub_norm_le _ _).trans_lt ?_
  rw [← dft_sub]
  exact norm_dft_lt hN h

end

/-! ### The threshold (R179) -/

section

variable {N g m M T : ℝ}

/-- A cell that sends a tone is decided 1: it is less than (g + 2)/(g - 2) below the maximum. -/
theorem refDBGT_of_tone (hN : 0 < N) (hg : 2 < g) (hm : N * (g - 2) / 2 < m) (hmM : m ≤ M)
    (hM : M < N * (g + 2) / 2) (hT : T ≤ 20 * logb 10 ((g - 2) / (g + 2))) : refDBGT m M T := by
  have hlow : 0 < N * (g - 2) / 2 := by
    have hg' : 0 < g - 2 := by linarith
    positivity
  have hmpos : 0 < m := hlow.trans hm
  have hMpos : 0 < M := hmpos.trans_le hmM
  refine ⟨hMpos, hmpos, hT.trans_lt ?_⟩
  have hquotient : (g - 2) / (g + 2) < m / M := by
    rw [div_lt_div_iff₀ (by linarith) hMpos]
    nlinarith
  have hlog := logb_lt_logb (b := 10) (by norm_num)
    (div_pos (by linarith) (by linarith : (0 : ℝ) < g + 2)) hquotient
  linarith

/-- A cell that sends none is decided 0: it is more than (g - 2)/2 below the maximum. -/
theorem not_refDBGT_of_no_tone (hg : 2 < g) (hm : m < N) (hM : N * (g - 2) / 2 < M)
    (hT : 20 * logb 10 (2 / (g - 2)) ≤ T) : ¬ refDBGT m M T := by
  rintro ⟨hMpos, hmpos, hgt⟩
  have hquotient : m / M < 2 / (g - 2) := by
    rw [div_lt_div_iff₀ hMpos (by linarith)]
    nlinarith
  have hlog := logb_lt_logb (b := 10) (by norm_num) (div_pos hmpos hMpos) hquotient
  linarith

end

end Sys2Proof.Num
end

section
/-! PROOFS. 42_rx_spectro_detect.md R179: the round trip. In a sent slice the magnitude of a cell is g·Nfft/2 if
the cell is active and 0 if not, but for the rounding of the samples, which moves it by less than Nfft. -/

namespace Sys2Proof.Machine

/-! ### The end of a transmit run -/

section

variable {s : State}

/-- A transmit run, all of its windows synthesized with the exact sine (41_tx_synth.md R133, R142). -/
structure State.Synthesized (s : State) : Prop where
  num : s.cfg.num = .reference
  resolved : s.Resolved
  tx : s.TxInv
  wave : s.waveInForm
  windows : s.widx = s.wc
  room : s.wc.toNat * s.spf.toNat ≤ s.cfg.pcmCap

/-- `TX.WINDOW` n times over keeps the closed forms (R142). -/
theorem State.TxInv.synthWindows (h : s.TxInv) (hnfft : 0 < s.nfft) (hphase : s.phasesInForm)
    (hwave : s.waveInForm) {n : ℕ} (hn : s.widx.toNat + n ≤ s.wc.toNat) :
    (s.synthWindows n).TxInv ∧ (s.synthWindows n).phasesInForm ∧ (s.synthWindows n).waveInForm := by
  induction n with
  | zero => exact ⟨h, hphase, hwave⟩
  | succ n ih =>
      obtain ⟨htx, hphases, hwaves⟩ := ih (by omega)
      have hlt : (s.synthWindows n).widx < (s.synthWindows n).wc := by
        rw [State.synthWindows_widx, State.synthWindows_wc, BitVec.lt_def,
          toNat_add_ofNat (y := s.wc) (by omega)]
        omega
      have hnfft' : 0 < (s.synthWindows n).nfft := by
        rw [s.synthWindows_frame n]
        exact hnfft
      exact ⟨htx.synthWindow hlt, hphases.synthWindow hlt, hwaves.synthWindow hphases htx hnfft' hlt⟩

/-- The waveform a transmit run has synthesized when its last window is. -/
def State.txSynthesized (s : State) : State := s.txStarted.synthWindows s.txStarted.wc.toNat

theorem State.txSynthesized_frame (s : State) : s.txSynthesized = { s.txStarted with
    phase := s.txSynthesized.phase, wave := s.txSynthesized.wave
    amax := s.txSynthesized.amax, widx := s.txStarted.wc } := by
  have hwidx : s.txSynthesized.widx = s.txStarted.wc := by
    rw [State.txSynthesized, State.synthWindows_widx, BitVec.ofNat_toNat, BitVec.setWidth_eq]
    exact BitVec.zero_add _
  rw [← hwidx]
  exact State.synthWindows_frame _ _

theorem State.Resolved.synthesized (h : s.Resolved) (hnum : s.cfg.num = .reference)
    (hfit : s.lengthsFit = true) (hroom : s.payloadWindows * s.spf.toNat ≤ s.cfg.pcmCap) :
    s.txSynthesized.Synthesized := by
  obtain ⟨-, -, -, hnfft, -⟩ := h.facts
  have hphase : s.txStarted.phasesInForm := fun i _ j _ => by simp [State.activeBefore]
  have hwave : s.txStarted.waveInForm := fun p hp => absurd hp (Nat.not_lt_zero p)
  obtain ⟨htx, -, hwaves⟩ := (txInv_txStarted fun _ => h).synthWindows hnfft hphase hwave
    (Nat.zero_add s.txStarted.wc.toNat).le
  have hframe := s.txSynthesized_frame
  refine ⟨?_, h.congr ?_, htx, hwaves, ?_, ?_⟩
  · rw [hframe]
    exact hnum
  · rw [hframe]
    rfl
  · rw [hframe]
  · rw [hframe]
    exact (txFits_txStarted hfit hroom).samples

end

/-! ### A slice of what was sent -/

section

variable {s : State} {g T : ℝ} {p : ℕ}

theorem State.Resolved.sliceOffset_add_le (h : s.Resolved) (wc p : ℕ) :
    s.sliceOffset wc p + s.nfft ≤ s.spf.toNat := by
  obtain ⟨-, -, -, -, hle, -⟩ := h.facts
  rw [State.sliceOffset]
  split <;> omega

/-- The samples received are those sent, rounded (41_tx_synth.md R138). -/
theorem State.Synthesized.receivedSlice_getD (h : s.Synthesized) (hp : p < s.wc.toNat) {t : ℕ}
    (ht : t < s.nfft) : (s.finishTx.receivedSlice s.wc.toNat p).getD t 0 =
      quantise s.cfg s.amax
        (s.wave.getD (p * s.spf.toNat + (s.sliceOffset s.wc.toNat p + t)) Num.zero) := by
  have hoffset := h.resolved.sliceOffset_add_le s.wc.toNat p
  have hlt : p * s.spf.toNat + (s.sliceOffset s.wc.toNat p + t) < s.wc.toNat * s.spf.toNat :=
    calc p * s.spf.toNat + (s.sliceOffset s.wc.toNat p + t) < (p + 1) * s.spf.toNat := by
          rw [add_one_mul]
          omega
      _ ≤ s.wc.toNat * s.spf.toNat := Nat.mul_le_mul_right _ hp
  have hread := s.pcmRead_finishTx (p * s.spf.toNat + (s.sliceOffset s.wc.toNat p + t))
  rw [if_pos hlt] at hread
  rw [State.receivedSlice_getD]
  refine (if_pos ht).trans ((if_pos ?_).trans ?_)
  · rw [State.finishTx_pcmlen_toNat h.room, add_assoc]
    exact hlt
  · rw [add_assoc]
    exact hread

/-- The phase of a cell where the sub-window of slice p begins, as an angle. -/
noncomputable def State.sliceAngle (s : State) (p : ℕ) (c : ℕ × ℕ) : ℝ :=
  s.entryAngle p c +
    2 * Real.pi * s.nativeBin c.1 c.2 * s.sliceOffset s.wc.toNat p / s.nfft

/-- The sub-window of slice p before scaling and rounding: the tones of its active cells. -/
noncomputable def State.sliceTones (s : State) (p t : ℕ) : ℝ :=
  ∑ c ∈ s.activeSet p, Num.tone s.nfft (s.nativeBin c.1 c.2) (s.sliceAngle p c) t

theorem State.Synthesized.waveValue_eq_sliceTones (h : s.Synthesized) (hp : p < s.wc.toNat) {t : ℕ}
    (ht : t < s.nfft) :
    s.waveValue (p * s.spf.toNat + (s.sliceOffset s.wc.toNat p + t)) = s.sliceTones p t := by
  have hoffset := h.resolved.sliceOffset_add_le s.wc.toNat p
  obtain ⟨-, -, -, hnfft, -⟩ := h.resolved.facts
  rw [h.wave p (h.windows ▸ hp) _ (by omega), State.closedSample_eq_tones h.num hnfft,
    State.sliceTones]
  refine Finset.sum_congr rfl fun c _ => ?_
  rw [Num.tone, Num.tone, State.sliceAngle]
  congr 1
  push_cast
  ring

/-- Scaled to full scale and rounded, a sample is less than 1 away from g times the tones. -/
theorem State.Synthesized.abs_sample_sub_lt (h : s.Synthesized) (hpos : 0 < Num.value s.amax)
    (hg : g * Num.value s.amax = s.cfg.fsmax) (hp : p < s.wc.toNat) {t : ℕ} (ht : t < s.nfft) :
    |((s.finishTx.receivedSlice s.wc.toNat p).getD t 0 : ℝ) - g * s.sliceTones p t| < 1 := by
  have hscaled : s.waveValue (p * s.spf.toNat + (s.sliceOffset s.wc.toNat p + t)) * s.cfg.fsmax /
      Num.value s.amax = g * s.sliceTones p t := by
    rw [h.waveValue_eq_sliceTones hp ht, ← hg]
    field_simp
  rw [h.receivedSlice_getD hp ht, quantise_eq_RND hpos (h.tx.abs_waveValue_le _),
    ← State.waveValue, hscaled]
  exact Num.abs_RND_sub_lt_one _ _

theorem State.Synthesized.abs_MAG_sub_lt (h : s.Synthesized) (hpos : 0 < Num.value s.amax)
    (hg : g * Num.value s.amax = s.cfg.fsmax) (hg0 : 0 ≤ g) (hp : p < s.wc.toNat) (m : ℕ) :
    |Num.refMAG (s.finishTx.receivedSlice s.wc.toNat p) m - g * ‖Num.dft s.nfft (s.sliceTones p) m‖| <
      s.nfft := by
  obtain ⟨-, -, -, hnfft, -⟩ := h.resolved.facts
  rw [Num.refMAG_eq_norm_dft, State.receivedSlice_length]
  exact Num.abs_norm_dft_sub_lt hnfft hg0 fun t ht => h.abs_sample_sub_lt hpos hg hp ht

/-! ### The magnitudes of a slice -/

theorem State.Resolved.activeSet_injOn (h : s.Resolved) (p : ℕ) :
    Set.InjOn (fun c : ℕ × ℕ => s.nativeBin c.1 c.2) (s.activeSet p) := fun c hc d hd heq => by
  obtain ⟨⟨hi, hj⟩, -⟩ := State.mem_activeSet.mp hc
  obtain ⟨⟨hi', hj'⟩, -⟩ := State.mem_activeSet.mp hd
  obtain ⟨hband, hbin⟩ := h.nativeBin_inj hi hj hi' hj' heq
  exact Prod.ext hband hbin

theorem State.Resolved.activeSet_range (h : s.Resolved) (p : ℕ) :
    ∀ c ∈ s.activeSet p, 0 < s.nativeBin c.1 c.2 ∧ 2 * s.nativeBin c.1 c.2 < s.nfft := fun c hc => by
  obtain ⟨⟨hi, hj⟩, -⟩ := State.mem_activeSet.mp hc
  exact h.nativeBin_range hi hj

/-- An active cell has half the transform length at its bin, and an inactive one nothing. -/
theorem State.Resolved.norm_dft_sliceTones (h : s.Resolved) {i j : ℕ} (hi : i < s.nstr)
    (hj : j < s.bpb.toNat) : ‖Num.dft s.nfft (s.sliceTones p) (s.nativeBin i j)‖ =
      if (i, j) ∈ s.activeSet p then (s.nfft : ℝ) / 2 else 0 := by
  obtain ⟨-, hlt⟩ := h.nativeBin_range hi hj
  split
  · rename_i hmem
    exact Num.norm_dft_tones (h.activeSet_injOn p) (h.activeSet_range p) (by omega) hmem (.inl rfl)
  · rename_i hmem
    refine Num.norm_dft_tones_eq_zero (h.activeSet_range p) (by omega) fun c hc hbin => ?_
    obtain ⟨-, hlt'⟩ := h.activeSet_range p c hc
    obtain ⟨⟨hi', hj'⟩, -⟩ := State.mem_activeSet.mp hc
    obtain ⟨rfl, rfl⟩ := h.nativeBin_inj hi hj hi' hj' (by omega)
    exact hmem hc

theorem State.Synthesized.lt_MAG_of_active (h : s.Synthesized) (hpos : 0 < Num.value s.amax)
    (hg : g * Num.value s.amax = s.cfg.fsmax) (hg2 : 2 < g) (hp : p < s.wc.toNat) {i j : ℕ}
    (hi : i < s.nstr) (hj : j < s.bpb.toNat) (hmem : (i, j) ∈ s.activeSet p) :
    s.nfft * (g - 2) / 2 < Num.refMAG (s.finishTx.receivedSlice s.wc.toNat p) (s.nativeBin i j) := by
  have hnear := h.abs_MAG_sub_lt hpos hg (by linarith) hp (s.nativeBin i j)
  rw [h.resolved.norm_dft_sliceTones hi hj, if_pos hmem, abs_lt] at hnear
  linarith [hnear.1]

theorem State.Synthesized.MAG_lt_of_inactive (h : s.Synthesized) (hpos : 0 < Num.value s.amax)
    (hg : g * Num.value s.amax = s.cfg.fsmax) (hg2 : 2 < g) (hp : p < s.wc.toNat) {i j : ℕ}
    (hi : i < s.nstr) (hj : j < s.bpb.toNat) (hmem : (i, j) ∉ s.activeSet p) :
    Num.refMAG (s.finishTx.receivedSlice s.wc.toNat p) (s.nativeBin i j) < s.nfft := by
  have hnear := h.abs_MAG_sub_lt hpos hg (by linarith) hp (s.nativeBin i j)
  rw [h.resolved.norm_dft_sliceTones hi hj, if_neg hmem, abs_lt] at hnear
  linarith [hnear.2]

theorem State.Synthesized.MAG_lt (h : s.Synthesized) (hpos : 0 < Num.value s.amax)
    (hg : g * Num.value s.amax = s.cfg.fsmax) (hg2 : 2 < g) (hp : p < s.wc.toNat) {m : ℕ}
    (hm : m < s.nfft) :
    Num.refMAG (s.finishTx.receivedSlice s.wc.toNat p) m < s.nfft * (g + 2) / 2 := by
  have hnear := (abs_lt.mp (h.abs_MAG_sub_lt hpos hg (by linarith) hp m)).2
  have htones : ‖Num.dft s.nfft (s.sliceTones p) m‖ ≤ s.nfft / 2 :=
    Num.norm_dft_tones_le (h.resolved.activeSet_injOn p) (h.resolved.activeSet_range p) hm
  have hscaled := mul_le_mul_of_nonneg_left htones (by linarith : 0 ≤ g)
  linarith

/-! ### The maximum, and the decisions -/

/-- R140 for the whole run: it is silent exactly where no window has an active cell. -/
theorem State.Synthesized.silent_iff (h : s.Synthesized) :
    Num.value s.amax = 0 ↔ ∀ p < s.wc.toNat, s.activeSet p = ∅ := by
  rw [h.tx.amax_eq_zero_iff, h.windows]
  refine forall₂_congr fun p hp => (forall₂_congr fun t ht => ?_).trans
    (h.resolved.window_silent_iff h.num p)
  rw [h.wave p (h.windows ▸ hp) t ht]

/-- Every magnitude of a silent run is 0. -/
theorem State.Synthesized.MAG_of_silent (h : s.Synthesized) (hzero : Num.value s.amax = 0)
    (hp : p < s.wc.toNat) (m : ℕ) :
    Num.MAG s.cfg.num (s.finishTx.receivedSlice s.wc.toNat p) m = 0 := by
  refine Num.MAG_zero _ (fun a ha => ?_) m
  obtain ⟨t, ht, rfl⟩ := List.mem_iff_getElem.mp ha
  have hnfft : t < s.nfft := ht.trans_eq (State.receivedSlice_length _ _ _)
  rw [← List.getD_eq_getElem _ 0, h.receivedSlice_getD hp hnfft, quantise_of_silent hzero]

/-- A bin in use is one of the transform. -/
theorem State.Resolved.nativeBin_lt_nfft (h : s.Resolved) {i j : ℕ} (hi : i < s.nstr)
    (hj : j < s.bpb.toNat) : s.nativeBin i j < s.nfft := by
  obtain ⟨-, hlt⟩ := h.nativeBin_range hi hj
  omega

/-- The global maximum is the magnitude of a bin near that of a tone, from above … -/
theorem State.Synthesized.receivedMaximum_lt (h : s.Synthesized) (hpos : 0 < Num.value s.amax)
    (hg : g * Num.value s.amax = s.cfg.fsmax) (hg2 : 2 < g) (hwc : 0 < s.wc.toNat) :
    s.finishTx.receivedMaximum s.wc.toNat < s.nfft * (g + 2) / 2 := by
  obtain ⟨-, -, -, hnfft, -⟩ := h.resolved.facts
  obtain ⟨q, hq, m, hm, heq⟩ := State.exists_eq_receivedMaximum (s := s.finishTx) hwc hnfft
  rw [State.finishTx_cfg, h.num] at heq
  exact heq ▸ h.MAG_lt hpos hg hg2 hq hm

theorem State.Synthesized.MAG_le_receivedMaximum (h : s.Synthesized) (hp : p < s.wc.toNat) {m : ℕ}
    (hm : m < s.nfft) : Num.refMAG (s.finishTx.receivedSlice s.wc.toNat p) m ≤
      s.finishTx.receivedMaximum s.wc.toNat := by
  have hle := State.le_receivedMaximum (s := s.finishTx) hp hm
  rw [State.finishTx_cfg, h.num] at hle
  exact hle

/-- … and, as a waveform that is not silent has an active cell, from below. -/
theorem State.Synthesized.lt_receivedMaximum (h : s.Synthesized) (hpos : 0 < Num.value s.amax)
    (hg : g * Num.value s.amax = s.cfg.fsmax) (hg2 : 2 < g) :
    s.nfft * (g - 2) / 2 < s.finishTx.receivedMaximum s.wc.toNat := by
  obtain ⟨q, hq, hne⟩ : ∃ q < s.wc.toNat, s.activeSet q ≠ ∅ := by
    by_contra hnone
    push Not at hnone
    exact hpos.ne' (h.silent_iff.mpr hnone)
  obtain ⟨⟨i, j⟩, hmem⟩ := Finset.nonempty_iff_ne_empty.mpr hne
  obtain ⟨⟨hi, hj⟩, -⟩ := State.mem_activeSet.mp hmem
  exact (h.lt_MAG_of_active hpos hg hg2 hq hi hj hmem).trans_le
    (h.MAG_le_receivedMaximum hq (h.resolved.nativeBin_lt_nfft hi hj))

/-- R179 (c), (d): what the receiver decides for a cell of a sent slice. -/
theorem State.Synthesized.decision_iff_sent (h : s.Synthesized)
    (hT : Num.value s.amax = 0 ∨ ∃ g : ℝ, g * Num.value s.amax = s.cfg.fsmax ∧ 2 < g ∧
      20 * Real.logb 10 (2 / (g - 2)) ≤ T ∧ T ≤ 20 * Real.logb 10 ((g - 2) / (g + 2)))
    (hp : p < s.wc.toNat) {i j : ℕ} (hi : i < s.nstr) (hj : j < s.bpb.toNat) :
    Num.refDBGT (Num.MAG s.cfg.num (s.finishTx.receivedSlice s.wc.toNat p) (s.nativeBin i j))
        (s.finishTx.receivedMaximum s.wc.toNat) T ↔
      (i, j) ∈ s.activeSet p := by
  obtain ⟨-, -, -, hnfft, -⟩ := h.resolved.facts
  by_cases hzero : Num.value s.amax = 0
  · rw [h.MAG_of_silent hzero hp, h.silent_iff.mp hzero p hp]
    exact iff_of_false (fun hgt => hgt.2.1.false) (Finset.notMem_empty _)
  obtain ⟨g, hg, hg2, hlow, hhigh⟩ := hT.resolve_left hzero
  have hpos : 0 < Num.value s.amax := lt_of_le_of_ne h.tx.amax_nonneg (Ne.symm hzero)
  rw [h.num]
  by_cases hmem : (i, j) ∈ s.activeSet p
  · exact iff_of_true (Num.refDBGT_of_tone (by exact_mod_cast hnfft) hg2
      (h.lt_MAG_of_active hpos hg hg2 hp hi hj hmem)
      (h.MAG_le_receivedMaximum hp (h.resolved.nativeBin_lt_nfft hi hj))
      (h.receivedMaximum_lt hpos hg hg2 (Nat.zero_lt_of_lt hp)) hhigh) hmem
  · exact iff_of_false (Num.not_refDBGT_of_no_tone hg2
      (h.MAG_lt_of_inactive hpos hg hg2 hp hi hj hmem) (h.lt_receivedMaximum hpos hg hg2) hlow) hmem

end

/-! ### The streams sent and the streams recovered -/

section

variable {s : State}

theorem le_cdiv_mul (a : ℕ) {b : ℕ} (hb : 0 < b) : a ≤ cdiv a b * b := by
  have hdiv := Nat.div_add_mod' (a + b - 1) b
  have hmod := Nat.mod_lt (a + b - 1) hb
  rw [cdiv]
  omega

theorem cdiv_mul_self (a : ℕ) {b : ℕ} (hb : 0 < b) : cdiv (a * b) b = a := by
  rw [cdiv, Nat.add_sub_assoc hb, Nat.mul_comm, Nat.mul_add_div hb,
    Nat.div_eq_of_lt (Nat.sub_lt hb Nat.one_pos), Nat.add_zero]

/-- The receiver counts the windows that were sent (R160, 41_tx_synth.md R138). -/
theorem State.Synthesized.receivedWindows_finishTx (h : s.Synthesized) :
    s.finishTx.receivedWindows = s.wc.toNat := by
  obtain ⟨-, -, -, hnfft, hle, -⟩ := h.resolved.facts
  rw [State.receivedWindows, State.finishTx_pcmlen_toNat h.room]
  exact cdiv_mul_self _ (hnfft.trans_le hle)

/-- The windows of a payload have room for every bit of its streams (40_geometry.md R122). -/
theorem State.Resolved.streams_le_windows (h : s.Resolved) {i : ℕ} (hi : i < s.nstr) :
    8 * s.slenOf i ≤ s.payloadWindows * s.bpb.toNat := by
  obtain ⟨-, -, hbpb, -⟩ := h.facts
  have hlongest : s.slenOf i ≤ s.longest :=
    s.longest_eq_sup ▸ Finset.le_sup (f := s.slenOf) (Finset.mem_range.mpr hi)
  exact (Nat.mul_le_mul_left 8 hlongest).trans (le_cdiv_mul _ hbpb)

/-- R179 for the windows of a run: what the receiver leaves in stream i. -/
theorem State.Synthesized.recovered {t u : State} (h : s.Synthesized) (ht : t = s.finishTx.setDone true)
    (hinv : t.Inv) (herr : t.status.err = false) (hgeov : t.status.geov = true)
    (he : exec .rxDecode t = .next u) (huerr : u.status.err = false)
    (hT : Num.value s.amax = 0 ∨ ∃ g : ℝ, g * Num.value s.amax = s.cfg.fsmax ∧ 2 < g ∧
      20 * Real.logb 10 (2 / (g - 2)) ≤ s.threshold ∧
      s.threshold ≤ 20 * Real.logb 10 ((g - 2) / (g + 2))) {i : ℕ} (hi : i < s.nstr) :
    u.slenOf i = cdiv (s.wc.toNat * s.bpb.toNat) 8 ∧
      (∀ b < s.wc.toNat * s.bpb.toNat, u.streamBit i b = s.streamBit i b) ∧
      ∀ b, s.wc.toNat * s.bpb.toNat ≤ b → u.streamBit i b = false := by
  subst ht
  obtain ⟨-, -, hbpb, hnfft, hle, -⟩ := h.resolved.facts
  have hwc : u.wc.toNat = s.wc.toNat := by
    obtain ⟨-, v, hv, rfl⟩ := completed_of_exec (by decide) herr he huerr
    exact (congrArg BitVec.toNat (wc_rxDecodeBody hv)).trans
      ((State.rxStarted_wc_toNat (s := s.finishTx) (hnfft.trans_le hle)).trans
        h.receivedWindows_finishTx)
  obtain ⟨hslen, -, hbits, hrest⟩ := decodedStreams _ u hinv herr rfl hgeov he huerr i hi
  rw [hwc] at hslen hbits hrest
  refine ⟨hslen, fun b hb => ?_, hrest⟩
  have hp : b / s.bpb.toNat < s.wc.toNat := Nat.div_lt_of_lt_mul (by rwa [mul_comm])
  have hj : b % s.bpb.toNat < s.bpb.toNat := Nat.mod_lt b hbpb
  have hcell := (hbits b hb).trans
    (iff_of_eq (congrArg (Num.DBGT · _ _ _) (h.num : s.finishTx.cfg.num = .reference)))
  have hsent := h.decision_iff_sent hT hp hi hj
  rw [State.mem_activeSet, Nat.div_add_mod'] at hsent
  rw [Bool.eq_iff_iff]
  exact hcell.trans (hsent.trans (and_iff_right ⟨hi, hj⟩))

end

/-- Settles O39: the magnitude of an active cell is near g·Nfft/2 and that of an inactive one near 0, each to
within Nfft, and the thresholds of the statement lie between the quotients these bounds allow. -/
theorem roundTrip : Obligations.RoundTrip := by
  intro s t u hinv hnum herr hmode hgeov het hterr heu huerr hT i hi
  have htinv := hinv.exec het
  obtain ⟨-, t, ht, rfl⟩ := completed_of_exec (by decide) herr het hterr
  obtain ⟨w, hw, rfl⟩ := txEncodeBody_cases ht
  obtain ⟨hfit, hroom, rfl⟩ := txStartBody_cases hw
  have hres : (s.setDone false).Resolved := (hinv.geometry hgeov).congr rfl
  have hsyn : (s.setDone false).txSynthesized.Synthesized := hres.synthesized hnum hfit hroom
  have hsame : ((s.setDone false).txSynthesized.nstr = s.nstr ∧
        (s.setDone false).txSynthesized.bpb = s.bpb) ∧
      (s.setDone false).txSynthesized.wc = (s.setDone false).txStarted.wc ∧
      (s.setDone false).txSynthesized.cfg = s.cfg ∧
      (s.setDone false).txSynthesized.threshold = s.threshold ∧
      (s.setDone false).txSynthesized.status.geov = s.status.geov ∧
      (s.setDone false).txSynthesized.streamData = s.streamData := by
    rw [(s.setDone false).txSynthesized_frame]
    exact ⟨⟨rfl, rfl⟩, rfl, rfl, rfl, rfl, rfl⟩
  obtain ⟨⟨hnstr, hbpb⟩, hwc, hcfg, hthr, hwgeov, hstreams⟩ := hsame
  rw [← hcfg, ← hthr] at hT
  obtain ⟨hslen, hbits, hrest⟩ :=
    hsyn.recovered rfl htinv hterr (hwgeov.trans hgeov) heu huerr hT (hnstr ▸ hi)
  rw [hbpb, hwc, State.txStarted_wc_toNat hfit] at hslen hbits hrest
  have hroom : 8 * s.slenOf i ≤ (s.setDone false).payloadWindows * s.bpb.toNat :=
    hres.streams_le_windows hi
  refine ⟨?_, fun b => ?_⟩
  · rw [hslen, cdiv]
    omega
  · by_cases hb : b < (s.setDone false).payloadWindows * s.bpb.toNat
    · rw [hbits b hb, State.streamBit_congr hstreams]
    · rw [hrest b (not_lt.mp hb), State.streamBit, if_neg (by omega)]

end Sys2Proof.Machine
end

section
/-! PROOFS. 43_bitpack.md: the serializer commands `BIT.GET` (R200, R201), `BIT.PUT` (R202, R203), `BIT.FLUSH`
(R204, R205) and `BIT.CLR` (R207), and that packing and unpacking agree (R206). -/

namespace Sys2Proof.Machine

section

variable {s : State} {st : ℕ}

/-- A command that asks for `MODE` = IDLE and nothing more, as those of the serializer do (R97). -/
theorem legality_of_idle {i : Instr} (hmode : s.status.mode = .idle)
    (hneeds : modeNeeded i = some .idle ∧ geoNeeded i = false ∧ furtherCondition s i = true) :
    legality i s = none := by
  obtain ⟨hm, hg, hf⟩ := hneeds
  exact legality_eq_none hm hmode (fun h => absurd (hg.symm.trans h) (by decide)) hf

/-! ### `BIT.GET` (R200, R201) -/

/-- `StreamBit` by bytes (R200). -/
theorem State.streamBit_eq (s : State) (st b : ℕ) : s.streamBit st b =
    if b / 8 < s.slenOf st then (s.sbRead st (b / 8)).getLsbD (7 - b % 8) else false :=
  if_congr (by omega) rfl rfl

theorem bitGetBody_ok (h : s.slenOf st ≤ s.cfg.strmCap) :
    bitGetBody st s = .ok { s with bitv := s.streamBit st s.bitix.toNat } := if_pos h

theorem bitGetBody_error (h : s.cfg.strmCap < s.slenOf st) : bitGetBody st s = .error .cap :=
  if_neg (not_le.mpr h)

end

/-- Settles O40: the body of `BIT.GET` reads `StreamBit`, and the length decides whether it may. -/
theorem bitGetReads : Obligations.BitGetReads := by
  intro s st _ herr hmode
  have hl := legality_of_idle (i := .bitGet st) hmode ⟨rfl, rfl, rfl⟩
  refine ⟨fun hlen => ?_, fun hlen => raises_of_body (by simp) herr hl (bitGetBody_error hlen)⟩
  rw [← State.streamBit_eq]
  exact exec_of_body (by simp) herr hl (bitGetBody_ok (s := s.setDone false) hlen)

section

variable {s : State} {st : ℕ} {v : Bool}

/-! ### Bytes and bits stored (R202, R204) -/

theorem State.emitByte_ok (b : Byte) (h : s.slenOf st < s.cfg.strmCap) :
    s.emitByte st b = .ok (s.appended st b) := if_pos h

theorem State.emitByte_error (b : Byte) (h : s.cfg.strmCap ≤ s.slenOf st) :
    s.emitByte st b = .error .cap := if_neg (not_lt.mpr h)

/-- Fewer than seven bits placed: the bit only goes into the accumulator (R202). -/
theorem State.putBit_of_ne (h : (s.accOf st).cnt ≠ 7) :
    s.putBit st v = .ok (s.setAcc st
      ⟨((s.accOf st).val <<< 1) ||| (BitVec.ofBool v).zeroExtend 8, (s.accOf st).cnt + 1⟩) :=
  if_neg h

/-- The eighth bit completes a byte (R202). -/
theorem State.putBit_of_eq (h : (s.accOf st).cnt = 7) :
    s.putBit st v =
      s.emitByte st (((s.accOf st).val <<< 1) ||| (BitVec.ofBool v).zeroExtend 8) := if_pos h

theorem State.flushBits_of_eq (h : (s.accOf st).cnt = 0) : s.flushBits st = .ok s := if_pos h

theorem State.flushBits_of_ne (h : (s.accOf st).cnt ≠ 0) :
    s.flushBits st = s.emitByte st ((s.accOf st).val <<< (8 - (s.accOf st).cnt.toNat)) := if_neg h

/-- A counter of placed bits below seven does not wrap. -/
theorem cnt_succ_toNat {c : BitVec 3} (h : c ≠ 7) : (c + 1).toNat = c.toNat + 1 := by
  bv_omega

/-- The placed bits, moved to the top of a byte (R204). -/
theorem moved_toNat {val : BitVec 8} {c : ℕ} (hc : c ≤ 8) (h : val.toNat < 2 ^ c) :
    (val <<< (8 - c)).toNat = val.toNat * 2 ^ (8 - c) := by
  have hlt : val.toNat * 2 ^ (8 - c) < 2 ^ c * 2 ^ (8 - c) :=
    Nat.mul_lt_mul_of_pos_right h (Nat.two_pow_pos _)
  rw [← Nat.pow_add, Nat.add_sub_cancel' hc] at hlt
  rw [BitVec.toNat_shiftLeft, Nat.shiftLeft_eq, Nat.mod_eq_of_lt hlt]

/-- What a command does that stores one byte at the end of stream st (R203, R205). -/
theorem exec_of_appended {i : Instr} {b : Byte} {n : ℕ} (hi : i ≠ .srst)
    (herr : s.status.err = false) (hl : legality i s = none) (hst : st < bankSize)
    (hroom : s.slenOf st < s.cfg.strmCap)
    (hb : bodyOf i (s.setDone false) = (s.setDone false).emitByte st b) (hn : b.toNat = n) :
    ∃ t, exec i s = .next t ∧ (t.sbRead st (s.slenOf st)).toNat = n ∧
      t.slenOf st = s.slenOf st + 1 ∧ t.accOf st = ⟨0, 0⟩ ∧
      (∀ j, j ≠ st → t.accOf j = s.accOf j ∧ t.slenOf j = s.slenOf j) ∧
      (∀ j a, ¬ (j = st ∧ a = s.slenOf st) → t.sbRead j a = s.sbRead j a) ∧
      (∀ a, t.pcmRead a = s.pcmRead a) ∧
      t = { s with sb := t.sb, slen := t.slen, acc := t.acc
                   status := { s.status with done := true } } := by
  have hbyte := (s.setDone false).sbRead_appended b hst
  have hlen := (s.setDone false).slenOf_appended b hst hroom
  have hacc := (s.setDone false).accOf_appended b hst
  exact ⟨_, exec_of_body hi herr hl (hb.trans (State.emitByte_ok b hroom)),
    (congrArg BitVec.toNat ((hbyte _ _).trans (if_pos ⟨rfl, rfl⟩))).trans hn,
    (hlen st).trans (if_pos rfl), (hacc st).trans (if_pos rfl),
    fun j hj => ⟨(hacc j).trans (if_neg hj), (hlen j).trans (if_neg hj)⟩,
    fun j a hne => (hbyte j a).trans (if_neg hne),
    (s.setDone false).pcmRead_appended st b, rfl⟩

end

/-! ### `BIT.PUT` (R202, R203) -/

/-- Settles O41: the eighth bit stores the byte, and any bit before it is shifted in. -/
theorem bitPutAppends : Obligations.BitPutAppends := by
  intro s st v hst hinv herr hmode
  have hl := legality_of_idle (i := .bitPut st v) hmode ⟨rfl, rfl, rfl⟩
  have hbank := lt_bankSize s.cfg hst
  have hval : (s.accOf st.toNat).val.toNat < 2 ^ 7 :=
    (hinv.acc _ hst).trans_le (Nat.pow_le_pow_right (by decide) (by omega))
  refine ⟨fun hcnt => ?_, fun hcnt hroom => ?_, fun hcnt hfull => ?_⟩
  · have hacc := (s.setDone false).accOf_setAcc st.toNat
    have hnew (a : Acc) := (hacc a st.toNat).trans (if_pos ⟨rfl, hbank⟩)
    exact ⟨_, exec_of_body (by simp) herr hl (State.putBit_of_ne (s := s.setDone false) hcnt),
      (congrArg (·.val.toNat) (hnew _)).trans (shifted_toNat v hval),
      (congrArg (·.cnt.toNat) (hnew _)).trans (cnt_succ_toNat hcnt),
      fun i hi => (hacc _ i).trans (if_neg fun h => hi h.1), ⟨fun _ _ => rfl, fun _ => rfl⟩, rfl⟩
  · exact exec_of_appended (by simp) herr hl hbank hroom
      (State.putBit_of_eq (s := s.setDone false) hcnt) (shifted_toNat v hval)
  · exact raises_of_body (by simp) herr hl
      ((State.putBit_of_eq (s := s.setDone false) hcnt).trans (State.emitByte_error _ hfull))

/-! ### `BIT.FLUSH` (R204, R205) -/

/-- Settles O42: with no bit placed the body does nothing, and otherwise it stores one byte. -/
theorem bitFlushEnds : Obligations.BitFlushEnds := by
  intro s st hst hinv herr hmode
  have hl := legality_of_idle (i := .bitFlush st) hmode ⟨rfl, rfl, rfl⟩
  refine ⟨fun hcnt => ?_, fun hcnt hroom => ?_, fun hcnt hfull => ?_⟩
  · exact exec_of_body (t := s.setDone false) (by simp) herr hl (State.flushBits_of_eq hcnt)
  · exact exec_of_appended (by simp) herr hl (lt_bankSize s.cfg hst) hroom
      (State.flushBits_of_ne (s := s.setDone false) hcnt)
      (moved_toNat (by omega) (hinv.acc _ hst))
  · exact raises_of_body (by simp) herr hl
      ((State.flushBits_of_ne (s := s.setDone false) hcnt).trans (State.emitByte_error _ hfull))

/-! ### `BIT.CLR` (R207) -/

/-- Settles O43: only the length and the accumulator of the stream are written. -/
theorem bitClrEmpties : Obligations.BitClrEmpties := by
  intro s st hst herr hmode
  have hbank := lt_bankSize s.cfg hst
  have hlen := (s.setDone false).slenOf_setSlen st.toNat 0
  have hacc := ((s.setDone false).setSlen st.toNat 0).accOf_setAcc st.toNat Acc.clear
  exact ⟨_, exec_of_body (i := .bitClr st) (by simp) herr (legality_of_idle hmode ⟨rfl, rfl, rfl⟩) rfl,
    (hlen _).trans (if_pos ⟨rfl, hbank⟩), (hacc _).trans (if_pos ⟨rfl, hbank⟩),
    fun i hi => ⟨(hacc i).trans (if_neg fun h => hi h.1), (hlen i).trans (if_neg fun h => hi h.1)⟩,
    ⟨fun _ _ => rfl, fun _ => rfl⟩, rfl⟩

/-! ### Packing and unpacking agree (R206) -/

section

variable {s t : State} {st : BitVec 8}

/-- A state in which bits can be put into stream st, which exists. An accumulator without bits is empty. -/
structure State.Packing (s : State) (st : ℕ) : Prop where
  err : s.status.err = false
  mode : s.status.mode = .idle
  bank : st < bankSize
  empty : (s.accOf st).cnt = 0 → s.accOf st = Acc.clear

/-- After a bit is put, an accumulator without bits is one just emptied (R202). -/
theorem State.accOf_putBit_of_cnt {i : ℕ} {v : Bool} (h : s.putBit i v = .ok t) (hi : i < bankSize)
    (hcnt : (t.accOf i).cnt = 0) : t.accOf i = Acc.clear := by
  obtain ⟨-, -, rfl⟩ | ⟨hne, rfl⟩ := State.putBit_cases h
  · rw [State.accOf_appended _ _ hi, if_pos rfl]
  · rw [State.accOf_setAcc, if_pos ⟨rfl, hi⟩] at hcnt
    have hsucc := cnt_succ_toNat hne
    rw [show (s.accOf i).cnt + 1 = 0 from hcnt] at hsucc
    cases hsucc

/-- `BIT.PUT` with room for its bit appends it, and leaves a state in which more can be put. -/
theorem State.Packing.exec_bitPut (h : s.Packing st.toNat) (v : Bool) (hroom : s.hasRoom st.toNat 1) :
    ∃ t, exec (.bitPut st v) s = .next t ∧ t.Packing st.toNat ∧ t.cfg = s.cfg ∧
      t.placed st.toNat = s.placed st.toNat ++ [v] := by
  obtain ⟨u, hu⟩ := State.putBit_completes (s := s.setDone false) v hroom
  have hframe := State.putBit_frame hu
  have hmode : u.status.mode = .idle := by rw [hframe]; exact h.mode
  have herr : u.status.err = false := by rw [hframe]; exact h.err
  exact ⟨_, exec_of_body (by simp) h.err (legality_of_idle h.mode ⟨rfl, rfl, rfl⟩) hu,
    ⟨herr, hmode, h.bank, (State.accOf_putBit_of_cnt hu h.bank :)⟩, (State.putBit_cfg hu :),
    (State.placed_putBit hu h.bank _).trans (if_pos rfl)⟩

/-- `BIT.PUT` of every bit of a list, where there is room for them all. -/
theorem State.Packing.execAll_bitPuts (h : s.Packing st.toNat) (vs : List Bool)
    (hroom : s.hasRoom st.toNat vs.length) :
    ∃ t, execAll (vs.map (Instr.bitPut st)) s = .next t ∧ t.Packing st.toNat ∧ t.cfg = s.cfg ∧
      t.placed st.toNat = s.placed st.toNat ++ vs := by
  induction vs generalizing s with
  | nil => exact ⟨s, rfl, h, rfl, (List.append_nil _).symm⟩
  | cons v vs ih =>
      rw [State.hasRoom, List.length_cons] at hroom
      obtain ⟨u, hu, hpack, hcfg, hplaced⟩ :=
        h.exec_bitPut v ((cdiv_mono (by omega) 8).trans hroom)
      have hrest : u.hasRoom st.toNat vs.length := by
        rwa [State.hasRoom, hplaced, hcfg, List.length_append, List.length_singleton,
          Nat.add_assoc, Nat.add_comm 1]
      obtain ⟨t, ht, htpack, htcfg, htplaced⟩ := ih hpack hrest
      refine ⟨t, ?_, htpack, htcfg.trans hcfg, ?_⟩
      · rw [List.map_cons, execAll, hu]
        exact ht
      · rw [htplaced, hplaced, List.append_assoc, List.singleton_append]

/-- `BIT.FLUSH` fills the stream up with zeros to a whole byte and empties its accumulator. -/
theorem State.Packing.exec_bitFlush (h : s.Packing st.toNat) (hroom : s.hasRoom st.toNat 0) :
    ∃ t, exec (.bitFlush st) s = .next t ∧ t.status.err = false ∧ t.accOf st.toNat = Acc.clear ∧
      t.placed st.toNat = s.placed st.toNat ++
        List.replicate ((8 - (s.accOf st.toNat).cnt.toNat) % 8) false := by
  obtain ⟨u, hu⟩ := State.flushBits_completes (s := s.setDone false) hroom
  have herr : u.status.err = false := by rw [State.flushBits_frame hu]; exact h.err
  refine ⟨_, exec_of_body (by simp) h.err (legality_of_idle h.mode ⟨rfl, rfl, rfl⟩) hu, herr, ?_,
    (State.placed_flushBits hu h.bank _).trans (if_pos rfl)⟩
  have hregs := congrArg Prod.snd (State.streamRegs_flushBits hu h.bank st.toNat)
  by_cases hcnt : (s.accOf st.toNat).cnt = 0
  · rw [if_neg fun hne => hne.2 hcnt] at hregs
    exact hregs.trans (h.empty hcnt)
  · rw [if_pos ⟨rfl, hcnt⟩] at hregs
    exact hregs

/-- A stream without a byte in progress holds whole bytes. -/
theorem State.placed_length_of_accClear {i : ℕ} (h : s.accOf i = Acc.clear) :
    (s.placed i).length = 8 * s.slenOf i := by
  rw [State.placed_length, h]
  rfl

/-- Streams with the same bits have the same bytes (R200). -/
theorem State.sbRead_eq_of_streamBit {i u a : ℕ} (hlen : t.slenOf i = s.slenOf u)
    (hbits : ∀ b < 8 * s.slenOf u, t.streamBit i b = s.streamBit u b) (ha : a < s.slenOf u) :
    t.sbRead i a = s.sbRead u a := by
  refine BitVec.eq_of_getLsbD_eq fun r hr => ?_
  have hbit := hbits (8 * a + (7 - r)) (by omega)
  rwa [State.streamBit_eq, State.streamBit_eq, hlen, show (8 * a + (7 - r)) / 8 = a by omega,
    if_pos ha, if_pos ha, show 7 - (8 * a + (7 - r)) % 8 = r by omega] at hbit

theorem getD_append_replicate (vs : List Bool) (k b : ℕ) :
    (vs ++ List.replicate k false).getD b false = vs.getD b false := by
  by_cases hb : b < vs.length
  · exact List.getD_append _ _ _ _ hb
  · rw [List.getD_append_right _ _ _ _ (not_lt.mp hb), List.getD_eq_getElem?_getD,
      List.getElem?_getD_replicate_default_eq, List.getD_eq_default _ _ (not_lt.mp hb)]

end

/-- Settles O44: the bits placed after every `BIT.PUT` are those put, and the flush only adds zeros up to the
next whole byte. -/
theorem packThenUnpack : Obligations.PackThenUnpack := by
  intro s st vs hst herr hmode hacc hslen hroom
  have hnone : s.placed st.toNat = [] :=
    List.eq_nil_of_length_eq_zero ((State.placed_length_of_accClear hacc).trans (by rw [hslen]))
  have hpack : s.Packing st.toNat := ⟨herr, hmode, lt_bankSize s.cfg hst, fun _ => hacc⟩
  obtain ⟨u, hu, hupack, hucfg, huplaced⟩ := hpack.execAll_bitPuts vs
    (by rwa [State.hasRoom, hnone, List.length_nil, Nat.zero_add])
  rw [hnone, List.nil_append] at huplaced
  obtain ⟨t, ht, hterr, htacc, htplaced⟩ := hupack.exec_bitFlush
    (by rwa [State.hasRoom, huplaced, hucfg])
  rw [huplaced] at htplaced
  have hlen : t.slenOf st.toNat = cdiv vs.length 8 := by
    have hulen := congrArg List.length huplaced
    have htlen := congrArg List.length htplaced
    rw [State.placed_length] at hulen
    rw [State.placed_length_of_accClear htacc, List.length_append, List.length_replicate] at htlen
    rw [cdiv]
    omega
  have hbits (b : ℕ) : t.streamBit st.toNat b = vs.getD b false := by
    rw [State.streamBit_eq_placed htacc, htplaced, getD_append_replicate]
  refine ⟨t, (execAll_append hu).trans (execAll_singleton ht), hterr, hlen, htacc, hbits, ?_⟩
  intro i hvs
  have hsame : t.slenOf st.toNat = s.slenOf i := by
    rw [hlen, hvs, List.length_map, List.length_range, Nat.mul_comm, cdiv_mul_self _ (by decide)]
  refine ⟨hsame, fun a ha => State.sbRead_eq_of_streamBit hsame (fun b hb => ?_) ha⟩
  rw [hbits, hvs, List.getD_eq_getElem _ _ (by simpa using hb), List.getElem_map,
    List.getElem_range]

end Sys2Proof.Machine
end

section
/-! PROOFS. 44_system.md: the system commands `NOP` (R220) and `SRST` (R221). -/

namespace Sys2Proof.Machine

/-- `NOP` passes the common checks in every `MODE`, with or without a geometry (R97). -/
theorem legality_nop (s : State) : legality .nop s = none := rfl

/-- Soft reset keeps the contents of the buffers, and the count of resets that decides the elements never
written (R42). -/
theorem State.sameBuffers_softReset (s : State) : s.sameBuffers s.softReset :=
  ⟨fun _ _ => rfl, fun _ => rfl⟩

/-- Settles O12: `NOP` passes every check and has an empty body; in the error state it is refused (R245). -/
theorem nopCompletes : Obligations.NopCompletes := by
  refine fun s => ⟨fun herr => ?_, fun herr => ?_⟩
  · exact exec_of_body (t := s.setDone false) (by decide) herr (legality_nop s) rfl
  · rw [exec_eq (by decide)]
    exact runCommand_refused _ _ herr

/-- Settles O13: the reset state of the same configuration, with the buffers and the host kept. -/
theorem softResetClears : Obligations.SoftResetClears :=
  fun s => ⟨s.softReset, rfl, resetOf_cleared _ _ _ _ _, s.sameBuffers_softReset, s.softReset_host,
    s.softReset_cfg⟩

end Sys2Proof.Machine
end

section
/-! PROOFS. 60_exceptions.md: the raise (R244), acceptance of a word written to `CMD` (R245, R246), and the
error state (R245, R247, R248). -/

namespace Sys2Proof.Machine

section

variable {s t : State}

/-! ### Outside the error state (R244) -/

/-- Outside the error state a command other than `SRST` raises, or ends with `DONE` = 1 and the error
registers as before. -/
theorem raises_or_completes {i : Instr} (hi : i ≠ .srst) (herr : s.status.err = false) :
    (∃ e, Raises i s e) ∨
    ∃ t, exec i s = .next t ∧ t.status.done = true ∧ t.status.err = false ∧
      t.errcode = s.errcode ∧ t.errcmd = s.errcmd := by
  obtain ⟨t, ht, hc⟩ := runCommand_cases i (bodyOf i) s
  rw [← exec_eq hi] at ht
  obtain ⟨h, -⟩ | ⟨-, e, rfl, -⟩ | ⟨-, -, u, hu, rfl⟩ := hc
  · cases herr.symm.trans h
  · exact .inl ⟨e, ht⟩
  · obtain ⟨-, -, hcode, hcmd, -, -, -, huerr, -⟩ := bodyOf_keeps hu
    exact .inr ⟨_, ht, rfl, huerr.trans herr, hcode, hcmd⟩

/-! ### In the error state (R245, R248) -/

theorem exec_refused {i : Instr} (hi : i ≠ .srst) (herr : s.status.err = true) :
    exec i s = .next s := by
  rw [exec_eq hi]
  exact runCommand_refused i _ herr

/-- In the error state every word but that of `SRST` is refused, legal or not (R245 (a)). -/
theorem hostAccess_refusedWord {w : Word} (herr : s.status.err = true)
    (hw : decode s.cfg w ≠ .ok .srst) : hostAccess (.writeReg 0 w) s = .next s := by
  cases hd : decode s.cfg w with
  | ok i =>
      rw [hostAccess_command hd]
      exact exec_refused (by rintro rfl; exact hw hd) herr
  | error e => rw [hostAccess, if_pos rfl, writeCmd, hd, illegalCommand, if_pos herr]

theorem State.hostMayLoad_of_err (herr : s.status.err = true) : s.hostMayLoad = false := by
  rw [State.hostMayLoad, herr]
  rfl

/-- In the error state no register but `CMD` takes a write (R25, R34 to R36). -/
theorem writeReg_of_err (herr : s.status.err = true) (a : Nat) (v : Word) :
    writeReg s a v = s.dropWrite := by
  by_cases ha : s.writable a
  · obtain ⟨i, hi, rfl⟩ | rfl | rfl | ⟨st, hst, rfl⟩ := ha
    · rw [writeReg_param s hi, writeParam, if_pos herr]
    · simp [writeReg_pcmlen, State.hostMayLoad_of_err herr]
    · rw [writeReg_bitix, if_pos herr]
    · simp [writeReg_slen s hst, State.hostMayLoad_of_err herr]
  · exact writeReg_readOnly s ha v

/-- Everything a host access other than `SRST` and hard reset can do in the error state: a command word is
refused, any other write is dropped, and a read is answered. -/
theorem hostAccess_of_err {a : HostAccess} (herr : s.status.err = true) (ha : a ≠ .hardReset)
    (hw : ∀ w, a = .writeReg 0 w → decode s.cfg w ≠ .ok .srst) (h : hostAccess a s = .next t) :
    t = s ∨ t = s.dropWrite ∨ ∃ r, t = s.answer r := by
  have hload := State.hostMayLoad_of_err herr
  cases a with
  | writeReg a v =>
      by_cases h0 : a = 0
      · subst h0
        rw [hostAccess_refusedWord herr (hw v rfl)] at h
        cases h
        exact .inl rfl
      · rw [hostAccess_writeReg h0, writeReg_of_err herr] at h
        cases h
        exact .inr (.inl rfl)
  | writeSb st a v | writePcm a v =>
      rw [hostAccess, if_neg (by simp [hload])] at h
      cases h
      exact .inr (.inl rfl)
  | readReg a => cases h; exact .inr (.inr ⟨_, rfl⟩)
  | readSb st a | readPcm a =>
      rw [hostAccess] at h
      split at h <;> cases h <;> exact .inr (.inr ⟨_, rfl⟩)
  | hardReset => exact absurd rfl ha

end

/-- Settles O9: a command either raises or completes, and its answer tells which. -/
theorem raiseIsPrecise : Obligations.RaiseIsPrecise := by
  intro i s t hi herr h
  obtain ⟨e, hraise⟩ | ⟨u, hu, hdone, huerr, hcode, hcmd⟩ := raises_or_completes hi herr
  · cases h.symm.trans hraise
    exact ⟨fun _ => ⟨e, rfl⟩, fun hno => nomatch hno⟩
  · cases h.symm.trans hu
    exact ⟨fun hyes => absurd (huerr.symm.trans hyes) (by decide), fun _ => ⟨hdone, hcode, hcmd⟩⟩

/-- Settles O8: a word is refused in the error state; outside it a legal word is a command, which raises or
completes, and an illegal word raises. -/
theorem commandAcceptance : Obligations.CommandAcceptance := by
  refine fun s w => ⟨hostAccess_refusedWord, hostAccess_command, fun herr hw => ?_⟩
  cases hd : decode s.cfg w with
  | ok i =>
      rw [hostAccess_command hd]
      have hi : i ≠ .srst := by rintro rfl; exact hw hd
      obtain ⟨e, hraise⟩ | ⟨t, ht, hdone, hterr, -⟩ := raises_or_completes hi herr
      · exact ⟨_, hraise, .inr ⟨rfl, rfl⟩⟩
      · exact ⟨t, ht, .inl ⟨hdone, hterr⟩⟩
  | error e => exact ⟨_, hostAccess_illegalWord hd herr, .inr ⟨rfl, rfl⟩⟩

/-- Settles O10: a dropped write sets `WDROP`, a read adds an answer, and a refused word does nothing. -/
theorem errorStateSticks : Obligations.ErrorStateSticks := by
  intro s t a herr ha hw h
  obtain rfl | rfl | ⟨r, rfl⟩ := hostAccess_of_err herr ha hw h <;> rfl

end Sys2Proof.Machine
end

section
/-! PROOFS. 70_reset_and_hazards.md: nothing happens without the host (R272), and every command and every
access has a result (R287). -/

namespace Sys2Proof.Machine

/-- Settles O6: with an empty queue there is no access to take. -/
theorem idleWithoutHost : Obligations.IdleWithoutHost := by
  intro s hp
  rw [step, nextAccess, hp]

/-! ### Every access has a result (R287) -/

/-- `SRST` is a soft reset, and every other command refuses, raises or completes. -/
theorem exec_answersNext (i : Instr) (s : State) : ∃ t, exec i s = .next t := by
  by_cases hi : i = .srst
  · subst hi
    exact ⟨s.softReset, rfl⟩
  · obtain ⟨t, ht, -⟩ := runCommand_cases i (bodyOf i) s
    exact ⟨t, (exec_eq hi s).trans ht⟩

/-- A legal word is its command; an illegal one is refused in the error state and raises outside it (R245). -/
theorem hostAccess_word_answersNext (w : Word) (s : State) :
    ∃ t, hostAccess (.writeReg 0 w) s = .next t := by
  cases hd : decode s.cfg w with
  | ok i =>
      rw [hostAccess_command hd]
      exact exec_answersNext i s
  | error e =>
      cases herr : s.status.err with
      | true => exact ⟨s, hostAccess_refusedWord herr (by simp [hd])⟩
      | false => exact ⟨_, hostAccess_illegalWord hd herr⟩

/-- A write that is not permitted is dropped, and a read outside a buffer is answered with 0 (R64). -/
theorem hostAccess_answersNext (a : HostAccess) (s : State) : ∃ t, hostAccess a s = .next t := by
  cases a with
  | writeReg a v =>
      by_cases ha : a = 0
      · subst ha
        exact hostAccess_word_answersNext v s
      · exact ⟨_, hostAccess_writeReg ha v s⟩
  | readReg a => exact ⟨_, rfl⟩
  | writeSb st a v | readSb st a | writePcm a v | readPcm a =>
      rw [hostAccess]
      split <;> exact ⟨_, rfl⟩
  | hardReset => exact ⟨_, rfl⟩

/-- Settles O7: a step is idle, or it is one host access, which has a result in every state. -/
theorem everyStepAnswersNext : Obligations.EveryStepAnswersNext := by
  refine ⟨exec_answersNext, fun s => ?_⟩
  cases hp : s.host.pending with
  | nil => exact ⟨s, idleWithoutHost s hp⟩
  | cons a rest =>
      rw [step_of_pending hp]
      exact hostAccess_answersNext a _

end Sys2Proof.Machine
end
